-- ==== Sys2Proof/Word.lean ====
section
/-! DEFINITION. The word types of ADP: the 32-bit command, payload and response word (30_encoding.md R100, R101) and the
32-bit Sample (R110). Everything that computes on them stands in Decode.lean and Machine/. -/

namespace Sys2Proof

/-- A 32-bit command, payload, slot or response word (R101). -/
abbrev Word := BitVec 32

/-- "signed 32-bit integer", two's complement, 32 bits (R110). -/
abbrev Sample := BitVec 32

end Sys2Proof
end

