-- ==== Sys2Proof/Syntax.lean ====
section
/-! DEFINITION. The operations of ADP: one constructor of `Instr` for each row of spec/opcode_table.json (30_encoding.md
R103), with the operands R106 and R107 give it. The payload words of an operation are operands of its constructor. -/

namespace Sys2Proof

/-- The four ring buffers (R21). -/
inductive BufId where
  | ep0 | ep1 | mid0 | mid1
deriving DecidableEq, Repr

/-- The two channels (R53). -/
inductive Chan where
  | c0 | c1
deriving DecidableEq, Repr

/-- The number of a channel. -/
def Chan.index : Chan → Nat
  | .c0 => 0
  | .c1 => 1

/-- Chain 1 is the engine's, chain 2 the scheduler's (R106). -/
inductive ChainId where
  | chain1 | chain2
deriving DecidableEq, Repr

/-- A `sel` that addresses one chain and channel (R106, values 0 to 3). -/
structure FltSel where
  chain : ChainId
  chan : Chan
deriving DecidableEq, Repr

/-- A `sel` of `FLT.CLEAR`: one chain and channel, or `all` (R106, value 4). -/
inductive ClearSel where
  | one (sel : FltSel)
  | all
deriving DecidableEq, Repr

/-- One frame of a `USB.PUSH` payload: one PCM value per channel, channel 0 first (R107). How many there are is `NCH`, which the
well-formedness of the instruction fixes. -/
abbrev PcmFrame := List Word

/-- The 26 operations of R103. -/
inductive Instr where
  /-- `RB.INIT b, mode, [capacity]` (R131). -/
  | rbInit (b : BufId) (mode : Bool) (capacity : Word)
  /-- `RB.CLEAR b` (R132). -/
  | rbClear (b : BufId)
  /-- `RB.ISFULL b` (R133). -/
  | rbIsFull (b : BufId)
  /-- `RB.USED b` (R134). -/
  | rbUsed (b : BufId)
  /-- `RB.REMAIN b` (R135). -/
  | rbRemain (b : BufId)
  /-- `RB.WRITE1 b, [sample]` (R136). -/
  | rbWrite1 (b : BufId) (x : Sample)
  /-- `RB.READ1 b` (R137). -/
  | rbRead1 (b : BufId)
  /-- `RB.WRITEN b, n, [samples]` (R138); `n` is the length of the list. -/
  | rbWriteN (b : BufId) (xs : List Sample)
  /-- `RB.READN b, n` (R139). -/
  | rbReadN (b : BufId) (n : Nat)
  /-- `FLT.CLEAR sel` (R171). -/
  | fltClear (sel : ClearSel)
  /-- `FLT.RUN sel, n, [samples]` (R172). -/
  | fltRun (sel : FltSel) (xs : List Sample)
  /-- `USB.PUSH k, [frames]` (R190); `k` is the length of the list. -/
  | usbPush (frames : List PcmFrame)
  /-- `ENG.RUN` (R192). -/
  | engRun
  /-- `TICK` (R196). -/
  | tick
  /-- `CTL.ADJ` (R211). -/
  | ctlAdj
  /-- `FB.REPORT` (R213). -/
  | fbReport
  /-- `VOL.SMOOTH` (R218). -/
  | volSmooth
  /-- `TX.POLL` (R230). -/
  | txPoll
  /-- `DMA.DONE` (R241). -/
  | dmaDone
  /-- `SET.RATE [rate]` (R260). -/
  | setRate (rate : Word)
  /-- `SET.DEPTH d` (R261). -/
  | setDepth (d : BitVec 6)
  /-- `SET.VOL v` (R262); the operand is the 16-bit code before sign extension. -/
  | setVol (code : BitVec 16)
  /-- `SET.MUTE m` (R263). -/
  | setMute (m : Bool)
  /-- `SET.POWER p` (R264). -/
  | setPower (p : Bool)
  /-- `REINIT` (R266). -/
  | reinit
  /-- `MAIN.POLL` (R272). -/
  | mainPoll
deriving DecidableEq, Repr

end Sys2Proof
end

