-- ==== Sys2Proof/Config.lean ====
section
/-! DEFINITION. What an implementation of ADP fixes (00_scope.md R10, R11, R13): the finite sets of rates, depths and
ratios, and the configuration record with one field for each row of R10. The rows that are OPEN form the record `OpenConfig`, of
whose value `OpenConfig.current` nothing is known but that the constraints of R10 and R11 hold; the rows to which R10 gives a value
are added by `Config`, with that value as their default, `NCH` among them. `Config.current` is the configuration of the machine. -/

namespace Sys2Proof

/-! ## The finite sets the configuration speaks of -/

/-- `RATES`, the six legal nominal input rates (R10, R41; 90_conflicts.md C1). -/
inductive Rate where
  | r44100 | r48000 | r88200 | r96000 | r176400 | r192000
deriving DecidableEq, Repr, Inhabited

/-- The rate in Hz. -/
def Rate.hz : Rate → Nat
  | .r44100 => 44100
  | .r48000 => 48000
  | .r88200 => 88200
  | .r96000 => 96000
  | .r176400 => 176400
  | .r192000 => 192000

/-- The legal PCM bit depths (R42). -/
inductive Depth where
  | d16 | d24 | d32
deriving DecidableEq, Repr, Inhabited

/-- The depth in bits. -/
def Depth.bits : Depth → Nat
  | .d16 => 16
  | .d24 => 24
  | .d32 => 32

/-- The first-stage ratios {1, 2, 4, 8} (R48). -/
inductive Ratio1 where
  | x1 | x2 | x4 | x8
deriving DecidableEq, Repr, Inhabited

/-- The ratio as a number. -/
def Ratio1.toNat : Ratio1 → Nat
  | .x1 => 1
  | .x2 => 2
  | .x4 => 4
  | .x8 => 8

/-- The second-stage ratios {1, 2, 4} (R49). -/
inductive Ratio2 where
  | x1 | x2 | x4
deriving DecidableEq, Repr, Inhabited

/-- The ratio as a number. -/
def Ratio2.toNat : Ratio2 → Nat
  | .x1 => 1
  | .x2 => 2
  | .x4 => 4

/-- `R1_HI`, the first-stage ratio of the 176.4/192 kHz bucket, in {1, 2} (R10, R197). -/
inductive TopRatio where
  | one | two
deriving DecidableEq, Repr, Inhabited

/-- `WORD_SIZE`, the serial output word size, in {16, 32} (R10, R240). -/
inductive WordSize where
  | w16 | w32
deriving DecidableEq, Repr, Inhabited

/-- `RATES`: the six legal rates (R10, R41). -/
def allRates : List Rate := [.r44100, .r48000, .r88200, .r96000, .r176400, .r192000]

/-- `R1_HI` as a first-stage ratio. -/
def topRatio : TopRatio → Ratio1
  | .one => .x1
  | .two => .x2

/-- The row `R1_OF(rate)` of R10: 8 at 44.1/48 kHz, 4 at 88.2/96 kHz, `R1_HI` at 176.4/192 kHz (R197). -/
def r1Table (hi : TopRatio) : Rate → Ratio1
  | .r44100 | .r48000 => .x8
  | .r88200 | .r96000 => .x4
  | .r176400 | .r192000 => topRatio hi

/-! ## The numeric type F (R13) -/

/-- A value of the numeric type `F`, held as the code the configuration gives it (for binary32 its 32 bits, for binary64
its 64 bits). Only the record `Numerics` says what a code stands for. -/
structure FVal where
  code : Nat
deriving DecidableEq, Repr, Inhabited

/-- What a value of `F` stands for. A negative zero stands for `fin 0`, as R13 (d) counts it. -/
inductive FNum where
  | fin (q : Rat)
  | nan
  | inf (negative : Bool)
deriving DecidableEq, Repr, Inhabited

/-- The numerics record of R13. `val` is what a code stands for, from which `F.isNaN`, `F.sat32` (R168) and the
comparisons of `SatUnit` (R220) are computed; the five arithmetic functions are open but for the laws (b) to (d) of R13.
Law (a) holds because they are functions, law (e) follows from (b) and R168. A field that shows a value here shows it only for
Lean to see that some record exists. -/
structure Numerics where
  val : FVal → FNum := fun v => if v.code = 1 then .fin 1 else .fin 0
  ofInt : Int → FVal := fun _ => ⟨0⟩
  ofReal : Rat → FVal := fun _ => ⟨1⟩
  add : FVal → FVal → FVal := fun _ _ => ⟨0⟩
  sub : FVal → FVal → FVal := fun _ _ => ⟨0⟩
  mul : FVal → FVal → FVal := fun _ _ => ⟨0⟩
  /-- R13 (b). -/
  ofInt_zero : val (ofInt 0) = .fin 0 := by rfl
  /-- R13 (c), zero on the left. -/
  zero_mul : ∀ z c q, val z = .fin 0 → val c = .fin q → val (mul z c) = .fin 0 := by intros; rfl
  /-- R13 (c), zero on the right. -/
  mul_zero : ∀ z c q, val z = .fin 0 → val c = .fin q → val (mul c z) = .fin 0 := by intros; rfl
  /-- R13 (d), sums. -/
  zero_add_zero : ∀ y z, val y = .fin 0 → val z = .fin 0 → val (add y z) = .fin 0 := by intros; rfl
  /-- R13 (d), differences. -/
  zero_sub_zero : ∀ y z, val y = .fin 0 → val z = .fin 0 → val (sub y z) = .fin 0 := by intros; rfl
deriving Inhabited

/-- `F` zero, the value every cleared delay element holds (R57, R171). -/
def Numerics.zero (n : Numerics) : FVal := n.ofInt 0

/-! ## Filter stages (R161) -/

/-- One second-order section `(b0, b1, b2, a1, a2)`. -/
structure Biquad where
  b0 : FVal
  b1 : FVal
  b2 : FVal
  a1 : FVal
  a2 : FVal
deriving DecidableEq, Repr, Inhabited

/-- The two stage kinds of R161: `FIRI(L, P, h)` and `RBQ(N, S, q)` with `S` the length of `q`. -/
inductive Stage where
  | firi (L P : Nat) (h : List FVal)
  | rbq (N : Nat) (q : List Biquad)
deriving DecidableEq, Repr

/-- The integer factor a stage raises the rate by. -/
def Stage.factor : Stage → Nat
  | .firi L _ _ => L
  | .rbq N _ => N

/-- The shape R161 gives a stage: L ≥ 1, P ≥ 1 and L × P coefficients; N ≥ 1 and S ≥ 1. -/
def Stage.ok : Stage → Bool
  | .firi L P h => 1 ≤ L && 1 ≤ P && h.length == L * P
  | .rbq N q => 1 ≤ N && 1 ≤ q.length

/-- "delay length fixed by filter order" (R53): P elements, or 4 for each section. -/
def Stage.delayLen : Stage → Nat
  | .firi _ P _ => P
  | .rbq _ q => 4 * q.length

/-- Whether the stage is a FIR interpolation stage. -/
def Stage.isFiri : Stage → Bool
  | .firi .. => true
  | .rbq .. => false

/-- The ratio of a chain: the product of its stage factors (R170). -/
def chainRatio (chain : List Stage) : Nat := (chain.map Stage.factor).prod

/-! ## The configuration record (R10) and its constraints (R11) -/

/-- The OPEN parameters of R10, one field each, with the constraints of R11 and R170 as proof fields, so that an ill-formed
configuration cannot be built (93_implementation_defined.md U5, U10). A field that shows a value here shows it only for Lean to
see that some record exists: `OpenConfig.current` has no value. -/
structure OpenConfig where
  /-- `F` (R13). -/
  num : Numerics
  /-- `CAP_EP`. -/
  capEp : Nat := 1
  /-- `CAP_MID`. -/
  capMid : Nat := 2
  /-- `R1_HI`. -/
  r1Hi : TopRatio
  /-- `R2_OF(pm)`; `true` is high power (R46). -/
  r2Of : Bool → Ratio2
  /-- `CHAIN1[r]`. -/
  chain1 : Ratio1 → List Stage := fun
    | .x1 => []
    | .x2 => [.rbq 2 [default]]
    | .x4 => [.rbq 4 [default]]
    | .x8 => [.firi 2 1 [default, default], .rbq 4 [default]]
  /-- `CHAIN2[r]`. -/
  chain2 : Ratio2 → List Stage := fun
    | .x1 => []
    | .x2 => [.rbq 2 [default]]
    | .x4 => [.rbq 4 [default]]
  /-- `VOLCURVE`, of which nothing is assumed but that it depends on its argument alone (R219). -/
  volCurve : FVal → FVal
  /-- `FB_LIMIT`. -/
  fbLimit : Nat
  /-- `SLOT_CAP`. -/
  slotCap : Nat := 8
  /-- `RENDER_BUDGET`; `none` is "unbounded". -/
  renderBudget : Option Nat
  /-- `SILENCE_WORDS`. -/
  silenceWords : Nat := 2
  /-- `WORD_SIZE`. -/
  wordSize : WordSize
  /-- Not a parameter of the spec: the free value of the model that stands where R191 states no Sample (a PCM payload word
  outside the range R107 gives it). The argument is a count the state holds (`State.pcmFree`; DESIGN CHOICE, log entry 5). -/
  pcmFree : Nat → Sample
  capEp_pos : 0 < capEp := by decide
  capEp_u32 : capEp < 2 ^ 32 := by decide
  capMid_pos : 0 < capMid := by decide
  capMid_u32 : capMid < 2 ^ 32 := by decide
  capMid_even : capMid % 2 = 0 := by decide
  chain1_ok : ∀ r, (chain1 r).all Stage.ok = true := by intro r; cases r <;> rfl
  chain1_ratio : ∀ r, chainRatio (chain1 r) = r.toNat := by intro r; cases r <;> rfl
  chain1_x1 : chain1 .x1 = [] := by rfl
  chain1_x8_firi : (chain1 .x8).any Stage.isFiri = true := by rfl
  chain1_x8_rbq : (chain1 .x8).any (fun st => !st.isFiri) = true := by rfl
  chain2_ok : ∀ r, (chain2 r).all Stage.ok = true := by intro r; cases r <;> rfl
  chain2_ratio : ∀ r, chainRatio (chain2 r) = r.toNat := by intro r; cases r <;> rfl
  chain2_x1 : chain2 .x1 = [] := by rfl
  fbLimit_lt : fbLimit < 44100 := by decide
  renderBudget_pos : renderBudget ≠ some 0 := by decide
deriving Inhabited

/-- The configuration record (R10): the OPEN parameters, and those to which R10 gives a value, which stands here as the field's
default. -/
structure Config extends OpenConfig where
  /-- `NCH`, the number of channels: not more than two (R10). -/
  nch : Nat := 2
  /-- `LOCKMODE[b]`, the locking mode buffer b is created with; `true` is locked. -/
  lockMode : BufId → Bool := fun _ => true
  /-- `TICK_US`, the period of the Context A timer in microseconds. -/
  tickUs : Nat := 250
  /-- `RATES`, the rates `SET.RATE` accepts. -/
  rates : List Rate := allRates
  /-- `R1_OF(rate)`. -/
  r1Of : Rate → Ratio1 := r1Table r1Hi
  /-- `ALPHA`, the volume smoothing factor 0.85. -/
  alpha : Rat := 17 / 20
  /-- `TXQ_DEPTH`, the transmit queue depth in slots. -/
  txqDepth : Nat := 3
  /-- `VOL_MIN`, the least legal volume code. -/
  volMin : Int := -16384
  /-- `VOL_MAX`, the greatest legal volume code. -/
  volMax : Int := 0
  nch_range : nch = 1 ∨ nch = 2 := by decide
  slotCap_ge : nch * 4 ≤ slotCap := by decide
  silenceWords_ge : nch ≤ silenceWords := by decide
  silenceWords_multiple : silenceWords % nch = 0 := by decide
  r1Of_table : ∀ f, r1Of f = r1Table r1Hi f := by intro f; rfl
  txqDepth_pos : 1 ≤ txqDepth := by decide

/-- The OPEN parameters of a machine of two channels: those bounds of R10 in which `NCH` stands, at 2. -/
structure TwoChannelConfig extends OpenConfig where
  slotCap_ge : 8 ≤ slotCap := by decide
  silenceWords_ge : 2 ≤ silenceWords := by decide
  silenceWords_even : silenceWords % 2 = 0 := by decide
deriving Inhabited

/-- The OPEN parameters the machine is built with (R333: "in the model it is fixed when the model is built"). Uninterpreted. -/
opaque OpenConfig.current : TwoChannelConfig

/-- The configuration the machine is built with: the OPEN parameters uninterpreted, every other one at the value of R10. -/
def Config.current : Config :=
  { toOpenConfig := OpenConfig.current.toOpenConfig
    slotCap_ge := OpenConfig.current.slotCap_ge
    silenceWords_ge := OpenConfig.current.silenceWords_ge
    silenceWords_multiple := OpenConfig.current.silenceWords_even }

/-! ## The channels: c in 0 .. NCH−1 -/

/-- What holds of a machine of two channels, or of one. -/
def Config.ifTwo {α : Type} (c : Config) (two one : α) : α := if c.nch = 2 then two else one

/-- The least of a count over the buffers of the machine's channels, `v0` that of channel 0 and `v1` that of channel 1. The rules write
it out for two channels (R190, R192, R237); with one channel it is that of channel 0 (DESIGN CHOICE, log entry 2). -/
def Config.least (c : Config) (v0 v1 : Nat) : Nat := c.ifTwo (min v0 v1) v0

end Sys2Proof
end

