-- ==== Sys2Proof/WellFormed.lean ====
section
/-! DEFINITION. Which terms of `Instr` an encoding exists for: the counts are the 20 bits of `arg` (30_encoding.md R107,
"0 to 1048575"), and a frame has one word per channel. Every other operand has its range by its type. -/

namespace Sys2Proof

/-- A count fits `arg`, `zext_20(arg)` (R107). -/
def countOk (n : Nat) : Bool := n < 2 ^ 20

/-- The instruction has an encoding on a machine of `nch` channels (R101, R107). -/
def Instr.wfFor (nch : Nat) : Instr → Bool
  | .rbWriteN _ xs => countOk xs.length
  | .rbReadN _ n => countOk n
  | .fltRun _ xs => countOk xs.length
  | .usbPush frames => countOk frames.length && frames.all fun f => f.length == nch
  | .rbInit .. | .rbClear _ | .rbIsFull _ | .rbUsed _ | .rbRemain _ | .rbWrite1 .. | .rbRead1 _ | .fltClear _
  | .engRun | .tick | .ctlAdj | .fbReport | .volSmooth | .txPoll | .dmaDone | .setRate _ | .setDepth _ | .setVol _
  | .setMute _ | .setPower _ | .reinit | .mainPoll => true

/-- The instruction has an encoding on the machine. -/
def Instr.wf (i : Instr) : Bool := i.wfFor Config.current.nch

end Sys2Proof
end

