-- ==== Sys2Proof/Decode.lean ====
section
/-! DEFINITION. The decoder of a command stream (30_encoding.md R100 to R109), total on any list of words and refusing by
name, the encoder, and the decoding of one row of the opcode table as the host numbers its bits. -/

namespace Sys2Proof

/-! ## Fields of a command word (R12, R101) -/

/-- `w[hi:lo]`, the field from bit `hi` down to bit `lo`, inclusive, as an unsigned number (R12). -/
def field (w : Word) (hi lo : Nat) : Nat := w.toNat / 2 ^ lo % 2 ^ (hi - lo + 1)

/-- `op = w[31:24]` (R101). -/
def opField (w : Word) : Nat := field w 31 24

/-- `unit = w[23:20]` (R101). -/
def unitField (w : Word) : Nat := field w 23 20

/-- `arg = w[19:0]` (R101). -/
def argField (w : Word) : Nat := field w 19 0

/-- The command word with the given fields (R101). -/
def commandWord (op unit arg : Nat) : Word := BitVec.ofNat 32 (op * 2 ^ 24 + unit * 2 ^ 20 + arg)

/-- Why a list of words is not a command: each is `IllegalCommand` to the machine (R108, R109), but `noWord`, which is the
end of the stream. -/
inductive DecodeError where
  /-- There is no command word. -/
  | noWord
  /-- `op` is not in R103. -/
  | reservedOp
  /-- `unit` is illegal by R106. -/
  | illegalUnit
  /-- A bit that R107 says must be 0 is 1. -/
  | mustBeZero
  /-- The stream ends before the payload does (R109). -/
  | truncatedPayload
deriving DecidableEq, Repr

/-! ## Operand fields (R106, R107) -/

/-- `unit` as a buffer id; values 4 to 15 are illegal (R106). -/
def decodeBuf : Nat → Except DecodeError BufId
  | 0 => .ok .ep0
  | 1 => .ok .ep1
  | 2 => .ok .mid0
  | 3 => .ok .mid1
  | _ => .error .illegalUnit

/-- `unit` as the `sel` of one chain and channel, values 0 to 3 (R106). -/
def decodeSel : Nat → Except DecodeError FltSel
  | 0 => .ok ⟨.chain1, .c0⟩
  | 1 => .ok ⟨.chain1, .c1⟩
  | 2 => .ok ⟨.chain2, .c0⟩
  | 3 => .ok ⟨.chain2, .c1⟩
  | _ => .error .illegalUnit

/-- `unit` as the `sel` of `FLT.CLEAR`: 0 to 3, or 4 for `all` (R106). -/
def decodeClearSel : Nat → Except DecodeError ClearSel
  | 4 => .ok .all
  | u => (decodeSel u).map .one

/-- `unit` of an operation without one: it must be 0 (R106). -/
def noUnit (u : Nat) : Except DecodeError Unit := if u = 0 then .ok () else .error .illegalUnit

/-- `arg` of an operation without one: it must be 0 (R101, R107). -/
def noArg (a : Nat) : Except DecodeError Unit := if a = 0 then .ok () else .error .mustBeZero

/-- `arg` as a flag: bit 0, and `arg[19:1]` must be 0 (R107). -/
def decodeFlag (a : Nat) : Except DecodeError Bool := if a < 2 then .ok (a == 1) else .error .mustBeZero

/-- `arg[n-1:0]` as an n-bit field, the bits above it must be 0 (R107). -/
def decodeNarrow (n a : Nat) : Except DecodeError (BitVec n) :=
  if a < 2 ^ n then .ok (BitVec.ofNat n a) else .error .mustBeZero

/-- The next `n` payload words and the rest of the stream (R104, R109). -/
def takeWords : Nat → List Word → Except DecodeError (List Word × List Word)
  | 0, ws => .ok ([], ws)
  | _ + 1, [] => .error .truncatedPayload
  | n + 1, w :: ws =>
    match takeWords n ws with
    | .ok (p, rest) => .ok (w :: p, rest)
    | .error e => .error e

/-- One payload word and the rest of the stream. -/
def takeWord : List Word → Except DecodeError (Word × List Word)
  | [] => .error .truncatedPayload
  | w :: ws => .ok (w, ws)

/-- `k` PCM frames of `nch` words, channel 0 first, and the rest of the stream (R104, R107). -/
def takeFrames (nch : Nat) : Nat → List Word → Except DecodeError (List PcmFrame × List Word)
  | 0, ws => .ok ([], ws)
  | k + 1, ws =>
    match takeWords nch ws with
    | .error e => .error e
    | .ok (f, ws') =>
      match takeFrames nch k ws' with
      | .ok (fs, rest) => .ok (f :: fs, rest)
      | .error e => .error e

/-! ## The decoder (R103, R109) -/

/-- A command on a buffer with no argument and no payload. -/
def onBuf (mk : BufId → Instr) (u a : Nat) (ws : List Word) : Except DecodeError (Instr × List Word) := do
  let b ← decodeBuf u
  noArg a
  .ok (mk b, ws)

/-- A command with no unit, no argument and no payload. -/
def plain (i : Instr) (u a : Nat) (ws : List Word) : Except DecodeError (Instr × List Word) := do
  noUnit u
  noArg a
  .ok (i, ws)

/-- On a machine of `nch` channels, the operation with code `op`, unit `u`, argument `a` and payload at the front of `ws`, and what follows it (R109): the
code is looked up in R103, `unit` is checked by R106, the must-be-zero bits by R107, then the payload is taken. -/
def decodeFields (nch op u a : Nat) (ws : List Word) : Except DecodeError (Instr × List Word) :=
  match op with
  | 0x01 => do
    let b ← decodeBuf u
    let m ← decodeFlag a
    let (cap, rest) ← takeWord ws
    .ok (.rbInit b m cap, rest)
  | 0x02 => onBuf .rbClear u a ws
  | 0x03 => onBuf .rbIsFull u a ws
  | 0x04 => onBuf .rbUsed u a ws
  | 0x05 => onBuf .rbRemain u a ws
  | 0x06 => do
    let b ← decodeBuf u
    noArg a
    let (x, rest) ← takeWord ws
    .ok (.rbWrite1 b x, rest)
  | 0x07 => onBuf .rbRead1 u a ws
  | 0x08 => do
    let b ← decodeBuf u
    let (xs, rest) ← takeWords a ws
    .ok (.rbWriteN b xs, rest)
  | 0x09 => do
    let b ← decodeBuf u
    .ok (.rbReadN b a, ws)
  | 0x10 => do
    let sel ← decodeClearSel u
    noArg a
    .ok (.fltClear sel, ws)
  | 0x11 => do
    let sel ← decodeSel u
    let (xs, rest) ← takeWords a ws
    .ok (.fltRun sel xs, rest)
  | 0x20 => do
    noUnit u
    let (fs, rest) ← takeFrames nch a ws
    .ok (.usbPush fs, rest)
  | 0x21 => plain .engRun u a ws
  | 0x22 => plain .tick u a ws
  | 0x30 => plain .ctlAdj u a ws
  | 0x31 => plain .fbReport u a ws
  | 0x32 => plain .volSmooth u a ws
  | 0x40 => plain .txPoll u a ws
  | 0x41 => plain .dmaDone u a ws
  | 0x50 => do
    noUnit u
    noArg a
    let (rate, rest) ← takeWord ws
    .ok (.setRate rate, rest)
  | 0x51 => do
    noUnit u
    let d ← decodeNarrow 6 a
    .ok (.setDepth d, ws)
  | 0x52 => do
    noUnit u
    let v ← decodeNarrow 16 a
    .ok (.setVol v, ws)
  | 0x53 => do
    noUnit u
    let m ← decodeFlag a
    .ok (.setMute m, ws)
  | 0x54 => do
    noUnit u
    let p ← decodeFlag a
    .ok (.setPower p, ws)
  | 0x55 => plain .reinit u a ws
  | 0x56 => plain .mainPoll u a ws
  | _ => .error .reservedOp

/-- The first command of a stream and the rest of the stream, on a machine of `nch` channels (R100, R109). -/
def decodeFor (nch : Nat) : List Word → Except DecodeError (Instr × List Word)
  | [] => .error .noWord
  | w :: ws => decodeFields nch (opField w) (unitField w) (argField w) ws

/-- The first command of the machine's stream and the rest of it. -/
def decode (ws : List Word) : Except DecodeError (Instr × List Word) := decodeFor Config.current.nch ws

/-! ## The encoder (R101, R103, R106, R107) -/

/-- The `unit` field of a buffer id. -/
def bufUnit : BufId → Nat
  | .ep0 => 0
  | .ep1 => 1
  | .mid0 => 2
  | .mid1 => 3

/-- The `unit` field of a chain and channel: bit 20 is the channel, bit 21 the chain. -/
def selUnit : FltSel → Nat
  | ⟨.chain1, .c0⟩ => 0
  | ⟨.chain1, .c1⟩ => 1
  | ⟨.chain2, .c0⟩ => 2
  | ⟨.chain2, .c1⟩ => 3

/-- The `unit` field of a `FLT.CLEAR`. -/
def clearUnit : ClearSel → Nat
  | .one sel => selUnit sel
  | .all => 4

/-- The payload words of a list of frames, channel 0 first (R107). -/
def frameWords (fs : List PcmFrame) : List Word := fs.flatten

/-- The words of an instruction: its command word, then its payload. -/
def encode : Instr → List Word
  | .rbInit b m cap => [commandWord 0x01 (bufUnit b) m.toNat, cap]
  | .rbClear b => [commandWord 0x02 (bufUnit b) 0]
  | .rbIsFull b => [commandWord 0x03 (bufUnit b) 0]
  | .rbUsed b => [commandWord 0x04 (bufUnit b) 0]
  | .rbRemain b => [commandWord 0x05 (bufUnit b) 0]
  | .rbWrite1 b x => [commandWord 0x06 (bufUnit b) 0, x]
  | .rbRead1 b => [commandWord 0x07 (bufUnit b) 0]
  | .rbWriteN b xs => commandWord 0x08 (bufUnit b) xs.length :: xs
  | .rbReadN b n => [commandWord 0x09 (bufUnit b) n]
  | .fltClear sel => [commandWord 0x10 (clearUnit sel) 0]
  | .fltRun sel xs => commandWord 0x11 (selUnit sel) xs.length :: xs
  | .usbPush fs => commandWord 0x20 0 fs.length :: frameWords fs
  | .engRun => [commandWord 0x21 0 0]
  | .tick => [commandWord 0x22 0 0]
  | .ctlAdj => [commandWord 0x30 0 0]
  | .fbReport => [commandWord 0x31 0 0]
  | .volSmooth => [commandWord 0x32 0 0]
  | .txPoll => [commandWord 0x40 0 0]
  | .dmaDone => [commandWord 0x41 0 0]
  | .setRate rate => [commandWord 0x50 0 0, rate]
  | .setDepth d => [commandWord 0x51 0 d.toNat]
  | .setVol v => [commandWord 0x52 0 v.toNat]
  | .setMute m => [commandWord 0x53 0 m.toNat]
  | .setPower p => [commandWord 0x54 0 p.toNat]
  | .reinit => [commandWord 0x55 0 0]
  | .mainPoll => [commandWord 0x56 0 0]

/-- The words of a program: those of its instructions in order (R100). -/
def assemble (is : List Instr) : List Word := is.flatMap encode

/-! ## Pseudo-operations (R116) -/

/-- `RB.FILL b, n, v` (R116). -/
def rbFill (b : BufId) (n : Nat) (v : Sample) : List Instr := [.rbWriteN b (List.replicate n v)]

/-- `BOOT cap_ep, cap_mid` (R116). -/
def bootProgram (capEp capMid : Word) : List Instr :=
  [.rbInit .ep0 true capEp, .rbInit .ep1 true capEp, .rbInit .mid0 true capMid, .rbInit .mid1 true capMid]

/-- `START f, d, v, p` (R116). -/
def startProgram (f : Word) (d : BitVec 6) (v : BitVec 16) (p : Bool) : List Instr :=
  [.setRate f, .setDepth d, .setVol v, .setMute false, .setPower p, .mainPoll]

/-- `REPEAT k` of a list of commands (R116). -/
def repeatProgram (k : Nat) (is : List Instr) : List Instr := (List.replicate k is).flatten

/-! ## The opcode table's numbering of bits -/

/-- How many payload words a command word takes on a machine of `nch` channels (R104); 0 for a word that is no command. -/
def payloadLen (nch : Nat) (w : Word) : Nat :=
  match opField w with
  | 0x01 | 0x06 | 0x50 => 1
  | 0x08 | 0x11 => argField w
  | 0x20 => argField w * nch
  | _ => 0

/-- Word `j` of an instruction whose bits are `w`, bit 0 the least significant bit of the first word; every bit from `nbits`
on is 0. -/
def tableWord (nbits w j : Nat) : Word := BitVec.ofNat 32 (w % 2 ^ nbits / 2 ^ (32 * j))

/-- The words of the instruction whose bits are `w`: the command word, then as many payload words as it takes, those above
`nbits` bits being zero. -/
def tableWords (nbits w : Nat) : List Word :=
  let c := tableWord nbits w 0
  c :: (List.range (payloadLen Config.current.nch c)).map fun j => tableWord nbits w (j + 1)

/-- The instruction the decoder reads from a row of the opcode table whose bits are `w`. -/
def decodeTableWord (nbits w : Nat) : Option Instr :=
  match decode (tableWords nbits w) with
  | .ok (i, _) => some i
  | .error _ => none

end Sys2Proof
end

