-- ==== Sys2Proof/Machine/State.lean ====
section
/-! DEFINITION. The state of ADP (10_state.md R20 to R58) as plain data, the reasons a step can stop, and the state after
reset (R57). Registers whose reset value is "no value" are `Option`s: that a register holds no value is the spec's own state,
which `MAIN.POLL` tests (R272) and `NotInitialised` reports (R297). The last group of fields is the model's own: the inputs a
step reads, the operations in flight between micro-steps, and the responses. -/

namespace Sys2Proof.Machine

/-! ## Results (R14, R290, R291) -/

/-- The result of an operation (R291). -/
inductive Result where
  | ok | bufferFull | bufferEmpty | insufficientData | initError | illegalCommand | notInitialised | held
deriving DecidableEq, Repr

/-- What an operation returned: its result and, when the result is `ok`, its value words (R105). -/
structure Response where
  result : Result
  values : List Word
deriving DecidableEq, Repr

/-! ## Memory (R70, R72) -/

/-- An index space of 32-bit elements, as (index, element) pairs in one canonical form: indices strictly rising, and no pair
for an index that holds what an unlisted index holds. In the sample space of a ring buffer an unlisted index holds no value
(R25); in the payload of a slot it holds 0 (R57). -/
structure Mem where
  cells : List (Nat × Word)
deriving DecidableEq, Repr

/-! ## Ring buffers (R21 to R27) -/

/-- The agents (R8, R312). -/
inductive Agent where
  | boot | ctrl | pwr | usbcb | ticka | maina | pollb | dmairq | hostfb
deriving DecidableEq, Repr

/-- The lock register (R26). -/
inductive Lock where
  | free
  | held (a : Agent)
deriving DecidableEq, Repr

/-- The phase an operation in flight has completed (R27). -/
inductive Phase where
  | checked | copied
deriving DecidableEq, Repr

/-- `prod_op` when it is not `idle`: the producer's write in flight of `n` Samples (R27). `data` are those Samples; in the phase
`checked` of a MID write of `ENG.RUN` they are not computed yet and `data` is empty, because R195 merges `RunChain` into the copy
phase (DEDUCED, log entry 9). -/
structure ProdOp where
  n : Nat
  data : List Sample
  phase : Phase
deriving DecidableEq, Repr

/-- `cons_op` when it is not `idle`: the consumer's read in flight (R27), with the list `D` that the copy phase of R142 filled
(the reader's own; empty until then). -/
structure ConsOp where
  n : Nat
  phase : Phase
  data : List Sample
deriving DecidableEq, Repr

/-- The registers of one ring buffer (R22, R25, R26, R27). -/
structure RingBuffer where
  valid : Bool
  mode : Bool
  cap : Nat
  wr : Nat
  rd : Nat
  cnt : Nat
  mem : Mem
  lock : Lock
  prodOp : Option ProdOp
  consOp : Option ConsOp
deriving DecidableEq, Repr

/-- The four ring buffers (R21). -/
structure Buffers where
  ep0 : RingBuffer
  ep1 : RingBuffer
  mid0 : RingBuffer
  mid1 : RingBuffer
deriving DecidableEq, Repr

/-! ## Filter delay arrays (R53, R54) -/

/-- The delay arrays of one channel of one chain: one array per stage, in chain order. -/
abbrev Delays := List (List FVal)

/-- The delay arrays of both channels of one chain. -/
structure ChanDelays where
  c0 : Delays
  c1 : Delays
deriving DecidableEq, Repr

/-- `d1`: one set per ratio of chain 1 (R54). -/
structure Banks1 where
  x1 : ChanDelays
  x2 : ChanDelays
  x4 : ChanDelays
  x8 : ChanDelays
deriving DecidableEq, Repr

/-- `d2`: one set per ratio of chain 2 (R54). -/
structure Banks2 where
  x1 : ChanDelays
  x2 : ChanDelays
  x4 : ChanDelays
deriving DecidableEq, Repr

/-! ## Scheduler, queue, transfer (R49 to R52, R56) -/

/-- `sched_state` (R49). -/
inductive SchedState where
  | draining | streaming | drainingToStop
deriving DecidableEq, Repr

/-- One slot of the transmit queue (R56). -/
structure Slot where
  count : Nat
  payload : Mem
deriving DecidableEq, Repr

/-- A frame handed to the hardware transfer: its count and payload words (R51, R52). -/
structure TxFrame where
  count : Nat
  payload : List Word
deriving DecidableEq, Repr

/-- The DAC side-channel operations (R52). -/
inductive DacOp where
  | applyConfig | setMute | setUnmute
deriving DecidableEq, Repr

/-! ## Operations in flight (R8, R9, R27): the model's own fields -/

/-- Where a `USB.PUSH` of `USBCB` stands (R190): the constructor names its next micro-step. -/
inductive UsbOp where
  | idle
  | readEp0 (d : Depth) (frames : List PcmFrame)
  | readEp1 (d : Depth) (frames : List PcmFrame) (free0 : Nat)
  | write0 (s0 s1 : List Sample)
  | write1 (s1 : List Sample)
deriving DecidableEq, Repr

/-- What an `ENG.RUN` read at its start: `f`, `a`, `g`, `r` (R192), and whether it is the last part of a `TICK`. -/
structure EngRegs where
  f : Rate
  a : Int
  g : FVal
  r : Ratio1
deriving DecidableEq, Repr

/-- Where a `TICK` or `ENG.RUN` of `TICKA` stands (R195, R196). -/
inductive TickOp where
  | idle
  | ctl
  | regs
  | readEp0 (e : EngRegs)
  | readEp1 (e : EngRegs) (cnt0 : Nat)
  | readMid0 (e : EngRegs) (n : Nat)
  | readMid1 (e : EngRegs) (n free0 : Nat)
  | read (ch : Chan) (e : EngRegs) (n : Nat)
  | write (ch : Chan) (e : EngRegs) (n : Nat) (x : List Sample)
deriving DecidableEq, Repr

/-- Where a `TX.POLL` of `POLLB` stands (R247). -/
inductive PollOp where
  | idle
  | readMid0
  | readMid1 (cnt0 : Nat)
  | readCnt (occ : Nat)
  | act (occ q : Nat)
  | read0 (m : Nat)
  | read1 (m : Nat) (x0 : List Sample)
  | enqueue (m : Nat) (x0 x1 : List Sample)
deriving DecidableEq, Repr

/-- Where `MAINA` stands (R266, R272): a `MAIN.POLL` not begun, or a REINIT (whose next step is the one after `reinit_step`)
with the value words it will return. -/
inductive MainOp where
  | idle
  | poll
  | reinit (values : List Word)
deriving DecidableEq, Repr

/-- Where a `FB.REPORT` of `HOSTFB` stands (R352). -/
inductive HostOp where
  | idle
  | readF (cap occ : Nat)
  | readR1 (cap occ : Nat) (f : Rate)
deriving DecidableEq, Repr

/-- One element of an interleaving (R8, R9): which agent takes the next micro-step. -/
inductive Event where
  /-- The agent of an operation starts it: its first micro-step. -/
  | start (i : Instr)
  /-- An agent takes the next micro-step of its operation in flight. -/
  | agent (a : Agent)
  /-- The next phase of a write issued on its own on a buffer (R141). -/
  | prod (b : BufId)
  /-- The next phase of a read issued on its own on a buffer (R142). -/
  | cons (b : BufId)
  /-- The hardware event `DmaComplete` (R242). -/
  | dmaComplete
deriving DecidableEq, Repr

/-! ## The state -/

/-- The state of ADP (R20). -/
structure State where
  /-- `rb[b]` (R22). -/
  rb : Buffers
  /-- `f_nom` (R41). -/
  fNom : Option Rate
  /-- `f_cur` (R41). -/
  fCur : Option Rate
  /-- `depth` (R42). -/
  depth : Option Depth
  /-- `vol_req` (R43). -/
  volReq : Option (BitVec 16)
  /-- `vol_acq` (R43). -/
  volAcq : BitVec 16
  /-- `vol_smooth` (R44). -/
  volSmooth : FVal
  /-- `gain` (R44). -/
  gain : FVal
  /-- `mute` (R45). -/
  mute : Option Bool
  /-- `mute_cur` (R45). -/
  muteCur : Bool
  /-- `pm_signal` (R46). -/
  pmSignal : Option Bool
  /-- `pm_cur` (R46). -/
  pmCur : Option Bool
  /-- `adj` (R47). -/
  adj : Int
  /-- `R1` (R48). -/
  r1 : Option Ratio1
  /-- `R2` (R49). -/
  r2 : Option Ratio2
  /-- `sched_state` (R49). -/
  schedState : SchedState
  /-- `q_wr` (R50). -/
  qWr : Nat
  /-- `q_rd` (R50). -/
  qRd : Nat
  /-- `q_cnt` (R50). -/
  qCnt : Nat
  /-- `slot[0 .. TXQ_DEPTH-1]` (R56). -/
  slots : List Slot
  /-- `timer_enabled` (R51). -/
  timerEnabled : Bool
  /-- `irq_mask` (R51). -/
  irqMask : Bool
  /-- `dma_pend` (R51). -/
  dmaPend : Bool
  /-- `dma_busy` (R51). -/
  dmaBusy : Bool
  /-- `dma_cur` (R51). -/
  dmaCur : TxFrame
  /-- `out_rate` (R51). -/
  outRate : Option Nat
  /-- `reinit_busy` (R51). -/
  reinitBusy : Bool
  /-- `reinit_step` (R51). -/
  reinitStep : Nat
  /-- `poll_busy` (R51). -/
  pollBusy : Bool
  /-- `push_busy` (R51). -/
  pushBusy : Bool
  /-- `d1[c][s]` (R53). -/
  d1 : Banks1
  /-- `d2[c][s]` (R54). -/
  d2 : Banks2
  /-- `out_stream` (R52). -/
  outStream : List TxFrame
  /-- `dac_events` (R52). -/
  dacEvents : List DacOp
  /-- The model's own: the boot order of R335 has run to its end (R332; log entry 33). -/
  booted : Bool
  /-- The model's own: the operation in flight of `USBCB`. -/
  usb : UsbOp
  /-- The model's own: the operation in flight of `TICKA`. -/
  tick : TickOp
  /-- The model's own: the operation in flight of `POLLB`. -/
  poll : PollOp
  /-- The model's own: the operation in flight of `MAINA`. -/
  main : MainOp
  /-- The model's own: the operation in flight of `HOSTFB`. -/
  host : HostOp
  /-- The model's own: the interleaving still to be taken, an input (R9 (b), R304, R305). -/
  schedule : List Event
  /-- The model's own: the command stream still to be executed, an input (R100). -/
  stream : List Word
  /-- The model's own: the responses given, oldest first (R14, R105). -/
  responses : List Response
  /-- The model's own: how many free PCM values have been used (`Config.pcmFree`). -/
  pcmFree : Nat
deriving DecidableEq, Repr

/-! ## Reasons to stop -/

/-- Faults of the model (60_exceptions.md R299): the state reached is never final and no claim holds of the run. -/
inductive Fault where
  /-- `RB.CLEAR` on a buffer with a write or read in flight (R132, U3). Raised by `RB.CLEAR` and REINIT step 6. Safe. -/
  | clearRace
  /-- A NaN at an integer boundary or at the gain saturation (R168, R220, U6). Raised by `ENG.RUN`, `TICK`, `TX.POLL`,
  `FLT.RUN` and `VOL.SMOOTH`. Safe. -/
  | nanAtBoundary
  /-- An index outside the array (R72: "must fault, not wrap silently"). No rule gives rise to it. Safe. -/
  | indexOutOfRange
  /-- A read of an array element that no write has stored (R25, R57). Raised by reads; no reachable state has it. Safe. -/
  | elementWithoutValue
  /-- A micro-step that reads a register holding no value since reset (R57: "the model faults"; U9: "In the concurrent model:
  `fault`"; D35). No reachable state has it, since an agent is
  refused before boot has ended. Raised by micro-steps, never by commands, which answer `NotInitialised`. Safe. -/
  | noValue
  /-- A publish phase whose lock another agent holds (R80): the agent spins and no other agent can step inside one
  operation, so the machine is stuck. The lock is never held between micro-steps. Safe. -/
  | lockHeld
deriving DecidableEq, Repr

/-- Refusals: what the spec excludes by contract and gives no meaning (93_implementation_defined.md, treatment `refuse`). -/
inductive Refusal where
  /-- The instruction has no meaning in the model yet. Raised by `exec`. Safe. -/
  | notModelled (mnemonic : String)
  /-- A second write on a buffer whose producer is in an operation (R87, R341, U1). Safe. -/
  | secondProducer
  /-- A second read on a buffer whose consumer is in an operation (R87, R341, U1). Safe. -/
  | secondConsumer
  /-- An agent that is in an operation is asked to start another one (R27, R312, U1). Safe. -/
  | agentBusy
  /-- An agent of the running system starts on a buffer in unlocked mode, which two contexts then use (R82, U2). Safe. -/
  | unlockedShared
  /-- In the concurrent semantics an agent starts before boot has ended, or an operation works on a buffer that is not valid
  (R297, R332, R335). Safe. -/
  | notInitialised
  /-- In the concurrent semantics an operation starts that the ownership table gives to no agent there: `RB.CLEAR` and `FLT.CLEAR`
  outside REINIT, `FLT.RUN` (R132, R171, R172, R312, U1). Safe. -/
  | outsideOwnership
deriving DecidableEq, Repr

/-! ## Reset (R57, R331) -/

/-- An index space with nothing listed. -/
def Mem.empty : Mem := ⟨[]⟩

/-- A ring buffer at reset: `valid = 0`, lock free, nothing in flight, no element with a value. `cap`, `wr`, `rd`, `cnt` and
`mode` have no value until `RB.INIT` and nothing reads them before; the model holds 0 there (DESIGN CHOICE, log entry 3). -/
def RingBuffer.atReset : RingBuffer :=
  { valid := false, mode := false, cap := 0, wr := 0, rd := 0, cnt := 0, mem := .empty, lock := .free,
    prodOp := none, consOp := none }

/-- A slot with `count` 0 and every payload word 0 (R57, R236, R270). -/
def Slot.zeroed : Slot := ⟨0, .empty⟩

/-- The delay arrays of a chain, every element F zero (R57). -/
def delaysOf (n : Numerics) (chain : List Stage) : Delays := chain.map fun st => List.replicate st.delayLen n.zero

/-- The delay arrays of both channels of a chain, every element F zero (R57). -/
def chanDelaysOf (n : Numerics) (chain : List Stage) : ChanDelays := ⟨delaysOf n chain, delaysOf n chain⟩

/-- The state after reset for a configuration (R57). -/
def State.resetOf (c : Config) : State :=
  { rb := ⟨.atReset, .atReset, .atReset, .atReset⟩
    fNom := none, fCur := none, depth := none, volReq := none
    volAcq := 0, volSmooth := c.num.zero, gain := c.num.ofReal 1
    mute := none, muteCur := false, pmSignal := none, pmCur := none
    adj := 0, r1 := none, r2 := none
    schedState := .draining, qWr := 0, qRd := 0, qCnt := 0
    slots := List.replicate c.txqDepth .zeroed
    timerEnabled := false, irqMask := false, dmaPend := false, dmaBusy := false, dmaCur := ⟨0, []⟩
    outRate := none, reinitBusy := false, reinitStep := 0, pollBusy := false, pushBusy := false
    d1 := ⟨chanDelaysOf c.num (c.chain1 .x1), chanDelaysOf c.num (c.chain1 .x2), chanDelaysOf c.num (c.chain1 .x4),
      chanDelaysOf c.num (c.chain1 .x8)⟩
    d2 := ⟨chanDelaysOf c.num (c.chain2 .x1), chanDelaysOf c.num (c.chain2 .x2), chanDelaysOf c.num (c.chain2 .x4)⟩
    outStream := [], dacEvents := []
    booted := false, usb := .idle, tick := .idle, poll := .idle, main := .idle, host := .idle
    schedule := [], stream := [], responses := [], pcmFree := 0 }

/-- The machine right after reset (R57, R331). -/
def State.reset : State := State.resetOf Config.current

end Sys2Proof.Machine
end

