-- ==== Sys2Proof/Machine/Flags.lean ====
section
/-! DEFINITION. What an operation reports. ADP has no flags and no condition-code register (10_state.md R29); each operation
returns a result with a code (60_exceptions.md R291) and value words (30_encoding.md R105), and nothing else records it. -/

namespace Sys2Proof.Machine

/-- The result code, bits 3:0 of the status word (R291). -/
def Result.code : Result → Nat
  | .ok => 0
  | .bufferFull => 1
  | .bufferEmpty => 2
  | .insufficientData => 3
  | .initError => 4
  | .illegalCommand => 5
  | .notInitialised => 6
  | .held => 7

/-- The status word: the result code in bits 3:0, other bits 0 (R105). -/
def Result.statusWord (r : Result) : Word := BitVec.ofNat 32 r.code

/-- The response words: one status word, then the value words when the status is `OK` (R105). -/
def Response.words (r : Response) : List Word :=
  r.result.statusWord :: (match r.result with | .ok => r.values | _ => [])

/-- How an operation ended: the state it left, its result and its value words. -/
structure Done where
  state : State
  result : Result
  values : List Word
deriving DecidableEq, Repr

/-- An operation that ends, or a fault of the model. -/
abbrev OpRes := Except Fault Done

/-- A count as a value word (R105). -/
def countWord (n : Nat) : Word := BitVec.ofNat 32 n

/-- The state with a response given. -/
def State.respond (s : State) (r : Result) (vs : List Word) : State :=
  { s with responses := s.responses ++ [⟨r, vs⟩] }

/-- The operation ends with `OK` and the value words `vs`. -/
def State.ok (s : State) (vs : List Word) : Host.Outcome State Fault Refusal := .next (s.respond .ok vs)

/-- `raise r`: the operation ends with an error result and no value word (R12, R290). -/
def State.raise (s : State) (r : Result) : Host.Outcome State Fault Refusal := .next (s.respond r [])

/-- The outcome of an operation: its final state with its response given, or its fault. -/
def OpRes.outcome : OpRes → Host.Outcome State Fault Refusal
  | .ok d => .next (d.state.respond d.result d.values)
  | .error f => .fault f

/-- The outcome of a computation that gives a state and no response of its own. -/
def stateOutcome : Except Fault State → Host.Outcome State Fault Refusal
  | .ok s => .next s
  | .error f => .fault f

end Sys2Proof.Machine
end

