-- ==== Sys2Proof/Machine/Operands.lean ====
section
/-! DEFINITION. The conversions at ADP's boundaries and the arithmetic on operands: PCM to Sample (42_engine.md R191), F to
Sample and the gain saturation (41_filters.md R168, 43_controller.md R220), Sample to output word (44_scheduler.md R240), the
feedback value (43_controller.md R214 to R216), the nominal count of a rate (42_engine.md R194). -/

namespace Sys2Proof.Machine

/-- `clamp(v, lo, hi) = min(max(v, lo), hi)` (R12). -/
def clampInt (v lo hi : Int) : Int := min (max v lo) hi

/-- A legal rate by its value in Hz (R41, R260). -/
def rateOfHz : Nat → Option Rate
  | 44100 => some .r44100
  | 48000 => some .r48000
  | 88200 => some .r88200
  | 96000 => some .r96000
  | 176400 => some .r176400
  | 192000 => some .r192000
  | _ => none

/-- A legal depth by its value in bits (R42, R261). -/
def depthOfBits : Nat → Option Depth
  | 16 => some .d16
  | 24 => some .d24
  | 32 => some .d32
  | _ => none

/-- The nominal count `(f_cur × TICK_US) div 1000000` (R194). -/
def nominalCount (c : Config) (f : Rate) : Nat := f.hz * c.tickUs / 1000000

/-- `n = clamp(nom + a, 0, avail)` (R192). -/
def engCount (c : Config) (f : Rate) (a : Int) (avail : Nat) : Nat := (clampInt (nominalCount c f + a) 0 avail).toNat

/-- A PCM value of depth d lies in [−2^(d−1), 2^(d−1) − 1] (R107). -/
def pcmInRange (d : Depth) (p : Word) : Bool := -2 ^ (d.bits - 1) ≤ p.toInt && p.toInt ≤ 2 ^ (d.bits - 1) - 1

/-- `Pcm2Sample(p, d) = p × 2^(32−d)` (R191). For a payload word outside the range of R107 the spec states no Sample: it is a
free value (DESIGN CHOICE, log entry 5). -/
def pcm2Sample (c : Config) (d : Depth) (free : Nat) (p : Word) : Sample :=
  if pcmInRange d p then BitVec.ofInt 32 (p.toInt * 2 ^ (32 - d.bits)) else c.pcmFree free

/-- The PCM value of a channel in a frame (R107); a well-formed frame has one for every channel. -/
def framePcm (f : PcmFrame) (ch : Chan) : Word := f.getD ch.index 0

/-- The Samples of one channel of a packet, in frame order (R190); `free` counts the payload words before it. -/
def channelSamples (c : Config) (d : Depth) (ch : Chan) : Nat → List PcmFrame → List Sample
  | _, [] => []
  | free, f :: fs =>
    pcm2Sample c d (free + ch.index) (framePcm f ch) :: channelSamples c d ch (free + c.nch) fs

/-- `F.sat32` (R168): saturation at the ends of `i32`, otherwise rounding toward zero; a NaN faults. -/
def sat32 (n : Numerics) (v : FVal) : Except Fault Sample :=
  match n.val v with
  | .nan => .error .nanAtBoundary
  | .inf true => .ok (BitVec.ofInt 32 (-2147483648))
  | .inf false => .ok (BitVec.ofInt 32 2147483647)
  | .fin q =>
    if 2147483647 ≤ q then .ok (BitVec.ofInt 32 2147483647)
    else if q ≤ -2147483648 then .ok (BitVec.ofInt 32 (-2147483648))
    else .ok (BitVec.ofInt 32 (q.num.tdiv q.den))

/-- `SatUnit(x)`: 0 for x < 0, 1 for x > 1, x otherwise; a NaN faults (R220). -/
def satUnit (n : Numerics) (x : FVal) : Except Fault FVal :=
  match n.val x with
  | .nan => .error .nanAtBoundary
  | .inf true => .ok n.zero
  | .inf false => .ok (n.ofReal 1)
  | .fin q => if q < 0 then .ok n.zero else if 1 < q then .ok (n.ofReal 1) else .ok x

/-- `toF(s) = F.ofInt(s)` (R167). -/
def toF (n : Numerics) (x : Sample) : FVal := n.ofInt x.toInt

/-- `OutWord(s)` (R240): all 32 bits, or `zext_32(s[31:16])`. -/
def outWord (c : Config) (x : Sample) : Word :=
  match c.wordSize with
  | .w32 => x
  | .w16 => x >>> 16

/-- `dev = (cap div 2) − occ`, signed (R211, R213). -/
def deviation (cap occ : Nat) : Int := ((cap / 2 : Nat) : Int) - occ

/-- `corr = clamp(dev div R1, −FB_LIMIT, +FB_LIMIT)`, `div` toward zero (R213, R216). -/
def fbCorrection (c : Config) (dev : Int) (r : Ratio1) : Int := clampInt (dev.tdiv r.toNat) (-c.fbLimit) c.fbLimit

/-- `Fb1014(rate) = (rate × 16384) div 1000`, reduced to 24 bits (R214). -/
def fb1014 (rate : Int) : BitVec 24 := BitVec.ofInt 24 ((rate * 16384).tdiv 1000)

/-- The 24-bit feedback value for an occupancy, a rate and a ratio (R213). -/
def fbValue (c : Config) (cap occ : Nat) (f : Rate) (r : Ratio1) : BitVec 24 :=
  fb1014 (f.hz + fbCorrection c (deviation cap occ) r)

/-- The three bytes sent: bits 7:0, bits 15:8, bits 23:16 (R215). -/
def fbBytes (v : BitVec 24) : List (BitVec 8) := [v.extractLsb' 0 8, v.extractLsb' 8 8, v.extractLsb' 16 8]

/-- `sign(v)` (R12). -/
def signInt (v : Int) : Int := if 0 < v then 1 else if v < 0 then -1 else 0

end Sys2Proof.Machine
end

