-- ==== Sys2Proof/Machine/Ops.lean ====
section
/-! DEFINITION. The named operations over ADP's state that every family calls: the memory primitives (20_memory.md R72), the
lock (R80), the phases of a write and a read (40_ringbuffer.md R141, R142) and the two run to their end, the delay arrays, the
slots and the queue (44_scheduler.md R235, R238, R241). ADP takes no exception in the sense of an entry that saves and a
return that restores (60_exceptions.md R307, R308): its interrupt is `DmaComplete` (R242), which leaves `dma_pend`. -/

namespace Sys2Proof.Machine

/-! ## Memory (R70, R72) -/

/-- Where an index stands in a list of cells. -/
def cellsGet : List (Nat × Word) → Nat → Option Word
  | [], _ => none
  | (j, w) :: r, i => if i = j then some w else cellsGet r i

/-- The list with one element written; indices stay strictly rising. -/
def cellsPut : List (Nat × Word) → Nat → Word → List (Nat × Word)
  | [], i, v => [(i, v)]
  | (j, w) :: r, i, v =>
    if i < j then (i, v) :: (j, w) :: r else if i = j then (i, v) :: r else (j, w) :: cellsPut r i v

/-- The list with one index no longer listed. -/
def cellsErase : List (Nat × Word) → Nat → List (Nat × Word)
  | [], _ => []
  | (j, w) :: r, i => if i = j then r else (j, w) :: cellsErase r i

/-- The indices are strictly rising, and all above `lo`. -/
def cellsRising : Option Nat → List (Nat × Word) → Bool
  | _, [] => true
  | none, (j, _) :: r => cellsRising (some j) r
  | some lo, (j, _) :: r => lo < j && cellsRising (some j) r

/-- The element at an index, if one is listed. -/
def Mem.get (m : Mem) (i : Nat) : Option Word := cellsGet m.cells i

/-- The index space with one element written. -/
def Mem.put (m : Mem) (i : Nat) (v : Word) : Mem := ⟨cellsPut m.cells i v⟩

/-- What a word of a slot's payload reads as: an unlisted one is 0 (R57). -/
def Mem.getZero (m : Mem) (i : Nat) : Word := (m.get i).getD 0

/-- A slot's payload with one word written: a zero word is not listed. -/
def Mem.putZero (m : Mem) (i : Nat) (v : Word) : Mem := if v = 0 then ⟨cellsErase m.cells i⟩ else m.put i v

/-- The payload with the words of a list written from index `i` on. -/
def Mem.putZeroRun (m : Mem) : Nat → List Word → Mem
  | _, [] => m
  | i, w :: ws => (m.putZero i w).putZeroRun (i + 1) ws

/-- The canonical form of an index space whose unlisted indices hold no value. -/
def Mem.wf (m : Mem) : Bool := cellsRising none m.cells

/-- The canonical form of an index space whose unlisted indices hold 0. -/
def Mem.wfZero (m : Mem) : Bool := m.wf && m.cells.all fun p => p.2 != 0

/-! ## Ring buffers -/

/-- The producer of a buffer (R21). -/
def producerOf : BufId → Agent
  | .ep0 | .ep1 => .usbcb
  | .mid0 | .mid1 => .ticka

/-- The consumer of a buffer (R21). -/
def consumerOf : BufId → Agent
  | .ep0 | .ep1 => .ticka
  | .mid0 | .mid1 => .pollb

/-- The endpoint buffer of a channel (R21). -/
def epOf : Chan → BufId
  | .c0 => .ep0
  | .c1 => .ep1

/-- The intermediate buffer of a channel (R21). -/
def midOf : Chan → BufId
  | .c0 => .mid0
  | .c1 => .mid1

/-- `rb[b]`. -/
def Buffers.get (m : Buffers) : BufId → RingBuffer
  | .ep0 => m.ep0
  | .ep1 => m.ep1
  | .mid0 => m.mid0
  | .mid1 => m.mid1

/-- `rb[b] <- q`. -/
def Buffers.set (m : Buffers) (b : BufId) (q : RingBuffer) : Buffers :=
  match b with
  | .ep0 => { m with ep0 := q }
  | .ep1 => { m with ep1 := q }
  | .mid0 => { m with mid0 := q }
  | .mid1 => { m with mid1 := q }

/-- `rb[b]` of a state. -/
def State.buf (s : State) (b : BufId) : RingBuffer := s.rb.get b

/-- The state with `rb[b] <- q`. -/
def State.setBuf (s : State) (b : BufId) (q : RingBuffer) : State := { s with rb := s.rb.set b q }

/-- All four buffers are valid. -/
def State.allValid (s : State) : Bool := s.rb.ep0.valid && s.rb.ep1.valid && s.rb.mid0.valid && s.rb.mid1.valid

/-- `cap − cnt`, the free space. -/
def RingBuffer.free (q : RingBuffer) : Nat := q.cap - q.cnt

/-- The buffer right after `RB.INIT` (R131): no element holds a value. -/
def RingBuffer.init (mode : Bool) (capacity : Nat) : RingBuffer :=
  { valid := true, mode := mode, cap := capacity, wr := 0, rd := 0, cnt := 0, mem := .empty, lock := .free,
    prodOp := none, consOp := none }

/-- The cursors and the count at 0, all else unchanged (R132). -/
def RingBuffer.cleared (q : RingBuffer) : RingBuffer := { q with wr := 0, rd := 0, cnt := 0 }

/-- `RB.CLEAR` (R132): a write or read in flight is the fault `ClearRace`. -/
def RingBuffer.clear (q : RingBuffer) : Except Fault RingBuffer :=
  if q.prodOp.isNone && q.consOp.isNone then .ok q.cleared else .error .clearRace

/-- `MemRead(b, i)` (R72); an element without a value stops (R25, R57). -/
def RingBuffer.memRead (q : RingBuffer) (i : Nat) : Except Fault Sample :=
  if i < q.cap then
    match q.mem.get i with
    | some v => .ok v
    | none => .error .elementWithoutValue
  else .error .indexOutOfRange

/-- `MemWrite(b, i, v)` (R72). -/
def RingBuffer.memWrite (q : RingBuffer) (i : Nat) (v : Sample) : Except Fault RingBuffer :=
  if i < q.cap then .ok { q with mem := q.mem.put i v } else .error .indexOutOfRange

/-- The copy of a write (R141): `MemWrite(b, (wr + i) mod cap, S[i])` for every i, from `i` on. -/
def RingBuffer.copyIn (q : RingBuffer) : Nat → List Sample → Except Fault RingBuffer
  | _, [] => .ok q
  | i, x :: xs =>
    match q.memWrite ((q.wr + i) % q.cap) x with
    | .ok q' => q'.copyIn (i + 1) xs
    | .error f => .error f

/-- The copy of a read (R142): `D[i] <- MemRead(b, (rd + i) mod cap)` for `n` elements, from `i` on. -/
def RingBuffer.copyOut (q : RingBuffer) : Nat → Nat → Except Fault (List Sample)
  | _, 0 => .ok []
  | i, n + 1 =>
    match q.memRead ((q.rd + i) % q.cap) with
    | .error f => .error f
    | .ok v =>
      match q.copyOut (i + 1) n with
      | .ok vs => .ok (v :: vs)
      | .error f => .error f

/-- `acquire(b)` by agent `a` (R80): enabled only when the lock is free. -/
def RingBuffer.acquire (q : RingBuffer) (a : Agent) : Option RingBuffer :=
  match q.lock with
  | .free => some { q with lock := .held a }
  | .held _ => none

/-- `release(b)` (R80). -/
def RingBuffer.release (q : RingBuffer) : RingBuffer := { q with lock := .free }

/-- The register writes of a write's publish phase (R141); `cnt` is read again, not taken from the check. -/
def RingBuffer.advanceWr (q : RingBuffer) (n : Nat) : RingBuffer :=
  { q with wr := (q.wr + n) % q.cap, cnt := q.cnt + n, prodOp := none }

/-- The register writes of a read's publish phase (R142). -/
def RingBuffer.advanceRd (q : RingBuffer) (n : Nat) : RingBuffer :=
  { q with rd := (q.rd + n) % q.cap, cnt := q.cnt - n, consOp := none }

/-- A critical section: under the lock in locked mode, without it in unlocked mode (R80, R81, R82); `none` while another
agent holds the lock. -/
def RingBuffer.critical (q : RingBuffer) (a : Agent) (f : RingBuffer → RingBuffer) : Option RingBuffer :=
  if q.mode then
    match q.acquire a with
    | some q' => some (f q').release
    | none => none
  else some (f q)

/-- The publish phase of a write of `n` elements (R141). -/
def RingBuffer.publishIn (q : RingBuffer) (a : Agent) (n : Nat) : Option RingBuffer := q.critical a (·.advanceWr n)

/-- The publish phase of a read of `n` elements (R142). -/
def RingBuffer.publishOut (q : RingBuffer) (a : Agent) (n : Nat) : Option RingBuffer := q.critical a (·.advanceRd n)

/-- Copy and publish of a write whose check has passed, run to the end (R141, R144). -/
def RingBuffer.write (q : RingBuffer) (a : Agent) (xs : List Sample) : Except Fault RingBuffer :=
  match q.copyIn 0 xs with
  | .error f => .error f
  | .ok q' =>
    match q'.publishIn a xs.length with
    | some q'' => .ok q''
    | none => .error .lockHeld

/-- Copy and publish of a read whose check has passed, run to the end (R142, R144). -/
def RingBuffer.read (q : RingBuffer) (a : Agent) (n : Nat) : Except Fault (List Sample × RingBuffer) :=
  match q.copyOut 0 n with
  | .error f => .error f
  | .ok d =>
    match q.publishOut a n with
    | some q' => .ok (d, q')
    | none => .error .lockHeld

/-- `Write(b, S)` by the producer of `b`, whose check has passed (R141). -/
def State.writeBuf (s : State) (b : BufId) (xs : List Sample) : Except Fault State :=
  match (s.buf b).write (producerOf b) xs with
  | .ok q => .ok (s.setBuf b q)
  | .error f => .error f

/-- `Read(b, n)` by the consumer of `b`, whose check has passed (R142). -/
def State.readBuf (s : State) (b : BufId) (n : Nat) : Except Fault (List Sample × State) :=
  match (s.buf b).read (consumerOf b) n with
  | .ok (d, q) => .ok (d, s.setBuf b q)
  | .error f => .error f

/-! ## Agents (R27, R312) -/

/-- The agent is in no operation of its row of R312. A single write or read in flight does not count here (DESIGN CHOICE, log entry 35:
R312 gives those to no agent), so two of one agent on different buffers may be in flight at once, and `CTL.ADJ` and `VOL.SMOOTH` start
meanwhile. -/
def State.agentIdle (s : State) : Agent → Bool
  | .usbcb => s.usb == .idle
  | .ticka => s.tick == .idle
  | .maina => s.main == .idle
  | .pollb => s.poll == .idle
  | .hostfb => s.host == .idle
  | .boot | .ctrl | .pwr | .dmairq => true

/-- No write on `b` is in flight and its producer is in no operation, so that one more write is by the one producer (R87). -/
def State.producerFree (s : State) (b : BufId) : Bool := (s.buf b).prodOp.isNone && s.agentIdle (producerOf b)

/-- No read on `b` is in flight and its consumer is in no operation (R87). -/
def State.consumerFree (s : State) (b : BufId) : Bool := (s.buf b).consOp.isNone && s.agentIdle (consumerOf b)

/-! ## Delay arrays (R53, R54) -/

/-- The delay arrays of a channel. -/
def ChanDelays.get (d : ChanDelays) : Chan → Delays
  | .c0 => d.c0
  | .c1 => d.c1

/-- The delay arrays of a channel replaced. -/
def ChanDelays.set (d : ChanDelays) (ch : Chan) (v : Delays) : ChanDelays :=
  match ch with
  | .c0 => { d with c0 := v }
  | .c1 => { d with c1 := v }

/-- The set of chain 1 for a ratio. -/
def Banks1.get (d : Banks1) : Ratio1 → ChanDelays
  | .x1 => d.x1
  | .x2 => d.x2
  | .x4 => d.x4
  | .x8 => d.x8

/-- The set of chain 1 for a ratio replaced. -/
def Banks1.set (d : Banks1) (r : Ratio1) (v : ChanDelays) : Banks1 :=
  match r with
  | .x1 => { d with x1 := v }
  | .x2 => { d with x2 := v }
  | .x4 => { d with x4 := v }
  | .x8 => { d with x8 := v }

/-- The set of chain 2 for a ratio. -/
def Banks2.get (d : Banks2) : Ratio2 → ChanDelays
  | .x1 => d.x1
  | .x2 => d.x2
  | .x4 => d.x4

/-- The set of chain 2 for a ratio replaced. -/
def Banks2.set (d : Banks2) (r : Ratio2) (v : ChanDelays) : Banks2 :=
  match r with
  | .x1 => { d with x1 := v }
  | .x2 => { d with x2 := v }
  | .x4 => { d with x4 := v }

/-- Every element of every delay array at F zero; the lengths stay (R171). -/
def Delays.zeroed (z : FVal) (d : Delays) : Delays := d.map fun a => a.map fun _ => z

/-- One channel of a set zeroed. -/
def ChanDelays.zeroChan (z : FVal) (ch : Chan) (d : ChanDelays) : ChanDelays := d.set ch (Delays.zeroed z (d.get ch))

/-- `d1[ch]` zeroed in the sets of every ratio (R171). -/
def Banks1.zeroChan (z : FVal) (ch : Chan) (d : Banks1) : Banks1 :=
  ⟨d.x1.zeroChan z ch, d.x2.zeroChan z ch, d.x4.zeroChan z ch, d.x8.zeroChan z ch⟩

/-- `d2[ch]` zeroed in the sets of every ratio (R171). -/
def Banks2.zeroChan (z : FVal) (ch : Chan) (d : Banks2) : Banks2 :=
  ⟨d.x1.zeroChan z ch, d.x2.zeroChan z ch, d.x4.zeroChan z ch⟩

/-- The delay arrays of one chain and channel zeroed (R171). -/
def State.clearDelay (c : Config) (s : State) (sel : FltSel) : State :=
  match sel.chain with
  | .chain1 => { s with d1 := s.d1.zeroChan c.num.zero sel.chan }
  | .chain2 => { s with d2 := s.d2.zeroChan c.num.zero sel.chan }

/-- The delay arrays of both chains and both channels zeroed (R171, `ALL`). -/
def State.clearAllDelays (c : Config) (s : State) : State :=
  { s with d1 := (s.d1.zeroChan c.num.zero .c0).zeroChan c.num.zero .c1
           d2 := (s.d2.zeroChan c.num.zero .c0).zeroChan c.num.zero .c1 }

/-! ## Slots, queue, transfer -/

/-- `slot[i]`. -/
def State.slotAt (s : State) (i : Nat) : Slot := s.slots.getD i .zeroed

/-- The frame a slot holds: its count and its first `count` payload words (R241). -/
def Slot.frame (sl : Slot) : TxFrame := ⟨sl.count, (List.range sl.count).map fun j => sl.payload.getZero j⟩

/-- A slot filled with payload words from index 0; words above them keep what they held (R56, R235). -/
def Slot.fill (c : Config) (sl : Slot) (ws : List Word) : Except Fault Slot :=
  if ws.length ≤ c.slotCap then .ok ⟨ws.length, sl.payload.putZeroRun 0 ws⟩ else .error .indexOutOfRange

/-- The index writes of `Enqueue` (R238). -/
def State.bumpWr (c : Config) (s : State) : State := { s with qWr := (s.qWr + 1) % c.txqDepth, qCnt := s.qCnt + 1 }

/-- Index updates with the completion interrupt masked around them (R84, R238). -/
def State.masked (s : State) (f : State → State) : State := { f { s with irqMask := true } with irqMask := false }

/-- `Enqueue` (R238). -/
def State.enqueue (c : Config) (s : State) : State := s.masked (State.bumpWr c)

/-- The queue indices and every slot at zero (R236, R270). -/
def State.zeroQueue (s : State) : State := { s with qWr := 0, qRd := 0, qCnt := 0, slots := s.slots.map fun _ => .zeroed }

/-- `Silence` (R243). -/
def silence (c : Config) : TxFrame := ⟨c.silenceWords, List.replicate c.silenceWords 0⟩

/-- The hardware transfer armed with a frame, which enters `out_stream` (R241, R273). -/
def State.arm (s : State) (f : TxFrame) : State :=
  { s with dmaCur := f, dmaBusy := true, outStream := s.outStream ++ [f] }

/-- The hardware event `DmaComplete` (R242): enabled when `dma_busy = 1`. -/
def State.dmaComplete (s : State) : State := if s.dmaBusy then { s with dmaBusy := false, dmaPend := true } else s

end Sys2Proof.Machine
end

