-- ==== Sys2Proof/Machine/Controller.lean ====
section
/-! DEFINITION. The Rate-Adaptation Controller and the volume smoothing (43_controller.md): `CTL.ADJ`, `FB.REPORT`,
`VOL.SMOOTH`. -/

namespace Sys2Proof.Machine

/-- `TICKA` may start an operation of its own row: it is in none, and no read or write issued on its own is in flight on the
buffers it consumes and produces (R87, R312, U1). -/
def State.tickaBlocked (s : State) : Option Refusal :=
  if s.tick != .idle then some .agentBusy
  else if s.rb.ep0.consOp.isSome || s.rb.ep1.consOp.isSome then some .secondConsumer
  else if s.rb.mid0.prodOp.isSome || s.rb.mid1.prodOp.isSome then some .secondProducer
  else none

/-- An operation, unless its agent may not start it. -/
def ifFree (blocked : Option Refusal) (k : Host.Outcome State Fault Refusal) : Host.Outcome State Fault Refusal :=
  match blocked with
  | some r => .refused r
  | none => k

/-! ## CTL.ADJ -/

/-- The new `adj` (R211): the sign of `target − occupancy` of `MID0`. -/
def ctlSign (s : State) : Int := signInt (deviation s.rb.mid0.cap s.rb.mid0.cnt)

/-- `adj <- sign(dev)` (R211). -/
def ctlUpdate (s : State) : State := { s with adj := ctlSign s }

/-- `CTL.ADJ` (R211): returns `adj` as a two's-complement word. -/
def execCtlAdj (s : State) : Host.Outcome State Fault Refusal :=
  ifFree (if s.tick != .idle then some .agentBusy else none) <|
    if s.rb.mid0.valid then (ctlUpdate s).ok [BitVec.ofInt 32 (ctlSign s)] else s.raise .notInitialised

/-! ## FB.REPORT -/

/-- The value word of a feedback value: bits 23:0 (R105). -/
def fbWord (v : BitVec 24) : Word := v.setWidth 32

/-- `FB.REPORT` under a configuration, its three reads in one step (R213). -/
def fbReport (c : Config) (s : State) : Host.Outcome State Fault Refusal :=
  match s.fCur, s.r1 with
  | some f, some r =>
    if s.rb.mid0.valid then s.ok [fbWord (fbValue c s.rb.mid0.cap s.rb.mid0.cnt f r)] else s.raise .notInitialised
  | _, _ => s.raise .notInitialised

/-- `FB.REPORT` (R213). -/
def execFbReport (s : State) : Host.Outcome State Fault Refusal :=
  ifFree (if s.host != .idle then some .agentBusy else none) (fbReport Config.current s)

/-! ## VOL.SMOOTH -/

/-- `vol_smooth + ((t − vol_smooth) × ALPHA)` (R218). -/
def smoothed (c : Config) (old t : FVal) : FVal := c.num.add old (c.num.mul (c.num.sub t old) (c.num.ofReal c.alpha))

/-- The three writes of `VOL.SMOOTH`, `v` being the value read from `vol_req` (R218). -/
def volUpdate (c : Config) (v : BitVec 16) (s : State) : Except Fault State :=
  match satUnit c.num (c.volCurve (smoothed c s.volSmooth (c.num.ofInt v.toInt))) with
  | .ok g => .ok { s with volAcq := v, volSmooth := smoothed c s.volSmooth (c.num.ofInt v.toInt), gain := g }
  | .error f => .error f

/-- `VOL.SMOOTH` under a configuration (R218). -/
def volSmooth (c : Config) (s : State) : Host.Outcome State Fault Refusal :=
  match s.volReq with
  | some v =>
    match volUpdate c v s with
    | .ok s' => s'.ok []
    | .error f => .fault f
  | none => s.raise .notInitialised

/-- `VOL.SMOOTH` (R218). -/
def execVolSmooth (s : State) : Host.Outcome State Fault Refusal :=
  ifFree (if s.tick != .idle then some .agentBusy else none) (volSmooth Config.current s)

end Sys2Proof.Machine
end

