-- ==== Sys2Proof/Machine/Filters.lean ====
section
/-! DEFINITION. The filter stages and chains (41_filters.md R160 to R170) and the operations `FLT.CLEAR` and `FLT.RUN`. -/

namespace Sys2Proof.Machine

/-- `FirInterp` (R162): the delay array after the input has been shifted in. -/
def firShift (d : List FVal) (x : FVal) : List FVal := x :: d.dropLast

/-- `FirInterp` (R162): output of phase `p`, the sum over k = 0 .. P−1, upward, of `h[k×L + p] × d[k]`. -/
def firPhase (n : Numerics) (L P : Nat) (h d : List FVal) (p : Nat) : FVal :=
  (List.range P).foldl (fun acc k => n.add acc (n.mul (h.getD (k * L + p) n.zero) (d.getD k n.zero))) n.zero

/-- `FirInterp(stage, d, x)` (R162): L outputs, p = 0 first, and the new delay array. -/
def firInterp (n : Numerics) (L P : Nat) (h d : List FVal) (x : FVal) : List FVal × List FVal :=
  ((List.range L).map (firPhase n L P h (firShift d x)), firShift d x)

/-- The output of `Biquad(q, s, v)` (R164), evaluated in the order written. -/
def biquadOut (n : Numerics) (q : Biquad) (x1 x2 y1 y2 v : FVal) : FVal :=
  n.sub (n.sub (n.add (n.add (n.mul q.b0 v) (n.mul q.b1 x1)) (n.mul q.b2 x2)) (n.mul q.a1 y1)) (n.mul q.a2 y2)

/-- The sections in cascade (R165): section j's state at `d[4j .. 4j+3]` in the order x1, x2, y1, y2. -/
def runSections (n : Numerics) : List Biquad → List FVal → FVal → FVal × List FVal
  | [], _, v => (v, [])
  | q :: qs, d, v =>
    let x1 := d.getD 0 n.zero
    let x2 := d.getD 1 n.zero
    let y1 := d.getD 2 n.zero
    let y2 := d.getD 3 n.zero
    let y := biquadOut n q x1 x2 y1 y2 v
    let rest := runSections n qs (d.drop 4) y
    (rest.1, v :: x1 :: y :: y1 :: rest.2)

/-- `ReplBiquad(stage, d, x)` (R165): the input repeated N times through the cascade. -/
def replBiquad (n : Numerics) (q : List Biquad) (x : FVal) : Nat → List FVal → List FVal × List FVal
  | 0, d => ([], d)
  | k + 1, d =>
    let one := runSections n q d x
    let rest := replBiquad n q x k one.2
    (one.1 :: rest.1, rest.2)

/-- One input through one stage. -/
def stageStep (n : Numerics) (st : Stage) (d : List FVal) (x : FVal) : List FVal × List FVal :=
  match st with
  | .firi L P h => firInterp n L P h d x
  | .rbq N q => replBiquad n q x N d

/-- A list of inputs through one stage, outputs concatenated in order (R166). -/
def stageRun (n : Numerics) (st : Stage) : List FVal → List FVal → List FVal × List FVal
  | d, [] => ([], d)
  | d, x :: xs =>
    let one := stageStep n st d x
    let rest := stageRun n st one.2 xs
    (one.1 ++ rest.1, rest.2)

/-- `RunStages(stages, D, xs)` (R166). -/
def runStages (n : Numerics) : List Stage → Delays → List FVal → List FVal × Delays
  | [], _, xs => (xs, [])
  | st :: sts, ds, xs =>
    let one := stageRun n st (ds.headD []) xs
    let rest := runStages n sts ds.tail one.1
    (rest.1, one.2 :: rest.2)

/-- `F.sat32` of every element of a list, in order (R169). -/
def satAll (n : Numerics) : List FVal → Except Fault (List Sample)
  | [] => .ok []
  | v :: vs =>
    match sat32 n v with
    | .error f => .error f
    | .ok x =>
      match satAll n vs with
      | .ok xs => .ok (x :: xs)
      | .error f => .error f

/-- A Sample at the head of a chain: `toF(x) × g`, or `toF(x)` where the gain is 1 and not multiplied (R169). -/
def chainInput (n : Numerics) (g : Option FVal) (x : Sample) : FVal :=
  match g with
  | some g => n.mul (toF n x) g
  | none => toF n x

/-- `RunChain` on a stage list and its delay arrays (R169). -/
def runChain (n : Numerics) (stages : List Stage) (ds : Delays) (xs : List Sample) (g : Option FVal) :
    Except Fault (List Sample × Delays) :=
  let r := runStages n stages ds (xs.map (chainInput n g))
  match satAll n r.1 with
  | .ok ys => .ok (ys, r.2)
  | .error f => .error f

/-- `RunChain(1, ch, X, g)` with ratio `r` (R169). -/
def State.runChain1 (c : Config) (s : State) (r : Ratio1) (ch : Chan) (xs : List Sample) (g : Option FVal) :
    Except Fault (List Sample × State) :=
  match runChain c.num (c.chain1 r) ((s.d1.get r).get ch) xs g with
  | .ok (ys, d) => .ok (ys, { s with d1 := s.d1.set r ((s.d1.get r).set ch d) })
  | .error f => .error f

/-- `RunChain(2, ch, X, 1)` with ratio `r` (R169). -/
def State.runChain2 (c : Config) (s : State) (r : Ratio2) (ch : Chan) (xs : List Sample) :
    Except Fault (List Sample × State) :=
  match runChain c.num (c.chain2 r) ((s.d2.get r).get ch) xs none with
  | .ok (ys, d) => .ok (ys, { s with d2 := s.d2.set r ((s.d2.get r).set ch d) })
  | .error f => .error f

/-- The end of a `FLT.RUN`: the outputs are the value words. -/
def fltRunEnd (r : Except Fault (List Sample × State)) : Host.Outcome State Fault Refusal :=
  match r with
  | .ok (ys, s') => s'.ok ys
  | .error f => .fault f

/-- `FLT.CLEAR sel` under a configuration (R171). -/
def fltClear (c : Config) (sel : ClearSel) (s : State) : Host.Outcome State Fault Refusal :=
  match sel with
  | .one sel => (s.clearDelay c sel).ok []
  | .all => (s.clearAllDelays c).ok []

/-- `FLT.RUN sel, n, [samples]` under a configuration (R172). -/
def fltRun (c : Config) (sel : FltSel) (xs : List Sample) (s : State) : Host.Outcome State Fault Refusal :=
  match sel.chain with
  | .chain1 =>
    match s.r1 with
    | some r => fltRunEnd (s.runChain1 c r sel.chan xs none)
    | none => s.raise .notInitialised
  | .chain2 =>
    match s.r2 with
    | some r => fltRunEnd (s.runChain2 c r sel.chan xs)
    | none => s.raise .notInitialised

/-- `FLT.CLEAR sel` (R171). -/
def execFltClear (sel : ClearSel) (s : State) : Host.Outcome State Fault Refusal := fltClear Config.current sel s

/-- `FLT.RUN sel, n, [samples]` (R172). -/
def execFltRun (sel : FltSel) (xs : List Sample) (s : State) : Host.Outcome State Fault Refusal :=
  fltRun Config.current sel xs s

end Sys2Proof.Machine
end

