-- ==== Sys2Proof/Machine/Engine.lean ====
section
/-! DEFINITION. Ingestion, the Upsampling Engine and the tick (42_engine.md): `USB.PUSH`, `ENG.RUN`, `TICK`. -/

namespace Sys2Proof.Machine

/-! ## USB.PUSH -/

/-- `USBCB` may start: it is in no operation and no write issued on its own is in flight on its buffers (R87, U1). -/
def State.usbcbBlocked (s : State) : Option Refusal :=
  if s.usb != .idle then some .agentBusy
  else if s.rb.ep0.prodOp.isSome || s.rb.ep1.prodOp.isSome then some .secondProducer
  else none

/-- The writes of a `USB.PUSH` whose check has passed: channel 0 to `EP0`, channel 1, if the machine has it, to `EP1` (R190). -/
def pushWrite (c : Config) (d : Depth) (frames : List PcmFrame) (s : State) : Except Fault State :=
  match s.writeBuf .ep0 (channelSamples c d .c0 s.pcmFree frames) with
  | .error f => .error f
  | .ok s' =>
    match c.ifTwo (s'.writeBuf .ep1 (channelSamples c d .c1 s.pcmFree frames)) (.ok s') with
    | .error f => .error f
    | .ok s'' => .ok { s'' with pcmFree := s.pcmFree + c.nch * frames.length }

/-- `USB.PUSH k, [frames]` under a configuration (R190, R306): a packet during REINIT is discarded with `OK`; a packet that
does not fit both EP buffers is dropped whole. -/
def usbPush (c : Config) (frames : List PcmFrame) (s : State) : Host.Outcome State Fault Refusal :=
  if s.reinitBusy then s.ok []
  else
    match s.depth with
    | none => s.raise .notInitialised
    | some d =>
      if s.rb.ep0.valid && s.rb.ep1.valid then
        if frames.length ≤ c.least s.rb.ep0.free s.rb.ep1.free then
          match pushWrite c d frames s with
          | .ok s' => s'.ok []
          | .error f => .fault f
        else s.raise .bufferFull
      else s.raise .notInitialised

/-- `USB.PUSH k, [frames]` (R190). -/
def execUsbPush (frames : List PcmFrame) (s : State) : Host.Outcome State Fault Refusal :=
  ifFree s.usbcbBlocked (usbPush Config.current frames s)

/-! ## ENG.RUN -/

/-- One channel of an `ENG.RUN`: `X <- Read(EP_c, n); Y <- RunChain(1, c, X, g); Write(MID_c, Y)` (R192). -/
def engChannel (c : Config) (r : Ratio1) (g : FVal) (n : Nat) (ch : Chan) (s : State) : Except Fault State :=
  match s.readBuf (epOf ch) n with
  | .error f => .error f
  | .ok (x, s1) =>
    match s1.runChain1 c r ch x (some g) with
    | .error f => .error f
    | .ok (y, s2) => s2.writeBuf (midOf ch) y

/-- `ENG.RUN` after its registers were read (R192, R193). -/
def engBody (c : Config) (f : Rate) (r : Ratio1) (s : State) : OpRes :=
  let n := engCount c f s.adj (c.least s.rb.ep0.cnt s.rb.ep1.cnt)
  if n = 0 then .ok ⟨s, .ok, [0]⟩
  else if n * r.toNat ≤ c.least s.rb.mid0.free s.rb.mid1.free then
    match engChannel c r s.gain n .c0 s with
    | .error e => .error e
    | .ok s1 =>
      match c.ifTwo (engChannel c r s.gain n .c1 s1) (.ok s1) with
      | .error e => .error e
      | .ok s2 => .ok ⟨s2, .ok, [countWord n]⟩
  else .ok ⟨s, .bufferFull, []⟩

/-- `ENG.RUN` under a configuration (R192). -/
def engRun (c : Config) (s : State) : OpRes :=
  match s.fCur, s.r1 with
  | some f, some r => if s.allValid then engBody c f r s else .ok ⟨s, .notInitialised, []⟩
  | _, _ => .ok ⟨s, .notInitialised, []⟩

/-- `ENG.RUN` (R192). -/
def execEngRun (s : State) : Host.Outcome State Fault Refusal := ifFree s.tickaBlocked (engRun Config.current s).outcome

/-! ## TICK -/

/-- `TICK` under a configuration, the timer being enabled (R196): volume, controller, engine. Where a register or a buffer it
reads holds no value it returns `NotInitialised` and writes nothing (R297, R306). -/
def tickBody (c : Config) (s : State) : OpRes :=
  match s.volReq, s.fCur, s.r1 with
  | some v, some f, some r =>
    if s.allValid then
      match volUpdate c v s with
      | .ok s' => engBody c f r (ctlUpdate s')
      | .error e => .error e
    else .ok ⟨s, .notInitialised, []⟩
  | _, _, _ => .ok ⟨s, .notInitialised, []⟩

/-- `TICK` under a configuration: `Held` while the timer is disabled or a tick is in progress (R196, R298, R305). -/
def tickOp (c : Config) (s : State) : Host.Outcome State Fault Refusal :=
  if s.timerEnabled && s.tick == .idle then ifFree s.tickaBlocked (tickBody c s).outcome else s.raise .held

/-- `TICK` (R196). -/
def execTick (s : State) : Host.Outcome State Fault Refusal := tickOp Config.current s

end Sys2Proof.Machine
end

