-- ==== Sys2Proof/Machine/RingBuffers.lean ====
section
/-! DEFINITION. The RingBuffer operations (40_ringbuffer.md): `RB.INIT`, `RB.CLEAR`, `RB.ISFULL`, `RB.USED`, `RB.REMAIN`,
`RB.WRITE1`, `RB.READ1`, `RB.WRITEN`, `RB.READN`, each run to its end (00_scope.md R9 (a)). -/

namespace Sys2Proof.Machine

/-- An operation that requires `rb[b].valid = 1`: `NotInitialised` otherwise (R130). -/
def State.onValid (s : State) (b : BufId) (k : RingBuffer → Host.Outcome State Fault Refusal) :
    Host.Outcome State Fault Refusal :=
  if (s.buf b).valid then k (s.buf b) else s.raise .notInitialised

/-- `Write(b, S)` of R141 as a command: check, copy, publish. -/
def State.writeOp (s : State) (b : BufId) (xs : List Sample) : Host.Outcome State Fault Refusal :=
  s.onValid b fun q =>
    if s.producerFree b then
      if xs.length ≤ q.free then
        match s.writeBuf b xs with
        | .ok s' => s'.ok []
        | .error f => .fault f
      else s.raise .bufferFull
    else .refused .secondProducer

/-- `Read(b, n)` of R142 as a command, with the result `few` when there are fewer than `n` elements. -/
def State.readOp (s : State) (b : BufId) (n : Nat) (few : Result) : Host.Outcome State Fault Refusal :=
  s.onValid b fun q =>
    if s.consumerFree b then
      if n ≤ q.cnt then
        match s.readBuf b n with
        | .ok (d, s') => s'.ok d
        | .error f => .fault f
      else s.raise few
    else .refused .secondConsumer

/-- `RB.INIT b, mode, [capacity]` (R131, R306): already valid, then capacity 0, both `InitError`. -/
def execRbInit (b : BufId) (mode : Bool) (capacity : Word) (s : State) : Host.Outcome State Fault Refusal :=
  if (s.buf b).valid then s.raise .initError
  else if capacity = 0 then s.raise .initError
  else (s.setBuf b (.init mode capacity.toNat)).ok []

/-- `RB.CLEAR b` (R132). -/
def execRbClear (b : BufId) (s : State) : Host.Outcome State Fault Refusal :=
  s.onValid b fun q =>
    match q.clear with
    | .ok q' => (s.setBuf b q').ok []
    | .error f => .fault f

/-- `RB.ISFULL b` (R133). -/
def execRbIsFull (b : BufId) (s : State) : Host.Outcome State Fault Refusal :=
  s.onValid b fun q => s.ok [if q.cnt = q.cap then 1 else 0]

/-- `RB.USED b` (R134). -/
def execRbUsed (b : BufId) (s : State) : Host.Outcome State Fault Refusal :=
  s.onValid b fun q => s.ok [countWord q.cnt]

/-- `RB.REMAIN b` (R135). -/
def execRbRemain (b : BufId) (s : State) : Host.Outcome State Fault Refusal :=
  s.onValid b fun q => s.ok [countWord q.free]

/-- `RB.WRITE1 b, [sample]` (R136). -/
def execRbWrite1 (b : BufId) (x : Sample) (s : State) : Host.Outcome State Fault Refusal := s.writeOp b [x]

/-- `RB.READ1 b` (R137): the one operation that returns `BufferEmpty`. -/
def execRbRead1 (b : BufId) (s : State) : Host.Outcome State Fault Refusal := s.readOp b 1 .bufferEmpty

/-- `RB.WRITEN b, n, [samples]` (R138). -/
def execRbWriteN (b : BufId) (xs : List Sample) (s : State) : Host.Outcome State Fault Refusal := s.writeOp b xs

/-- `RB.READN b, n` (R139). -/
def execRbReadN (b : BufId) (n : Nat) (s : State) : Host.Outcome State Fault Refusal := s.readOp b n .insufficientData

end Sys2Proof.Machine
end

