-- ==== Sys2Proof/Machine/Scheduler.lean ====
section
/-! DEFINITION. The Transmit Scheduler, the transmit queue and the DMA completion (44_scheduler.md): `TX.POLL`, `DMA.DONE`. -/

namespace Sys2Proof.Machine

/-! ## TX.POLL -/

/-- The actions of a poll (R230). -/
inductive PollAction where
  | idle | started | rendered | skipped | stopDetected | zeroed | held
deriving DecidableEq, Repr

/-- The action code, the value word of `TX.POLL` (R230). -/
def PollAction.code : PollAction → Word
  | .idle => 0
  | .started => 1
  | .rendered => 2
  | .skipped => 3
  | .stopDetected => 4
  | .zeroed => 5
  | .held => 6

/-- The action of a poll that is not held, with `TXQ_DEPTH` = `depth`, the conditions tested in the order of R230. -/
def pollChoice (depth : Nat) (st : SchedState) (thr occ q : Nat) : PollAction :=
  match st with
  | .draining => if thr < occ then .started else .idle
  | .streaming =>
    if occ = 0 ∧ q = 0 then .stopDetected
    else if q = depth then .skipped
    else if occ = 0 then .idle
    else .rendered
  | .drainingToStop => .zeroed

/-- `m`, the input samples per channel one render takes: the occupancy, the slot's capacity and the budget (R235, R239). -/
def renderSize (c : Config) (occ : Nat) (r : Ratio2) : Nat :=
  let m := min occ (c.slotCap / (c.nch * r.toNat))
  match c.renderBudget with
  | some budget => min m budget
  | none => m

/-- The payload words of two channels: interleaved, channel 0 first (R235). -/
def interleave (c : Config) : List Sample → List Sample → List Word
  | y0 :: ys0, y1 :: ys1 => outWord c y0 :: outWord c y1 :: interleave c ys0 ys1
  | _, _ => []

/-- The payload words of a frame (R235). -/
def framePayload (c : Config) (y0 y1 : List Sample) : List Word := c.ifTwo (interleave c y0 y1) (y0.map (outWord c))

/-- The second stage on every channel, the filling of `slot[q_wr]` and `Enqueue` (R235, R238). -/
def renderInto (c : Config) (r : Ratio2) (x0 x1 : List Sample) (s : State) : Except Fault State :=
  match s.runChain2 c r .c0 x0 with
  | .error f => .error f
  | .ok (y0, s1) =>
    match c.ifTwo (s1.runChain2 c r .c1 x1) (.ok ([], s1)) with
    | .error f => .error f
    | .ok (y1, s2) =>
      match (s2.slotAt s2.qWr).fill c (framePayload c y0 y1) with
      | .error f => .error f
      | .ok sl => .ok (State.enqueue c { s2 with slots := s2.slots.set s2.qWr sl })

/-- A render of `m` input samples per channel (R235). -/
def render (c : Config) (r : Ratio2) (m : Nat) (s : State) : Except Fault State :=
  match s.readBuf .mid0 m with
  | .error f => .error f
  | .ok (x0, s1) =>
    match c.ifTwo (s1.readBuf .mid1 m) (.ok ([], s1)) with
    | .error f => .error f
    | .ok (x1, s2) => renderInto c r x0 x1 s2

/-- The zeroing of `DRAINING_TO_STOP` (R236). -/
def zeroStop (s : State) : State := { s.masked State.zeroQueue with schedState := .draining }

/-- The state after an action that renders nothing. -/
def pollPlain (a : PollAction) (s : State) : State :=
  match a with
  | .started => { s with schedState := .streaming }
  | .stopDetected => { s with schedState := .drainingToStop }
  | .zeroed => zeroStop s
  | .idle | .skipped | .rendered | .held => s

/-- The one action of a poll, `occ` and `q` being the values it read (R230). -/
def pollAct (c : Config) (r : Ratio2) (occ q : Nat) (s : State) : OpRes :=
  match pollChoice c.txqDepth s.schedState (s.rb.mid0.cap / 2) occ q with
  | .rendered =>
    match render c r (renderSize c occ r) s with
    | .ok s' => .ok ⟨s', .ok, [PollAction.rendered.code]⟩
    | .error f => .error f
  | a => .ok ⟨pollPlain a s, .ok, [a.code]⟩

/-- `POLLB` may start: it is in no operation and no read issued on its own is in flight on its buffers (R87, U1). -/
def State.pollbBlocked (s : State) : Option Refusal :=
  if s.poll != .idle then some .agentBusy
  else if s.rb.mid0.consOp.isSome || s.rb.mid1.consOp.isSome then some .secondConsumer
  else none

/-- `TX.POLL` under a configuration (R230): held during REINIT, otherwise one action. -/
def txPoll (c : Config) (s : State) : OpRes :=
  if s.reinitBusy then .ok ⟨s, .ok, [PollAction.held.code]⟩
  else
    match s.r2 with
    | none => .ok ⟨s, .notInitialised, []⟩
    | some r =>
      if s.rb.mid0.valid && s.rb.mid1.valid then pollAct c r (c.least s.rb.mid0.cnt s.rb.mid1.cnt) s.qCnt s
      else .ok ⟨s, .notInitialised, []⟩

/-- `TX.POLL` (R230). -/
def execTxPoll (s : State) : Host.Outcome State Fault Refusal := ifFree s.pollbBlocked (txPoll Config.current s).outcome

/-! ## DMA.DONE -/

/-- The completion interrupt's one micro-step (R241): the head of the queue is armed, or a silence frame. -/
def dmaService (c : Config) (s : State) : Done :=
  if 0 < s.qCnt then
    ⟨({ s with dmaPend := false, qRd := (s.qRd + 1) % c.txqDepth, qCnt := s.qCnt - 1 }).arm (s.slotAt s.qRd).frame,
      .ok, [1]⟩
  else ⟨({ s with dmaPend := false }).arm (silence c), .ok, [0]⟩

/-- `DMA.DONE` as a command under a configuration (R241): `DmaComplete` first; `Held` when nothing is pending then, or while
the interrupt is masked (R84, R298). -/
def dmaDone (c : Config) (s : State) : Done :=
  if s.dmaComplete.dmaPend && !s.irqMask then dmaService c s.dmaComplete else ⟨s, .held, []⟩

/-- `DMA.DONE` (R241). -/
def execDmaDone (s : State) : Host.Outcome State Fault Refusal := OpRes.outcome (.ok (dmaDone Config.current s))

end Sys2Proof.Machine
end

