-- ==== Sys2Proof/Machine/System.lean ====
section
/-! DEFINITION. Control writes, the quiescence sequence and Context A's main loop (45_system.md): `SET.RATE`, `SET.DEPTH`,
`SET.VOL`, `SET.MUTE`, `SET.POWER`, `REINIT`, `MAIN.POLL`. -/

namespace Sys2Proof.Machine

/-! ## Control writes (R265) -/

/-- `SET.RATE [rate]` under a configuration (R260): a rate not in `RATES` is ignored. -/
def setRate (c : Config) (rate : Word) (s : State) : Host.Outcome State Fault Refusal :=
  match rateOfHz rate.toNat with
  | some f => if f ∈ c.rates then ({ s with fNom := some f }).ok [] else s.ok []
  | none => s.ok []

/-- `SET.RATE [rate]` (R260). -/
def execSetRate (rate : Word) (s : State) : Host.Outcome State Fault Refusal := setRate Config.current rate s

/-- `SET.DEPTH d` (R261): a depth not in {16, 24, 32} is ignored. -/
def execSetDepth (d : BitVec 6) (s : State) : Host.Outcome State Fault Refusal :=
  match depthOfBits d.toNat with
  | some d => ({ s with depth := some d }).ok []
  | none => s.ok []

/-- `SET.VOL v` under a configuration (R262): a code outside [`VOL_MIN`, `VOL_MAX`] is ignored, not clamped. -/
def setVol (c : Config) (code : BitVec 16) (s : State) : Host.Outcome State Fault Refusal :=
  if c.volMin ≤ code.toInt ∧ code.toInt ≤ c.volMax then ({ s with volReq := some code }).ok [] else s.ok []

/-- `SET.VOL v` (R262). -/
def execSetVol (code : BitVec 16) (s : State) : Host.Outcome State Fault Refusal := setVol Config.current code s

/-- `SET.MUTE m` (R263). -/
def execSetMute (m : Bool) (s : State) : Host.Outcome State Fault Refusal := ({ s with mute := some m }).ok []

/-- `SET.POWER p` (R264). -/
def execSetPower (p : Bool) (s : State) : Host.Outcome State Fault Refusal := ({ s with pmSignal := some p }).ok []

/-! ## The quiescence sequence (R266) -/

/-- The six steps of REINIT, in order (R266). -/
inductive ReinitStep where
  | suspendTimer | reconfigureClock | resumeTimer | abortDma | resetDivider | clearBuffers
deriving DecidableEq, Repr

/-- The six steps in the order R266 runs them. -/
def reinitSteps : List ReinitStep :=
  [.suspendTimer, .reconfigureClock, .resumeTimer, .abortDma, .resetDivider, .clearBuffers]

/-- The step that follows `reinit_step` completed ones (R51). -/
def nextReinitStep (reinitStep : Nat) : Option ReinitStep := reinitSteps[reinitStep]?

/-- Whether a step is enabled: steps 2, 4 and 6 wait for the poll in progress, step 6 also for the push (R274). -/
def reinitEnabled (k : ReinitStep) (s : State) : Bool :=
  match k with
  | .suspendTimer | .resumeTimer | .resetDivider => true
  | .reconfigureClock | .abortDma => !s.pollBusy
  | .clearBuffers => !s.pushBusy && !s.pollBusy

/-- Step 1 (R267). -/
def reinitSuspend (s : State) : State := { s with reinitBusy := true, timerEnabled := false, reinitStep := 1 }

/-- Step 2 (R268). -/
def reinitClock (c : Config) (s : State) : State :=
  { s with fCur := s.fNom, pmCur := s.pmSignal, r1 := s.fNom.map c.r1Of, r2 := s.pmSignal.map c.r2Of, reinitStep := 2 }

/-- Step 3 (R269). -/
def reinitResume (s : State) : State := { s with timerEnabled := true, reinitStep := 3 }

/-- What step 4 does with the interrupt masked (R270). -/
def abortTransfer (s : State) : State := { s.zeroQueue with dmaBusy := false, dmaPend := false, dmaCur := ⟨0, []⟩ }

/-- Step 4 (R270). -/
def reinitAbort (s : State) : State := { s.masked abortTransfer with reinitStep := 4 }

/-- `f_cur × R1 × R2` (R271, R277). -/
def outputRate (f : Option Rate) (r1 : Option Ratio1) (r2 : Option Ratio2) : Option Nat :=
  match f, r1, r2 with
  | some f, some r1, some r2 => some (f.hz * r1.toNat * r2.toNat)
  | _, _, _ => none

/-- Step 5 (R271). -/
def reinitDivider (s : State) : State := { s with outRate := outputRate s.fCur s.r1 s.r2, reinitStep := 5 }

/-- The four `RB.CLEAR`s of step 6 (R273). -/
def clearBuffers (m : Buffers) : Except Fault Buffers :=
  match m.ep0.clear, m.ep1.clear, m.mid0.clear, m.mid1.clear with
  | .ok a, .ok b, .ok c, .ok d => .ok ⟨a, b, c, d⟩
  | _, _, _, _ => .error .clearRace

/-- The mute engagement of step 6 (R273). -/
def engageMute (s : State) : State :=
  if s.mute = some true ∧ s.muteCur = false then { s with muteCur := true, dacEvents := s.dacEvents ++ [DacOp.setMute] } else s

/-- Whether boot has ended once a REINIT ends: every register the boot order writes holds a value (R335; log entry 33). -/
def bootEnds (s : State) : Bool := s.booted || (s.depth.isSome && s.volReq.isSome)

/-- Step 6 after the buffers are cleared (R273). -/
def reinitRest (c : Config) (s : State) : State :=
  let s1 := engageMute { s.clearAllDelays c with schedState := .draining, adj := 0 }
  let s2 := ({ s1 with dacEvents := s1.dacEvents ++ [DacOp.applyConfig] }).arm (silence c)
  { s2 with reinitBusy := false, reinitStep := 0, booted := bootEnds s2 }

/-- The value words a REINIT in flight will return. -/
def mainValues : MainOp → List Word
  | .reinit vs => vs
  | .idle | .poll => []

/-- The REINIT ends: `MAINA` is in no operation and the response is given. -/
def reinitEnd (s : State) : State := ({ s with main := .idle }).respond .ok (mainValues s.main)

/-- One step of REINIT (R267 to R273). -/
def reinitStep (c : Config) (k : ReinitStep) (s : State) : Except Fault State :=
  match k with
  | .suspendTimer => .ok (reinitSuspend s)
  | .reconfigureClock => .ok (reinitClock c s)
  | .resumeTimer => .ok (reinitResume s)
  | .abortDma => .ok (reinitAbort s)
  | .resetDivider => .ok (reinitDivider s)
  | .clearBuffers =>
    match clearBuffers s.rb with
    | .ok m => .ok (reinitEnd (reinitRest c { s with rb := m }))
    | .error f => .error f

/-- The steps of a list in order, up to the first that is not enabled: the REINIT then stays in flight there (R274). -/
def reinitRun (c : Config) : List ReinitStep → State → Except Fault State
  | [], s => .ok s
  | k :: ks, s =>
    if reinitEnabled k s then
      match reinitStep c k s with
      | .ok s' => reinitRun c ks s'
      | .error f => .error f
    else .ok s

/-- The registers and buffers a REINIT requires (R266). -/
def State.reinitReady (s : State) : Bool := s.fNom.isSome && s.pmSignal.isSome && s.mute.isSome && s.allValid

/-- `REINIT` begun, to return the value words `vs`. -/
def reinitBegin (vs : List Word) (s : State) : State := { s with main := .reinit vs, reinitStep := 0 }

/-- `REINIT` under a configuration (R266). While a tick is in progress `MAINA` takes no step (R305) and the operation waits. -/
def reinitOp (c : Config) (s : State) : Host.Outcome State Fault Refusal :=
  if s.reinitReady then
    if s.tick == .idle then stateOutcome (reinitRun c reinitSteps (reinitBegin [] s)) else .next (reinitBegin [] s)
  else s.raise .notInitialised

/-- `MAINA` may start: it is in no operation (R27, U1). -/
def State.mainaBlocked (s : State) : Option Refusal := if s.main != .idle then some .agentBusy else none

/-- `REINIT` (R266). -/
def execReinit (s : State) : Host.Outcome State Fault Refusal := ifFree s.mainaBlocked (reinitOp Config.current s)

/-! ## Context A's main loop -/

/-- A REINIT is pending (R272): the test of `MAIN.POLL`, which reads its six registers in one step (DESIGN CHOICE, log entry 32). -/
def State.pending (s : State) : Bool :=
  s.fCur.isNone || s.fNom != s.fCur || s.pmCur.isNone || s.pmSignal != s.pmCur || (s.mute == some true && !s.muteCur)

/-- What a `MAIN.POLL` with no REINIT pending does: the mute release (R275), or nothing. -/
def mainRelease (s : State) : State :=
  if s.mute = some false ∧ s.muteCur = true then
    ({ s with muteCur := false, dacEvents := s.dacEvents ++ [DacOp.setUnmute] }).respond .ok [2]
  else s.respond .ok [0]

/-- `MAIN.POLL` under a configuration (R272). -/
def mainPoll (c : Config) (s : State) : Host.Outcome State Fault Refusal :=
  if s.reinitReady then
    if s.tick == .idle then
      if s.pending then stateOutcome (reinitRun c reinitSteps (reinitBegin [1] s)) else .next (mainRelease s)
    else .next { s with main := .poll }
  else s.raise .notInitialised

/-- `MAIN.POLL` (R272). -/
def execMainPoll (s : State) : Host.Outcome State Fault Refusal := ifFree s.mainaBlocked (mainPoll Config.current s)

/-! ## The boot order (70_reset_and_hazards.md R335) -/

/-- The boot order as a program: the four buffers with their locking mode and capacity, the control writes, the first `MAIN.POLL`. -/
def bootOrder (c : Config) (f : Rate) (d : Depth) (v : BitVec 16) (p : Bool) : List Instr :=
  [.rbInit .ep0 (c.lockMode .ep0) (BitVec.ofNat 32 c.capEp), .rbInit .ep1 (c.lockMode .ep1) (BitVec.ofNat 32 c.capEp),
    .rbInit .mid0 (c.lockMode .mid0) (BitVec.ofNat 32 c.capMid), .rbInit .mid1 (c.lockMode .mid1) (BitVec.ofNat 32 c.capMid),
    .setRate (BitVec.ofNat 32 f.hz), .setDepth (BitVec.ofNat 6 d.bits), .setVol v, .setMute false, .setPower p, .mainPoll]

end Sys2Proof.Machine
end

