-- ==== Sys2Proof/Machine/Dispatch.lean ====
section
/-! DEFINITION. The meaning of every operation, one arm per constructor of `Instr`, in the order of spec/opcode_table.json. -/

namespace Sys2Proof.Machine

def exec (i : Instr) (s : State) : Host.Outcome State Fault Refusal :=
  match i with
  | .rbInit b mode capacity => Sys2Proof.Machine.execRbInit b mode capacity s
  | .rbClear b => Sys2Proof.Machine.execRbClear b s
  | .rbIsFull b => Sys2Proof.Machine.execRbIsFull b s
  | .rbUsed b => Sys2Proof.Machine.execRbUsed b s
  | .rbRemain b => Sys2Proof.Machine.execRbRemain b s
  | .rbWrite1 b x => Sys2Proof.Machine.execRbWrite1 b x s
  | .rbRead1 b => Sys2Proof.Machine.execRbRead1 b s
  | .rbWriteN b xs => Sys2Proof.Machine.execRbWriteN b xs s
  | .rbReadN b n => Sys2Proof.Machine.execRbReadN b n s
  | .fltClear sel => Sys2Proof.Machine.execFltClear sel s
  | .fltRun sel xs => Sys2Proof.Machine.execFltRun sel xs s
  | .usbPush frames => Sys2Proof.Machine.execUsbPush frames s
  | .engRun => Sys2Proof.Machine.execEngRun s
  | .tick => Sys2Proof.Machine.execTick s
  | .ctlAdj => Sys2Proof.Machine.execCtlAdj s
  | .fbReport => Sys2Proof.Machine.execFbReport s
  | .volSmooth => Sys2Proof.Machine.execVolSmooth s
  | .txPoll => Sys2Proof.Machine.execTxPoll s
  | .dmaDone => Sys2Proof.Machine.execDmaDone s
  | .setRate rate => Sys2Proof.Machine.execSetRate rate s
  | .setDepth d => Sys2Proof.Machine.execSetDepth d s
  | .setVol code => Sys2Proof.Machine.execSetVol code s
  | .setMute m => Sys2Proof.Machine.execSetMute m s
  | .setPower p => Sys2Proof.Machine.execSetPower p s
  | .reinit => Sys2Proof.Machine.execReinit s
  | .mainPoll => Sys2Proof.Machine.execMainPoll s

end Sys2Proof.Machine
end

