-- ==== Sys2Proof/Machine/Micro.lean ====
section
/-! DEFINITION. The concurrent semantics (00_scope.md R8, R9 (b)): every operation as the sequence of micro-steps its rule
names, taken one at a time in the order an interleaving gives. An agent that reads a register holding no value faults (10_state.md
R57, 93_implementation_defined.md U9); one that starts before boot has ended, or on a buffer that is not valid, is refused
(60_exceptions.md R297, 70_reset_and_hazards.md R332); so is an operation the ownership table gives to no agent there
(60_exceptions.md R312, U1). An element of the interleaving whose agent has no step enabled changes nothing (60_exceptions.md R298:
"in the concurrent model a disabled agent simply has no step"). -/

namespace Sys2Proof.Machine

/-! ## Phases of a write and of a read (R140 to R144) -/

/-- What one micro-step of a write did. -/
inductive WriteOut where
  /-- A phase was taken; more follow. -/
  | go (q : RingBuffer)
  /-- The write ended. -/
  | done (q : RingBuffer)
  /-- The check found too little space. -/
  | full
  /-- The publish phase is not enabled: another agent holds the lock. -/
  | blocked
deriving DecidableEq, Repr

/-- What one micro-step of a read did. -/
inductive ReadOut where
  | go (q : RingBuffer)
  | done (d : List Sample) (q : RingBuffer)
  | few
  | blocked
deriving DecidableEq, Repr

/-- The next micro-step of `Write(b, S)` (R141); the whole of it in unlocked mode (R144). -/
def RingBuffer.writeStep (q : RingBuffer) (a : Agent) (xs : List Sample) : Except Fault WriteOut :=
  match q.prodOp with
  | none =>
    if xs.length ≤ q.free then
      if q.mode then .ok (.go { q with prodOp := some ⟨xs.length, xs, .checked⟩ })
      else
        match q.write a xs with
        | .ok q' => .ok (.done q')
        | .error f => .error f
    else .ok .full
  | some ⟨_, xs, .checked⟩ =>
    match q.copyIn 0 xs with
    | .ok q' => .ok (.go { q' with prodOp := some ⟨xs.length, xs, .copied⟩ })
    | .error f => .error f
  | some ⟨_, xs, .copied⟩ =>
    match q.publishIn a xs.length with
    | some q' => .ok (.done q')
    | none => .ok .blocked

/-- The next micro-step of `Read(b, n)` (R142); the whole of it in unlocked mode (R144). -/
def RingBuffer.readStep (q : RingBuffer) (a : Agent) (n : Nat) : Except Fault ReadOut :=
  match q.consOp with
  | none =>
    if n ≤ q.cnt then
      if q.mode then .ok (.go { q with consOp := some ⟨n, .checked, []⟩ })
      else
        match q.read a n with
        | .ok (d, q') => .ok (.done d q')
        | .error f => .error f
    else .ok .few
  | some ⟨n, .checked, _⟩ =>
    match q.copyOut 0 n with
    | .ok d => .ok (.go { q with consOp := some ⟨n, .copied, d⟩ })
    | .error f => .error f
  | some ⟨n, .copied, d⟩ =>
    match q.publishOut a n with
    | some q' => .ok (.done d q')
    | none => .ok .blocked

/-- The check phase of a write of `n` Samples that its copy phase computes (R141, R195). -/
def RingBuffer.reserve (q : RingBuffer) (n : Nat) : RingBuffer := { q with prodOp := some ⟨n, [], .checked⟩ }

/-- The Samples of a write in flight, now computed. -/
def RingBuffer.supply (q : RingBuffer) (xs : List Sample) : RingBuffer :=
  { q with prodOp := q.prodOp.map fun _ => ⟨xs.length, xs, .checked⟩ }

/-- A micro-step of a write on `b` in a state: `full` and `done` say how the operation around it goes on. -/
def State.writeMicro (s : State) (b : BufId) (xs : List Sample) (full done : State → State) : Except Fault State :=
  match (s.buf b).writeStep (producerOf b) xs with
  | .ok (.go q) => .ok (s.setBuf b q)
  | .ok (.done q) => .ok (done (s.setBuf b q))
  | .ok .full => .ok (full s)
  | .ok .blocked => .ok s
  | .error f => .error f

/-- A micro-step of a read on `b` in a state: `few` and `done` say how the operation around it goes on. -/
def State.readMicro (s : State) (b : BufId) (n : Nat) (few : State → State) (done : List Sample → State → State) :
    Except Fault State :=
  match (s.buf b).readStep (consumerOf b) n with
  | .ok (.go q) => .ok (s.setBuf b q)
  | .ok (.done d q) => .ok (done d (s.setBuf b q))
  | .ok .few => .ok (few s)
  | .ok .blocked => .ok s
  | .error f => .error f

/-- The next phase of a write issued on its own; nothing where no such write is in flight. -/
def prodMicro (b : BufId) (s : State) : Except Fault State :=
  match (s.buf b).prodOp with
  | some op =>
    if s.agentIdle (producerOf b) then s.writeMicro b op.data (·.respond .bufferFull []) (·.respond .ok []) else .ok s
  | none => .ok s

/-- The next phase of a read issued on its own; nothing where no such read is in flight. -/
def consMicro (b : BufId) (s : State) : Except Fault State :=
  match (s.buf b).consOp with
  | some op =>
    if s.agentIdle (consumerOf b) then
      s.readMicro b op.n (·.respond .insufficientData []) (fun d s => s.respond .ok d)
    else .ok s
  | none => .ok s

/-! ## What an operation needs to start or to go on -/

/-- A micro-step of an agent that reads registers: the fault `noValue` where one holds no value (R57, U9). -/
def needsValue (has : Bool) (k : Host.Outcome State Fault Refusal) : Host.Outcome State Fault Refusal :=
  if has then k else .fault .noValue

/-- A micro-step that works on buffers: refused where one is not valid (R297). -/
def needsValid (valid : Bool) (k : Host.Outcome State Fault Refusal) : Host.Outcome State Fault Refusal :=
  if valid then k else .refused .notInitialised

/-- A micro-step of an agent that shares buffers with another context: refused where one is unlocked (R82, U2). -/
def needsLocked (locked : Bool) (k : Host.Outcome State Fault Refusal) : Host.Outcome State Fault Refusal :=
  if locked then k else .refused .unlockedShared

/-- The start of an agent that runs only once boot has ended (R332, R335). -/
def State.afterBoot (s : State) (k : Host.Outcome State Fault Refusal) : Host.Outcome State Fault Refusal :=
  if s.booted then k else .refused .notInitialised

/-! ## USBCB: USB.PUSH (R190) -/

/-- The last micro-step of a `USB.PUSH` (R190, R274). -/
def usbEnd (r : Result) (s : State) : State := ({ s with usb := .idle, pushBusy := false }).respond r []

/-- The next micro-step of `USBCB`. -/
def usbMicro (c : Config) (s : State) : Except Fault State :=
  match s.usb with
  | .idle => .ok s
  | .readEp0 d fs => .ok { s with usb := .readEp1 d fs s.rb.ep0.free }
  | .readEp1 d fs free0 =>
    if fs.length ≤ c.least free0 s.rb.ep1.free then
      .ok { s with
        usb := .write0 (channelSamples c d .c0 s.pcmFree fs) (channelSamples c d .c1 s.pcmFree fs)
        pcmFree := s.pcmFree + c.nch * fs.length }
    else .ok (usbEnd .bufferFull s)
  | .write0 s0 s1 => s.writeMicro .ep0 s0 (usbEnd .bufferFull)
    (fun s => c.ifTwo { s with usb := .write1 s1 } (usbEnd .ok s))
  | .write1 s1 => s.writeMicro .ep1 s1 (usbEnd .bufferFull) (usbEnd .ok)

/-- The first micro-step of a `USB.PUSH`: the test of `reinit_busy`, with the read of `depth` (R190, R274; log entry 10). -/
def usbStart (frames : List PcmFrame) (s : State) : Host.Outcome State Fault Refusal :=
  if s.reinitBusy then s.ok []
  else
    match s.depth with
    | none => .fault .noValue
    | some d =>
      needsValid (s.rb.ep0.valid && s.rb.ep1.valid) <|
        needsLocked (s.rb.ep0.mode && s.rb.ep1.mode) (.next { s with pushBusy := true, usb := .readEp0 d frames })

/-! ## TICKA: TICK and ENG.RUN (R195, R196) -/

/-- The last micro-step of an `ENG.RUN` or `TICK`. -/
def tickEnd (r : Result) (vs : List Word) (s : State) : State := ({ s with tick := .idle }).respond r vs

/-- The read of `f_cur`, `adj`, `gain`, `R1` (R195). -/
def tickRegs (s : State) : Except Fault State :=
  match s.fCur, s.r1 with
  | some f, some r => .ok { s with tick := .readEp0 ⟨f, s.adj, s.gain, r⟩ }
  | _, _ => .error .noValue

/-- What follows the write of a channel's outputs: channel 1 if the machine has it, or the end. -/
def tickNext (c : Config) (ch : Chan) (e : EngRegs) (n : Nat) : State → State :=
  match ch with
  | .c0 => fun s => c.ifTwo { s with tick := .read .c1 e n } (tickEnd .ok [countWord n] s)
  | .c1 => tickEnd .ok [countWord n]

/-- `RunChain` with the copy phase that follows it, one micro-step (R195); in unlocked mode with the whole write (R144). -/
def tickCopy (c : Config) (ch : Chan) (e : EngRegs) (n : Nat) (x : List Sample) (s : State) : Except Fault State :=
  match s.runChain1 c e.r ch x (some e.g) with
  | .ok (y, s') =>
    (s'.setBuf (midOf ch) ((s'.buf (midOf ch)).supply y)).writeMicro (midOf ch) y (tickEnd .bufferFull []) (tickNext c ch e n)
  | .error f => .error f

/-- The next micro-step of the write of a channel's outputs: the check for the n × `R1` outputs, `RunChain` and copy, publish
(R195). -/
def tickWrite (c : Config) (ch : Chan) (e : EngRegs) (n : Nat) (x : List Sample) (s : State) : Except Fault State :=
  let q := s.buf (midOf ch)
  match q.prodOp with
  | none =>
    if x.length * e.r.toNat ≤ q.free then
      if q.mode then .ok (s.setBuf (midOf ch) (q.reserve (x.length * e.r.toNat))) else tickCopy c ch e n x s
    else .ok (tickEnd .bufferFull [] s)
  | some ⟨_, _, .checked⟩ => tickCopy c ch e n x s
  | some ⟨_, y, .copied⟩ => s.writeMicro (midOf ch) y (tickEnd .bufferFull []) (tickNext c ch e n)

/-- The next micro-step of `TICKA` (R195). -/
def tickMicro (c : Config) (s : State) : Except Fault State :=
  match s.tick with
  | .idle => .ok s
  | .ctl => .ok { ctlUpdate s with tick := .regs }
  | .regs => tickRegs s
  | .readEp0 e => .ok { s with tick := .readEp1 e s.rb.ep0.cnt }
  | .readEp1 e cnt0 =>
    let n := engCount c e.f e.a (c.least cnt0 s.rb.ep1.cnt)
    if n = 0 then .ok (tickEnd .ok [0] s) else .ok { s with tick := .readMid0 e n }
  | .readMid0 e n => .ok { s with tick := .readMid1 e n s.rb.mid0.free }
  | .readMid1 e n free0 =>
    if n * e.r.toNat ≤ c.least free0 s.rb.mid1.free then .ok { s with tick := .read .c0 e n }
    else .ok (tickEnd .bufferFull [] s)
  | .read ch e n =>
    s.readMicro (epOf ch) n (tickEnd .insufficientData []) (fun x s => { s with tick := .write ch e n x })
  | .write ch e n x => tickWrite c ch e n x s

/-- All four buffers are in locked mode, as buffers shared by two contexts are (R82). -/
def State.allLocked (s : State) : Bool := s.rb.ep0.mode && s.rb.ep1.mode && s.rb.mid0.mode && s.rb.mid1.mode

/-- The first micro-step of an `ENG.RUN` issued on its own. -/
def engStart (s : State) : Host.Outcome State Fault Refusal :=
  needsValid s.allValid <| needsLocked s.allLocked <| stateOutcome (tickRegs s)

/-- The one micro-step of a `CTL.ADJ` issued on its own (R211). -/
def ctlStart (s : State) : Host.Outcome State Fault Refusal := needsValid s.rb.mid0.valid (execCtlAdj s)

/-- The one micro-step of a `VOL.SMOOTH` issued on its own (R218). -/
def volStart (c : Config) (s : State) : Host.Outcome State Fault Refusal := needsValue s.volReq.isSome (volSmooth c s)

/-- The first micro-step of a `TICK`, its `VOL.SMOOTH`; no step while the timer is disabled or a tick is in progress (R196,
R301, R305). What the later micro-steps need is tested here too, so that none of them is refused in mid-operation. -/
def tickStart (c : Config) (s : State) : Host.Outcome State Fault Refusal :=
  if s.timerEnabled && s.tick == .idle then
    s.afterBoot <| ifFree s.tickaBlocked <| needsValid s.allValid <| needsLocked s.allLocked <|
      match s.volReq with
      | some v =>
        match volUpdate c v s with
        | .ok s' => .next { s' with tick := .ctl }
        | .error f => .fault f
      | none => .fault .noValue
  else .next s

/-! ## POLLB: TX.POLL (R247) -/

/-- The last micro-step of a `TX.POLL` (R247, R274). -/
def pollEnd (r : Result) (vs : List Word) (s : State) : State :=
  ({ s with poll := .idle, pollBusy := false }).respond r vs

/-- What follows the read of channel 0 of a render: that of channel 1 if the machine has it, or the second stage. -/
def pollNext (c : Config) (m : Nat) (x0 : List Sample) (s : State) : State :=
  { s with poll := c.ifTwo (.read1 m x0) (.enqueue m x0 []) }

/-- The action of a poll as a micro-step; a render begins with the first phase of its first read. -/
def pollActMicro (c : Config) (r : Ratio2) (occ q : Nat) (s : State) : Except Fault State :=
  match pollChoice c.txqDepth s.schedState (s.rb.mid0.cap / 2) occ q with
  | .rendered =>
    let m := renderSize c occ r
    { s with poll := .read0 m }.readMicro .mid0 m (pollEnd .insufficientData [])
      (pollNext c m)
  | a => .ok (pollEnd .ok [a.code] (pollPlain a s))

/-- The next micro-step of `POLLB`. The second stage on every channel and the filling of the slot are taken with `Enqueue`
(R247). -/
def pollMicro (c : Config) (s : State) : Except Fault State :=
  match s.poll with
  | .idle => .ok s
  | .readMid0 => .ok { s with poll := .readMid1 s.rb.mid0.cnt }
  | .readMid1 cnt0 => .ok { s with poll := .readCnt (c.least cnt0 s.rb.mid1.cnt) }
  | .readCnt occ => .ok { s with poll := .act occ s.qCnt }
  | .act occ q =>
    match s.r2 with
    | some r => pollActMicro c r occ q s
    | none => .error .noValue
  | .read0 m => s.readMicro .mid0 m (pollEnd .insufficientData []) (pollNext c m)
  | .read1 m x0 => s.readMicro .mid1 m (pollEnd .insufficientData []) (fun x1 s => { s with poll := .enqueue m x0 x1 })
  | .enqueue _ x0 x1 =>
    match s.r2 with
    | some r =>
      match renderInto c r x0 x1 s with
      | .ok s' => .ok (pollEnd .ok [PollAction.rendered.code] s')
      | .error f => .error f
    | none => .error .noValue

/-- The first micro-step of a `TX.POLL`: the test of `reinit_busy` (R247). -/
def pollStart (s : State) : Host.Outcome State Fault Refusal :=
  if s.reinitBusy then s.ok [PollAction.held.code]
  else
    needsValid (s.rb.mid0.valid && s.rb.mid1.valid) <|
      needsLocked (s.rb.mid0.mode && s.rb.mid1.mode) (.next { s with pollBusy := true, poll := .readMid0 })

/-! ## MAINA: MAIN.POLL and REINIT (R272) -/

/-- The next micro-step of `MAINA`; none while a tick is in progress (R305) or while the next step of REINIT is not enabled
(R274). -/
def mainMicro (c : Config) (s : State) : Except Fault State :=
  if s.tick == .idle then
    match s.main with
    | .idle => .ok s
    | .poll => if s.pending then .ok (reinitBegin [1] s) else .ok (mainRelease { s with main := .idle })
    | .reinit _ =>
      match nextReinitStep s.reinitStep with
      | some k => if reinitEnabled k s then reinitStep c k s else .ok s
      | none => .ok s
  else .ok s

/-- The first micro-step of a `REINIT`, its step 1; refused while what it requires is missing (R266, R297). -/
def reinitStart (c : Config) (s : State) : Host.Outcome State Fault Refusal :=
  needsValid s.reinitReady <| if s.tick == .idle then stateOutcome (mainMicro c (reinitBegin [] s)) else .next s

/-- The first micro-step of a `MAIN.POLL`, its test (R272), a micro-step of its own before REINIT step 1 (DESIGN CHOICE, log entry
32). It answers `NotInitialised` while what it requires is missing (R332). -/
def mainStart (c : Config) (s : State) : Host.Outcome State Fault Refusal :=
  if s.reinitReady then
    if s.tick == .idle then stateOutcome (mainMicro c { s with main := .poll }) else .next s
  else s.raise .notInitialised

/-! ## HOSTFB: FB.REPORT (R352) -/

/-- The next micro-step of `HOSTFB`: the reads of `f_cur` and of `R1` follow that of the occupancy (R352). -/
def hostMicro (c : Config) (s : State) : Except Fault State :=
  match s.host with
  | .idle => .ok s
  | .readF cap occ =>
    match s.fCur with
    | some f => .ok { s with host := .readR1 cap occ f }
    | none => .error .noValue
  | .readR1 cap occ f =>
    match s.r1 with
    | some r => .ok (({ s with host := .idle }).respond .ok [fbWord (fbValue c cap occ f r)])
    | none => .error .noValue

/-- The first micro-step of a `FB.REPORT`, the read of the occupancy. -/
def hostStart (s : State) : Host.Outcome State Fault Refusal :=
  needsValid s.rb.mid0.valid (.next { s with host := .readF s.rb.mid0.cap s.rb.mid0.cnt })

/-! ## The interleaving -/

/-- The first phase of a write issued on its own. -/
def writeStart (b : BufId) (xs : List Sample) (s : State) : Host.Outcome State Fault Refusal :=
  needsValid (s.buf b).valid <|
    if s.producerFree b then stateOutcome (s.writeMicro b xs (·.respond .bufferFull []) (·.respond .ok []))
    else .refused .secondProducer

/-- The first phase of a read issued on its own. -/
def readStart (b : BufId) (n : Nat) (few : Result) (s : State) : Host.Outcome State Fault Refusal :=
  needsValid (s.buf b).valid <|
    if s.consumerFree b then
      stateOutcome (s.readMicro b n (·.respond few []) (fun d s => s.respond .ok d))
    else .refused .secondConsumer

/-- The refusal of an agent that is in an operation (R27, U1). -/
def busy (inOperation : Bool) : Option Refusal := if inOperation then some .agentBusy else none

/-- The agent of an operation starts it: its first micro-step, which is the whole of an operation of one micro-step. `TICKA` may start
`ENG.RUN`, `CTL.ADJ` and `VOL.SMOOTH` on their own whenever it is in no operation, whatever `timer_enabled` is (DESIGN CHOICE, log entry
34: R312 lists the three as the parts of `TICK`). -/
def startOp (c : Config) (i : Instr) (s : State) : Host.Outcome State Fault Refusal :=
  match i with
  | .rbInit b mode capacity => execRbInit b mode capacity s
  | .rbClear _ => .refused .outsideOwnership
  | .rbIsFull b => needsValid (s.buf b).valid (execRbIsFull b s)
  | .rbUsed b => needsValid (s.buf b).valid (execRbUsed b s)
  | .rbRemain b => needsValid (s.buf b).valid (execRbRemain b s)
  | .rbWrite1 b x => writeStart b [x] s
  | .rbRead1 b => readStart b 1 .bufferEmpty s
  | .rbWriteN b xs => writeStart b xs s
  | .rbReadN b n => readStart b n .insufficientData s
  | .fltClear _ => .refused .outsideOwnership
  | .fltRun _ _ => .refused .outsideOwnership
  | .usbPush frames => s.afterBoot (ifFree s.usbcbBlocked (usbStart frames s))
  | .engRun => s.afterBoot (ifFree s.tickaBlocked (engStart s))
  | .tick => tickStart c s
  | .ctlAdj => s.afterBoot (ifFree (busy (s.tick != .idle)) (ctlStart s))
  | .fbReport => s.afterBoot (ifFree (busy (s.host != .idle)) (hostStart s))
  | .volSmooth => s.afterBoot (ifFree (busy (s.tick != .idle)) (volStart c s))
  | .txPoll => s.afterBoot (ifFree s.pollbBlocked (pollStart s))
  | .dmaDone => if s.dmaPend && !s.irqMask then OpRes.outcome (.ok (dmaService c s)) else .next s
  | .setRate rate => setRate c rate s
  | .setDepth d => execSetDepth d s
  | .setVol code => setVol c code s
  | .setMute m => execSetMute m s
  | .setPower p => execSetPower p s
  | .reinit => ifFree s.mainaBlocked (reinitStart c s)
  | .mainPoll => ifFree s.mainaBlocked (mainStart c s)

/-- The next micro-step of an agent's operation in flight. `BOOT`, `CTRL`, `PWR` and `DMAIRQ` have operations of one
micro-step only, and so never one in flight. -/
def agentMicro (c : Config) (a : Agent) (s : State) : Except Fault State :=
  match a with
  | .usbcb => usbMicro c s
  | .ticka => tickMicro c s
  | .maina => mainMicro c s
  | .pollb => pollMicro c s
  | .hostfb => hostMicro c s
  | .boot | .ctrl | .pwr | .dmairq => .ok s

/-- One element of an interleaving under a configuration. -/
def microOp (c : Config) (e : Event) (s : State) : Host.Outcome State Fault Refusal :=
  match e with
  | .start i => startOp c i s
  | .agent a => stateOutcome (agentMicro c a s)
  | .prod b => stateOutcome (prodMicro b s)
  | .cons b => stateOutcome (consMicro b s)
  | .dmaComplete => .next s.dmaComplete

/-- One element of an interleaving (R8). -/
def micro (e : Event) (s : State) : Host.Outcome State Fault Refusal := microOp Config.current e s

/-- The next command of the stream (R100): its operation runs to its end on the state whose stream stands after it. An illegal command
word is passed over with the response `IllegalCommand`, its payload not consumed (R108, R296); a command whose payload the stream ends
before gets the same response with nothing consumed (R109). At the end of the stream nothing happens. -/
def command (s : State) : Host.Outcome State Fault Refusal :=
  match decode s.stream with
  | .ok (i, rest) => exec i { s with stream := rest }
  | .error .noWord => .next s
  | .error .truncatedPayload => s.raise .illegalCommand
  | .error .reservedOp | .error .illegalUnit | .error .mustBeZero =>
    ({ s with stream := s.stream.tail }).raise .illegalCommand

end Sys2Proof.Machine
end

