-- ==== Sys2Proof/Machine/Step.lean ====
section
/-! DEFINITION. One step of ADP: the next micro-step of the interleaving while there is one, otherwise the next command of the
stream (00_scope.md R9). -/

namespace Sys2Proof.Machine

/-- One step. -/
def step (s : State) : Host.Outcome State Fault Refusal :=
  match s.schedule with
  | e :: es => micro e { s with schedule := es }
  | [] => command s

/-- The state whose next step runs the instruction whose bits are `w`: its words stand at the front of the command stream, and no
micro-step is to be taken before them. -/
def State.withFetchWord (s : State) (nbits w : Nat) : State :=
  { s with schedule := [], stream := tableWords nbits w ++ s.stream }

end Sys2Proof.Machine
end

