-- ==== Sys2Proof/Safety.lean ====
section
/-! DEFINITION. The terms claims are stated in: what a ring buffer holds as a queue, and the invariants that hold between
steps. -/

namespace Sys2Proof.Machine

/-! ## Ring buffers -/

/-- The element a buffer holds at position `i` of the run from cursor `c` (R77). -/
abbrev RingBuffer.at (q : RingBuffer) (c i : Nat) : Option Sample := q.mem.get ((c + i) % q.cap)

/-- The elements a buffer holds for its consumer, oldest first: the `cnt` elements from `rd` on (R25, R142). -/
def RingBuffer.contents (q : RingBuffer) : List (Option Sample) := (List.range q.cnt).map (q.at q.rd)

/-- The bounds of R23 and the cursor relation of R24. -/
abbrev RingBuffer.Bounds (q : RingBuffer) : Prop :=
  0 < q.cap ∧ q.cnt ≤ q.cap ∧ q.wr < q.cap ∧ q.rd < q.cap ∧ q.wr = (q.rd + q.cnt) % q.cap

/-- A write in flight still has its space, and its elements once copied (R141). -/
abbrev RingBuffer.ProdOk (q : RingBuffer) : Prop :=
  ∀ op ∈ q.prodOp, op.n ≤ q.free ∧ op.data.length ≤ op.n ∧
    (op.phase = .copied → op.data.length = op.n ∧ (List.range op.data.length).map (q.at q.wr) = op.data.map some)

/-- A read in flight still has its elements, and holds them once copied (R142). -/
abbrev RingBuffer.ConsOk (q : RingBuffer) : Prop :=
  ∀ op ∈ q.consOp, op.n ≤ q.cnt ∧ (op.phase = .copied → (List.range op.n).map (q.at q.rd) = op.data.map some)

/-- What holds of a ring buffer between steps: the array in canonical form; before `RB.INIT` nothing counted and nothing in
flight; afterwards R23, R24, every counted element stored (R25), and the operations in flight consistent (R141, R142). -/
abbrev RingBuffer.Inv (q : RingBuffer) : Prop :=
  q.mem.wf = true ∧ q.lock = .free ∧
  (q.valid = false → q.cnt = 0 ∧ q.prodOp = none ∧ q.consOp = none) ∧
  (q.valid = true → q.Bounds ∧ (∀ x ∈ q.contents, x.isSome = true) ∧ q.ProdOk ∧ q.ConsOk)

/-- A tick in progress has a write in flight only on the MID buffer of the channel it is writing, whose space it checked for the
n × `R1` outputs it will compute (R27, R195). -/
def TickOp.writesOk (t : TickOp) (m : Buffers) : Prop :=
  match t with
  | .idle => True
  | .write .c0 e _ x => (∀ op ∈ m.mid0.prodOp, op.phase = .checked → op.n = x.length * e.r.toNat) ∧ m.mid1.prodOp = none
  | .write .c1 e _ x => (∀ op ∈ m.mid1.prodOp, op.phase = .checked → op.n = x.length * e.r.toNat) ∧ m.mid0.prodOp = none
  | .ctl | .regs | .readEp0 .. | .readEp1 .. | .readMid0 .. | .readMid1 .. | .read .. =>
    m.mid0.prodOp = none ∧ m.mid1.prodOp = none

/-- The invariant of the four ring buffers; an agent in an operation has the buffers it works on initialised (R335), and a tick in
progress has no write in flight but its own. -/
abbrev State.BuffersInv (s : State) : Prop :=
  s.rb.ep0.Inv ∧ s.rb.ep1.Inv ∧ s.rb.mid0.Inv ∧ s.rb.mid1.Inv ∧ s.tick.writesOk s.rb ∧
  (s.usb ≠ .idle → s.rb.ep0.valid = true ∧ s.rb.ep1.valid = true) ∧ (s.tick ≠ .idle → s.allValid = true) ∧
  (s.poll ≠ .idle → s.rb.mid0.valid = true ∧ s.rb.mid1.valid = true)

/-- The array `m` is that of `q` with the list `xs` stored from the write cursor on: element `i` at `(wr + i) mod cap` (R77,
R141), every other element as it was. -/
def RingBuffer.Stored (q : RingBuffer) (xs : List Sample) (m : Mem) : Prop :=
  (∀ i (h : i < xs.length), m.get ((q.wr + i) % q.cap) = some xs[i]) ∧
  (∀ k, (∀ i < xs.length, k ≠ (q.wr + i) % q.cap) → m.get k = q.mem.get k)

/-- The buffer after a write of `n` elements with array `m`: `wr` and `cnt` advanced, nothing else (R141). -/
def RingBuffer.wrote (q : RingBuffer) (n : Nat) (m : Mem) : RingBuffer :=
  { q with mem := m, wr := (q.wr + n) % q.cap, cnt := q.cnt + n }

/-- The buffer after a read of `n` elements: `rd` and `cnt` advanced, nothing else (R142). -/
def RingBuffer.took (q : RingBuffer) (n : Nat) : RingBuffer := { q with rd := (q.rd + n) % q.cap, cnt := q.cnt - n }

/-! ## The buffer as a queue (R145) -/

/-- A write or a read of one buffer. -/
inductive QueueOp where
  | write (xs : List Sample)
  | read (n : Nat)
deriving DecidableEq, Repr

/-- The command that does it. -/
def QueueOp.instr (b : BufId) : QueueOp → Instr
  | .write xs => .rbWriteN b xs
  | .read n => .rbReadN b n

/-- What it does to a queue of capacity `cap`, and its response: all or nothing (R145, P2 and P3). -/
def QueueOp.apply (cap : Nat) (q : List Sample) : QueueOp → Response × List Sample
  | .write xs => if q.length + xs.length ≤ cap then (⟨.ok, []⟩, q ++ xs) else (⟨.bufferFull, []⟩, q)
  | .read n => if n ≤ q.length then (⟨.ok, q.take n⟩, q.drop n) else (⟨.insufficientData, []⟩, q)

/-- The responses of a list of them, and the queue that is left. -/
def QueueOp.run (cap : Nat) : List QueueOp → List Sample → List Response × List Sample
  | [], q => ([], q)
  | op :: ops, q => ((op.apply cap q).1 :: (run cap ops (op.apply cap q).2).1, (run cap ops (op.apply cap q).2).2)

/-- No write and no read is in flight on any buffer. -/
abbrev State.BuffersQuiet (s : State) : Prop :=
  s.rb.ep0.prodOp = none ∧ s.rb.ep0.consOp = none ∧ s.rb.ep1.prodOp = none ∧ s.rb.ep1.consOp = none ∧
  s.rb.mid0.prodOp = none ∧ s.rb.mid0.consOp = none ∧ s.rb.mid1.prodOp = none ∧ s.rb.mid1.consOp = none

/-! ## Transmit queue -/

/-- A slot's count fits, and its payload is in canonical form (R56). -/
abbrev Slot.Ok (c : Config) (sl : Slot) : Prop := sl.count ≤ c.slotCap ∧ sl.payload.wfZero = true

/-- What a poll in flight knows of the queue: `q_cnt` has not grown since it was read, and a render has a slot (R232, R235). -/
def PollOp.queueOk (c : Config) (p : PollOp) (qCnt : Nat) : Prop :=
  match p with
  | .act _ q => qCnt ≤ q ∧ q ≤ c.txqDepth
  | .read0 _ | .read1 .. | .enqueue .. => qCnt < c.txqDepth
  | .idle | .readMid0 | .readMid1 _ | .readCnt _ => True

/-- The invariant of R50, with every slot well formed. -/
def State.QueueInv (c : Config) (s : State) : Prop :=
  s.slots.length = c.txqDepth ∧ s.qWr < c.txqDepth ∧ s.qRd < c.txqDepth ∧ s.qCnt ≤ c.txqDepth ∧
  s.qWr = (s.qRd + s.qCnt) % c.txqDepth ∧ (∀ sl ∈ s.slots, sl.Ok c) ∧ s.poll.queueOk c s.qCnt

/-! ## Sequencing -/

/-- The quiescence interlock and the transfer (R51, R274, R302, R270): the busy bits say that an operation is in flight, the
steps of REINIT are counted while it runs, no poll is in flight after step 2, at most one of `dma_pend` and `dma_busy` is set,
and none from step 4 to step 6. -/
def State.SequencingInv (s : State) : Prop :=
  s.pollBusy = (s.poll != .idle) ∧ s.pushBusy = (s.usb != .idle) ∧
  s.reinitBusy = (s.reinitStep != 0) ∧ s.reinitStep < 6 ∧ (s.reinitStep ≠ 0 → s.main = .reinit (mainValues s.main)) ∧
  (2 ≤ s.reinitStep → s.poll = .idle) ∧ (s.dmaPend = true → s.dmaBusy = false) ∧
  (4 ≤ s.reinitStep → s.dmaPend = false ∧ s.dmaBusy = false)

/-! ## Control registers -/

/-- A volume code in its legal range (R43). -/
abbrev volLegal (c : Config) (v : BitVec 16) : Prop := c.volMin ≤ v.toInt ∧ v.toInt ≤ c.volMax

/-- The gain is a number in [0, 1] (R44, R220). -/
def gainInRange (n : Numerics) (g : FVal) : Prop := ∃ q, n.val g = .fin q ∧ 0 ≤ q ∧ q ≤ 1

/-- What `SatUnit` gives (R220): F zero, the 1 of `F`, or a number in [0, 1]. Where the 1 of `F` stands for 1 it is `gainInRange`
(DEDUCED, log entry 7: R13 lets F round a literal). -/
def gainSaturated (n : Numerics) (g : FVal) : Prop := g = n.zero ∨ g = n.ofReal 1 ∨ gainInRange n g

/-- The ranges of the control registers: `adj` (R47), the volume codes (R43), the gain (R44), the ratios of the latched rate and
power mode (R48, R49), and the interrupt mask, set only inside a step (R84). -/
def State.ControlInv (c : Config) (s : State) : Prop :=
  (s.adj = -1 ∨ s.adj = 0 ∨ s.adj = 1) ∧ (∀ v ∈ s.volReq, volLegal c v) ∧ volLegal c s.volAcq ∧ gainSaturated c.num s.gain ∧
  s.r1 = s.fCur.map c.r1Of ∧ s.r2 = s.pmCur.map c.r2Of ∧ s.irqMask = false

/-! ## Delay arrays -/

/-- The delay arrays of a channel have the lengths of a chain: "delay length fixed by filter order" (R53). -/
abbrev Delays.FitsChain (d : Delays) (chain : List Stage) : Prop := d.map List.length = chain.map Stage.delayLen

/-- Both channels' delay arrays have the lengths of a chain. -/
abbrev ChanDelays.FitsChain (d : ChanDelays) (chain : List Stage) : Prop :=
  Delays.FitsChain d.c0 chain ∧ Delays.FitsChain d.c1 chain

/-- Every delay array has the length its stage fixes (R53, R54). -/
def State.DelayInv (c : Config) (s : State) : Prop :=
  (∀ r, (s.d1.get r).FitsChain (c.chain1 r)) ∧ (∀ r, (s.d2.get r).FitsChain (c.chain2 r))

/-- Every element of the delay arrays of a channel is `z`. -/
abbrev Delays.AllAre (z : FVal) (d : Delays) : Prop := ∀ a ∈ d, ∀ v ∈ a, v = z

/-- Every element of `d1` and `d2`, for every configured ratio and both channels, is `z`. -/
def State.DelaysAre (z : FVal) (s : State) : Prop :=
  (∀ r ch, Delays.AllAre z ((s.d1.get r).get ch)) ∧ (∀ r ch, Delays.AllAre z ((s.d2.get r).get ch))

/-! ## States no operation is in flight in -/

/-- No agent is in an operation and no write or read is in flight: between two commands of a stream (R100). -/
abbrev State.Quiet (s : State) : Prop :=
  s.usb = .idle ∧ s.tick = .idle ∧ s.poll = .idle ∧ s.main = .idle ∧ s.host = .idle ∧ s.BuffersQuiet ∧
  s.pollBusy = false ∧ s.pushBusy = false ∧ s.reinitBusy = false

/-! ## Runs -/

/-- Commands executed one after another, each to completion (R100). -/
def execAll : List Instr → State → Host.Outcome State Fault Refusal
  | [], s => .next s
  | i :: is, s =>
    match exec i s with
    | .next t => execAll is t
    | .fault f => .fault f
    | .refused r => .refused r

/-- The elements of an interleaving taken one after another under a configuration (R8). -/
def microAllOf (c : Config) : List Event → State → Host.Outcome State Fault Refusal
  | [], s => .next s
  | e :: es, s =>
    match microOp c e s with
    | .next t => microAllOf c es t
    | .fault f => .fault f
    | .refused r => .refused r

/-- The elements of an interleaving taken one after another (R8). -/
def microAll (es : List Event) (s : State) : Host.Outcome State Fault Refusal := microAllOf Config.current es s

/-! ## Illegal command words (R106, R107, R108) -/

/-- For an `op` of R103, the greatest legal `unit` (R106) and the number of low bits of `arg` that may be 1 (R107). -/
def operandBounds (op : Nat) : Option (Nat × Nat) :=
  match op with
  | 0x01 => some (3, 1)
  | 0x02 | 0x03 | 0x04 | 0x05 | 0x06 | 0x07 => some (3, 0)
  | 0x08 | 0x09 | 0x11 => some (3, 20)
  | 0x10 => some (4, 0)
  | 0x20 => some (0, 20)
  | 0x21 | 0x22 | 0x30 | 0x31 | 0x32 | 0x40 | 0x41 | 0x50 | 0x55 | 0x56 => some (0, 0)
  | 0x51 => some (0, 6)
  | 0x52 => some (0, 16)
  | 0x53 | 0x54 => some (0, 1)
  | _ => none

/-- "A command word is illegal when: its `op` is not in rule R103 …; or its `unit` is illegal by rule R106; or a bit that rule
R107 says must be 0 is 1" (R108). -/
def IllegalWord (w : Word) : Prop :=
  ∀ u k, operandBounds (opField w) = some (u, k) → u < unitField w ∨ 2 ^ k ≤ argField w

/-! ## Filters -/

/-- A number of `F` that is neither NaN nor infinite. -/
def finiteF (n : Numerics) (v : FVal) : Prop := ∃ q, n.val v = .fin q

/-- A number of `F` that counts as zero (R13 (d)). -/
def zeroF (n : Numerics) (v : FVal) : Prop := n.val v = .fin 0

/-- Every coefficient of a stage is finite. -/
def finiteCoeffs (n : Numerics) : Stage → Prop
  | .firi _ _ h => ∀ v ∈ h, finiteF n v
  | .rbq _ q => ∀ b ∈ q, finiteF n b.b0 ∧ finiteF n b.b1 ∧ finiteF n b.b2 ∧ finiteF n b.a1 ∧ finiteF n b.a2

/-- Every element of the delay arrays counts as zero. -/
def Delays.Zeros (n : Numerics) (d : Delays) : Prop := ∀ a ∈ d, ∀ v ∈ a, zeroF n v

/-! ## The engine (R192) -/

/-- What `ENG.RUN` reads holds a value and its agent may start it. -/
abbrev State.EngReady (s : State) (f : Rate) (r : Ratio1) : Prop :=
  s.fCur = some f ∧ s.r1 = some r ∧ s.allValid = true ∧ s.tickaBlocked = none ∧ s.BuffersInv

/-- `avail`, the smaller EP occupancy (R192). -/
abbrev State.avail (c : Config) (s : State) : Nat := c.least s.rb.ep0.cnt s.rb.ep1.cnt

/-- The smaller free space of the MID buffers (R192). -/
abbrev State.midFree (c : Config) (s : State) : Nat := c.least (s.rb.mid0.cap - s.rb.mid0.cnt) (s.rb.mid1.cap - s.rb.mid1.cnt)

/-- No NaN reaches an integer boundary when the next `n` Samples of every channel's EP buffer go through chain 1 (R168, U6). -/
def State.Chain1Defined (c : Config) (r : Ratio1) (n : Nat) (s : State) : Prop :=
  (∀ x, x.map some = s.rb.ep0.contents.take n → ∃ p, runChain c.num (c.chain1 r) (s.d1.get r).c0 x (some s.gain) = .ok p) ∧
  (c.nch = 2 → ∀ x, x.map some = s.rb.ep1.contents.take n → ∃ p, runChain c.num (c.chain1 r) (s.d1.get r).c1 x (some s.gain) = .ok p)

/-- `t` is `s` after an `ENG.RUN` of `n` Samples per channel (R192): the oldest `n` of each EP buffer went through chain 1 with
the register `gain`, their `n × r` outputs stand in the MID buffers, the delay arrays of the selected set advanced, and nothing
else changed; on a machine of one channel nothing of channel 1. -/
def EngineMoves (c : Config) (r : Ratio1) (n : Nat) (s t : State) : Prop :=
  ∃ x0 x1 y0 y1 e0 e1 m0 m1,
    x0.map some = s.rb.ep0.contents.take n ∧ runChain c.num (c.chain1 r) (s.d1.get r).c0 x0 (some s.gain) = .ok (y0, e0) ∧
    y0.length = n * r.toNat ∧ s.rb.mid0.Stored y0 m0 ∧
    (c.nch = 2 → x1.map some = s.rb.ep1.contents.take n ∧
      runChain c.num (c.chain1 r) (s.d1.get r).c1 x1 (some s.gain) = .ok (y1, e1) ∧
      y1.length = n * r.toNat ∧ s.rb.mid1.Stored y1 m1) ∧
    t = { s with
      rb := ⟨s.rb.ep0.took n, c.ifTwo (s.rb.ep1.took n) s.rb.ep1, s.rb.mid0.wrote (n * r.toNat) m0,
        c.ifTwo (s.rb.mid1.wrote (n * r.toNat) m1) s.rb.mid1⟩
      d1 := s.d1.set r ⟨e0, c.ifTwo e1 (s.d1.get r).c1⟩ }

/-- The state a `TICK` runs its engine on (R196, R218): the volume code `v`, the gain `g` and the adjustment `a` written. -/
def afterVolumeAndController (c : Config) (v : BitVec 16) (g : FVal) (a : Int) (s : State) : State :=
  { s with volAcq := v, volSmooth := smoothed c s.volSmooth (c.num.ofInt v.toInt), gain := g, adj := a }

/-! ## The scheduler (R230, R235) -/

/-- What `TX.POLL` reads holds a value, its agent may start it and no REINIT holds it. -/
abbrev State.PollReady (s : State) (r : Ratio2) : Prop :=
  s.reinitBusy = false ∧ s.r2 = some r ∧ s.rb.mid0.valid = true ∧ s.rb.mid1.valid = true ∧ s.pollbBlocked = none

/-- `occ`, the smaller MID occupancy (R237). -/
abbrev State.occ (c : Config) (s : State) : Nat := c.least s.rb.mid0.cnt s.rb.mid1.cnt

/-- No NaN reaches an integer boundary when the next `m` Samples of every channel's MID buffer go through chain 2 (R168, U6). -/
def State.Chain2Defined (c : Config) (r : Ratio2) (m : Nat) (s : State) : Prop :=
  (∀ x, x.map some = s.rb.mid0.contents.take m → ∃ p, runChain c.num (c.chain2 r) (s.d2.get r).c0 x none = .ok p) ∧
  (c.nch = 2 → ∀ x, x.map some = s.rb.mid1.contents.take m → ∃ p, runChain c.num (c.chain2 r) (s.d2.get r).c1 x none = .ok p)

/-- `t` is `s` after a render of `m` Samples per channel (R235): the oldest `m` of each MID buffer went through chain 2, the slot at
`q_wr` holds their outputs interleaved with channel 0 first and its count, the slot is queued, and nothing else changed; on a machine of
one channel nothing of channel 1. -/
def RenderMoves (c : Config) (r : Ratio2) (m : Nat) (s t : State) : Prop :=
  ∃ x0 x1 y0 y1 e0 e1 p,
    x0.map some = s.rb.mid0.contents.take m ∧ runChain c.num (c.chain2 r) (s.d2.get r).c0 x0 none = .ok (y0, e0) ∧
    y0.length = m * r.toNat ∧ (∀ j (h : j < y0.length), p.getZero (j * c.nch) = outWord c y0[j]) ∧
    (c.nch = 2 → x1.map some = s.rb.mid1.contents.take m ∧
      runChain c.num (c.chain2 r) (s.d2.get r).c1 x1 none = .ok (y1, e1) ∧ y1.length = m * r.toNat ∧
      ∀ j (h : j < y1.length), p.getZero (j * c.nch + 1) = outWord c y1[j]) ∧
    (∀ k, m * r.toNat * c.nch ≤ k → p.getZero k = (s.slotAt s.qWr).payload.getZero k) ∧
    t = { s with
      rb := { s.rb with mid0 := s.rb.mid0.took m, mid1 := c.ifTwo (s.rb.mid1.took m) s.rb.mid1 }
      d2 := s.d2.set r ⟨e0, c.ifTwo e1 (s.d2.get r).c1⟩
      slots := s.slots.set s.qWr ⟨m * r.toNat * c.nch, p⟩
      qWr := (s.qWr + 1) % c.txqDepth
      qCnt := s.qCnt + 1
      irqMask := false }

/-! ## REINIT (R266 to R273, R337) -/

/-- The state after a whole REINIT, its response apart: what R337 lists as cleared, rewritten and appended to; all else kept. -/
def afterReinit (c : Config) (s : State) : State :=
  { s with
    rb := ⟨s.rb.ep0.cleared, s.rb.ep1.cleared, s.rb.mid0.cleared, s.rb.mid1.cleared⟩
    d1 := (s.d1.zeroChan c.num.zero .c0).zeroChan c.num.zero .c1
    d2 := (s.d2.zeroChan c.num.zero .c0).zeroChan c.num.zero .c1
    qWr := 0, qRd := 0, qCnt := 0, slots := s.slots.map fun _ => .zeroed
    irqMask := false, dmaPend := false, dmaBusy := true, dmaCur := silence c
    schedState := .draining, adj := 0
    fCur := s.fNom, pmCur := s.pmSignal, r1 := s.fNom.map c.r1Of, r2 := s.pmSignal.map c.r2Of
    outRate := outputRate s.fNom (s.fNom.map c.r1Of) (s.pmSignal.map c.r2Of)
    timerEnabled := true
    muteCur := s.muteCur || s.mute == some true
    outStream := s.outStream ++ [silence c]
    dacEvents := s.dacEvents ++ (if s.mute = some true ∧ s.muteCur = false then [DacOp.setMute] else []) ++ [DacOp.applyConfig]
    reinitBusy := false, reinitStep := 0, booted := bootEnds s }

/-- A safe run never faults: the outcome of a step is a next state or a refusal. -/
def Safe (o : Host.Outcome State Fault Refusal) : Prop := ∀ f, o ≠ .fault f

end Sys2Proof.Machine
end

