-- ==== Sys2Proof/Certificates/Slice0/Obligations.lean ====
section
/-! DEFINITION. The statements of this model, for the provers. Each docstring says which rule of the spec it formalises. -/

open Sys2Proof Sys2Proof.Machine

/-! ## Encoding (30_encoding.md) -/

/-- R101, R103, R106, R107: the decoder gives back every well-formed instruction with every operand, and what follows it, for every
configuration (a frame has `NCH` words); `decode` and `Instr.wf` are the case of the machine's configuration. -/
def Obligations.DecodeOfEncode : Prop :=
  ∀ (c : Config) (i : Instr) (rest : List Word), i.wfFor c.nch = true → decodeFor c.nch (encode i ++ rest) = .ok (i, rest)

/-- R101, R107: the decoder drops no bit: the words it took are those of the instruction it answered, which is well formed, for every
configuration. -/
def Obligations.EncodeOfDecode : Prop :=
  ∀ (c : Config) (ws : List Word) (i : Instr) (rest : List Word),
    decodeFor c.nch ws = .ok (i, rest) → i.wfFor c.nch = true ∧ encode i ++ rest = ws

/-- R102, R104: the command word alone determines how many payload words follow it, for every configuration. -/
def Obligations.PayloadLengthOfEncoding : Prop :=
  ∀ (c : Config) (i : Instr), i.wfFor c.nch = true → ∃ w pl, encode i = w :: pl ∧ payloadLen c.nch w = pl.length

/-- The words that the examples of R115, R171, R190, R260 and R261 write out decode to the instructions they stand for. -/
def Obligations.WrittenOutWordsDecode : Prop :=
  decode [0x01000001, 0x00000004] = .ok (.rbInit .ep0 true 4, []) ∧
  decode [0x08200003, 0x0000000A, 0x00000014, 0x0000001E] = .ok (.rbWriteN .mid0 [10, 20, 30], []) ∧
  decode [0x5200F600] = .ok (.setVol (BitVec.ofInt 16 (-2560)), []) ∧
  decode [0x50000000, 0x0000BB80] = .ok (.setRate 48000, []) ∧
  decode [0x22000000] = .ok (.tick, []) ∧
  decode [0x10400000] = .ok (.fltClear .all, []) ∧
  decode [0x20000001, 0x00000001, 0xFFFFFFFF] = .ok (.usbPush [[1, BitVec.ofInt 32 (-1)]], []) ∧
  decode [0x50000000, 0x00017700] = .ok (.setRate 96000, []) ∧
  decode [0x51000018] = .ok (.setDepth 24, [])

/-- R108, R296: an illegal command word changes no state, consumes no payload word and gets the response `IllegalCommand`. That the
stream moves past the command word itself, so that decoding goes on with the word after it, is the model's reading of "no payload
consumed" (log entry 13, DEDUCED; vector X5 of 95_test_vectors.md), not a rule; the list of responses grows by the response. -/
def Obligations.IllegalCommandWord : Prop :=
  ∀ (s : State) (w : Word) (ws : List Word), s.schedule = [] → s.stream = w :: ws → IllegalWord w →
    step s = .next ({ s with stream := ws }.respond .illegalCommand [])

/-- R109: a stream that ends before the payload does: `IllegalCommand`, nothing consumed. -/
def Obligations.TruncatedPayloadConsumesNothing : Prop :=
  ∀ (s : State) (i : Instr) (k : Nat), i.wf = true → 0 < k → k < (encode i).length → s.schedule = [] →
    s.stream = (encode i).take k → step s = .next (s.respond .illegalCommand [])

/-- R100: when no interleaving is left to take and the stream decodes to an instruction, a step is `exec` of that instruction on
the state whose stream stands after its words. -/
def Obligations.StepRunsDecodedInstruction : Prop :=
  ∀ (s : State) (i : Instr) (rest : List Word), s.schedule = [] → decode s.stream = .ok (i, rest) →
    step s = exec i { s with stream := rest }

/-! ## Ring buffers (40_ringbuffer.md) -/

/-- R131: both `InitError` cases write nothing; otherwise the buffer is `(valid, mode, cap, wr, rd, cnt, mem, lock, prod_op, cons_op)` =
`(1, mode, capacity, 0, 0, 0, no element stored, free, idle, idle)`, every other field of the state unchanged. -/
def Obligations.RbInitResult : Prop :=
  ∀ (b : BufId) (m : Bool) (cap : Word) (s : State),
    ((s.buf b).valid = true ∨ cap = 0 → exec (.rbInit b m cap) s = .next (s.respond .initError [])) ∧
    ((s.buf b).valid = false → cap ≠ 0 →
      exec (.rbInit b m cap) s =
        .next ((s.setBuf b ⟨true, m, cap.toNat, 0, 0, 0, ⟨[]⟩, .free, none, none⟩).respond .ok []))

/-- R132, R342: `RB.CLEAR` zeroes the cursors and the count and changes nothing else; with a write or read in flight it is the fault
`ClearRace`. -/
def Obligations.RbClearResult : Prop :=
  ∀ (b : BufId) (s : State), (s.buf b).valid = true →
    ((s.buf b).prodOp = none → (s.buf b).consOp = none →
      exec (.rbClear b) s = .next ((s.setBuf b { s.buf b with wr := 0, rd := 0, cnt := 0 }).respond .ok [])) ∧
    ((s.buf b).prodOp ≠ none ∨ (s.buf b).consOp ≠ none → exec (.rbClear b) s = .fault .clearRace)

/-- R133, R134, R135: the observers return their value and write nothing. -/
def Obligations.ObserversReturnCounts : Prop :=
  ∀ (b : BufId) (s : State), (s.buf b).valid = true →
    exec (.rbIsFull b) s = .next (s.respond .ok [if (s.buf b).cnt = (s.buf b).cap then 1 else 0]) ∧
    exec (.rbUsed b) s = .next (s.respond .ok [BitVec.ofNat 32 (s.buf b).cnt]) ∧
    exec (.rbRemain b) s = .next (s.respond .ok [BitVec.ofNat 32 ((s.buf b).cap - (s.buf b).cnt)])

/-- R130, R297: on a buffer with `valid = 0` every operation but `RB.INIT` changes nothing and returns `NotInitialised`. -/
def Obligations.InvalidBufferNotInitialised : Prop :=
  ∀ (b : BufId) (s : State) (x : Sample) (xs : List Sample) (n : Nat), (s.buf b).valid = false →
    ∀ i ∈ [Instr.rbClear b, .rbIsFull b, .rbUsed b, .rbRemain b, .rbWrite1 b x, .rbRead1 b, .rbWriteN b xs, .rbReadN b n],
      exec i s = .next (s.respond .notInitialised [])

/-- R136, R138, R141: a write that fits stores its elements from the write cursor on and advances `wr` and `cnt`; one that does not
fit returns `BufferFull` and changes nothing. `RB.WRITE1` is the write of one element. The only bytes of memory that change are
those at `(wr + i) mod cap`. -/
def Obligations.WriteStoresFromCursor : Prop :=
  ∀ (b : BufId) (s : State) (x : Sample) (xs : List Sample), (s.buf b).valid = true → (s.buf b).Inv → s.producerFree b = true →
    exec (.rbWrite1 b x) s = exec (.rbWriteN b [x]) s ∧
    (xs.length ≤ (s.buf b).cap - (s.buf b).cnt →
      ∃ m, (s.buf b).Stored xs m ∧
        exec (.rbWriteN b xs) s = .next ((s.setBuf b ((s.buf b).wrote xs.length m)).respond .ok [])) ∧
    ((s.buf b).cap - (s.buf b).cnt < xs.length → exec (.rbWriteN b xs) s = .next (s.respond .bufferFull []))

/-- R137, R139, R142: a read of at most `cnt` elements returns the oldest ones in order and advances `rd` and `cnt`, the memory being
unchanged; a longer one returns `InsufficientData`, or `BufferEmpty` for `RB.READ1`, and changes nothing. -/
def Obligations.ReadReturnsOldest : Prop :=
  ∀ (b : BufId) (s : State) (n : Nat), (s.buf b).valid = true → (s.buf b).Inv → s.consumerFree b = true →
    (n ≤ (s.buf b).cnt → ∃ d, d.map some = (s.buf b).contents.take n ∧
      exec (.rbReadN b n) s = .next ((s.setBuf b ((s.buf b).took n)).respond .ok d)) ∧
    ((s.buf b).cnt < n → exec (.rbReadN b n) s = .next (s.respond .insufficientData [])) ∧
    (0 < (s.buf b).cnt → ∃ v, (s.buf b).contents.head? = some (some v) ∧
      exec (.rbRead1 b) s = .next ((s.setBuf b ((s.buf b).took 1)).respond .ok [v])) ∧
    ((s.buf b).cnt = 0 → exec (.rbRead1 b) s = .next (s.respond .bufferEmpty []))

/-- R145 (P1, P2, P3): any sequence of writes and reads on one buffer runs to its end, answers what a queue of the buffer's capacity
answers, leaves what that queue holds, and touches no other buffer. -/
def Obligations.BufferRefinesQueue : Prop :=
  ∀ (b : BufId) (ops : List QueueOp) (s : State) (q : List Sample), (s.buf b).valid = true → (s.buf b).Inv →
    s.producerFree b = true → s.consumerFree b = true → (s.buf b).contents = q.map some →
    ∃ t : State, execAll (ops.map (QueueOp.instr b)) s = .next t ∧
      (t.buf b).contents = (QueueOp.run (s.buf b).cap ops q).2.map some ∧
      t.responses = s.responses ++ (QueueOp.run (s.buf b).cap ops q).1 ∧ (t.buf b).cap = (s.buf b).cap ∧
      ∀ b', b' ≠ b → t.buf b' = s.buf b'

/-- U1, R87, R312, R341 (which operation is refused under which name is the model's choice, log entries 14, 30 and 35): a second write on
a buffer one of whose writes is in flight or whose producer is in an operation, and a second read on one whose read is in flight or
whose consumer is in an operation, are refused, as commands and in a schedule; `RB.CLEAR`, `FLT.CLEAR` and `FLT.RUN`, which the
ownership table gives to no agent outside REINIT, are refused when a schedule starts them. -/
def Obligations.SecondProducerOrConsumerRefused : Prop :=
  ∀ (b : BufId) (s : State) (x : Sample) (xs : List Sample) (n : Nat),
    ((s.buf b).valid = true → (s.buf b).prodOp ≠ none ∨ s.agentIdle (producerOf b) = false →
      ∀ i ∈ [Instr.rbWriteN b xs, .rbWrite1 b x],
        exec i s = .refused .secondProducer ∧ micro (.start i) s = .refused .secondProducer) ∧
    ((s.buf b).valid = true → (s.buf b).consOp ≠ none ∨ s.agentIdle (consumerOf b) = false →
      ∀ i ∈ [Instr.rbReadN b n, .rbRead1 b],
        exec i s = .refused .secondConsumer ∧ micro (.start i) s = .refused .secondConsumer) ∧
    (∀ (sel : ClearSel) (flt : FltSel), ∀ i ∈ [Instr.rbClear b, .fltClear sel, .fltRun flt xs],
      micro (.start i) s = .refused .outsideOwnership)

/-! ## The phases of a write and a read (R8, R9, R80, R140) -/

/-- R9, R140, R144: on a locked buffer with nothing in between, the three micro-steps of a write or a read that fits, of one element or
of a list, leave what the operation run to completion leaves; on an unlocked buffer, and where the check fails, the operation is one
micro-step, which gives the outcome of the operation run to completion. -/
def Obligations.PhasesAgreeWithSequential : Prop :=
  ∀ (b : BufId) (s : State) (x : Sample) (xs : List Sample) (n : Nat), (s.buf b).valid = true → (s.buf b).Inv →
    (s.producerFree b = true →
      ((s.buf b).mode = true → xs.length ≤ (s.buf b).cap - (s.buf b).cnt →
        ∃ t : State, exec (.rbWriteN b xs) s = .next t ∧ microAll [.start (.rbWriteN b xs), .prod b, .prod b] s = .next t) ∧
      ((s.buf b).mode = true → (s.buf b).cnt < (s.buf b).cap →
        ∃ t : State, exec (.rbWrite1 b x) s = .next t ∧ microAll [.start (.rbWrite1 b x), .prod b, .prod b] s = .next t) ∧
      ((s.buf b).mode = false ∨ (s.buf b).cap - (s.buf b).cnt < xs.length →
        ∃ t : State, exec (.rbWriteN b xs) s = .next t ∧ micro (.start (.rbWriteN b xs)) s = .next t) ∧
      ((s.buf b).mode = false ∨ (s.buf b).cnt = (s.buf b).cap →
        ∃ t : State, exec (.rbWrite1 b x) s = .next t ∧ micro (.start (.rbWrite1 b x)) s = .next t)) ∧
    (s.consumerFree b = true →
      ((s.buf b).mode = true → n ≤ (s.buf b).cnt →
        ∃ t : State, exec (.rbReadN b n) s = .next t ∧ microAll [.start (.rbReadN b n), .cons b, .cons b] s = .next t) ∧
      ((s.buf b).mode = true → 0 < (s.buf b).cnt →
        ∃ t : State, exec (.rbRead1 b) s = .next t ∧ microAll [.start (.rbRead1 b), .cons b, .cons b] s = .next t) ∧
      ((s.buf b).mode = false ∨ (s.buf b).cnt < n →
        ∃ t : State, exec (.rbReadN b n) s = .next t ∧ micro (.start (.rbReadN b n)) s = .next t) ∧
      ((s.buf b).mode = false ∨ (s.buf b).cnt = 0 →
        ∃ t : State, exec (.rbRead1 b) s = .next t ∧ micro (.start (.rbRead1 b)) s = .next t))

/-- R141, R142, R340 (vectors M1, M2): every interleaving of the three micro-steps of a write and the three of a read on one locked
buffer that keeps each side's own order ends with the same buffer and returns the same elements. -/
def Obligations.InterleavingsOfWriteAndReadAgree : Prop :=
  ∀ (b : BufId) (s : State) (xs : List Sample) (n : Nat), (s.buf b).valid = true → (s.buf b).mode = true → (s.buf b).Inv →
    s.producerFree b = true → s.consumerFree b = true → xs.length ≤ (s.buf b).cap - (s.buf b).cnt → n ≤ (s.buf b).cnt →
    ∃ m d, (s.buf b).Stored xs m ∧ d.map some = (s.buf b).contents.take n ∧
      ∀ es : List Event, List.Perm es [.start (.rbWriteN b xs), .prod b, .prod b, .start (.rbReadN b n), .cons b, .cons b] →
        List.Sublist [.start (.rbWriteN b xs), .prod b, .prod b] es →
        List.Sublist [.start (.rbReadN b n), .cons b, .cons b] es →
        ∃ t : State, microAll es s = .next t ∧ ⟨.ok, d⟩ ∈ t.responses ∧
          t.buf b = { s.buf b with
            mem := m
            wr := ((s.buf b).wr + xs.length) % (s.buf b).cap
            rd := ((s.buf b).rd + n) % (s.buf b).cap
            cnt := (s.buf b).cnt + xs.length - n }

/-- R80, R83: while another agent holds the lock of a locked buffer, a publish phase is not enabled: its micro-step changes
nothing and gives no error. -/
def Obligations.HeldLockDelaysPublish : Prop :=
  ∀ (b : BufId) (s : State) (a : Agent) (op : ProdOp) (rop : ConsOp), (s.buf b).mode = true → (s.buf b).lock = .held a →
    ((s.buf b).prodOp = some op → op.phase = .copied → s.agentIdle (producerOf b) = true → micro (.prod b) s = .next s) ∧
    ((s.buf b).consOp = some rop → rop.phase = .copied → s.agentIdle (consumerOf b) = true → micro (.cons b) s = .next s)

/-! ## Filters (41_filters.md) -/

/-- R171: `FLT.CLEAR` sets every element of every delay array it addresses to F zero, in the sets of every ratio, and changes nothing
else; array lengths stay. -/
def Obligations.FltClearZeroesDelays : Prop :=
  ∀ s : State,
    (∃ t : State, exec (.fltClear .all) s = .next (t.respond .ok []) ∧ t = { s with d1 := t.d1, d2 := t.d2 } ∧
      t.DelaysAre Config.current.num.zero ∧
      (∀ r ch, ((t.d1.get r).get ch).map List.length = ((s.d1.get r).get ch).map List.length) ∧
      (∀ r ch, ((t.d2.get r).get ch).map List.length = ((s.d2.get r).get ch).map List.length)) ∧
    (∀ ch, ∃ t : State, exec (.fltClear (.one ⟨.chain1, ch⟩)) s = .next (t.respond .ok []) ∧ t = { s with d1 := t.d1 } ∧
      (∀ r, Delays.AllAre Config.current.num.zero ((t.d1.get r).get ch)) ∧
      (∀ r, ((t.d1.get r).get ch).map List.length = ((s.d1.get r).get ch).map List.length) ∧
      (∀ r ch', ch' ≠ ch → (t.d1.get r).get ch' = (s.d1.get r).get ch')) ∧
    (∀ ch, ∃ t : State, exec (.fltClear (.one ⟨.chain2, ch⟩)) s = .next (t.respond .ok []) ∧ t = { s with d2 := t.d2 } ∧
      (∀ r, Delays.AllAre Config.current.num.zero ((t.d2.get r).get ch)) ∧
      (∀ r, ((t.d2.get r).get ch).map List.length = ((s.d2.get r).get ch).map List.length) ∧
      (∀ r ch', ch' ≠ ch → (t.d2.get r).get ch' = (s.d2.get r).get ch'))

/-- R169, R172: `FLT.RUN` returns the n × r outputs of `RunChain` with gain 1 and advances the delay arrays of the one set and
channel it addresses, nothing else; a chain whose ratio register holds no value gives `NotInitialised`. A NaN at the integer
boundary is the fault of U6. -/
def Obligations.FltRunRunsChain : Prop :=
  ∀ (ch : Chan) (xs ys : List Sample) (e : Delays) (s : State),
    (∀ r, s.r1 = some r → runChain Config.current.num (Config.current.chain1 r) ((s.d1.get r).get ch) xs none = .ok (ys, e) →
      ys.length = xs.length * r.toNat ∧
      exec (.fltRun ⟨.chain1, ch⟩ xs) s = .next ({ s with d1 := s.d1.set r ((s.d1.get r).set ch e) }.respond .ok ys)) ∧
    (∀ r, s.r2 = some r → runChain Config.current.num (Config.current.chain2 r) ((s.d2.get r).get ch) xs none = .ok (ys, e) →
      ys.length = xs.length * r.toNat ∧
      exec (.fltRun ⟨.chain2, ch⟩ xs) s = .next ({ s with d2 := s.d2.set r ((s.d2.get r).set ch e) }.respond .ok ys)) ∧
    (s.r1 = none → exec (.fltRun ⟨.chain1, ch⟩ xs) s = .next (s.respond .notInitialised [])) ∧
    (s.r2 = none → exec (.fltRun ⟨.chain2, ch⟩ xs) s = .next (s.respond .notInitialised []))

/-- R174: from all-zero delay arrays an all-zero input gives an all-zero output through a stage, a list of stages and a whole chain,
and the delay arrays stay all zero, for any finite coefficients and any finite gain, whatever the numeric type F. -/
def Obligations.ZeroInputZeroOutput : Prop :=
  ∀ (n : Numerics) (chain : List Stage), (∀ st ∈ chain, finiteCoeffs n st) →
    (∀ st ∈ chain, ∀ d xs : List FVal, (∀ v ∈ d, zeroF n v) → (∀ v ∈ xs, zeroF n v) →
      (∀ v ∈ (stageRun n st d xs).1, zeroF n v) ∧ (∀ v ∈ (stageRun n st d xs).2, zeroF n v)) ∧
    (∀ (ds : Delays) (xs : List FVal), ds.Zeros n → (∀ v ∈ xs, zeroF n v) →
      (∀ v ∈ (runStages n chain ds xs).1, zeroF n v) ∧ Delays.Zeros n (runStages n chain ds xs).2) ∧
    (∀ (ds : Delays) (k : Nat) (g : Option FVal), ds.Zeros n → (∀ v ∈ g, finiteF n v) →
      ∃ e, runChain n chain ds (List.replicate k 0) g = .ok (List.replicate (k * chainRatio chain) 0, e) ∧ Delays.Zeros n e)

/-- R166, R173: a block of n inputs gives n × f_1 × … × f_m outputs, and a block split at any point gives the same outputs and the
same final delay arrays. -/
def Obligations.BlockSplitInvariance : Prop :=
  ∀ (n : Numerics) (chain : List Stage) (ds : Delays) (xs ys : List FVal),
    (runStages n [] ds xs).1 = xs ∧
    (runStages n chain ds xs).1.length = xs.length * chainRatio chain ∧
    (runStages n chain ds (xs ++ ys)).1 =
      (runStages n chain ds xs).1 ++ (runStages n chain (runStages n chain ds xs).2 ys).1 ∧
    (runStages n chain ds (xs ++ ys)).2 = (runStages n chain (runStages n chain ds xs).2 ys).2

/-- R168: `F.sat32` saturates at both ends, infinities included, rounds toward zero in between, and faults on a NaN (U6). -/
def Obligations.SaturationRoundsTowardZero : Prop :=
  ∀ (n : Numerics) (v : FVal),
    (n.val v = .nan → sat32 n v = .error .nanAtBoundary) ∧
    (n.val v = .inf false → ∃ x, sat32 n v = .ok x ∧ x.toInt = 2147483647) ∧
    (n.val v = .inf true → ∃ x, sat32 n v = .ok x ∧ x.toInt = -2147483648) ∧
    (∀ q, n.val v = .fin q → ∃ x, sat32 n v = .ok x ∧
      (2147483647 ≤ q → x.toInt = 2147483647) ∧ (q ≤ -2147483648 → x.toInt = -2147483648) ∧
      (-2147483648 < q → q < 2147483647 →
        (0 ≤ q → (x.toInt : Rat) ≤ q ∧ q < x.toInt + 1) ∧ (q < 0 → q ≤ x.toInt ∧ (x.toInt : Rat) - 1 < q)))

/-! ## Ingestion, the engine and the tick (42_engine.md) -/

/-- R191: a PCM value of depth d becomes the Sample `p × 2^(32−d)`, which always fits. -/
def Obligations.PcmLeftJustified : Prop :=
  ∀ (c : Config) (d : Depth) (free : Nat) (p : Word), -2 ^ (d.bits - 1) ≤ p.toInt → p.toInt ≤ 2 ^ (d.bits - 1) - 1 →
    (pcm2Sample c d free p).toInt = p.toInt * 2 ^ (32 - d.bits)

/-- R190: a packet that fits both EP buffers is appended to them, channel 0 to `EP0` and channel 1 to `EP1`; one that does not fit both
returns `BufferFull` and writes neither; during REINIT it is discarded with `OK`; with no `depth` or an uninitialised EP buffer it
is `NotInitialised`. Nothing else changes but the model's count of free PCM values (log entry 5), the values that stand for payload
words outside the range of R107. -/
def Obligations.UsbPushAllOrNothing : Prop :=
  ∀ (frames : List PcmFrame) (s : State), s.usbcbBlocked = none →
    (s.reinitBusy = true → exec (.usbPush frames) s = .next (s.respond .ok [])) ∧
    (s.reinitBusy = false → (s.depth = none ∨ s.rb.ep0.valid = false ∨ s.rb.ep1.valid = false) →
      exec (.usbPush frames) s = .next (s.respond .notInitialised [])) ∧
    (∀ d, s.reinitBusy = false → s.depth = some d → s.rb.ep0.valid = true → s.rb.ep1.valid = true → s.BuffersInv →
      (min (s.rb.ep0.cap - s.rb.ep0.cnt) (s.rb.ep1.cap - s.rb.ep1.cnt) < frames.length →
        exec (.usbPush frames) s = .next (s.respond .bufferFull [])) ∧
      (frames.length ≤ min (s.rb.ep0.cap - s.rb.ep0.cnt) (s.rb.ep1.cap - s.rb.ep1.cnt) →
        ∃ m0 m1, s.rb.ep0.Stored (channelSamples Config.current d .c0 s.pcmFree frames) m0 ∧
          s.rb.ep1.Stored (channelSamples Config.current d .c1 s.pcmFree frames) m1 ∧
          exec (.usbPush frames) s = .next ({ s with
            rb := { s.rb with ep0 := s.rb.ep0.wrote frames.length m0, ep1 := s.rb.ep1.wrote frames.length m1 }
            pcmFree := s.pcmFree + 2 * frames.length }.respond .ok [])))

/-- R194: the nominal count is `(f_cur × TICK_US) div 1000000`, with its value for each of the six rates. -/
def Obligations.NominalCounts : Prop :=
  (∀ (c : Config) (f : Rate), nominalCount c f = f.hz * c.tickUs / 1000000) ∧
  (∀ f : Rate, nominalCount Config.current f = f.hz * 250 / 1000000 ∧ f.hz * 250 ≤ 48000000) ∧
  nominalCount Config.current .r44100 = 11 ∧ nominalCount Config.current .r48000 = 12 ∧
  nominalCount Config.current .r88200 = 22 ∧ nominalCount Config.current .r96000 = 24 ∧
  nominalCount Config.current .r176400 = 44 ∧ nominalCount Config.current .r192000 = 48

/-- R192, R193: with `n = clamp(nom + adj, 0, avail)`, `ENG.RUN` returns 0 and changes nothing for n = 0, returns `BufferFull` having
consumed nothing when the output does not fit both MID buffers, and otherwise moves n Samples per channel through chain 1. -/
def Obligations.EngRunMovesSamples : Prop :=
  ∀ (s : State) (f : Rate) (r : Ratio1) (n : Nat), s.EngReady f r →
    (n : Int) = min (max ((f.hz * 250 / 1000000 : Nat) + s.adj) 0) (s.avail Config.current) →
    (n = 0 → exec .engRun s = .next (s.respond .ok [0])) ∧
    (0 < n → s.midFree Config.current < n * r.toNat → exec .engRun s = .next (s.respond .bufferFull [])) ∧
    (0 < n → n * r.toNat ≤ s.midFree Config.current → s.Chain1Defined Config.current r n →
      ∃ t : State, EngineMoves Config.current r n s t ∧ exec .engRun s = .next (t.respond .ok [BitVec.ofNat 32 n]))

/-- R198: at exactly target occupancy, at 48000 Hz and ratio 8, the controller's adjustment is 0 and the engine consumes exactly 12
input samples and emits exactly 96 output samples per channel. -/
def Obligations.TargetOccupancyScenario : Prop :=
  ∀ (c : Config) (s : State), c.tickUs = 250 → s.EngReady .r48000 .x8 → s.rb.mid0.cnt = s.rb.mid0.cap / 2 → s.rb.mid1.cnt = s.rb.mid1.cap / 2 →
    12 ≤ s.rb.ep0.cnt → 12 ≤ s.rb.ep1.cnt → 96 ≤ s.rb.mid0.cap / 2 → 96 ≤ s.rb.mid1.cap / 2 → s.Chain1Defined c .x8 12 →
    exec .ctlAdj s = .next ({ s with adj := 0 }.respond .ok [0]) ∧
    ∃ t : State, (engRun c { s with adj := 0 }).outcome = .next (t.respond .ok [12]) ∧
      t.rb.ep0.cnt + 12 = s.rb.ep0.cnt ∧ t.rb.mid0.cnt = s.rb.mid0.cnt + 96 ∧
      (c.nch = 2 → t.rb.ep1.cnt + 12 = s.rb.ep1.cnt ∧ t.rb.mid1.cnt = s.rb.mid1.cnt + 96)

/-- R196: an enabled `TICK` smooths the volume, sets `adj` to the sign of target − occupancy and runs the engine with both; when the
engine's output does not fit it returns `BufferFull` and the writes of the volume and the controller stand. A NaN at the gain
saturation is the fault of U6. The statement is about every configuration, because nothing is known of the volume curve of the one the
machine is built with (R219); each clause says it of the instruction too, whose configuration is that one. -/
def Obligations.TickSmoothsAdjustsRuns : Prop :=
  ∀ (c : Config) (s : State) (f : Rate) (r : Ratio1) (v : BitVec 16) (g : FVal) (a : Int) (n : Nat),
    s.timerEnabled = true → s.EngReady f r → s.volReq = some v →
    satUnit c.num (c.volCurve (smoothed c s.volSmooth (c.num.ofInt v.toInt))) = .ok g →
    a = signInt (((s.rb.mid0.cap / 2 : Nat) : Int) - s.rb.mid0.cnt) →
    (n : Int) = min (max ((f.hz * c.tickUs / 1000000 : Nat) + a) 0) (s.avail c) →
    (n = 0 →
      tickOp c s = .next ((afterVolumeAndController c v g a s).respond .ok [0]) ∧
      (c = Config.current → exec .tick s = .next ((afterVolumeAndController c v g a s).respond .ok [0]))) ∧
    (0 < n → s.midFree c < n * r.toNat →
      tickOp c s = .next ((afterVolumeAndController c v g a s).respond .bufferFull []) ∧
      (c = Config.current → exec .tick s = .next ((afterVolumeAndController c v g a s).respond .bufferFull []))) ∧
    (0 < n → n * r.toNat ≤ s.midFree c → (afterVolumeAndController c v g a s).Chain1Defined c r n →
      ∃ t : State, EngineMoves c r n (afterVolumeAndController c v g a s) t ∧
        tickOp c s = .next (t.respond .ok [BitVec.ofNat 32 n]) ∧
        (c = Config.current → exec .tick s = .next (t.respond .ok [BitVec.ofNat 32 n])))

/-- R196, R298: a `TICK` while the timer is disabled changes nothing and returns `Held`. That a `TICK` command while a tick is in
progress does the same is the model's choice (log entry 14, DESIGN CHOICE, unsafe for that answer): R305 starts no further tick then
and gives no answer. -/
def Obligations.TickHeldWhenDisabled : Prop :=
  ∀ s : State, s.timerEnabled = false ∨ s.tick ≠ .idle → exec .tick s = .next (s.respond .held [])

/-! ## The controller (43_controller.md) -/

/-- R212: below target the adjustment is exactly +1, above it exactly −1, at target exactly 0, in every state, whatever `adj` holds
already, so that repeated ticks at the target give 0 each time. Nothing but `adj` is written. -/
def Obligations.AdjustmentIsSignOfDeviation : Prop :=
  ∀ s : State, s.rb.mid0.valid = true → s.tick = .idle →
    (s.rb.mid0.cnt < s.rb.mid0.cap / 2 → exec .ctlAdj s = .next ({ s with adj := 1 }.respond .ok [1])) ∧
    (s.rb.mid0.cap / 2 < s.rb.mid0.cnt → exec .ctlAdj s = .next ({ s with adj := -1 }.respond .ok [0xFFFFFFFF])) ∧
    (s.rb.mid0.cnt = s.rb.mid0.cap / 2 → exec .ctlAdj s = .next ({ s with adj := 0 }.respond .ok [0]))

/-- R213, R214, R216: `FB.REPORT` writes no state and returns `((f_cur + corr) × 16384) div 1000` with
`corr = clamp(dev div R1, −FB_LIMIT, FB_LIMIT)`, which is positive and fits 24 bits; a register without a value gives
`NotInitialised`. With no other agent stepping in between, its three micro-steps (R352) leave the same. That its reads are one step as a
command is the model's choice (log entry 11); the scale of 1 ms is the spec's own general knowledge, not in its source (R214; log entry
20, PRESUMED). -/
def Obligations.FeedbackReportsRate : Prop :=
  ∀ s : State, s.host = .idle →
    (∀ f r, s.fCur = some f → s.r1 = some r → s.rb.mid0.valid = true →
      ∀ dev corr rate : Int, dev = ((s.rb.mid0.cap / 2 : Nat) : Int) - s.rb.mid0.cnt →
        corr = min (max (dev.tdiv r.toNat) (-Config.current.fbLimit)) Config.current.fbLimit → rate = f.hz + corr →
        0 < rate ∧ rate * 16384 / 1000 < 2 ^ 24 ∧
        exec .fbReport s = .next (s.respond .ok [BitVec.ofInt 32 (rate * 16384 / 1000)]) ∧
        (s.booted = true →
          microAll [.start .fbReport, .agent .hostfb, .agent .hostfb] s =
            .next (s.respond .ok [BitVec.ofInt 32 (rate * 16384 / 1000)]))) ∧
    (s.fCur = none ∨ s.r1 = none ∨ s.rb.mid0.valid = false → exec .fbReport s = .next (s.respond .notInitialised []))

/-- R217: the feedback values of the six rates with zero correction. They rest on the scale of 1 ms, which R214 marks as general
knowledge, not in its source (log entry 20, PRESUMED). -/
def Obligations.FeedbackValuesOfRates : Prop :=
  fb1014 44100 = 722534 ∧ fb1014 48000 = 786432 ∧ fb1014 88200 = 1445068 ∧ fb1014 96000 = 1572864 ∧
  fb1014 176400 = 2890137 ∧ fb1014 192000 = 3145728

/-- R215: the three bytes are bits 7:0, bits 15:8, bits 23:16, least significant first, with the rule's two examples. -/
def Obligations.FeedbackBytesLeastFirst : Prop :=
  (∀ v : BitVec 24, ∃ x y z : BitVec 8, fbBytes v = [x, y, z] ∧ v.toNat = x.toNat + y.toNat * 2 ^ 8 + z.toNat * 2 ^ 16) ∧
  fbBytes (fb1014 48000) = [0x00, 0x00, 0x0C] ∧ fbBytes (fb1014 44100) = [0x66, 0x06, 0x0B]

/-- R218, R220: `VOL.SMOOTH` latches `vol_req`, moves `vol_smooth` by ALPHA of the distance and sets the gain from the curve, saturated;
it writes nothing else. With no `vol_req` it is `NotInitialised`. The saturation gives 0 below 0, 1 above 1, infinities included, and
its argument in between, so a number in [0, 1] where the 1 of `F` is 1; a NaN faults (U6). The statement is about every configuration,
because nothing is known of the volume curve of the one the machine is built with (R219); it says it of the instruction too, whose
configuration is that one. -/
def Obligations.VolSmoothUpdatesGain : Prop :=
  (∀ s : State, s.tick = .idle → s.volReq = none → exec .volSmooth s = .next (s.respond .notInitialised [])) ∧
  (∀ (c : Config) (s : State) (v : BitVec 16) (w g : FVal), s.tick = .idle → s.volReq = some v →
    w = c.num.add s.volSmooth (c.num.mul (c.num.sub (c.num.ofInt v.toInt) s.volSmooth) (c.num.ofReal c.alpha)) →
    satUnit c.num (c.volCurve w) = .ok g →
    volSmooth c s = .next ({ s with volAcq := v, volSmooth := w, gain := g }.respond .ok []) ∧
    (c = Config.current →
      c.alpha = 85 / 100 ∧ exec .volSmooth s = .next ({ s with volAcq := v, volSmooth := w, gain := g }.respond .ok []))) ∧
  (∀ (n : Numerics) (x : FVal),
    (n.val x = .nan → satUnit n x = .error .nanAtBoundary) ∧
    (n.val x = .inf true → satUnit n x = .ok (n.ofInt 0)) ∧ (n.val x = .inf false → satUnit n x = .ok (n.ofReal 1)) ∧
    (∀ q, n.val x = .fin q → (q < 0 → satUnit n x = .ok (n.ofInt 0)) ∧ (1 < q → satUnit n x = .ok (n.ofReal 1)) ∧
      (0 ≤ q → q ≤ 1 → satUnit n x = .ok x)) ∧
    (n.val (n.ofReal 1) = .fin 1 → ∀ g, satUnit n x = .ok g → gainInRange n g))

/-! ## The scheduler (44_scheduler.md) -/

/-- R230 to R234, R236, R247: each poll that renders nothing performs exactly the action its state and tests select, and changes
nothing but what that action writes; a poll during REINIT does nothing. -/
def Obligations.PollSelectsOneAction : Prop :=
  ∀ s : State, s.pollbBlocked = none →
    (s.reinitBusy = true → exec .txPoll s = .next (s.respond .ok [6])) ∧
    (∀ r, s.PollReady r →
      (s.schedState = .draining → s.rb.mid0.cap / 2 < s.occ Config.current →
        exec .txPoll s = .next ({ s with schedState := .streaming }.respond .ok [1])) ∧
      (s.schedState = .draining → s.occ Config.current ≤ s.rb.mid0.cap / 2 → exec .txPoll s = .next (s.respond .ok [0])) ∧
      (s.schedState = .streaming → s.occ Config.current = 0 → s.qCnt = 0 →
        exec .txPoll s = .next ({ s with schedState := .drainingToStop }.respond .ok [4])) ∧
      (s.schedState = .streaming → s.qCnt = 3 → exec .txPoll s = .next (s.respond .ok [3])) ∧
      (s.schedState = .streaming → s.occ Config.current = 0 → 0 < s.qCnt → s.qCnt < 3 → exec .txPoll s = .next (s.respond .ok [0])) ∧
      (s.schedState = .drainingToStop →
        exec .txPoll s = .next ({ s with
          qWr := 0, qRd := 0, qCnt := 0, slots := s.slots.map fun _ => ⟨0, ⟨[]⟩⟩, irqMask := false
          schedState := .draining }.respond .ok [5])))

/-- R233: with the transmit queue at full depth a render attempt is a no-op: queue indices, occupancies, slots and delay arrays are
unchanged, as is everything else. -/
def Obligations.FullQueueSkipsRender : Prop :=
  ∀ (s : State) (r : Ratio2), s.PollReady r → s.schedState = .streaming → s.qCnt = Config.current.txqDepth →
    exec .txPoll s = .next (s.respond .ok [3])

/-- R235, R237, R238, R239: a render takes m Samples of each channel through chain 2, fills the slot at `q_wr` with their outputs
interleaved and queues it; it changes nothing else. A NaN at the integer boundary is the fault of U6. That the payload words of the slot
at and above the new count keep what they held is the model's reading (log entry 19, DEDUCED): R235 says nothing of them. -/
def Obligations.RenderFillsAndQueuesSlot : Prop :=
  ∀ (s : State) (r : Ratio2) (m : Nat), s.PollReady r → s.BuffersInv → s.QueueInv Config.current →
    s.schedState = .streaming → 0 < s.occ Config.current → s.qCnt < 3 → m = renderSize Config.current (s.occ Config.current) r →
    s.Chain2Defined Config.current r m →
    ∃ t : State, RenderMoves Config.current r m s t ∧ exec .txPoll s = .next (t.respond .ok [2])

/-- R239: a render takes as much as the occupancy, the slot's capacity and the budget allow, and at least one Sample. -/
def Obligations.RenderSizeIsLargestAllowed : Prop :=
  ∀ (c : Config) (occ : Nat) (r : Ratio2), 0 < occ →
    0 < renderSize c occ r ∧ renderSize c occ r ≤ occ ∧ renderSize c occ r * r.toNat * c.nch ≤ c.slotCap ∧
    (∀ b, c.renderBudget = some b → renderSize c occ r ≤ b) ∧
    ∀ k, k ≤ occ → k * r.toNat * c.nch ≤ c.slotCap → (∀ b, c.renderBudget = some b → k ≤ b) → k ≤ renderSize c occ r

/-- R240: a payload word is the whole Sample at word size 32, its upper 16 bits zero-extended at word size 16. -/
def Obligations.OutputWordOfSample : Prop :=
  ∀ (c : Config) (x : Sample),
    (c.wordSize = .w32 → outWord c x = x) ∧
    (c.wordSize = .w16 → (outWord c x).toNat = x.toNat / 2 ^ 16 ∧ (outWord c x).toNat < 2 ^ 16)

/-- R241, R242, R243, R298: with a transfer armed or its completion pending, `DMA.DONE` arms a copy of the head slot, or a silence frame
when the queue is empty, and appends it to `out_stream`; with neither it changes nothing and returns `Held`. -/
def Obligations.DmaDoneArmsNextFrame : Prop :=
  ∀ s : State,
    (s.dmaBusy = false → s.dmaPend = false → exec .dmaDone s = .next (s.respond .held [])) ∧
    (s.dmaBusy = true ∨ s.dmaPend = true → s.irqMask = false →
      (∀ sl : Slot, 0 < s.qCnt → s.slots[s.qRd]? = some sl →
        exec .dmaDone s = .next ({ s with
          dmaPend := false, dmaBusy := true, qRd := (s.qRd + 1) % 3, qCnt := s.qCnt - 1
          dmaCur := ⟨sl.count, (List.range sl.count).map sl.payload.getZero⟩
          outStream := s.outStream ++ [TxFrame.mk sl.count ((List.range sl.count).map sl.payload.getZero)] }.respond .ok [1])) ∧
      (s.qCnt = 0 →
        exec .dmaDone s = .next ({ s with
          dmaPend := false, dmaBusy := true
          dmaCur := ⟨Config.current.silenceWords, List.replicate Config.current.silenceWords 0⟩
          outStream := s.outStream ++
            [TxFrame.mk Config.current.silenceWords (List.replicate Config.current.silenceWords 0)] }.respond .ok [0])))

/-- R244: over all 26 operations, and over all micro-steps, the scheduler's state moves only along `DRAINING` to `STREAMING` (needs
`occ > cap div 2`), `STREAMING` to `DRAINING_TO_STOP` (needs `occ = 0` and `q_cnt = 0`), `DRAINING_TO_STOP` to `DRAINING`, except that
REINIT step 6 sets `DRAINING`. In a micro-step `occ` and `q_cnt` are what the poll read. -/
def Obligations.SchedulerCycle : Prop :=
  (∀ (i : Instr) (s t : State), exec i s = .next t → t.schedState ≠ s.schedState →
    (i = .txPoll ∧ s.schedState = .draining ∧ t.schedState = .streaming ∧ s.rb.mid0.cap / 2 < s.occ Config.current) ∨
    (i = .txPoll ∧ s.schedState = .streaming ∧ t.schedState = .drainingToStop ∧ s.occ Config.current = 0 ∧ s.qCnt = 0) ∨
    (i = .txPoll ∧ s.schedState = .drainingToStop ∧ t.schedState = .draining) ∨
    ((i = .reinit ∨ i = .mainPoll) ∧ t.schedState = .draining)) ∧
  (∀ (e : Event) (s t : State), micro e s = .next t → t.schedState ≠ s.schedState →
    (∃ occ q, e = .agent .pollb ∧ s.poll = .act occ q ∧
      ((s.schedState = .draining ∧ t.schedState = .streaming ∧ s.rb.mid0.cap / 2 < occ) ∨
        (s.schedState = .streaming ∧ t.schedState = .drainingToStop ∧ occ = 0 ∧ q = 0) ∨
        (s.schedState = .drainingToStop ∧ t.schedState = .draining))) ∨
    (e = .agent .maina ∧ s.reinitStep = 5 ∧ t.schedState = .draining))

/-! ## Control writes, REINIT and the main loop (45_system.md) -/

/-- R260 to R265: a control write of a legal value writes its one AudioState register; of any other value it changes nothing; both
return `OK`. -/
def Obligations.ControlWritesOneRegister : Prop :=
  ∀ s : State,
    (∀ f : Rate, exec (.setRate (BitVec.ofNat 32 f.hz)) s = .next ({ s with fNom := some f }.respond .ok [])) ∧
    (∀ w : Word, (∀ f : Rate, w.toNat ≠ f.hz) → exec (.setRate w) s = .next (s.respond .ok [])) ∧
    (∀ d : Depth, exec (.setDepth (BitVec.ofNat 6 d.bits)) s = .next ({ s with depth := some d }.respond .ok [])) ∧
    (∀ w : BitVec 6, (∀ d : Depth, w.toNat ≠ d.bits) → exec (.setDepth w) s = .next (s.respond .ok [])) ∧
    (∀ v : BitVec 16, -16384 ≤ v.toInt → v.toInt ≤ 0 →
      exec (.setVol v) s = .next ({ s with volReq := some v }.respond .ok [])) ∧
    (∀ v : BitVec 16, v.toInt < -16384 ∨ 0 < v.toInt → exec (.setVol v) s = .next (s.respond .ok [])) ∧
    (∀ m : Bool, exec (.setMute m) s = .next ({ s with mute := some m }.respond .ok [])) ∧
    (∀ p : Bool, exec (.setPower p) s = .next ({ s with pmSignal := some p }.respond .ok []))

/-- R266 to R273, R337: with its registers and buffers initialised and no operation in flight, `REINIT` runs its six steps and leaves
exactly what R337 lists; with any of them missing it changes nothing and returns `NotInitialised`, and so does `MAIN.POLL`. R272 names
three registers for `MAIN.POLL` and R332 the buffers too; that it needs the buffers valid whether or not a REINIT is pending is the
model's reading (log entry 25, DEDUCED). That a REINIT can end boot is the model's own field (log entry 33). -/
def Obligations.ReinitRunsSixSteps : Prop :=
  ∀ s : State,
    (s.Quiet → s.fNom ≠ none → s.pmSignal ≠ none → s.mute ≠ none → s.allValid = true →
      exec .reinit s = .next ((afterReinit Config.current s).respond .ok [])) ∧
    (s.main = .idle → s.fNom = none ∨ s.pmSignal = none ∨ s.mute = none ∨ s.allValid = false →
      exec .reinit s = .next (s.respond .notInitialised []) ∧ exec .mainPoll s = .next (s.respond .notInitialised []))

/-- R274 (that a command meeting an operation in flight waits without a response is the model's choice, log entry 14): a REINIT that
finds a poll in progress has done step 1 and waits before step 2; one that finds only a push in progress waits before step 6. -/
def Obligations.ReinitWaitsForInterlock : Prop :=
  ∀ s : State, s.main = .idle → s.tick = .idle → s.fNom ≠ none → s.pmSignal ≠ none → s.mute ≠ none → s.allValid = true →
    (s.pollBusy = true →
      exec .reinit s = .next { s with
        main := .reinit [], reinitBusy := true, timerEnabled := false, reinitStep := 1 }) ∧
    (s.pollBusy = false → s.pushBusy = true →
      ∃ t : State, exec .reinit s = .next t ∧ t.reinitStep = 5 ∧ t.reinitBusy = true ∧ t.main = .reinit [] ∧ t.rb = s.rb ∧
        t.d1 = s.d1 ∧ t.d2 = s.d2 ∧ t.qCnt = 0 ∧ t.dmaBusy = false ∧ t.dmaPend = false ∧ t.fCur = s.fNom ∧
        t.pmCur = s.pmSignal ∧ t.responses = s.responses)

/-- R272, R275: `MAIN.POLL` runs REINIT and returns 1 when one is pending, otherwise releases the mute and returns 2, or does nothing and
returns 0. (The state after a REINIT holds the model's own mark that boot has ended, log entry 33.) -/
def Obligations.MainPollDetectsTriggers : Prop :=
  ∀ s : State, s.Quiet → s.fNom ≠ none → s.pmSignal ≠ none → s.allValid = true → ∀ m : Bool, s.mute = some m →
    (s.fCur = none ∨ s.fNom ≠ s.fCur ∨ s.pmCur = none ∨ s.pmSignal ≠ s.pmCur ∨ (m = true ∧ s.muteCur = false) →
      exec .mainPoll s = .next ((afterReinit Config.current s).respond .ok [1])) ∧
    (s.fCur ≠ none → s.fNom = s.fCur → s.pmCur ≠ none → s.pmSignal = s.pmCur →
      (m = false → s.muteCur = true →
        exec .mainPoll s =
          .next ({ s with muteCur := false, dacEvents := s.dacEvents ++ [DacOp.setUnmute] }.respond .ok [2])) ∧
      (m = s.muteCur → exec .mainPoll s = .next (s.respond .ok [0])))

/-- R276: a power-mode toggle in mid-stream followed by the main loop leaves every buffer empty and every delay array zero, the queue
empty, the scheduler draining and the new mode latched with its ratio and output rate. -/
def Obligations.PowerToggleClearsEverything : Prop :=
  ∀ (s : State) (p : Bool) (f : Rate), s.Quiet → s.fNom = some f → s.mute ≠ none → s.allValid = true → s.pmCur ≠ some p →
    ∃ t : State, execAll [.setPower p, .mainPoll] s = .next t ∧
      (∀ b, (t.buf b).cnt = 0) ∧ t.DelaysAre Config.current.num.zero ∧ t.qCnt = 0 ∧ t.schedState = .draining ∧
      t.pmCur = some p ∧ t.pmSignal = some p ∧ t.r2 = some (Config.current.r2Of p) ∧
      t.outRate = some (f.hz * (Config.current.r1Of f).toNat * (Config.current.r2Of p).toNat)

/-! ## Reset and boot (10_state.md R57, 70_reset_and_hazards.md R335, R336) -/

/-- R331, R57: what the reset state guarantees. (The values the model holds where R57 says "no value until `RB.INIT`" are the model's
own, log entry 3, and are not stated.) -/
def Obligations.ResetValues : Prop :=
  (∀ b, (State.reset.buf b).valid = false ∧ (State.reset.buf b).lock = .free ∧ (State.reset.buf b).prodOp = none ∧
    (State.reset.buf b).consOp = none ∧ ∀ i, (State.reset.buf b).mem.get i = none) ∧
  State.reset.fNom = none ∧ State.reset.depth = none ∧ State.reset.volReq = none ∧ State.reset.mute = none ∧
  State.reset.pmSignal = none ∧ State.reset.fCur = none ∧ State.reset.pmCur = none ∧ State.reset.r1 = none ∧
  State.reset.r2 = none ∧ State.reset.outRate = none ∧ State.reset.muteCur = false ∧ State.reset.volAcq = 0 ∧
  State.reset.volSmooth = Config.current.num.ofInt 0 ∧ State.reset.gain = Config.current.num.ofReal 1 ∧ State.reset.adj = 0 ∧
  State.reset.schedState = .draining ∧ State.reset.qWr = 0 ∧ State.reset.qRd = 0 ∧ State.reset.qCnt = 0 ∧
  State.reset.slots.length = 3 ∧ (∀ sl ∈ State.reset.slots, sl.count = 0 ∧ ∀ k, sl.payload.getZero k = 0) ∧
  State.reset.timerEnabled = false ∧ State.reset.irqMask = false ∧ State.reset.dmaPend = false ∧
  State.reset.dmaBusy = false ∧ State.reset.dmaCur = ⟨0, []⟩ ∧ State.reset.reinitBusy = false ∧ State.reset.reinitStep = 0 ∧
  State.reset.pollBusy = false ∧ State.reset.pushBusy = false ∧ State.reset.DelaysAre (Config.current.num.ofInt 0) ∧
  State.reset.outStream = [] ∧ State.reset.dacEvents = [] ∧
  State.reset.usb = .idle ∧ State.reset.tick = .idle ∧ State.reset.poll = .idle ∧ State.reset.main = .idle ∧
  State.reset.host = .idle

/-- R116, R335, R336: the boot order is `BOOT CAP_EP, CAP_MID; START f, d, v, p`, and from reset its ten steps end in the state R336
lists, and every one of them returns `OK`. (That boot has not ended at reset and has ended then is the model's own field `booted`, log
entry 33.) -/
def Obligations.BootLeavesListedState : Prop :=
  State.reset.booted = false ∧
  (∀ (f : Rate) (d : Depth) (v : BitVec 16) (p : Bool), bootOrder Config.current f d v p =
    bootProgram (BitVec.ofNat 32 Config.current.capEp) (BitVec.ofNat 32 Config.current.capMid) ++
      startProgram (BitVec.ofNat 32 f.hz) (BitVec.ofNat 6 d.bits) v p) ∧
  ∀ (f : Rate) (d : Depth) (v : BitVec 16) (p : Bool), -16384 ≤ v.toInt → v.toInt ≤ 0 →
    ∃ t : State, Sys2Proof.core.run 10 { State.reset with
        stream := assemble (bootOrder Config.current f d v p) } = .next t ∧
      t.stream = [] ∧ t.responses = List.replicate 9 ⟨.ok, []⟩ ++ [⟨.ok, [1]⟩] ∧
      (∀ b, (t.buf b).valid = true ∧ (t.buf b).mode = Config.current.lockMode b ∧ (t.buf b).wr = 0 ∧ (t.buf b).rd = 0 ∧ (t.buf b).cnt = 0 ∧
        ∀ i, (t.buf b).mem.get i = none) ∧
      t.rb.ep0.cap = Config.current.capEp ∧ t.rb.ep1.cap = Config.current.capEp ∧ t.rb.mid0.cap = Config.current.capMid ∧
      t.rb.mid1.cap = Config.current.capMid ∧
      t.fNom = some f ∧ t.fCur = some f ∧ t.depth = some d ∧ t.volReq = some v ∧ t.volAcq = 0 ∧
      t.volSmooth = Config.current.num.ofInt 0 ∧ t.gain = Config.current.num.ofReal 1 ∧ t.mute = some false ∧
      t.muteCur = false ∧ t.pmSignal = some p ∧ t.pmCur = some p ∧ t.r1 = some (Config.current.r1Of f) ∧
      t.r2 = some (Config.current.r2Of p) ∧
      t.outRate = some (f.hz * (Config.current.r1Of f).toNat * (Config.current.r2Of p).toNat) ∧ t.adj = 0 ∧
      t.schedState = .draining ∧ t.qWr = 0 ∧ t.qRd = 0 ∧ t.qCnt = 0 ∧
      (∀ sl ∈ t.slots, sl.count = 0 ∧ ∀ k, sl.payload.getZero k = 0) ∧ t.timerEnabled = true ∧ t.irqMask = false ∧
      t.dmaBusy = true ∧ t.dmaPend = false ∧ t.dmaCur = silence Config.current ∧ t.outStream = [silence Config.current] ∧
      t.dacEvents = [.applyConfig] ∧ t.reinitBusy = false ∧ t.reinitStep = 0 ∧ t.pollBusy = false ∧ t.pushBusy = false ∧
      t.DelaysAre (Config.current.num.ofInt 0) ∧ t.booted = true

/-- R297, R306: `ENG.RUN`, `TICK`, `CTL.ADJ` and `TX.POLL` as commands return `NotInitialised` and change nothing where a register they
read holds no value or a buffer they need is not valid. That a `TICK` that has a `vol_req` and misses `f_cur`, `R1` or a buffer writes
nothing either is the model's reading (log entry 22, DEDUCED). R332, R335: in a schedule an operation of `USBCB`, `TICKA`, `POLLB` or
`HOSTFB` that starts before boot has ended is refused (what ends boot is the model's choice, log entry 33). R57, U9: after that, each
micro-step of these agents that reads a register faults where the register holds no value (log entry 12). -/
def Obligations.UnwrittenRegisterNotInitialised : Prop :=
  ∀ s : State,
    (s.tickaBlocked = none → s.fCur = none ∨ s.r1 = none ∨ s.allValid = false →
      exec .engRun s = .next (s.respond .notInitialised [])) ∧
    (s.timerEnabled = true → s.tickaBlocked = none →
      s.volReq = none ∨ s.fCur = none ∨ s.r1 = none ∨ s.allValid = false →
      exec .tick s = .next (s.respond .notInitialised [])) ∧
    (s.tick = .idle → s.rb.mid0.valid = false → exec .ctlAdj s = .next (s.respond .notInitialised [])) ∧
    (s.reinitBusy = false → s.pollbBlocked = none → s.r2 = none ∨ s.rb.mid0.valid = false ∨ s.rb.mid1.valid = false →
      exec .txPoll s = .next (s.respond .notInitialised [])) ∧
    (∀ frames, s.booted = false →
      (∀ i ∈ [Instr.usbPush frames, .engRun, .ctlAdj, .volSmooth, .txPoll, .fbReport],
        micro (.start i) s = .refused .notInitialised) ∧
      (s.timerEnabled = true → s.tick = .idle → micro (.start .tick) s = .refused .notInitialised)) ∧
    (s.booted = true →
      (∀ frames, s.usbcbBlocked = none → s.reinitBusy = false → s.depth = none →
        micro (.start (.usbPush frames)) s = .fault .noValue) ∧
      (s.tickaBlocked = none → s.allValid = true → s.allLocked = true →
        (s.fCur = none ∨ s.r1 = none → micro (.start .engRun) s = .fault .noValue) ∧
        (s.timerEnabled = true → s.volReq = none → micro (.start .tick) s = .fault .noValue)) ∧
      (s.tick = .idle → s.volReq = none → micro (.start .volSmooth) s = .fault .noValue)) ∧
    (s.tick = .regs → s.fCur = none ∨ s.r1 = none → micro (.agent .ticka) s = .fault .noValue) ∧
    (∀ occ q, s.poll = .act occ q → s.r2 = none → micro (.agent .pollb) s = .fault .noValue) ∧
    (∀ m x0 x1, s.poll = .enqueue m x0 x1 → s.r2 = none → micro (.agent .pollb) s = .fault .noValue) ∧
    (∀ cap occ, s.host = .readF cap occ → s.fCur = none → micro (.agent .hostfb) s = .fault .noValue) ∧
    (∀ cap occ f, s.host = .readR1 cap occ f → s.r1 = none → micro (.agent .hostfb) s = .fault .noValue)

/-! ## Invariants that every step keeps -/

/-- R23, R24, R25: every step, command or micro-step, keeps the bounds of the cursors and counts, the cursor relation, that every
counted element is stored, the consistency of the operations in flight, and the canonical form of each array. -/
def Obligations.StepKeepsBuffers : Prop :=
  ∀ s t : State, s.BuffersInv → step s = .next t → t.BuffersInv

/-- R50, R56: every step keeps the queue's indices and occupancy in range and in relation, and every slot well formed. -/
def Obligations.StepKeepsQueue : Prop :=
  ∀ s t : State, s.QueueInv Config.current → step s = .next t → t.QueueInv Config.current

/-- R51, R270, R274, R302: every step keeps the busy bits in step with the operations in flight, no poll in flight past REINIT step 2,
at most one of `dma_pend` and `dma_busy`, and neither from step 4 to step 6. -/
def Obligations.StepKeepsSequencing : Prop :=
  ∀ s t : State, s.SequencingInv → step s = .next t → t.SequencingInv

/-- R43, R44, R47, R48, R49, R84: every step keeps `adj` in {−1, 0, 1}, the volume codes in range, the gain a value that the saturation
gives (F zero, the 1 of `F`, or a number in [0, 1]: log entry 7, DEDUCED, since R13 lets `F` round a literal), the ratios those of the
latched rate and power mode, and leaves the interrupt mask clear. -/
def Obligations.StepKeepsControlRegisters : Prop :=
  ∀ s t : State, s.ControlInv Config.current → step s = .next t → t.ControlInv Config.current

/-- R53, R54: every step keeps the length of every delay array that its stage fixes. -/
def Obligations.StepKeepsDelayLengths : Prop :=
  ∀ s t : State, s.DelayInv Config.current → step s = .next t → t.DelayInv Config.current

/-- R331, R57: the five invariants hold right after reset. Two clauses rest on the model's choices: that a buffer counts nothing before
`RB.INIT`, where R57 gives `cnt` no value (log entry 3, DESIGN CHOICE, unsafe), and what the range of the gain is (log entry 7,
DEDUCED). -/
def Obligations.ResetMeetsInvariants : Prop :=
  State.reset.BuffersInv ∧ State.reset.QueueInv Config.current ∧ State.reset.SequencingInv ∧
  State.reset.ControlInv Config.current ∧ State.reset.DelayInv Config.current

/-! ## The two semantics agree (R9) -/

/-- R9, R190: with no other agent stepping in between, the micro-steps of a `USB.PUSH` leave what the command leaves. -/
def Obligations.PushMicroStepsAgree : Prop :=
  ∀ (s : State) (frames : List PcmFrame), s.booted = true → s.usbcbBlocked = none → s.pushBusy = false → s.depth ≠ none →
    s.BuffersInv →
    s.rb.ep0.valid = true → s.rb.ep1.valid = true → s.rb.ep0.mode = true → s.rb.ep1.mode = true →
    ∃ t : State, exec (.usbPush frames) s = .next t ∧
      microAll (.start (.usbPush frames) :: List.replicate 8 (.agent .usbcb)) s = .next t

/-- R9, R195, R196: with no other agent stepping in between, the micro-steps of an `ENG.RUN` and of a `TICK` leave what the command
leaves, under every configuration (`exec` and `micro` take the one the machine is built with, of whose volume curve nothing is known).
An agent whose operation has ended takes no further step. -/
def Obligations.EngineMicroStepsAgree : Prop :=
  ∀ (c : Config) (s t : State) (f : Rate) (r : Ratio1), s.booted = true → s.EngReady f r → s.allLocked = true →
    ((engRun c s).outcome = .next t →
      microAllOf c (.start .engRun :: List.replicate 16 (.agent .ticka)) s = .next t) ∧
    (s.timerEnabled = true → s.volReq ≠ none → tickOp c s = .next t →
      microAllOf c (.start .tick :: List.replicate 18 (.agent .ticka)) s = .next t)

/-- R9, R247: with no other agent stepping in between, the micro-steps of a `TX.POLL` leave what the command leaves. -/
def Obligations.PollMicroStepsAgree : Prop :=
  ∀ (s t : State) (r : Ratio2), s.booted = true → s.PollReady r → s.BuffersInv → s.pollBusy = false → s.rb.mid0.mode = true →
    s.rb.mid1.mode = true → exec .txPoll s = .next t →
    microAll (.start .txPoll :: List.replicate 10 (.agent .pollb)) s = .next t

/-- R9, R266, R272: with no other agent stepping in between, the micro-steps of a `REINIT` and of a `MAIN.POLL` leave what the command
leaves. -/
def Obligations.ReinitMicroStepsAgree : Prop :=
  ∀ s : State, s.Quiet → s.fNom ≠ none → s.pmSignal ≠ none → s.mute ≠ none → s.allValid = true →
    (∃ t : State, exec .reinit s = .next t ∧ microAll (.start .reinit :: List.replicate 5 (.agent .maina)) s = .next t) ∧
    (∃ t : State, exec .mainPoll s = .next t ∧ microAll (.start .mainPoll :: List.replicate 6 (.agent .maina)) s = .next t)
end

