-- ==== Sys2Proof/Laws/Memory.lean ====
section
/-! SUPPORT. The laws of an index space (20_memory.md R70, R72): what a read gives after a write, and that every operation keeps
the canonical form. -/

namespace Sys2Proof.Machine

/-! ## Lists of cells -/

/-- Every listed index is at least `lo` and the indices are strictly rising. -/
def CellsFrom : Nat → List (Nat × Word) → Prop
  | _, [] => True
  | lo, (j, _) :: r => lo ≤ j ∧ CellsFrom (j + 1) r

theorem cellsRising_some (lo : Nat) (l : List (Nat × Word)) : cellsRising (some lo) l = true ↔ CellsFrom (lo + 1) l := by
  induction l generalizing lo with
  | nil => simp [cellsRising, CellsFrom]
  | cons p r ih => obtain ⟨j, w⟩ := p; simp [cellsRising, CellsFrom, ih]

theorem cellsRising_none (l : List (Nat × Word)) : cellsRising none l = true ↔ CellsFrom 0 l := by
  cases l with
  | nil => simp [cellsRising, CellsFrom]
  | cons p r => obtain ⟨j, w⟩ := p; simp [cellsRising, CellsFrom, cellsRising_some]

theorem CellsFrom.mono {a b : Nat} {l : List (Nat × Word)} (h : CellsFrom b l) (hab : a ≤ b) : CellsFrom a l := by
  cases l with
  | nil => trivial
  | cons p r => obtain ⟨j, w⟩ := p; exact ⟨Nat.le_trans hab h.1, h.2⟩

theorem CellsFrom.put {lo : Nat} {l : List (Nat × Word)} (h : CellsFrom lo l) (i : Nat) (v : Word) :
    CellsFrom (min lo i) (cellsPut l i v) := by
  induction l generalizing lo with
  | nil => exact ⟨Nat.min_le_right _ _, trivial⟩
  | cons p r ih =>
    obtain ⟨j, w⟩ := p
    obtain ⟨h1, h2⟩ := h
    simp only [cellsPut]
    split
    · exact ⟨Nat.min_le_right _ _, by omega, h2⟩
    · split
      · subst_vars; exact ⟨Nat.min_le_right _ _, h2⟩
      · refine ⟨by omega, (ih h2).mono ?_⟩
        omega

theorem CellsFrom.erase {lo : Nat} {l : List (Nat × Word)} (h : CellsFrom lo l) (i : Nat) :
    CellsFrom lo (cellsErase l i) := by
  induction l generalizing lo with
  | nil => trivial
  | cons p r ih =>
    obtain ⟨j, w⟩ := p
    simp only [cellsErase]
    split
    · exact h.2.mono (Nat.le_succ_of_le h.1)
    · exact ⟨h.1, ih h.2⟩

theorem CellsFrom.get_below {lo : Nat} {l : List (Nat × Word)} (h : CellsFrom lo l) {i : Nat} (hi : i < lo) :
    cellsGet l i = none := by
  induction l generalizing lo with
  | nil => rfl
  | cons p r ih =>
    obtain ⟨j, w⟩ := p
    have hj := h.1
    simp only [cellsGet, show ¬ i = j by omega, if_false]
    exact ih h.2 (by omega)

theorem cellsGet_put (l : List (Nat × Word)) (i k : Nat) (v : Word) :
    cellsGet (cellsPut l i v) k = if k = i then some v else cellsGet l k := by
  induction l with
  | nil => simp [cellsPut, cellsGet]
  | cons p r ih =>
    obtain ⟨j, w⟩ := p
    simp only [cellsPut]
    split
    · simp [cellsGet]
    · split
      · subst_vars; simp only [cellsGet]; split <;> rfl
      · simp only [cellsGet, ih]; split <;> split <;> first | rfl | omega

theorem cellsGet_erase {lo : Nat} {l : List (Nat × Word)} (h : CellsFrom lo l) (i k : Nat) :
    cellsGet (cellsErase l i) k = if k = i then none else cellsGet l k := by
  induction l generalizing lo with
  | nil => simp [cellsErase, cellsGet]
  | cons p r ih =>
    obtain ⟨j, w⟩ := p
    simp only [cellsErase]
    split
    · subst_vars
      split
      · subst_vars; exact h.2.get_below (by omega)
      · simp [cellsGet, *]
    · simp only [cellsGet, ih h.2]; split <;> split <;> first | rfl | omega

/-! ## Index spaces whose unlisted indices hold no value -/

theorem Mem.wf_iff (m : Mem) : m.wf = true ↔ CellsFrom 0 m.cells := cellsRising_none _

@[simp] theorem Mem.wf_empty : Mem.empty.wf = true := rfl

@[simp] theorem Mem.wfZero_empty : Mem.empty.wfZero = true := rfl

@[simp] theorem Mem.get_empty (i : Nat) : Mem.empty.get i = none := rfl

@[simp] theorem Mem.getZero_empty (i : Nat) : Mem.empty.getZero i = 0 := rfl

/-- A read after a write: the written element at its index, every other one as before. -/
theorem Mem.get_put (m : Mem) (i k : Nat) (v : Word) : (m.put i v).get k = if k = i then some v else m.get k :=
  cellsGet_put _ _ _ _

theorem Mem.wf_put {m : Mem} (h : m.wf = true) (i : Nat) (v : Word) : (m.put i v).wf = true := by
  rw [Mem.wf_iff] at h ⊢
  exact (h.put i v).mono (Nat.zero_le _)

/-! ## Index spaces whose unlisted indices hold 0 -/

theorem cellsPut_all_ne (l : List (Nat × Word)) (i : Nat) (v : Word) (hv : v ≠ 0) (h : l.all (fun p => p.2 != 0) = true) :
    (cellsPut l i v).all (fun p => p.2 != 0) = true := by
  have hv' : (v != 0) = true := by simpa using hv
  induction l with
  | nil => simp only [cellsPut, List.all_cons, hv', List.all_nil, Bool.and_self]
  | cons p r ih =>
    obtain ⟨j, w⟩ := p
    simp only [List.all_cons, Bool.and_eq_true] at h
    simp only [cellsPut]
    split
    · simp only [List.all_cons, hv', h.1, h.2, Bool.and_self]
    · split
      · simp only [List.all_cons, hv', h.2, Bool.and_self]
      · simp only [List.all_cons, Bool.and_eq_true]; exact ⟨h.1, ih h.2⟩

theorem cellsErase_all_ne (l : List (Nat × Word)) (i : Nat) (h : l.all (fun p => p.2 != 0) = true) :
    (cellsErase l i).all (fun p => p.2 != 0) = true := by
  induction l with
  | nil => rfl
  | cons p r ih =>
    obtain ⟨j, w⟩ := p
    simp only [List.all_cons, Bool.and_eq_true] at h
    simp only [cellsErase]
    split
    · exact h.2
    · simp only [List.all_cons, Bool.and_eq_true]; exact ⟨h.1, ih h.2⟩

theorem Mem.wf_of_wfZero {m : Mem} (h : m.wfZero = true) : m.wf = true := by
  simp only [Mem.wfZero, Bool.and_eq_true] at h; exact h.1

theorem Mem.wfZero_putZero {m : Mem} (h : m.wfZero = true) (i : Nat) (v : Word) : (m.putZero i v).wfZero = true := by
  simp only [Mem.wfZero, Bool.and_eq_true, Mem.wf_iff] at h
  obtain ⟨h1, h2⟩ := h
  simp only [Mem.putZero]
  split
  · simp only [Mem.wfZero, Bool.and_eq_true, Mem.wf_iff]
    exact ⟨h1.erase i, cellsErase_all_ne _ _ h2⟩
  · rename_i hv
    simp only [Mem.wfZero, Bool.and_eq_true, Mem.wf_iff]
    exact ⟨(h1.put i v).mono (Nat.zero_le _), cellsPut_all_ne _ _ _ hv h2⟩

theorem Mem.getZero_putZero {m : Mem} (h : m.wf = true) (i k : Nat) (v : Word) :
    (m.putZero i v).getZero k = if k = i then v else m.getZero k := by
  rw [Mem.wf_iff] at h
  simp only [Mem.putZero, Mem.getZero, Mem.get]
  by_cases hv : v = 0
  · simp only [hv, if_true, cellsGet_erase h]; split <;> rfl
  · simp only [hv, if_false, Mem.put, cellsGet_put]; split <;> rfl

theorem Mem.wfZero_putZeroRun {m : Mem} (h : m.wfZero = true) (i : Nat) (ws : List Word) :
    (m.putZeroRun i ws).wfZero = true := by
  induction ws generalizing m i with
  | nil => exact h
  | cons w ws ih => exact ih (Mem.wfZero_putZero h i w) (i + 1)

/-- The words of a run stand from its index on, every other word as before. -/
theorem Mem.getZero_putZeroRun {m : Mem} (h : m.wfZero = true) (i k : Nat) (ws : List Word) :
    (m.putZeroRun i ws).getZero k = if i ≤ k ∧ k < i + ws.length then ws.getD (k - i) 0 else m.getZero k := by
  induction ws generalizing m i with
  | nil => rw [if_neg (by simp only [List.length_nil]; omega)]; rfl
  | cons w ws ih =>
    simp only [Mem.putZeroRun]
    rw [ih (Mem.wfZero_putZero h i w), Mem.getZero_putZero (Mem.wf_of_wfZero h)]
    simp only [List.length_cons]
    by_cases h1 : i + 1 ≤ k ∧ k < i + 1 + ws.length
    · rw [if_pos h1, if_pos (by omega), show k - i = (k - (i + 1)) + 1 by omega, List.getD_cons_succ]
    · rw [if_neg h1]
      by_cases h2 : k = i
      · subst h2; simp
      · rw [if_neg h2, if_neg (by omega)]

end Sys2Proof.Machine
end

