-- ==== Sys2Proof/Laws/Buffers.lean ====
section
/-! SUPPORT. What the shared operations on a ring buffer do, said once each (40_ringbuffer.md R141, R142; 20_memory.md R77, R80):
the copies, the publish phases, and a write and a read run to their end. -/

namespace Sys2Proof.Machine

/-! ## Access to the four buffers -/

theorem Buffers.get_set (m : Buffers) (b b' : BufId) (q : RingBuffer) :
    (m.set b q).get b' = if b' = b then q else m.get b' := by
  cases b <;> cases b' <;> rfl

@[simp] theorem buf_setBuf_same (s : State) (b : BufId) (q : RingBuffer) : (s.setBuf b q).buf b = q := by
  cases b <;> rfl

theorem buf_setBuf (s : State) (b b' : BufId) (q : RingBuffer) :
    (s.setBuf b q).buf b' = if b' = b then q else s.buf b' := Buffers.get_set _ _ _ _

@[simp] theorem buf_respond (s : State) (r : Result) (vs : List Word) (b : BufId) : (s.respond r vs).buf b = s.buf b := rfl

/-! ## Indices (R77) -/

theorem index_lt {cap : Nat} (h : 0 < cap) (c i : Nat) : (c + i) % cap < cap := Nat.mod_lt _ h

/-- Two positions of one run of at most `cap` elements stand at different indices. -/
theorem index_inj {cap c i j : Nat} (hi : i < cap) (hj : j < cap) (h : (c + i) % cap = (c + j) % cap) : i = j := by
  have h' : i ≡ j [MOD cap] := Nat.ModEq.add_left_cancel' c h
  exact Nat.ModEq.eq_of_lt_of_lt h' hi hj

/-! ## The copies -/

/-- The copy of a write stores element `j` at `(wr + i + j) mod cap`, every other element and register staying as it was. -/
theorem copyIn_spec (q : RingBuffer) (hc : 0 < q.cap) (i : Nat) (xs : List Sample) :
    ∃ m, q.copyIn i xs = .ok { q with mem := m } ∧ (q.mem.wf = true → m.wf = true) ∧
      (∀ k, (∀ j < xs.length, k ≠ (q.wr + (i + j)) % q.cap) → m.get k = q.mem.get k) ∧
      (xs.length ≤ q.cap → ∀ j (h : j < xs.length), m.get ((q.wr + (i + j)) % q.cap) = some xs[j]) := by
  induction xs generalizing q i with
  | nil => exact ⟨q.mem, rfl, id, fun _ _ => rfl, fun _ j h => absurd h (Nat.not_lt_zero j)⟩
  | cons x xs ih =>
    have hi : (q.wr + i) % q.cap < q.cap := Nat.mod_lt _ hc
    obtain ⟨m, h1, h2, h3, h4⟩ := ih { q with mem := q.mem.put ((q.wr + i) % q.cap) x } hc (i + 1)
    refine ⟨m, ?_, fun h => h2 (Mem.wf_put h _ _), fun k hk => ?_, fun hl j hj => ?_⟩
    · simp only [RingBuffer.copyIn, RingBuffer.memWrite, hi, if_true, h1]
    · rw [h3 k fun j hj => ?_]
      · have := hk 0 (by simp)
        rw [Mem.get_put, if_neg (by simpa using this)]
      · have := hk (j + 1) (by simpa using hj)
        rwa [show i + (j + 1) = i + 1 + j by omega] at this
    · simp only [List.length_cons] at hl
      cases j with
      | zero =>
        rw [h3, Mem.get_put]
        · simp
        · intro j' hj'
          have hne : i ≠ i + 1 + j' := by omega
          intro heq
          have : (q.wr + i + 0) % q.cap = (q.wr + i + (1 + j')) % q.cap := by
            simpa [Nat.add_assoc] using heq
          have := index_inj (by omega) (by omega) this
          omega
      | succ j =>
        have := h4 (show xs.length ≤ q.cap by omega) j (by simpa using hj)
        rw [show i + (j + 1) = i + 1 + j by omega]
        simpa using this

/-- The copy of a read gives the stored elements of the run from `rd + i` on. -/
theorem copyOut_spec (q : RingBuffer) (hc : 0 < q.cap) (i n : Nat) (h : ∀ j < n, (q.at q.rd (i + j)).isSome = true) :
    ∃ d, q.copyOut i n = .ok d ∧ d.map some = (List.range n).map fun j => q.at q.rd (i + j) := by
  induction n generalizing i with
  | zero => exact ⟨[], rfl, rfl⟩
  | succ n ih =>
    obtain ⟨v, hv⟩ := Option.isSome_iff_exists.mp (h 0 (Nat.succ_pos n))
    obtain ⟨d, h1, h2⟩ := ih (i + 1) fun j hj => by
      have := h (j + 1) (by omega)
      rwa [show i + (j + 1) = i + 1 + j by omega] at this
    refine ⟨v :: d, ?_, ?_⟩
    · have hi : (q.rd + i) % q.cap < q.cap := Nat.mod_lt _ hc
      have hv' : q.mem.get ((q.rd + i) % q.cap) = some v := hv
      simp only [RingBuffer.copyOut, RingBuffer.memRead, hi, if_true, hv', h1]
    · rw [List.range_succ_eq_map, List.map_cons, List.map_cons, List.map_map, h2, hv]
      refine congrArg _ (List.map_congr_left fun j _ => ?_)
      simp only [Function.comp, show i + 1 + j = i + (j + 1) by omega]

theorem copyOut_length {q : RingBuffer} {i n : Nat} {d : List Sample} (h : q.copyOut i n = .ok d) : d.length = n := by
  induction n generalizing i d with
  | zero => simp only [RingBuffer.copyOut, Except.ok.injEq] at h; subst h; rfl
  | succ n ih =>
    simp only [RingBuffer.copyOut] at h
    split at h
    · cases h
    · split at h
      · rename_i h'
        cases h
        simp [ih h']
      · cases h

/-! ## The publish phases (R80) -/

/-- With the lock free, a publish of a write is its register writes, in either mode. -/
theorem publishIn_free {q : RingBuffer} (h : q.lock = .free) (a : Agent) (n : Nat) :
    q.publishIn a n = some (q.advanceWr n) := by
  simp only [RingBuffer.publishIn, RingBuffer.critical, RingBuffer.acquire, h]
  cases q; cases h; split <;> rfl

/-- With the lock free, a publish of a read is its register writes, in either mode. -/
theorem publishOut_free {q : RingBuffer} (h : q.lock = .free) (a : Agent) (n : Nat) :
    q.publishOut a n = some (q.advanceRd n) := by
  simp only [RingBuffer.publishOut, RingBuffer.critical, RingBuffer.acquire, h]
  cases q; cases h; split <;> rfl

/-- While another agent holds the lock of a locked buffer no publish takes place. -/
theorem critical_held {q : RingBuffer} {a' : Agent} (hm : q.mode = true) (h : q.lock = .held a') (a : Agent)
    (f : RingBuffer → RingBuffer) : q.critical a f = none := by
  simp [RingBuffer.critical, RingBuffer.acquire, hm, h]

/-! ## A write and a read run to their end -/

/-- Copy and publish of a write: the array with the elements stored, `wr` and `cnt` advanced, nothing else. -/
theorem write_spec (q : RingBuffer) (hc : 0 < q.cap) (hl : q.lock = .free) (a : Agent) (xs : List Sample) :
    ∃ m, q.write a xs = .ok ({ q with mem := m }.advanceWr xs.length) ∧ (q.mem.wf = true → m.wf = true) ∧
      (∀ k, (∀ j < xs.length, k ≠ (q.wr + j) % q.cap) → m.get k = q.mem.get k) ∧
      (xs.length ≤ q.cap → ∀ j (h : j < xs.length), m.get ((q.wr + j) % q.cap) = some xs[j]) := by
  obtain ⟨m, h1, h2, h3, h4⟩ := copyIn_spec q hc 0 xs
  refine ⟨m, ?_, h2, fun k hk => h3 k (by simpa using hk), fun hn j hj => by simpa using h4 hn j hj⟩
  have hp : ({ q with mem := m } : RingBuffer).publishIn a xs.length = some ({ q with mem := m }.advanceWr xs.length) :=
    publishIn_free (q := { q with mem := m }) hl a _
  simp only [RingBuffer.write, h1, hp]

/-- Copy and publish of a read whose elements are stored: they are returned, `rd` and `cnt` advance, nothing else. -/
theorem read_spec (q : RingBuffer) (hc : 0 < q.cap) (hl : q.lock = .free) (a : Agent) (n : Nat)
    (h : ∀ j < n, (q.at q.rd j).isSome = true) :
    ∃ d, q.read a n = .ok (d, q.advanceRd n) ∧ d.length = n ∧ d.map some = (List.range n).map (q.at q.rd) := by
  obtain ⟨d, h1, h2⟩ := copyOut_spec q hc 0 n (by simpa using h)
  refine ⟨d, by simp only [RingBuffer.read, h1, publishOut_free hl], copyOut_length h1, ?_⟩
  simpa using h2

/-- What a write can answer: with the register writes of its publish phase and some array, or it stops. -/
theorem write_ok {q q' : RingBuffer} {a : Agent} {xs : List Sample} (h : q.write a xs = .ok q') :
    ∃ m, q.copyIn 0 xs = .ok { q with mem := m } ∧ q'.cap = q.cap ∧ q'.valid = q.valid ∧ q'.mode = q.mode ∧ q'.mem = m ∧
      q'.rd = q.rd ∧ q'.wr = (q.wr + xs.length) % q.cap ∧ q'.cnt = q.cnt + xs.length ∧ q'.prodOp = none ∧
      q'.consOp = q.consOp := by
  have hmem : ∀ (i : Nat) (xs : List Sample) (p p' : RingBuffer), p.copyIn i xs = .ok p' → p' = { p with mem := p'.mem } := by
    intro i xs
    induction xs generalizing i with
    | nil => intro p p' h; simp only [RingBuffer.copyIn, Except.ok.injEq] at h; subst h; rfl
    | cons x xs ih =>
      intro p p' h
      simp only [RingBuffer.copyIn, RingBuffer.memWrite] at h
      split at h
      · rename_i hw
        split at hw
        · cases hw; exact (ih _ _ _ h :)
        · cases hw
      · cases h
  simp only [RingBuffer.write] at h
  split at h
  · cases h
  · rename_i p hp
    have hq := hmem _ _ _ _ hp
    refine ⟨p.mem, by rw [hp, ← hq], ?_⟩
    rw [hq] at h
    simp only [RingBuffer.publishIn, RingBuffer.critical, RingBuffer.acquire, RingBuffer.advanceWr, RingBuffer.release] at h
    split at h
    · rename_i hs
      split at hs
      · split at hs
        · rename_i heq
          split at heq
          · cases heq; cases hs; cases h; exact ⟨rfl, rfl, rfl, rfl, rfl, rfl, rfl, rfl, rfl⟩
          · cases heq
        · cases hs
      · cases hs; cases h; exact ⟨rfl, rfl, rfl, rfl, rfl, rfl, rfl, rfl, rfl⟩
    · cases h

/-- `RB.CLEAR` on a buffer nothing is in flight on. -/
theorem clear_quiet {q : RingBuffer} (hp : q.prodOp = none) (hc : q.consOp = none) : q.clear = .ok q.cleared := by
  simp [RingBuffer.clear, hp, hc]

/-- `RB.CLEAR` on a buffer with a write or read in flight. -/
theorem clear_race {q : RingBuffer} (h : q.prodOp ≠ none ∨ q.consOp ≠ none) : q.clear = .error .clearRace := by
  have : (q.prodOp.isNone && q.consOp.isNone) = false := by
    simp only [Bool.and_eq_false_iff, Option.isNone_eq_false_iff, Option.isSome_iff_ne_none]; exact h
  simp [RingBuffer.clear, this]

end Sys2Proof.Machine
end

