-- ==== Sys2Proof/Laws/Config.lean ====
section
/-! SUPPORT. Laws of the configuration record (00_scope.md R10, R11): what it chooses by the number of channels, and the values of
`Config.current` that R10 gives. -/

namespace Sys2Proof

theorem Config.ifTwo_two {α : Type} {c : Config} (h : c.nch = 2) (two one : α) : c.ifTwo two one = two := if_pos h

theorem Config.ifTwo_one {α : Type} {c : Config} (h : c.nch = 1) (two one : α) : c.ifTwo two one = one := by
  simp only [Config.ifTwo, h, OfNat.one_ne_ofNat, if_false]

theorem Config.least_two {c : Config} (h : c.nch = 2) (v0 v1 : Nat) : c.least v0 v1 = min v0 v1 := c.ifTwo_two h _ _

theorem Config.least_one {c : Config} (h : c.nch = 1) (v0 v1 : Nat) : c.least v0 v1 = v0 := c.ifTwo_one h _ _

/-- What is taken of channel 0 is there (R192, R237). -/
theorem Config.least_le_left (c : Config) (v0 v1 : Nat) : c.least v0 v1 ≤ v0 := by
  rcases c.nch_range with h | h
  · rw [Config.least_one h]
  · rw [Config.least_two h]; exact Nat.min_le_left _ _

/-- What is taken of channel 1, if the machine has it, is there (R192, R237). -/
theorem Config.least_le_right {c : Config} (h : c.nch = 2) (v0 v1 : Nat) : c.least v0 v1 ≤ v1 := by
  rw [Config.least_two h]; exact Nat.min_le_right _ _

theorem Config.nch_pos (c : Config) : 0 < c.nch := by
  rcases c.nch_range with h | h <;> rw [h] <;> decide

@[simp] theorem Config.current_nch : Config.current.nch = 2 := rfl
@[simp] theorem Config.current_ifTwo {α : Type} (two one : α) : Config.current.ifTwo two one = two := rfl
@[simp] theorem Config.current_least (v0 v1 : Nat) : Config.current.least v0 v1 = min v0 v1 := rfl
@[simp] theorem Config.current_tickUs : Config.current.tickUs = 250 := rfl
@[simp] theorem Config.current_txqDepth : Config.current.txqDepth = 3 := rfl
@[simp] theorem Config.current_alpha : Config.current.alpha = 17 / 20 := rfl
@[simp] theorem Config.current_lockMode (b : BufId) : Config.current.lockMode b = true := rfl
@[simp] theorem Config.current_rates : Config.current.rates = allRates := rfl

end Sys2Proof
end

