-- ==== Sys2Proof/Laws/Encoding.lean ====
section
/-! SUPPORT. The fields of a command word (30_encoding.md R101): reading back what `commandWord` put together, and putting
together what was read. -/

namespace Sys2Proof

theorem commandWord_toNat {op u a : Nat} (ho : op < 256) (hu : u < 16) (ha : a < 2 ^ 20) :
    (commandWord op u a).toNat = op * 2 ^ 24 + u * 2 ^ 20 + a := by
  simp only [commandWord, BitVec.toNat_ofNat]; omega

theorem opField_commandWord {op u a : Nat} (ho : op < 256) (hu : u < 16) (ha : a < 2 ^ 20) :
    opField (commandWord op u a) = op := by
  simp only [opField, field, commandWord_toNat ho hu ha]; omega

theorem unitField_commandWord {op u a : Nat} (ho : op < 256) (hu : u < 16) (ha : a < 2 ^ 20) :
    unitField (commandWord op u a) = u := by
  simp only [unitField, field, commandWord_toNat ho hu ha]; omega

theorem argField_commandWord {op u a : Nat} (ho : op < 256) (hu : u < 16) (ha : a < 2 ^ 20) :
    argField (commandWord op u a) = a := by
  simp only [argField, field, commandWord_toNat ho hu ha]; omega

/-- A word is the three fields read from it. -/
theorem commandWord_fields (w : Word) : commandWord (opField w) (unitField w) (argField w) = w := by
  apply BitVec.eq_of_toNat_eq
  have := w.isLt
  simp only [commandWord, opField, unitField, argField, field, BitVec.toNat_ofNat]; omega

theorem opField_lt (w : Word) : opField w < 256 := by
  have := w.isLt; simp only [opField, field]; omega

theorem unitField_lt (w : Word) : unitField w < 16 := by
  simp only [unitField, field]; omega

theorem argField_lt (w : Word) : argField w < 2 ^ 20 := by
  simp only [argField, field]; omega

theorem bufUnit_lt (b : BufId) : bufUnit b < 16 := by cases b <;> decide

theorem selUnit_lt (sel : FltSel) : selUnit sel < 16 := by
  obtain ⟨c, ch⟩ := sel; cases c <;> cases ch <;> decide

theorem clearUnit_lt (sel : ClearSel) : clearUnit sel < 16 := by
  cases sel with
  | one sel => exact selUnit_lt sel
  | all => decide

theorem bool_toNat_lt (m : Bool) : m.toNat < 2 ^ 20 := by cases m <;> decide

theorem frameWords_length {nch : Nat} (fs : List PcmFrame) (h : ∀ f ∈ fs, f.length = nch) :
    (frameWords fs).length = fs.length * nch := by
  induction fs with
  | nil => simp [frameWords]
  | cons f fs ih =>
    have ih := ih fun g hg => h g (List.mem_cons_of_mem _ hg)
    simp only [frameWords] at ih
    simp only [frameWords, List.flatten_cons, List.length_append, ih, h f List.mem_cons_self, List.length_cons, Nat.add_mul]
    omega

/-- Words taken are given back with what follows them. -/
theorem takeWords_append (ws rest : List Word) : takeWords ws.length (ws ++ rest) = .ok (ws, rest) := by
  induction ws with
  | nil => rfl
  | cons w ws ih => simp only [List.length_cons, List.cons_append, takeWords, ih]

/-- Frames taken are given back with what follows them. -/
theorem takeFrames_append {nch : Nat} (fs : List PcmFrame) (rest : List Word) (h : ∀ f ∈ fs, f.length = nch) :
    takeFrames nch fs.length (frameWords fs ++ rest) = .ok (fs, rest) := by
  induction fs with
  | nil => rfl
  | cons f fs ih =>
    have ih := ih fun g hg => h g (List.mem_cons_of_mem _ hg)
    have hf := takeWords_append f (fs.flatten ++ rest)
    rw [h f List.mem_cons_self] at hf
    simp only [frameWords] at ih
    simp only [frameWords, List.length_cons, List.flatten_cons, List.append_assoc, takeFrames, hf, ih]

end Sys2Proof
end

