-- ==== Sys2Proof/Laws/Filters.lean ====
section
/-! SUPPORT. How many outputs the filter functions give and how long their delay arrays stay (41_filters.md R162 to R169). -/

namespace Sys2Proof.Machine

theorem firInterp_outputs (n : Numerics) (L P : Nat) (h d : List FVal) (x : FVal) :
    (firInterp n L P h d x).1.length = L := by simp [firInterp]

theorem firShift_length (d : List FVal) (x : FVal) (h : d ≠ []) : (firShift d x).length = d.length := by
  have : 0 < d.length := List.length_pos_iff.mpr h
  simp only [firShift, List.length_cons, List.length_dropLast]; omega

theorem runSections_length (n : Numerics) (qs : List Biquad) (d : List FVal) (v : FVal) :
    (runSections n qs d v).2.length = 4 * qs.length := by
  induction qs generalizing d v with
  | nil => rfl
  | cons q qs ih => simp only [runSections, List.length_cons, ih]; omega

theorem replBiquad_outputs (n : Numerics) (q : List Biquad) (x : FVal) (N : Nat) (d : List FVal) :
    (replBiquad n q x N d).1.length = N := by
  induction N generalizing d with
  | zero => rfl
  | succ N ih => simp only [replBiquad, List.length_cons, ih]

theorem replBiquad_length (n : Numerics) (q : List Biquad) (x : FVal) (N : Nat) (d : List FVal)
    (h : d.length = 4 * q.length) : (replBiquad n q x N d).2.length = 4 * q.length := by
  induction N generalizing d with
  | zero => exact h
  | succ N ih => simp only [replBiquad]; exact ih _ (runSections_length _ _ _ _)

/-- One input of a stage gives as many outputs as its factor. -/
theorem stageStep_outputs (n : Numerics) (st : Stage) (d : List FVal) (x : FVal) :
    (stageStep n st d x).1.length = st.factor := by
  cases st with
  | firi L P h => exact firInterp_outputs _ _ _ _ _ _
  | rbq N q => exact replBiquad_outputs _ _ _ _ _

/-- A stage keeps the length of its delay array (R53). -/
theorem stageStep_length (n : Numerics) (st : Stage) (d : List FVal) (x : FVal) (hok : st.ok = true)
    (h : d.length = st.delayLen) : (stageStep n st d x).2.length = st.delayLen := by
  cases st with
  | firi L P hs =>
    simp only [Stage.ok, Bool.and_eq_true, decide_eq_true_eq] at hok
    simp only [Stage.delayLen] at h ⊢
    simp only [stageStep, firInterp]
    rw [firShift_length, h]
    intro hd; rw [hd] at h; simp only [List.length_nil] at h; omega
  | rbq N q => exact replBiquad_length _ _ _ _ _ h

theorem stageRun_outputs (n : Numerics) (st : Stage) (d xs : List FVal) :
    (stageRun n st d xs).1.length = xs.length * st.factor := by
  induction xs generalizing d with
  | nil => simp [stageRun]
  | cons x xs ih => simp only [stageRun, List.length_append, stageStep_outputs, ih, List.length_cons]; ring

theorem stageRun_length (n : Numerics) (st : Stage) (d xs : List FVal) (hok : st.ok = true)
    (h : d.length = st.delayLen) : (stageRun n st d xs).2.length = st.delayLen := by
  induction xs generalizing d with
  | nil => exact h
  | cons x xs ih => simp only [stageRun]; exact ih _ (stageStep_length n st d x hok h)

/-- A block of n inputs through stages of factors f_1, …, f_m gives n × f_1 × … × f_m outputs (R166). -/
theorem runStages_outputs (n : Numerics) (chain : List Stage) (ds : Delays) (xs : List FVal) :
    (runStages n chain ds xs).1.length = xs.length * chainRatio chain := by
  induction chain generalizing ds xs with
  | nil => simp [runStages, chainRatio]
  | cons st sts ih =>
    simp only [runStages, ih, stageRun_outputs, chainRatio, List.map_cons, List.prod_cons]; ring

/-- A chain keeps the lengths of its delay arrays (R53). -/
theorem runStages_fits (n : Numerics) (chain : List Stage) (ds : Delays) (xs : List FVal)
    (hok : chain.all Stage.ok = true) (h : ds.FitsChain chain) : Delays.FitsChain (runStages n chain ds xs).2 chain := by
  induction chain generalizing ds xs with
  | nil => rfl
  | cons st sts ih =>
    simp only [List.all_cons, Bool.and_eq_true] at hok
    cases ds with
    | nil => simp [Delays.FitsChain] at h
    | cons d ds =>
      simp only [Delays.FitsChain, List.map_cons, List.cons.injEq] at h
      simp only [runStages, Delays.FitsChain, List.map_cons, List.headD_cons, List.tail_cons, List.cons.injEq]
      exact ⟨stageRun_length n st d xs hok.1 h.1, ih ds _ hok.2 h.2⟩

theorem satAll_length {n : Numerics} {vs : List FVal} {ys : List Sample} (h : satAll n vs = .ok ys) :
    ys.length = vs.length := by
  induction vs generalizing ys with
  | nil => simp only [satAll, Except.ok.injEq] at h; subst h; rfl
  | cons v vs ih =>
    simp only [satAll] at h
    split at h
    · cases h
    · split at h
      · rename_i h'; cases h; simp [ih h']
      · cases h

/-- `RunChain` gives n × r Samples (R169) and keeps the lengths of the delay arrays (R53). -/
theorem runChain_spec {n : Numerics} {chain : List Stage} {ds ds' : Delays} {xs ys : List Sample} {g : Option FVal}
    (h : runChain n chain ds xs g = .ok (ys, ds')) :
    ys.length = xs.length * chainRatio chain ∧ ds' = (runStages n chain ds (xs.map (chainInput n g))).2 ∧
      (chain.all Stage.ok = true → ds.FitsChain chain → Delays.FitsChain ds' chain) := by
  simp only [runChain] at h
  split at h
  · rename_i h'
    cases h
    refine ⟨?_, rfl, fun h1 h2 => runStages_fits _ _ _ _ h1 h2⟩
    rw [satAll_length h', runStages_outputs, List.length_map]
  · cases h

/-- `RunChain(1, …)` writes only `d1`, and there only the set of its ratio and channel (R169). -/
theorem runChain1_spec {c : Config} {s s' : State} {r : Ratio1} {ch : Chan} {xs ys : List Sample} {g : Option FVal}
    (h : s.runChain1 c r ch xs g = .ok (ys, s')) :
    ys.length = xs.length * r.toNat ∧ ∃ d, runChain c.num (c.chain1 r) ((s.d1.get r).get ch) xs g = .ok (ys, d) ∧
      s' = { s with d1 := s.d1.set r ((s.d1.get r).set ch d) } := by
  simp only [State.runChain1] at h
  split at h
  · rename_i h'
    cases h
    exact ⟨by rw [(runChain_spec h').1, c.chain1_ratio], _, h', rfl⟩
  · cases h

/-- `RunChain(2, …)` writes only `d2`, and there only the set of its ratio and channel (R169). -/
theorem runChain2_spec {c : Config} {s s' : State} {r : Ratio2} {ch : Chan} {xs ys : List Sample}
    (h : s.runChain2 c r ch xs = .ok (ys, s')) :
    ys.length = xs.length * r.toNat ∧ ∃ d, runChain c.num (c.chain2 r) ((s.d2.get r).get ch) xs none = .ok (ys, d) ∧
      s' = { s with d2 := s.d2.set r ((s.d2.get r).set ch d) } := by
  simp only [State.runChain2] at h
  split at h
  · rename_i h'
    cases h
    exact ⟨by rw [(runChain_spec h').1, c.chain2_ratio], _, h', rfl⟩
  · cases h

/-! ## Access to the sets of delay arrays -/

theorem ChanDelays.get_set (d : ChanDelays) (ch ch' : Chan) (v : Delays) :
    (d.set ch v).get ch' = if ch' = ch then v else d.get ch' := by cases ch <;> cases ch' <;> rfl

theorem Banks1.get_set (d : Banks1) (r r' : Ratio1) (v : ChanDelays) :
    (d.set r v).get r' = if r' = r then v else d.get r' := by cases r <;> cases r' <;> rfl

theorem Banks2.get_set (d : Banks2) (r r' : Ratio2) (v : ChanDelays) :
    (d.set r v).get r' = if r' = r then v else d.get r' := by cases r <;> cases r' <;> rfl

theorem Banks1.get_zeroChan (z : FVal) (ch : Chan) (d : Banks1) (r : Ratio1) :
    (d.zeroChan z ch).get r = (d.get r).zeroChan z ch := by cases r <;> rfl

theorem Banks2.get_zeroChan (z : FVal) (ch : Chan) (d : Banks2) (r : Ratio2) :
    (d.zeroChan z ch).get r = (d.get r).zeroChan z ch := by cases r <;> rfl

/-- `FLT.CLEAR` keeps every delay array's length (R171). -/
theorem Delays.zeroed_fits {z : FVal} {d : Delays} {chain : List Stage} (h : d.FitsChain chain) :
    Delays.FitsChain (d.zeroed z) chain := by
  have h' : d.map List.length = chain.map Stage.delayLen := h
  simp [Delays.FitsChain, Delays.zeroed, Function.comp_def, ← h']

/-- The lengths of the delay arrays at reset (R53, R57). -/
theorem delaysOf_fits (n : Numerics) (chain : List Stage) : Delays.FitsChain (delaysOf n chain) chain := by
  simp [Delays.FitsChain, delaysOf, Function.comp_def]

end Sys2Proof.Machine
end

