-- ==== Sys2Proof/Laws/PerInstr.lean ====
section
/-! SUPPORT. Per-instruction laws: for each constructor of `Instr`, the payload length of its command word (30_encoding.md R104). -/

namespace Sys2Proof.Laws

/-- On a machine of any number of channels the first word of an encoding alone says how many words follow it (R102, R104). -/
def PayloadLength.Statement (i : Instr) : Prop :=
  ∀ nch, i.wfFor nch = true → ∃ w pl, encode i = w :: pl ∧ payloadLen nch w = pl.length

theorem PayloadLength.rbInit (b : BufId) (m : Bool) (cap : Word) : PayloadLength.Statement (.rbInit b m cap) := by
  intro _ _; refine ⟨_, _, rfl, ?_⟩
  simp only [payloadLen, opField_commandWord (show 0x01 < 256 by decide) (bufUnit_lt b) (bool_toNat_lt m), List.length_cons, List.length_nil]

theorem PayloadLength.rbClear (b : BufId) : PayloadLength.Statement (.rbClear b) := by
  intro _ _; refine ⟨_, _, rfl, ?_⟩
  simp only [payloadLen, opField_commandWord (show 0x02 < 256 by decide) (bufUnit_lt b) (show 0 < 2 ^ 20 by decide)]
  rfl

theorem PayloadLength.rbIsFull (b : BufId) : PayloadLength.Statement (.rbIsFull b) := by
  intro _ _; refine ⟨_, _, rfl, ?_⟩
  simp only [payloadLen, opField_commandWord (show 0x03 < 256 by decide) (bufUnit_lt b) (show 0 < 2 ^ 20 by decide)]
  rfl

theorem PayloadLength.rbUsed (b : BufId) : PayloadLength.Statement (.rbUsed b) := by
  intro _ _; refine ⟨_, _, rfl, ?_⟩
  simp only [payloadLen, opField_commandWord (show 0x04 < 256 by decide) (bufUnit_lt b) (show 0 < 2 ^ 20 by decide)]
  rfl

theorem PayloadLength.rbRemain (b : BufId) : PayloadLength.Statement (.rbRemain b) := by
  intro _ _; refine ⟨_, _, rfl, ?_⟩
  simp only [payloadLen, opField_commandWord (show 0x05 < 256 by decide) (bufUnit_lt b) (show 0 < 2 ^ 20 by decide)]
  rfl

theorem PayloadLength.rbWrite1 (b : BufId) (x : Sample) : PayloadLength.Statement (.rbWrite1 b x) := by
  intro _ _; refine ⟨_, _, rfl, ?_⟩
  simp only [payloadLen, opField_commandWord (show 0x06 < 256 by decide) (bufUnit_lt b) (show 0 < 2 ^ 20 by decide), List.length_cons, List.length_nil]

theorem PayloadLength.rbRead1 (b : BufId) : PayloadLength.Statement (.rbRead1 b) := by
  intro _ _; refine ⟨_, _, rfl, ?_⟩
  simp only [payloadLen, opField_commandWord (show 0x07 < 256 by decide) (bufUnit_lt b) (show 0 < 2 ^ 20 by decide)]
  rfl

theorem PayloadLength.rbWriteN (b : BufId) (xs : List Sample) : PayloadLength.Statement (.rbWriteN b xs) := by
  intro nch h; refine ⟨_, _, rfl, ?_⟩
  simp only [payloadLen, opField_commandWord (show 0x08 < 256 by decide) (bufUnit_lt b) (of_decide_eq_true h),
    argField_commandWord (show 0x08 < 256 by decide) (bufUnit_lt b) (of_decide_eq_true h)]

theorem PayloadLength.rbReadN (b : BufId) (n : Nat) : PayloadLength.Statement (.rbReadN b n) := by
  intro nch h; refine ⟨_, _, rfl, ?_⟩
  simp only [payloadLen, opField_commandWord (show 0x09 < 256 by decide) (bufUnit_lt b) (of_decide_eq_true h)]
  rfl

theorem PayloadLength.fltClear (sel : ClearSel) : PayloadLength.Statement (.fltClear sel) := by
  intro _ _; refine ⟨_, _, rfl, ?_⟩
  simp only [payloadLen, opField_commandWord (show 0x10 < 256 by decide) (clearUnit_lt sel) (show 0 < 2 ^ 20 by decide)]
  rfl

theorem PayloadLength.fltRun (sel : FltSel) (xs : List Sample) : PayloadLength.Statement (.fltRun sel xs) := by
  intro nch h; refine ⟨_, _, rfl, ?_⟩
  simp only [payloadLen, opField_commandWord (show 0x11 < 256 by decide) (selUnit_lt sel) (of_decide_eq_true h),
    argField_commandWord (show 0x11 < 256 by decide) (selUnit_lt sel) (of_decide_eq_true h)]

theorem PayloadLength.usbPush (fs : List PcmFrame) : PayloadLength.Statement (.usbPush fs) := by
  intro nch h; refine ⟨_, _, rfl, ?_⟩
  simp only [Instr.wfFor, Bool.and_eq_true, List.all_eq_true, beq_iff_eq] at h
  simp only [payloadLen, opField_commandWord (show 0x20 < 256 by decide) (show 0 < 16 by decide) (of_decide_eq_true h.1),
    argField_commandWord (show 0x20 < 256 by decide) (show 0 < 16 by decide) (of_decide_eq_true h.1), frameWords_length fs h.2]

theorem PayloadLength.engRun : PayloadLength.Statement (.engRun) := by
  intro _ _; refine ⟨_, _, rfl, ?_⟩
  simp only [payloadLen, opField_commandWord (show 0x21 < 256 by decide) (show 0 < 16 by decide) (show 0 < 2 ^ 20 by decide)]
  rfl

theorem PayloadLength.tick : PayloadLength.Statement (.tick) := by
  intro _ _; refine ⟨_, _, rfl, ?_⟩
  simp only [payloadLen, opField_commandWord (show 0x22 < 256 by decide) (show 0 < 16 by decide) (show 0 < 2 ^ 20 by decide)]
  rfl

theorem PayloadLength.ctlAdj : PayloadLength.Statement (.ctlAdj) := by
  intro _ _; refine ⟨_, _, rfl, ?_⟩
  simp only [payloadLen, opField_commandWord (show 0x30 < 256 by decide) (show 0 < 16 by decide) (show 0 < 2 ^ 20 by decide)]
  rfl

theorem PayloadLength.fbReport : PayloadLength.Statement (.fbReport) := by
  intro _ _; refine ⟨_, _, rfl, ?_⟩
  simp only [payloadLen, opField_commandWord (show 0x31 < 256 by decide) (show 0 < 16 by decide) (show 0 < 2 ^ 20 by decide)]
  rfl

theorem PayloadLength.volSmooth : PayloadLength.Statement (.volSmooth) := by
  intro _ _; refine ⟨_, _, rfl, ?_⟩
  simp only [payloadLen, opField_commandWord (show 0x32 < 256 by decide) (show 0 < 16 by decide) (show 0 < 2 ^ 20 by decide)]
  rfl

theorem PayloadLength.txPoll : PayloadLength.Statement (.txPoll) := by
  intro _ _; refine ⟨_, _, rfl, ?_⟩
  simp only [payloadLen, opField_commandWord (show 0x40 < 256 by decide) (show 0 < 16 by decide) (show 0 < 2 ^ 20 by decide)]
  rfl

theorem PayloadLength.dmaDone : PayloadLength.Statement (.dmaDone) := by
  intro _ _; refine ⟨_, _, rfl, ?_⟩
  simp only [payloadLen, opField_commandWord (show 0x41 < 256 by decide) (show 0 < 16 by decide) (show 0 < 2 ^ 20 by decide)]
  rfl

theorem PayloadLength.setRate (rate : Word) : PayloadLength.Statement (.setRate rate) := by
  intro _ _; refine ⟨_, _, rfl, ?_⟩
  simp only [payloadLen, opField_commandWord (show 0x50 < 256 by decide) (show 0 < 16 by decide) (show 0 < 2 ^ 20 by decide), List.length_cons, List.length_nil]

theorem PayloadLength.setDepth (d : BitVec 6) : PayloadLength.Statement (.setDepth d) := by
  intro _ _; refine ⟨_, _, rfl, ?_⟩
  simp only [payloadLen, opField_commandWord (show 0x51 < 256 by decide) (show 0 < 16 by decide) (Nat.lt_trans d.isLt (by decide))]
  rfl

theorem PayloadLength.setVol (v : BitVec 16) : PayloadLength.Statement (.setVol v) := by
  intro _ _; refine ⟨_, _, rfl, ?_⟩
  simp only [payloadLen, opField_commandWord (show 0x52 < 256 by decide) (show 0 < 16 by decide) (Nat.lt_trans v.isLt (by decide))]
  rfl

theorem PayloadLength.setMute (m : Bool) : PayloadLength.Statement (.setMute m) := by
  intro _ _; refine ⟨_, _, rfl, ?_⟩
  simp only [payloadLen, opField_commandWord (show 0x53 < 256 by decide) (show 0 < 16 by decide) (bool_toNat_lt m)]
  rfl

theorem PayloadLength.setPower (p : Bool) : PayloadLength.Statement (.setPower p) := by
  intro _ _; refine ⟨_, _, rfl, ?_⟩
  simp only [payloadLen, opField_commandWord (show 0x54 < 256 by decide) (show 0 < 16 by decide) (bool_toNat_lt p)]
  rfl

theorem PayloadLength.reinit : PayloadLength.Statement (.reinit) := by
  intro _ _; refine ⟨_, _, rfl, ?_⟩
  simp only [payloadLen, opField_commandWord (show 0x55 < 256 by decide) (show 0 < 16 by decide) (show 0 < 2 ^ 20 by decide)]
  rfl

theorem PayloadLength.mainPoll : PayloadLength.Statement (.mainPoll) := by
  intro _ _; refine ⟨_, _, rfl, ?_⟩
  simp only [payloadLen, opField_commandWord (show 0x56 < 256 by decide) (show 0 < 16 by decide) (show 0 < 2 ^ 20 by decide)]
  rfl

end Sys2Proof.Laws
end

