-- ==== Sys2Proof/Laws/Phases.lean ====
section
/-! SUPPORT. Each phase of a write and of a read, and each whole operation on one ring buffer, keeps what holds of a ring buffer
between steps (10_state.md R23 to R25; 40_ringbuffer.md R141, R142). -/

namespace Sys2Proof.Machine

/-! ## What a micro-step needs -/

@[simp] theorem needsValue_true (k : Host.Outcome State Fault Refusal) : needsValue true k = k := rfl
@[simp] theorem needsValue_false (k : Host.Outcome State Fault Refusal) : needsValue false k = .fault .noValue := rfl
@[simp] theorem needsValid_true (k : Host.Outcome State Fault Refusal) : needsValid true k = k := rfl
@[simp] theorem needsValid_false (k : Host.Outcome State Fault Refusal) : needsValid false k = .refused .notInitialised := rfl
@[simp] theorem needsLocked_true (k : Host.Outcome State Fault Refusal) : needsLocked true k = k := rfl
@[simp] theorem needsLocked_false (k : Host.Outcome State Fault Refusal) : needsLocked false k = .refused .unlockedShared := rfl

theorem afterBoot_booted {s : State} (h : s.booted = true) (k : Host.Outcome State Fault Refusal) : s.afterBoot k = k :=
  if_pos h

theorem afterBoot_before {s : State} (h : s.booted = false) (k : Host.Outcome State Fault Refusal) :
    s.afterBoot k = .refused .notInitialised := by
  simp only [State.afterBoot, h, Bool.false_eq_true, if_false]

/-! ## Positions of the two sides of a buffer -/

theorem contents_stored {q : RingBuffer} (h : ∀ x ∈ q.contents, x.isSome = true) {j : Nat} (hj : j < q.cnt) :
    (q.at q.rd j).isSome = true :=
  h _ (by simp only [RingBuffer.contents, List.mem_map, List.mem_range]; exact ⟨j, hj, rfl⟩)

theorem stored_contents {q : RingBuffer} (h : ∀ j < q.cnt, (q.at q.rd j).isSome = true) :
    ∀ x ∈ q.contents, x.isSome = true := by
  intro x hx
  simp only [RingBuffer.contents, List.mem_map, List.mem_range] at hx
  obtain ⟨j, hj, rfl⟩ := hx
  exact h j hj

/-- Position `j` of the producer's run is position `cnt + j` of the consumer's (R24). -/
theorem write_index {q : RingBuffer} (h : q.wr = (q.rd + q.cnt) % q.cap) (j : Nat) :
    (q.wr + j) % q.cap = (q.rd + (q.cnt + j)) % q.cap := by
  rw [h, Nat.mod_add_mod, Nat.add_assoc]

/-- The elements a write stores into lie outside the counted ones (R141). -/
theorem write_index_ne {q : RingBuffer} (h : q.wr = (q.rd + q.cnt) % q.cap) {i j : Nat} (hi : i < q.cnt)
    (hj : q.cnt + j < q.cap) : (q.rd + i) % q.cap ≠ (q.wr + j) % q.cap := by
  rw [write_index h]
  intro he
  have := index_inj (by omega) hj he
  omega

/-! ## Writes -/

/-- The check phase of a write that fits (R141). -/
theorem Inv.checkIn {q : RingBuffer} (hv : q.valid = true) (h : q.Inv) {xs : List Sample} (hl : xs.length ≤ q.free) :
    RingBuffer.Inv { q with prodOp := some ⟨xs.length, xs, .checked⟩ } := by
  obtain ⟨h1, h2, _, h4⟩ := h
  obtain ⟨hb, hs, _, hc⟩ := h4 hv
  refine ⟨h1, h2, fun hf => absurd (hv.symm.trans hf) (by decide), fun _ => ⟨hb, hs, ?_, hc⟩⟩
  intro op hop
  simp only [Option.mem_def, Option.some.injEq] at hop
  subst hop
  exact ⟨hl, Nat.le_refl _, fun hp => nomatch hp⟩

/-- The check phase of a write whose Samples its copy phase computes (R141, R195). -/
theorem Inv.reserve {q : RingBuffer} (hv : q.valid = true) (h : q.Inv) {n : Nat} (hl : n ≤ q.free) : (q.reserve n).Inv := by
  obtain ⟨h1, h2, _, h4⟩ := h
  obtain ⟨hb, hs, _, hc⟩ := h4 hv
  refine ⟨h1, h2, fun hf => absurd (hv.symm.trans hf) (by decide), fun _ => ⟨hb, hs, ?_, hc⟩⟩
  intro op hop
  simp only [RingBuffer.reserve, Option.mem_def, Option.some.injEq] at hop
  subst hop
  exact ⟨hl, Nat.zero_le _, fun hp => nomatch hp⟩

/-- The Samples of a write in flight, once computed (R195). -/
theorem Inv.supply {q : RingBuffer} (hv : q.valid = true) (h : q.Inv) {xs : List Sample} (hx : ∀ op ∈ q.prodOp, xs.length ≤ op.n) :
    (q.supply xs).Inv := by
  obtain ⟨h1, h2, _, h4⟩ := h
  obtain ⟨hb, hs, hp, hc⟩ := h4 hv
  refine ⟨h1, h2, fun hf => absurd (hv.symm.trans hf) (by decide), fun _ => ⟨hb, hs, ?_, hc⟩⟩
  intro op hop
  simp only [RingBuffer.supply, Option.mem_def, Option.map_eq_some_iff] at hop
  obtain ⟨op', hop', rfl⟩ := hop
  exact ⟨Nat.le_trans (hx op' hop') (hp op' hop').1, Nat.le_refl _, fun hp => nomatch hp⟩

/-- An array that agrees with that of `q` on the counted elements. -/
theorem Inv.withMem {q : RingBuffer} (hv : q.valid = true) (h : q.Inv) {m : Mem} (hm : m.wf = true)
    (hsame : ∀ j < q.cnt, m.get ((q.rd + j) % q.cap) = q.mem.get ((q.rd + j) % q.cap)) (hp : q.prodOp = none) :
    RingBuffer.Inv { q with mem := m } := by
  obtain ⟨_, h2, _, h4⟩ := h
  obtain ⟨hb, hs, _, hc⟩ := h4 hv
  refine ⟨hm, h2, fun hf => absurd (hv.symm.trans hf) (by decide), fun _ => ⟨hb, stored_contents fun j hj => ?_, ?_, ?_⟩⟩
  · have := contents_stored hs hj
    simp only [RingBuffer.at] at this ⊢
    rw [hsame j hj]; exact this
  · intro op hop
    simp only [hp, Option.mem_def, reduceCtorEq] at hop
  · intro op hop
    obtain ⟨h5, h6⟩ := hc op hop
    refine ⟨h5, fun hph => ?_⟩
    rw [← h6 hph]
    refine List.map_congr_left fun j hj => hsame j ?_
    have := List.mem_range.mp hj
    exact Nat.lt_of_lt_of_le this h5

/-- The copy phase of a write (R141). -/
theorem Inv.copiedIn {q : RingBuffer} (hv : q.valid = true) (h : q.Inv) {xs : List Sample} (hl : xs.length ≤ q.free) {m : Mem}
    (hm : m.wf = true) (hst : q.Stored xs m) : RingBuffer.Inv { q with mem := m, prodOp := some ⟨xs.length, xs, .copied⟩ } := by
  obtain ⟨h1, h2, h3, h4⟩ := h
  obtain ⟨hb, hs, hp, hc⟩ := h4 hv
  have hbase := Inv.withMem (q := { q with prodOp := none }) hv
    ⟨h1, h2, fun hf => absurd (hv.symm.trans hf) (by decide), fun _ => ⟨hb, hs, fun _ h => by simp at h, hc⟩⟩ hm
    (fun j hj => hst.2 _ fun i hi => write_index_ne hb.2.2.2.2 hj (by simp only [RingBuffer.free] at hl; omega)) rfl
  obtain ⟨g1, g2, g3, g4⟩ := hbase
  obtain ⟨k1, k2, _, k4⟩ := g4 hv
  refine ⟨g1, g2, fun hf => absurd (hv.symm.trans hf) (by decide), fun _ => ⟨k1, k2, ?_, k4⟩⟩
  intro op hop
  simp only [Option.mem_def, Option.some.injEq] at hop
  subst hop
  refine ⟨hl, Nat.le_refl _, fun _ => ⟨rfl, List.ext_getElem (by simp) fun i hi _ => ?_⟩⟩
  simp only [List.length_map, List.length_range] at hi
  simp only [List.getElem_map, List.getElem_range]
  exact hst.1 i hi

/-- The publish phase of a write whose elements are copied (R141). -/
theorem Inv.published {q : RingBuffer} (hv : q.valid = true) (h : q.Inv) {xs : List Sample} (hl : xs.length ≤ q.free)
    (hx : (List.range xs.length).map (q.at q.wr) = xs.map some) : (q.advanceWr xs.length).Inv := by
  obtain ⟨h1, h2, _, h4⟩ := h
  obtain ⟨⟨hc0, hcc, hw, hr, hrel⟩, hs, _, hc⟩ := h4 hv
  simp only [RingBuffer.free] at hl
  refine ⟨h1, h2, fun hf => absurd (hv.symm.trans hf) (by decide), fun _ => ⟨?_, stored_contents fun j hj => ?_, ?_, ?_⟩⟩
  · refine ⟨hc0, ?_, Nat.mod_lt _ hc0, hr, ?_⟩
    · simp only [RingBuffer.advanceWr]; omega
    · simp only [RingBuffer.advanceWr]; exact write_index hrel _
  · simp only [RingBuffer.advanceWr] at hj
    by_cases hj' : j < q.cnt
    · exact contents_stored hs hj'
    · have hi : j - q.cnt < xs.length := by omega
      have hget : (q.at q.wr (j - q.cnt)) = some xs[j - q.cnt] := by
        have := congrArg (fun l => l[j - q.cnt]?) hx
        simpa [hi] using this
      simp only [RingBuffer.at] at hget ⊢
      rw [write_index hrel, show q.cnt + (j - q.cnt) = j by omega] at hget
      simp only [RingBuffer.advanceWr, hget, Option.isSome_some]
  · intro op hop
    simp only [RingBuffer.advanceWr, Option.mem_def, reduceCtorEq] at hop
  · intro op hop
    obtain ⟨h5, h6⟩ := hc op hop
    exact ⟨Nat.le_trans h5 (Nat.le_add_right _ _), h6⟩

/-! ## Reads -/

/-- The check phase of a read (R142). -/
theorem Inv.checkOut {q : RingBuffer} (hv : q.valid = true) (h : q.Inv) {n : Nat} (hl : n ≤ q.cnt) :
    RingBuffer.Inv { q with consOp := some ⟨n, .checked, []⟩ } := by
  obtain ⟨h1, h2, _, h4⟩ := h
  obtain ⟨hb, hs, hp, _⟩ := h4 hv
  refine ⟨h1, h2, fun hf => absurd (hv.symm.trans hf) (by decide), fun _ => ⟨hb, hs, hp, ?_⟩⟩
  intro op hop
  simp only [Option.mem_def, Option.some.injEq] at hop
  subst hop
  exact ⟨hl, fun hp => nomatch hp⟩

/-- The copy phase of a read (R142). -/
theorem Inv.copiedOut {q : RingBuffer} (hv : q.valid = true) (h : q.Inv) {n : Nat} (hl : n ≤ q.cnt) {d : List Sample}
    (hd : d.map some = (List.range n).map (q.at q.rd)) : RingBuffer.Inv { q with consOp := some ⟨n, .copied, d⟩ } := by
  obtain ⟨h1, h2, _, h4⟩ := h
  obtain ⟨hb, hs, hp, _⟩ := h4 hv
  refine ⟨h1, h2, fun hf => absurd (hv.symm.trans hf) (by decide), fun _ => ⟨hb, hs, hp, ?_⟩⟩
  intro op hop
  simp only [Option.mem_def, Option.some.injEq] at hop
  subst hop
  exact ⟨hl, fun _ => hd.symm⟩

/-- The publish phase of a read (R142). -/
theorem Inv.freed {q : RingBuffer} (hv : q.valid = true) (h : q.Inv) {n : Nat} (hl : n ≤ q.cnt) : (q.advanceRd n).Inv := by
  obtain ⟨h1, h2, _, h4⟩ := h
  obtain ⟨⟨hc0, hcc, hw, hr, hrel⟩, hs, hp, _⟩ := h4 hv
  have hidx : ∀ j, ((q.rd + n) % q.cap + j) % q.cap = (q.rd + (n + j)) % q.cap := fun j => by
    rw [Nat.mod_add_mod, Nat.add_assoc]
  refine ⟨h1, h2, fun hf => absurd (hv.symm.trans hf) (by decide), fun _ => ⟨?_, stored_contents fun j hj => ?_, ?_, ?_⟩⟩
  · refine ⟨hc0, ?_, hw, Nat.mod_lt _ hc0, ?_⟩
    · simp only [RingBuffer.advanceRd]; omega
    · simp only [RingBuffer.advanceRd]
      rw [hidx, Nat.add_sub_cancel' hl]; exact hrel
  · simp only [RingBuffer.advanceRd] at hj
    simp only [RingBuffer.at, RingBuffer.advanceRd, hidx]
    exact contents_stored hs (by omega)
  · intro op hop
    obtain ⟨h5, h6⟩ := hp op hop
    exact ⟨Nat.le_trans h5 (by simp only [RingBuffer.free, RingBuffer.advanceRd]; omega), h6⟩
  · intro op hop
    simp only [RingBuffer.advanceRd, Option.mem_def, reduceCtorEq] at hop

/-! ## Whole operations -/

/-- A write whose check has passed keeps the buffer's invariant (R141). -/
theorem Inv.write {q q' : RingBuffer} (hv : q.valid = true) (h : q.Inv) {a : Agent} {xs : List Sample} (hl : xs.length ≤ q.free)
    (hw : q.write a xs = .ok q') : q'.valid = true ∧ q'.Inv := by
  obtain ⟨h1, h2, _, h4⟩ := id h
  obtain ⟨⟨hc0, _⟩, _⟩ := h4 hv
  obtain ⟨m, hm1, hm2, hm3, hm4⟩ := write_spec q hc0 h2 a xs
  rw [hw, Except.ok.injEq] at hm1
  subst hm1
  have hst : q.Stored xs m := ⟨fun i hi => hm4 (by simp only [RingBuffer.free] at hl; omega) i hi, hm3⟩
  have := Inv.copiedIn hv h hl (hm2 h1) hst
  refine ⟨hv, Inv.published (q := { q with mem := m, prodOp := some ⟨xs.length, xs, .copied⟩ }) hv this hl ?_⟩
  exact (((this.2.2.2 hv).2.2.1 _ rfl).2.2 rfl).2

/-- A read whose check has passed keeps the buffer's invariant (R142). -/
theorem Inv.read {q q' : RingBuffer} (hv : q.valid = true) (h : q.Inv) {a : Agent} {n : Nat} {d : List Sample} (hl : n ≤ q.cnt)
    (hr : q.read a n = .ok (d, q')) : q'.valid = true ∧ q'.Inv := by
  obtain ⟨_, h2, _, h4⟩ := id h
  obtain ⟨⟨hc0, _⟩, hs, _⟩ := h4 hv
  obtain ⟨e, he, _⟩ := read_spec q hc0 h2 a n fun j hj => contents_stored hs (by omega)
  rw [hr, Except.ok.injEq, Prod.mk.injEq] at he
  rw [he.2]
  exact ⟨hv, Inv.freed hv h hl⟩

/-- `RB.CLEAR` keeps the buffer's invariant (R132). -/
theorem Inv.clear {q q' : RingBuffer} (h : q.Inv) (hc : q.clear = .ok q') : q'.valid = q.valid ∧ q'.Inv := by
  simp only [RingBuffer.clear] at hc
  split at hc
  · rename_i hq
    simp only [Bool.and_eq_true, Option.isNone_iff_eq_none] at hq
    cases hc
    obtain ⟨h1, h2, _, h4⟩ := h
    refine ⟨rfl, h1, h2, fun _ => ⟨rfl, hq.1, hq.2⟩, fun hv => ⟨?_, ?_, ?_, ?_⟩⟩
    · obtain ⟨⟨hc0, _⟩, _⟩ := h4 hv
      exact ⟨hc0, Nat.zero_le _, hc0, hc0, by simp [RingBuffer.cleared]⟩
    · intro x hx; simp [RingBuffer.contents, RingBuffer.cleared] at hx
    · intro op hop; simp [RingBuffer.cleared, hq.1] at hop
    · intro op hop; simp [RingBuffer.cleared, hq.2] at hop
  · cases hc

/-- `RB.INIT` gives a buffer with its invariant (R131). -/
theorem Inv.init (mode : Bool) {cap : Nat} (h : 0 < cap) : (RingBuffer.init mode cap).Inv := by
  refine ⟨rfl, rfl, fun hf => by simp [RingBuffer.init] at hf, fun _ => ⟨⟨h, Nat.zero_le _, h, h, ?_⟩, ?_, ?_, ?_⟩⟩
  · simp [RingBuffer.init]
  · intro x hx; simp [RingBuffer.contents, RingBuffer.init] at hx
  · intro op hop; simp [RingBuffer.init] at hop
  · intro op hop; simp [RingBuffer.init] at hop

end Sys2Proof.Machine
end

