-- ==== Sys2Proof/Laws/State.lean ====
section
/-! SUPPORT. What each named update of the state does to each field: one lemma per field per update, true by `rfl`, so that no
proof unfolds a record update. -/

namespace Sys2Proof.Machine

/-! ## respond: the response of an operation -/

@[simp] theorem respond_rb (s : State) (r : Result) (vs : List Word) : (s.respond r vs).rb = s.rb := rfl
@[simp] theorem respond_fNom (s : State) (r : Result) (vs : List Word) : (s.respond r vs).fNom = s.fNom := rfl
@[simp] theorem respond_fCur (s : State) (r : Result) (vs : List Word) : (s.respond r vs).fCur = s.fCur := rfl
@[simp] theorem respond_depth (s : State) (r : Result) (vs : List Word) : (s.respond r vs).depth = s.depth := rfl
@[simp] theorem respond_volReq (s : State) (r : Result) (vs : List Word) : (s.respond r vs).volReq = s.volReq := rfl
@[simp] theorem respond_volAcq (s : State) (r : Result) (vs : List Word) : (s.respond r vs).volAcq = s.volAcq := rfl
@[simp] theorem respond_volSmooth (s : State) (r : Result) (vs : List Word) :
    (s.respond r vs).volSmooth = s.volSmooth := rfl
@[simp] theorem respond_gain (s : State) (r : Result) (vs : List Word) : (s.respond r vs).gain = s.gain := rfl
@[simp] theorem respond_mute (s : State) (r : Result) (vs : List Word) : (s.respond r vs).mute = s.mute := rfl
@[simp] theorem respond_muteCur (s : State) (r : Result) (vs : List Word) : (s.respond r vs).muteCur = s.muteCur := rfl
@[simp] theorem respond_pmSignal (s : State) (r : Result) (vs : List Word) :
    (s.respond r vs).pmSignal = s.pmSignal := rfl
@[simp] theorem respond_pmCur (s : State) (r : Result) (vs : List Word) : (s.respond r vs).pmCur = s.pmCur := rfl
@[simp] theorem respond_adj (s : State) (r : Result) (vs : List Word) : (s.respond r vs).adj = s.adj := rfl
@[simp] theorem respond_r1 (s : State) (r : Result) (vs : List Word) : (s.respond r vs).r1 = s.r1 := rfl
@[simp] theorem respond_r2 (s : State) (r : Result) (vs : List Word) : (s.respond r vs).r2 = s.r2 := rfl
@[simp] theorem respond_schedState (s : State) (r : Result) (vs : List Word) :
    (s.respond r vs).schedState = s.schedState := rfl
@[simp] theorem respond_qWr (s : State) (r : Result) (vs : List Word) : (s.respond r vs).qWr = s.qWr := rfl
@[simp] theorem respond_qRd (s : State) (r : Result) (vs : List Word) : (s.respond r vs).qRd = s.qRd := rfl
@[simp] theorem respond_qCnt (s : State) (r : Result) (vs : List Word) : (s.respond r vs).qCnt = s.qCnt := rfl
@[simp] theorem respond_slots (s : State) (r : Result) (vs : List Word) : (s.respond r vs).slots = s.slots := rfl
@[simp] theorem respond_timerEnabled (s : State) (r : Result) (vs : List Word) :
    (s.respond r vs).timerEnabled = s.timerEnabled := rfl
@[simp] theorem respond_irqMask (s : State) (r : Result) (vs : List Word) : (s.respond r vs).irqMask = s.irqMask := rfl
@[simp] theorem respond_dmaPend (s : State) (r : Result) (vs : List Word) : (s.respond r vs).dmaPend = s.dmaPend := rfl
@[simp] theorem respond_dmaBusy (s : State) (r : Result) (vs : List Word) : (s.respond r vs).dmaBusy = s.dmaBusy := rfl
@[simp] theorem respond_dmaCur (s : State) (r : Result) (vs : List Word) : (s.respond r vs).dmaCur = s.dmaCur := rfl
@[simp] theorem respond_outRate (s : State) (r : Result) (vs : List Word) : (s.respond r vs).outRate = s.outRate := rfl
@[simp] theorem respond_reinitBusy (s : State) (r : Result) (vs : List Word) :
    (s.respond r vs).reinitBusy = s.reinitBusy := rfl
@[simp] theorem respond_reinitStep (s : State) (r : Result) (vs : List Word) :
    (s.respond r vs).reinitStep = s.reinitStep := rfl
@[simp] theorem respond_pollBusy (s : State) (r : Result) (vs : List Word) :
    (s.respond r vs).pollBusy = s.pollBusy := rfl
@[simp] theorem respond_pushBusy (s : State) (r : Result) (vs : List Word) :
    (s.respond r vs).pushBusy = s.pushBusy := rfl
@[simp] theorem respond_d1 (s : State) (r : Result) (vs : List Word) : (s.respond r vs).d1 = s.d1 := rfl
@[simp] theorem respond_d2 (s : State) (r : Result) (vs : List Word) : (s.respond r vs).d2 = s.d2 := rfl
@[simp] theorem respond_outStream (s : State) (r : Result) (vs : List Word) :
    (s.respond r vs).outStream = s.outStream := rfl
@[simp] theorem respond_dacEvents (s : State) (r : Result) (vs : List Word) :
    (s.respond r vs).dacEvents = s.dacEvents := rfl
@[simp] theorem respond_booted (s : State) (r : Result) (vs : List Word) : (s.respond r vs).booted = s.booted := rfl
@[simp] theorem respond_usb (s : State) (r : Result) (vs : List Word) : (s.respond r vs).usb = s.usb := rfl
@[simp] theorem respond_tick (s : State) (r : Result) (vs : List Word) : (s.respond r vs).tick = s.tick := rfl
@[simp] theorem respond_poll (s : State) (r : Result) (vs : List Word) : (s.respond r vs).poll = s.poll := rfl
@[simp] theorem respond_main (s : State) (r : Result) (vs : List Word) : (s.respond r vs).main = s.main := rfl
@[simp] theorem respond_host (s : State) (r : Result) (vs : List Word) : (s.respond r vs).host = s.host := rfl
@[simp] theorem respond_schedule (s : State) (r : Result) (vs : List Word) :
    (s.respond r vs).schedule = s.schedule := rfl
@[simp] theorem respond_stream (s : State) (r : Result) (vs : List Word) : (s.respond r vs).stream = s.stream := rfl
@[simp] theorem respond_responses (s : State) (r : Result) (vs : List Word) :
    (s.respond r vs).responses = s.responses ++ [⟨r, vs⟩] := rfl
@[simp] theorem respond_pcmFree (s : State) (r : Result) (vs : List Word) : (s.respond r vs).pcmFree = s.pcmFree := rfl

/-! ## setBuf: a write of one ring buffer -/

@[simp] theorem setBuf_rb (s : State) (b : BufId) (q : RingBuffer) : (s.setBuf b q).rb = s.rb.set b q := rfl
@[simp] theorem setBuf_fNom (s : State) (b : BufId) (q : RingBuffer) : (s.setBuf b q).fNom = s.fNom := rfl
@[simp] theorem setBuf_fCur (s : State) (b : BufId) (q : RingBuffer) : (s.setBuf b q).fCur = s.fCur := rfl
@[simp] theorem setBuf_depth (s : State) (b : BufId) (q : RingBuffer) : (s.setBuf b q).depth = s.depth := rfl
@[simp] theorem setBuf_volReq (s : State) (b : BufId) (q : RingBuffer) : (s.setBuf b q).volReq = s.volReq := rfl
@[simp] theorem setBuf_volAcq (s : State) (b : BufId) (q : RingBuffer) : (s.setBuf b q).volAcq = s.volAcq := rfl
@[simp] theorem setBuf_volSmooth (s : State) (b : BufId) (q : RingBuffer) :
    (s.setBuf b q).volSmooth = s.volSmooth := rfl
@[simp] theorem setBuf_gain (s : State) (b : BufId) (q : RingBuffer) : (s.setBuf b q).gain = s.gain := rfl
@[simp] theorem setBuf_mute (s : State) (b : BufId) (q : RingBuffer) : (s.setBuf b q).mute = s.mute := rfl
@[simp] theorem setBuf_muteCur (s : State) (b : BufId) (q : RingBuffer) : (s.setBuf b q).muteCur = s.muteCur := rfl
@[simp] theorem setBuf_pmSignal (s : State) (b : BufId) (q : RingBuffer) : (s.setBuf b q).pmSignal = s.pmSignal := rfl
@[simp] theorem setBuf_pmCur (s : State) (b : BufId) (q : RingBuffer) : (s.setBuf b q).pmCur = s.pmCur := rfl
@[simp] theorem setBuf_adj (s : State) (b : BufId) (q : RingBuffer) : (s.setBuf b q).adj = s.adj := rfl
@[simp] theorem setBuf_r1 (s : State) (b : BufId) (q : RingBuffer) : (s.setBuf b q).r1 = s.r1 := rfl
@[simp] theorem setBuf_r2 (s : State) (b : BufId) (q : RingBuffer) : (s.setBuf b q).r2 = s.r2 := rfl
@[simp] theorem setBuf_schedState (s : State) (b : BufId) (q : RingBuffer) :
    (s.setBuf b q).schedState = s.schedState := rfl
@[simp] theorem setBuf_qWr (s : State) (b : BufId) (q : RingBuffer) : (s.setBuf b q).qWr = s.qWr := rfl
@[simp] theorem setBuf_qRd (s : State) (b : BufId) (q : RingBuffer) : (s.setBuf b q).qRd = s.qRd := rfl
@[simp] theorem setBuf_qCnt (s : State) (b : BufId) (q : RingBuffer) : (s.setBuf b q).qCnt = s.qCnt := rfl
@[simp] theorem setBuf_slots (s : State) (b : BufId) (q : RingBuffer) : (s.setBuf b q).slots = s.slots := rfl
@[simp] theorem setBuf_timerEnabled (s : State) (b : BufId) (q : RingBuffer) :
    (s.setBuf b q).timerEnabled = s.timerEnabled := rfl
@[simp] theorem setBuf_irqMask (s : State) (b : BufId) (q : RingBuffer) : (s.setBuf b q).irqMask = s.irqMask := rfl
@[simp] theorem setBuf_dmaPend (s : State) (b : BufId) (q : RingBuffer) : (s.setBuf b q).dmaPend = s.dmaPend := rfl
@[simp] theorem setBuf_dmaBusy (s : State) (b : BufId) (q : RingBuffer) : (s.setBuf b q).dmaBusy = s.dmaBusy := rfl
@[simp] theorem setBuf_dmaCur (s : State) (b : BufId) (q : RingBuffer) : (s.setBuf b q).dmaCur = s.dmaCur := rfl
@[simp] theorem setBuf_outRate (s : State) (b : BufId) (q : RingBuffer) : (s.setBuf b q).outRate = s.outRate := rfl
@[simp] theorem setBuf_reinitBusy (s : State) (b : BufId) (q : RingBuffer) :
    (s.setBuf b q).reinitBusy = s.reinitBusy := rfl
@[simp] theorem setBuf_reinitStep (s : State) (b : BufId) (q : RingBuffer) :
    (s.setBuf b q).reinitStep = s.reinitStep := rfl
@[simp] theorem setBuf_pollBusy (s : State) (b : BufId) (q : RingBuffer) : (s.setBuf b q).pollBusy = s.pollBusy := rfl
@[simp] theorem setBuf_pushBusy (s : State) (b : BufId) (q : RingBuffer) : (s.setBuf b q).pushBusy = s.pushBusy := rfl
@[simp] theorem setBuf_d1 (s : State) (b : BufId) (q : RingBuffer) : (s.setBuf b q).d1 = s.d1 := rfl
@[simp] theorem setBuf_d2 (s : State) (b : BufId) (q : RingBuffer) : (s.setBuf b q).d2 = s.d2 := rfl
@[simp] theorem setBuf_outStream (s : State) (b : BufId) (q : RingBuffer) :
    (s.setBuf b q).outStream = s.outStream := rfl
@[simp] theorem setBuf_dacEvents (s : State) (b : BufId) (q : RingBuffer) :
    (s.setBuf b q).dacEvents = s.dacEvents := rfl
@[simp] theorem setBuf_booted (s : State) (b : BufId) (q : RingBuffer) : (s.setBuf b q).booted = s.booted := rfl
@[simp] theorem setBuf_usb (s : State) (b : BufId) (q : RingBuffer) : (s.setBuf b q).usb = s.usb := rfl
@[simp] theorem setBuf_tick (s : State) (b : BufId) (q : RingBuffer) : (s.setBuf b q).tick = s.tick := rfl
@[simp] theorem setBuf_poll (s : State) (b : BufId) (q : RingBuffer) : (s.setBuf b q).poll = s.poll := rfl
@[simp] theorem setBuf_main (s : State) (b : BufId) (q : RingBuffer) : (s.setBuf b q).main = s.main := rfl
@[simp] theorem setBuf_host (s : State) (b : BufId) (q : RingBuffer) : (s.setBuf b q).host = s.host := rfl
@[simp] theorem setBuf_schedule (s : State) (b : BufId) (q : RingBuffer) : (s.setBuf b q).schedule = s.schedule := rfl
@[simp] theorem setBuf_stream (s : State) (b : BufId) (q : RingBuffer) : (s.setBuf b q).stream = s.stream := rfl
@[simp] theorem setBuf_responses (s : State) (b : BufId) (q : RingBuffer) :
    (s.setBuf b q).responses = s.responses := rfl
@[simp] theorem setBuf_pcmFree (s : State) (b : BufId) (q : RingBuffer) : (s.setBuf b q).pcmFree = s.pcmFree := rfl

/-! ## bumpWr: the index writes of `Enqueue` (R238) -/

@[simp] theorem bumpWr_rb (c : Config) (s : State) : (s.bumpWr c).rb = s.rb := rfl
@[simp] theorem bumpWr_fNom (c : Config) (s : State) : (s.bumpWr c).fNom = s.fNom := rfl
@[simp] theorem bumpWr_fCur (c : Config) (s : State) : (s.bumpWr c).fCur = s.fCur := rfl
@[simp] theorem bumpWr_depth (c : Config) (s : State) : (s.bumpWr c).depth = s.depth := rfl
@[simp] theorem bumpWr_volReq (c : Config) (s : State) : (s.bumpWr c).volReq = s.volReq := rfl
@[simp] theorem bumpWr_volAcq (c : Config) (s : State) : (s.bumpWr c).volAcq = s.volAcq := rfl
@[simp] theorem bumpWr_volSmooth (c : Config) (s : State) : (s.bumpWr c).volSmooth = s.volSmooth := rfl
@[simp] theorem bumpWr_gain (c : Config) (s : State) : (s.bumpWr c).gain = s.gain := rfl
@[simp] theorem bumpWr_mute (c : Config) (s : State) : (s.bumpWr c).mute = s.mute := rfl
@[simp] theorem bumpWr_muteCur (c : Config) (s : State) : (s.bumpWr c).muteCur = s.muteCur := rfl
@[simp] theorem bumpWr_pmSignal (c : Config) (s : State) : (s.bumpWr c).pmSignal = s.pmSignal := rfl
@[simp] theorem bumpWr_pmCur (c : Config) (s : State) : (s.bumpWr c).pmCur = s.pmCur := rfl
@[simp] theorem bumpWr_adj (c : Config) (s : State) : (s.bumpWr c).adj = s.adj := rfl
@[simp] theorem bumpWr_r1 (c : Config) (s : State) : (s.bumpWr c).r1 = s.r1 := rfl
@[simp] theorem bumpWr_r2 (c : Config) (s : State) : (s.bumpWr c).r2 = s.r2 := rfl
@[simp] theorem bumpWr_schedState (c : Config) (s : State) : (s.bumpWr c).schedState = s.schedState := rfl
@[simp] theorem bumpWr_qWr (c : Config) (s : State) : (s.bumpWr c).qWr = (s.qWr + 1) % c.txqDepth := rfl
@[simp] theorem bumpWr_qRd (c : Config) (s : State) : (s.bumpWr c).qRd = s.qRd := rfl
@[simp] theorem bumpWr_qCnt (c : Config) (s : State) : (s.bumpWr c).qCnt = s.qCnt + 1 := rfl
@[simp] theorem bumpWr_slots (c : Config) (s : State) : (s.bumpWr c).slots = s.slots := rfl
@[simp] theorem bumpWr_timerEnabled (c : Config) (s : State) : (s.bumpWr c).timerEnabled = s.timerEnabled := rfl
@[simp] theorem bumpWr_irqMask (c : Config) (s : State) : (s.bumpWr c).irqMask = s.irqMask := rfl
@[simp] theorem bumpWr_dmaPend (c : Config) (s : State) : (s.bumpWr c).dmaPend = s.dmaPend := rfl
@[simp] theorem bumpWr_dmaBusy (c : Config) (s : State) : (s.bumpWr c).dmaBusy = s.dmaBusy := rfl
@[simp] theorem bumpWr_dmaCur (c : Config) (s : State) : (s.bumpWr c).dmaCur = s.dmaCur := rfl
@[simp] theorem bumpWr_outRate (c : Config) (s : State) : (s.bumpWr c).outRate = s.outRate := rfl
@[simp] theorem bumpWr_reinitBusy (c : Config) (s : State) : (s.bumpWr c).reinitBusy = s.reinitBusy := rfl
@[simp] theorem bumpWr_reinitStep (c : Config) (s : State) : (s.bumpWr c).reinitStep = s.reinitStep := rfl
@[simp] theorem bumpWr_pollBusy (c : Config) (s : State) : (s.bumpWr c).pollBusy = s.pollBusy := rfl
@[simp] theorem bumpWr_pushBusy (c : Config) (s : State) : (s.bumpWr c).pushBusy = s.pushBusy := rfl
@[simp] theorem bumpWr_d1 (c : Config) (s : State) : (s.bumpWr c).d1 = s.d1 := rfl
@[simp] theorem bumpWr_d2 (c : Config) (s : State) : (s.bumpWr c).d2 = s.d2 := rfl
@[simp] theorem bumpWr_outStream (c : Config) (s : State) : (s.bumpWr c).outStream = s.outStream := rfl
@[simp] theorem bumpWr_dacEvents (c : Config) (s : State) : (s.bumpWr c).dacEvents = s.dacEvents := rfl
@[simp] theorem bumpWr_booted (c : Config) (s : State) : (s.bumpWr c).booted = s.booted := rfl
@[simp] theorem bumpWr_usb (c : Config) (s : State) : (s.bumpWr c).usb = s.usb := rfl
@[simp] theorem bumpWr_tick (c : Config) (s : State) : (s.bumpWr c).tick = s.tick := rfl
@[simp] theorem bumpWr_poll (c : Config) (s : State) : (s.bumpWr c).poll = s.poll := rfl
@[simp] theorem bumpWr_main (c : Config) (s : State) : (s.bumpWr c).main = s.main := rfl
@[simp] theorem bumpWr_host (c : Config) (s : State) : (s.bumpWr c).host = s.host := rfl
@[simp] theorem bumpWr_schedule (c : Config) (s : State) : (s.bumpWr c).schedule = s.schedule := rfl
@[simp] theorem bumpWr_stream (c : Config) (s : State) : (s.bumpWr c).stream = s.stream := rfl
@[simp] theorem bumpWr_responses (c : Config) (s : State) : (s.bumpWr c).responses = s.responses := rfl
@[simp] theorem bumpWr_pcmFree (c : Config) (s : State) : (s.bumpWr c).pcmFree = s.pcmFree := rfl

/-! ## enqueue: `Enqueue` (R238); `irqMask` is left at 0 -/

@[simp] theorem enqueue_rb (c : Config) (s : State) : (s.enqueue c).rb = s.rb := bumpWr_rb c { s with irqMask := true }
@[simp] theorem enqueue_fNom (c : Config) (s : State) :
    (s.enqueue c).fNom = s.fNom := bumpWr_fNom c { s with irqMask := true }
@[simp] theorem enqueue_fCur (c : Config) (s : State) :
    (s.enqueue c).fCur = s.fCur := bumpWr_fCur c { s with irqMask := true }
@[simp] theorem enqueue_depth (c : Config) (s : State) :
    (s.enqueue c).depth = s.depth := bumpWr_depth c { s with irqMask := true }
@[simp] theorem enqueue_volReq (c : Config) (s : State) :
    (s.enqueue c).volReq = s.volReq := bumpWr_volReq c { s with irqMask := true }
@[simp] theorem enqueue_volAcq (c : Config) (s : State) :
    (s.enqueue c).volAcq = s.volAcq := bumpWr_volAcq c { s with irqMask := true }
@[simp] theorem enqueue_volSmooth (c : Config) (s : State) :
    (s.enqueue c).volSmooth = s.volSmooth := bumpWr_volSmooth c { s with irqMask := true }
@[simp] theorem enqueue_gain (c : Config) (s : State) :
    (s.enqueue c).gain = s.gain := bumpWr_gain c { s with irqMask := true }
@[simp] theorem enqueue_mute (c : Config) (s : State) :
    (s.enqueue c).mute = s.mute := bumpWr_mute c { s with irqMask := true }
@[simp] theorem enqueue_muteCur (c : Config) (s : State) :
    (s.enqueue c).muteCur = s.muteCur := bumpWr_muteCur c { s with irqMask := true }
@[simp] theorem enqueue_pmSignal (c : Config) (s : State) :
    (s.enqueue c).pmSignal = s.pmSignal := bumpWr_pmSignal c { s with irqMask := true }
@[simp] theorem enqueue_pmCur (c : Config) (s : State) :
    (s.enqueue c).pmCur = s.pmCur := bumpWr_pmCur c { s with irqMask := true }
@[simp] theorem enqueue_adj (c : Config) (s : State) :
    (s.enqueue c).adj = s.adj := bumpWr_adj c { s with irqMask := true }
@[simp] theorem enqueue_r1 (c : Config) (s : State) : (s.enqueue c).r1 = s.r1 := bumpWr_r1 c { s with irqMask := true }
@[simp] theorem enqueue_r2 (c : Config) (s : State) : (s.enqueue c).r2 = s.r2 := bumpWr_r2 c { s with irqMask := true }
@[simp] theorem enqueue_schedState (c : Config) (s : State) :
    (s.enqueue c).schedState = s.schedState := bumpWr_schedState c { s with irqMask := true }
@[simp] theorem enqueue_qWr (c : Config) (s : State) :
    (s.enqueue c).qWr = (s.qWr + 1) % c.txqDepth := bumpWr_qWr c { s with irqMask := true }
@[simp] theorem enqueue_qRd (c : Config) (s : State) :
    (s.enqueue c).qRd = s.qRd := bumpWr_qRd c { s with irqMask := true }
@[simp] theorem enqueue_qCnt (c : Config) (s : State) :
    (s.enqueue c).qCnt = s.qCnt + 1 := bumpWr_qCnt c { s with irqMask := true }
@[simp] theorem enqueue_slots (c : Config) (s : State) :
    (s.enqueue c).slots = s.slots := bumpWr_slots c { s with irqMask := true }
@[simp] theorem enqueue_timerEnabled (c : Config) (s : State) :
    (s.enqueue c).timerEnabled = s.timerEnabled := bumpWr_timerEnabled c { s with irqMask := true }
@[simp] theorem enqueue_irqMask (c : Config) (s : State) : (s.enqueue c).irqMask = false := rfl
@[simp] theorem enqueue_dmaPend (c : Config) (s : State) :
    (s.enqueue c).dmaPend = s.dmaPend := bumpWr_dmaPend c { s with irqMask := true }
@[simp] theorem enqueue_dmaBusy (c : Config) (s : State) :
    (s.enqueue c).dmaBusy = s.dmaBusy := bumpWr_dmaBusy c { s with irqMask := true }
@[simp] theorem enqueue_dmaCur (c : Config) (s : State) :
    (s.enqueue c).dmaCur = s.dmaCur := bumpWr_dmaCur c { s with irqMask := true }
@[simp] theorem enqueue_outRate (c : Config) (s : State) :
    (s.enqueue c).outRate = s.outRate := bumpWr_outRate c { s with irqMask := true }
@[simp] theorem enqueue_reinitBusy (c : Config) (s : State) :
    (s.enqueue c).reinitBusy = s.reinitBusy := bumpWr_reinitBusy c { s with irqMask := true }
@[simp] theorem enqueue_reinitStep (c : Config) (s : State) :
    (s.enqueue c).reinitStep = s.reinitStep := bumpWr_reinitStep c { s with irqMask := true }
@[simp] theorem enqueue_pollBusy (c : Config) (s : State) :
    (s.enqueue c).pollBusy = s.pollBusy := bumpWr_pollBusy c { s with irqMask := true }
@[simp] theorem enqueue_pushBusy (c : Config) (s : State) :
    (s.enqueue c).pushBusy = s.pushBusy := bumpWr_pushBusy c { s with irqMask := true }
@[simp] theorem enqueue_d1 (c : Config) (s : State) : (s.enqueue c).d1 = s.d1 := bumpWr_d1 c { s with irqMask := true }
@[simp] theorem enqueue_d2 (c : Config) (s : State) : (s.enqueue c).d2 = s.d2 := bumpWr_d2 c { s with irqMask := true }
@[simp] theorem enqueue_outStream (c : Config) (s : State) :
    (s.enqueue c).outStream = s.outStream := bumpWr_outStream c { s with irqMask := true }
@[simp] theorem enqueue_dacEvents (c : Config) (s : State) :
    (s.enqueue c).dacEvents = s.dacEvents := bumpWr_dacEvents c { s with irqMask := true }
@[simp] theorem enqueue_booted (c : Config) (s : State) :
    (s.enqueue c).booted = s.booted := bumpWr_booted c { s with irqMask := true }
@[simp] theorem enqueue_usb (c : Config) (s : State) :
    (s.enqueue c).usb = s.usb := bumpWr_usb c { s with irqMask := true }
@[simp] theorem enqueue_tick (c : Config) (s : State) :
    (s.enqueue c).tick = s.tick := bumpWr_tick c { s with irqMask := true }
@[simp] theorem enqueue_poll (c : Config) (s : State) :
    (s.enqueue c).poll = s.poll := bumpWr_poll c { s with irqMask := true }
@[simp] theorem enqueue_main (c : Config) (s : State) :
    (s.enqueue c).main = s.main := bumpWr_main c { s with irqMask := true }
@[simp] theorem enqueue_host (c : Config) (s : State) :
    (s.enqueue c).host = s.host := bumpWr_host c { s with irqMask := true }
@[simp] theorem enqueue_schedule (c : Config) (s : State) :
    (s.enqueue c).schedule = s.schedule := bumpWr_schedule c { s with irqMask := true }
@[simp] theorem enqueue_stream (c : Config) (s : State) :
    (s.enqueue c).stream = s.stream := bumpWr_stream c { s with irqMask := true }
@[simp] theorem enqueue_responses (c : Config) (s : State) :
    (s.enqueue c).responses = s.responses := bumpWr_responses c { s with irqMask := true }
@[simp] theorem enqueue_pcmFree (c : Config) (s : State) :
    (s.enqueue c).pcmFree = s.pcmFree := bumpWr_pcmFree c { s with irqMask := true }

/-! ## zeroQueue: the zeroing of the queue (R236, R270) -/

@[simp] theorem zeroQueue_rb (s : State) : s.zeroQueue.rb = s.rb := rfl
@[simp] theorem zeroQueue_fNom (s : State) : s.zeroQueue.fNom = s.fNom := rfl
@[simp] theorem zeroQueue_fCur (s : State) : s.zeroQueue.fCur = s.fCur := rfl
@[simp] theorem zeroQueue_depth (s : State) : s.zeroQueue.depth = s.depth := rfl
@[simp] theorem zeroQueue_volReq (s : State) : s.zeroQueue.volReq = s.volReq := rfl
@[simp] theorem zeroQueue_volAcq (s : State) : s.zeroQueue.volAcq = s.volAcq := rfl
@[simp] theorem zeroQueue_volSmooth (s : State) : s.zeroQueue.volSmooth = s.volSmooth := rfl
@[simp] theorem zeroQueue_gain (s : State) : s.zeroQueue.gain = s.gain := rfl
@[simp] theorem zeroQueue_mute (s : State) : s.zeroQueue.mute = s.mute := rfl
@[simp] theorem zeroQueue_muteCur (s : State) : s.zeroQueue.muteCur = s.muteCur := rfl
@[simp] theorem zeroQueue_pmSignal (s : State) : s.zeroQueue.pmSignal = s.pmSignal := rfl
@[simp] theorem zeroQueue_pmCur (s : State) : s.zeroQueue.pmCur = s.pmCur := rfl
@[simp] theorem zeroQueue_adj (s : State) : s.zeroQueue.adj = s.adj := rfl
@[simp] theorem zeroQueue_r1 (s : State) : s.zeroQueue.r1 = s.r1 := rfl
@[simp] theorem zeroQueue_r2 (s : State) : s.zeroQueue.r2 = s.r2 := rfl
@[simp] theorem zeroQueue_schedState (s : State) : s.zeroQueue.schedState = s.schedState := rfl
@[simp] theorem zeroQueue_qWr (s : State) : s.zeroQueue.qWr = 0 := rfl
@[simp] theorem zeroQueue_qRd (s : State) : s.zeroQueue.qRd = 0 := rfl
@[simp] theorem zeroQueue_qCnt (s : State) : s.zeroQueue.qCnt = 0 := rfl
@[simp] theorem zeroQueue_slots (s : State) : s.zeroQueue.slots = s.slots.map fun _ => .zeroed := rfl
@[simp] theorem zeroQueue_timerEnabled (s : State) : s.zeroQueue.timerEnabled = s.timerEnabled := rfl
@[simp] theorem zeroQueue_irqMask (s : State) : s.zeroQueue.irqMask = s.irqMask := rfl
@[simp] theorem zeroQueue_dmaPend (s : State) : s.zeroQueue.dmaPend = s.dmaPend := rfl
@[simp] theorem zeroQueue_dmaBusy (s : State) : s.zeroQueue.dmaBusy = s.dmaBusy := rfl
@[simp] theorem zeroQueue_dmaCur (s : State) : s.zeroQueue.dmaCur = s.dmaCur := rfl
@[simp] theorem zeroQueue_outRate (s : State) : s.zeroQueue.outRate = s.outRate := rfl
@[simp] theorem zeroQueue_reinitBusy (s : State) : s.zeroQueue.reinitBusy = s.reinitBusy := rfl
@[simp] theorem zeroQueue_reinitStep (s : State) : s.zeroQueue.reinitStep = s.reinitStep := rfl
@[simp] theorem zeroQueue_pollBusy (s : State) : s.zeroQueue.pollBusy = s.pollBusy := rfl
@[simp] theorem zeroQueue_pushBusy (s : State) : s.zeroQueue.pushBusy = s.pushBusy := rfl
@[simp] theorem zeroQueue_d1 (s : State) : s.zeroQueue.d1 = s.d1 := rfl
@[simp] theorem zeroQueue_d2 (s : State) : s.zeroQueue.d2 = s.d2 := rfl
@[simp] theorem zeroQueue_outStream (s : State) : s.zeroQueue.outStream = s.outStream := rfl
@[simp] theorem zeroQueue_dacEvents (s : State) : s.zeroQueue.dacEvents = s.dacEvents := rfl
@[simp] theorem zeroQueue_booted (s : State) : s.zeroQueue.booted = s.booted := rfl
@[simp] theorem zeroQueue_usb (s : State) : s.zeroQueue.usb = s.usb := rfl
@[simp] theorem zeroQueue_tick (s : State) : s.zeroQueue.tick = s.tick := rfl
@[simp] theorem zeroQueue_poll (s : State) : s.zeroQueue.poll = s.poll := rfl
@[simp] theorem zeroQueue_main (s : State) : s.zeroQueue.main = s.main := rfl
@[simp] theorem zeroQueue_host (s : State) : s.zeroQueue.host = s.host := rfl
@[simp] theorem zeroQueue_schedule (s : State) : s.zeroQueue.schedule = s.schedule := rfl
@[simp] theorem zeroQueue_stream (s : State) : s.zeroQueue.stream = s.stream := rfl
@[simp] theorem zeroQueue_responses (s : State) : s.zeroQueue.responses = s.responses := rfl
@[simp] theorem zeroQueue_pcmFree (s : State) : s.zeroQueue.pcmFree = s.pcmFree := rfl

/-! ## arm: the arming of a transfer (R241) -/

@[simp] theorem arm_rb (s : State) (f : TxFrame) : (s.arm f).rb = s.rb := rfl
@[simp] theorem arm_fNom (s : State) (f : TxFrame) : (s.arm f).fNom = s.fNom := rfl
@[simp] theorem arm_fCur (s : State) (f : TxFrame) : (s.arm f).fCur = s.fCur := rfl
@[simp] theorem arm_depth (s : State) (f : TxFrame) : (s.arm f).depth = s.depth := rfl
@[simp] theorem arm_volReq (s : State) (f : TxFrame) : (s.arm f).volReq = s.volReq := rfl
@[simp] theorem arm_volAcq (s : State) (f : TxFrame) : (s.arm f).volAcq = s.volAcq := rfl
@[simp] theorem arm_volSmooth (s : State) (f : TxFrame) : (s.arm f).volSmooth = s.volSmooth := rfl
@[simp] theorem arm_gain (s : State) (f : TxFrame) : (s.arm f).gain = s.gain := rfl
@[simp] theorem arm_mute (s : State) (f : TxFrame) : (s.arm f).mute = s.mute := rfl
@[simp] theorem arm_muteCur (s : State) (f : TxFrame) : (s.arm f).muteCur = s.muteCur := rfl
@[simp] theorem arm_pmSignal (s : State) (f : TxFrame) : (s.arm f).pmSignal = s.pmSignal := rfl
@[simp] theorem arm_pmCur (s : State) (f : TxFrame) : (s.arm f).pmCur = s.pmCur := rfl
@[simp] theorem arm_adj (s : State) (f : TxFrame) : (s.arm f).adj = s.adj := rfl
@[simp] theorem arm_r1 (s : State) (f : TxFrame) : (s.arm f).r1 = s.r1 := rfl
@[simp] theorem arm_r2 (s : State) (f : TxFrame) : (s.arm f).r2 = s.r2 := rfl
@[simp] theorem arm_schedState (s : State) (f : TxFrame) : (s.arm f).schedState = s.schedState := rfl
@[simp] theorem arm_qWr (s : State) (f : TxFrame) : (s.arm f).qWr = s.qWr := rfl
@[simp] theorem arm_qRd (s : State) (f : TxFrame) : (s.arm f).qRd = s.qRd := rfl
@[simp] theorem arm_qCnt (s : State) (f : TxFrame) : (s.arm f).qCnt = s.qCnt := rfl
@[simp] theorem arm_slots (s : State) (f : TxFrame) : (s.arm f).slots = s.slots := rfl
@[simp] theorem arm_timerEnabled (s : State) (f : TxFrame) : (s.arm f).timerEnabled = s.timerEnabled := rfl
@[simp] theorem arm_irqMask (s : State) (f : TxFrame) : (s.arm f).irqMask = s.irqMask := rfl
@[simp] theorem arm_dmaPend (s : State) (f : TxFrame) : (s.arm f).dmaPend = s.dmaPend := rfl
@[simp] theorem arm_dmaBusy (s : State) (f : TxFrame) : (s.arm f).dmaBusy = true := rfl
@[simp] theorem arm_dmaCur (s : State) (f : TxFrame) : (s.arm f).dmaCur = f := rfl
@[simp] theorem arm_outRate (s : State) (f : TxFrame) : (s.arm f).outRate = s.outRate := rfl
@[simp] theorem arm_reinitBusy (s : State) (f : TxFrame) : (s.arm f).reinitBusy = s.reinitBusy := rfl
@[simp] theorem arm_reinitStep (s : State) (f : TxFrame) : (s.arm f).reinitStep = s.reinitStep := rfl
@[simp] theorem arm_pollBusy (s : State) (f : TxFrame) : (s.arm f).pollBusy = s.pollBusy := rfl
@[simp] theorem arm_pushBusy (s : State) (f : TxFrame) : (s.arm f).pushBusy = s.pushBusy := rfl
@[simp] theorem arm_d1 (s : State) (f : TxFrame) : (s.arm f).d1 = s.d1 := rfl
@[simp] theorem arm_d2 (s : State) (f : TxFrame) : (s.arm f).d2 = s.d2 := rfl
@[simp] theorem arm_outStream (s : State) (f : TxFrame) : (s.arm f).outStream = s.outStream ++ [f] := rfl
@[simp] theorem arm_dacEvents (s : State) (f : TxFrame) : (s.arm f).dacEvents = s.dacEvents := rfl
@[simp] theorem arm_booted (s : State) (f : TxFrame) : (s.arm f).booted = s.booted := rfl
@[simp] theorem arm_usb (s : State) (f : TxFrame) : (s.arm f).usb = s.usb := rfl
@[simp] theorem arm_tick (s : State) (f : TxFrame) : (s.arm f).tick = s.tick := rfl
@[simp] theorem arm_poll (s : State) (f : TxFrame) : (s.arm f).poll = s.poll := rfl
@[simp] theorem arm_main (s : State) (f : TxFrame) : (s.arm f).main = s.main := rfl
@[simp] theorem arm_host (s : State) (f : TxFrame) : (s.arm f).host = s.host := rfl
@[simp] theorem arm_schedule (s : State) (f : TxFrame) : (s.arm f).schedule = s.schedule := rfl
@[simp] theorem arm_stream (s : State) (f : TxFrame) : (s.arm f).stream = s.stream := rfl
@[simp] theorem arm_responses (s : State) (f : TxFrame) : (s.arm f).responses = s.responses := rfl
@[simp] theorem arm_pcmFree (s : State) (f : TxFrame) : (s.arm f).pcmFree = s.pcmFree := rfl

/-! ## clearAllDelays: `FLT.CLEAR ALL` (R171) -/

@[simp] theorem clearAllDelays_rb (c : Config) (s : State) : (s.clearAllDelays c).rb = s.rb := rfl
@[simp] theorem clearAllDelays_fNom (c : Config) (s : State) : (s.clearAllDelays c).fNom = s.fNom := rfl
@[simp] theorem clearAllDelays_fCur (c : Config) (s : State) : (s.clearAllDelays c).fCur = s.fCur := rfl
@[simp] theorem clearAllDelays_depth (c : Config) (s : State) : (s.clearAllDelays c).depth = s.depth := rfl
@[simp] theorem clearAllDelays_volReq (c : Config) (s : State) : (s.clearAllDelays c).volReq = s.volReq := rfl
@[simp] theorem clearAllDelays_volAcq (c : Config) (s : State) : (s.clearAllDelays c).volAcq = s.volAcq := rfl
@[simp] theorem clearAllDelays_volSmooth (c : Config) (s : State) : (s.clearAllDelays c).volSmooth = s.volSmooth := rfl
@[simp] theorem clearAllDelays_gain (c : Config) (s : State) : (s.clearAllDelays c).gain = s.gain := rfl
@[simp] theorem clearAllDelays_mute (c : Config) (s : State) : (s.clearAllDelays c).mute = s.mute := rfl
@[simp] theorem clearAllDelays_muteCur (c : Config) (s : State) : (s.clearAllDelays c).muteCur = s.muteCur := rfl
@[simp] theorem clearAllDelays_pmSignal (c : Config) (s : State) : (s.clearAllDelays c).pmSignal = s.pmSignal := rfl
@[simp] theorem clearAllDelays_pmCur (c : Config) (s : State) : (s.clearAllDelays c).pmCur = s.pmCur := rfl
@[simp] theorem clearAllDelays_adj (c : Config) (s : State) : (s.clearAllDelays c).adj = s.adj := rfl
@[simp] theorem clearAllDelays_r1 (c : Config) (s : State) : (s.clearAllDelays c).r1 = s.r1 := rfl
@[simp] theorem clearAllDelays_r2 (c : Config) (s : State) : (s.clearAllDelays c).r2 = s.r2 := rfl
@[simp] theorem clearAllDelays_schedState (c : Config) (s : State) :
    (s.clearAllDelays c).schedState = s.schedState := rfl
@[simp] theorem clearAllDelays_qWr (c : Config) (s : State) : (s.clearAllDelays c).qWr = s.qWr := rfl
@[simp] theorem clearAllDelays_qRd (c : Config) (s : State) : (s.clearAllDelays c).qRd = s.qRd := rfl
@[simp] theorem clearAllDelays_qCnt (c : Config) (s : State) : (s.clearAllDelays c).qCnt = s.qCnt := rfl
@[simp] theorem clearAllDelays_slots (c : Config) (s : State) : (s.clearAllDelays c).slots = s.slots := rfl
@[simp] theorem clearAllDelays_timerEnabled (c : Config) (s : State) :
    (s.clearAllDelays c).timerEnabled = s.timerEnabled := rfl
@[simp] theorem clearAllDelays_irqMask (c : Config) (s : State) : (s.clearAllDelays c).irqMask = s.irqMask := rfl
@[simp] theorem clearAllDelays_dmaPend (c : Config) (s : State) : (s.clearAllDelays c).dmaPend = s.dmaPend := rfl
@[simp] theorem clearAllDelays_dmaBusy (c : Config) (s : State) : (s.clearAllDelays c).dmaBusy = s.dmaBusy := rfl
@[simp] theorem clearAllDelays_dmaCur (c : Config) (s : State) : (s.clearAllDelays c).dmaCur = s.dmaCur := rfl
@[simp] theorem clearAllDelays_outRate (c : Config) (s : State) : (s.clearAllDelays c).outRate = s.outRate := rfl
@[simp] theorem clearAllDelays_reinitBusy (c : Config) (s : State) :
    (s.clearAllDelays c).reinitBusy = s.reinitBusy := rfl
@[simp] theorem clearAllDelays_reinitStep (c : Config) (s : State) :
    (s.clearAllDelays c).reinitStep = s.reinitStep := rfl
@[simp] theorem clearAllDelays_pollBusy (c : Config) (s : State) : (s.clearAllDelays c).pollBusy = s.pollBusy := rfl
@[simp] theorem clearAllDelays_pushBusy (c : Config) (s : State) : (s.clearAllDelays c).pushBusy = s.pushBusy := rfl
@[simp] theorem clearAllDelays_d1 (c : Config) (s : State) :
    (s.clearAllDelays c).d1 = (s.d1.zeroChan c.num.zero .c0).zeroChan c.num.zero .c1 := rfl
@[simp] theorem clearAllDelays_d2 (c : Config) (s : State) :
    (s.clearAllDelays c).d2 = (s.d2.zeroChan c.num.zero .c0).zeroChan c.num.zero .c1 := rfl
@[simp] theorem clearAllDelays_outStream (c : Config) (s : State) : (s.clearAllDelays c).outStream = s.outStream := rfl
@[simp] theorem clearAllDelays_dacEvents (c : Config) (s : State) : (s.clearAllDelays c).dacEvents = s.dacEvents := rfl
@[simp] theorem clearAllDelays_booted (c : Config) (s : State) : (s.clearAllDelays c).booted = s.booted := rfl
@[simp] theorem clearAllDelays_usb (c : Config) (s : State) : (s.clearAllDelays c).usb = s.usb := rfl
@[simp] theorem clearAllDelays_tick (c : Config) (s : State) : (s.clearAllDelays c).tick = s.tick := rfl
@[simp] theorem clearAllDelays_poll (c : Config) (s : State) : (s.clearAllDelays c).poll = s.poll := rfl
@[simp] theorem clearAllDelays_main (c : Config) (s : State) : (s.clearAllDelays c).main = s.main := rfl
@[simp] theorem clearAllDelays_host (c : Config) (s : State) : (s.clearAllDelays c).host = s.host := rfl
@[simp] theorem clearAllDelays_schedule (c : Config) (s : State) : (s.clearAllDelays c).schedule = s.schedule := rfl
@[simp] theorem clearAllDelays_stream (c : Config) (s : State) : (s.clearAllDelays c).stream = s.stream := rfl
@[simp] theorem clearAllDelays_responses (c : Config) (s : State) : (s.clearAllDelays c).responses = s.responses := rfl
@[simp] theorem clearAllDelays_pcmFree (c : Config) (s : State) : (s.clearAllDelays c).pcmFree = s.pcmFree := rfl

/-! ## ctlUpdate: `CTL.ADJ` (R211) -/

@[simp] theorem ctlUpdate_rb (s : State) : (ctlUpdate s).rb = s.rb := rfl
@[simp] theorem ctlUpdate_fNom (s : State) : (ctlUpdate s).fNom = s.fNom := rfl
@[simp] theorem ctlUpdate_fCur (s : State) : (ctlUpdate s).fCur = s.fCur := rfl
@[simp] theorem ctlUpdate_depth (s : State) : (ctlUpdate s).depth = s.depth := rfl
@[simp] theorem ctlUpdate_volReq (s : State) : (ctlUpdate s).volReq = s.volReq := rfl
@[simp] theorem ctlUpdate_volAcq (s : State) : (ctlUpdate s).volAcq = s.volAcq := rfl
@[simp] theorem ctlUpdate_volSmooth (s : State) : (ctlUpdate s).volSmooth = s.volSmooth := rfl
@[simp] theorem ctlUpdate_gain (s : State) : (ctlUpdate s).gain = s.gain := rfl
@[simp] theorem ctlUpdate_mute (s : State) : (ctlUpdate s).mute = s.mute := rfl
@[simp] theorem ctlUpdate_muteCur (s : State) : (ctlUpdate s).muteCur = s.muteCur := rfl
@[simp] theorem ctlUpdate_pmSignal (s : State) : (ctlUpdate s).pmSignal = s.pmSignal := rfl
@[simp] theorem ctlUpdate_pmCur (s : State) : (ctlUpdate s).pmCur = s.pmCur := rfl
@[simp] theorem ctlUpdate_adj (s : State) : (ctlUpdate s).adj = ctlSign s := rfl
@[simp] theorem ctlUpdate_r1 (s : State) : (ctlUpdate s).r1 = s.r1 := rfl
@[simp] theorem ctlUpdate_r2 (s : State) : (ctlUpdate s).r2 = s.r2 := rfl
@[simp] theorem ctlUpdate_schedState (s : State) : (ctlUpdate s).schedState = s.schedState := rfl
@[simp] theorem ctlUpdate_qWr (s : State) : (ctlUpdate s).qWr = s.qWr := rfl
@[simp] theorem ctlUpdate_qRd (s : State) : (ctlUpdate s).qRd = s.qRd := rfl
@[simp] theorem ctlUpdate_qCnt (s : State) : (ctlUpdate s).qCnt = s.qCnt := rfl
@[simp] theorem ctlUpdate_slots (s : State) : (ctlUpdate s).slots = s.slots := rfl
@[simp] theorem ctlUpdate_timerEnabled (s : State) : (ctlUpdate s).timerEnabled = s.timerEnabled := rfl
@[simp] theorem ctlUpdate_irqMask (s : State) : (ctlUpdate s).irqMask = s.irqMask := rfl
@[simp] theorem ctlUpdate_dmaPend (s : State) : (ctlUpdate s).dmaPend = s.dmaPend := rfl
@[simp] theorem ctlUpdate_dmaBusy (s : State) : (ctlUpdate s).dmaBusy = s.dmaBusy := rfl
@[simp] theorem ctlUpdate_dmaCur (s : State) : (ctlUpdate s).dmaCur = s.dmaCur := rfl
@[simp] theorem ctlUpdate_outRate (s : State) : (ctlUpdate s).outRate = s.outRate := rfl
@[simp] theorem ctlUpdate_reinitBusy (s : State) : (ctlUpdate s).reinitBusy = s.reinitBusy := rfl
@[simp] theorem ctlUpdate_reinitStep (s : State) : (ctlUpdate s).reinitStep = s.reinitStep := rfl
@[simp] theorem ctlUpdate_pollBusy (s : State) : (ctlUpdate s).pollBusy = s.pollBusy := rfl
@[simp] theorem ctlUpdate_pushBusy (s : State) : (ctlUpdate s).pushBusy = s.pushBusy := rfl
@[simp] theorem ctlUpdate_d1 (s : State) : (ctlUpdate s).d1 = s.d1 := rfl
@[simp] theorem ctlUpdate_d2 (s : State) : (ctlUpdate s).d2 = s.d2 := rfl
@[simp] theorem ctlUpdate_outStream (s : State) : (ctlUpdate s).outStream = s.outStream := rfl
@[simp] theorem ctlUpdate_dacEvents (s : State) : (ctlUpdate s).dacEvents = s.dacEvents := rfl
@[simp] theorem ctlUpdate_booted (s : State) : (ctlUpdate s).booted = s.booted := rfl
@[simp] theorem ctlUpdate_usb (s : State) : (ctlUpdate s).usb = s.usb := rfl
@[simp] theorem ctlUpdate_tick (s : State) : (ctlUpdate s).tick = s.tick := rfl
@[simp] theorem ctlUpdate_poll (s : State) : (ctlUpdate s).poll = s.poll := rfl
@[simp] theorem ctlUpdate_main (s : State) : (ctlUpdate s).main = s.main := rfl
@[simp] theorem ctlUpdate_host (s : State) : (ctlUpdate s).host = s.host := rfl
@[simp] theorem ctlUpdate_schedule (s : State) : (ctlUpdate s).schedule = s.schedule := rfl
@[simp] theorem ctlUpdate_stream (s : State) : (ctlUpdate s).stream = s.stream := rfl
@[simp] theorem ctlUpdate_responses (s : State) : (ctlUpdate s).responses = s.responses := rfl
@[simp] theorem ctlUpdate_pcmFree (s : State) : (ctlUpdate s).pcmFree = s.pcmFree := rfl

/-! ## reinitBegin: the begin of a REINIT -/

@[simp] theorem reinitBegin_rb (vs : List Word) (s : State) : (reinitBegin vs s).rb = s.rb := rfl
@[simp] theorem reinitBegin_fNom (vs : List Word) (s : State) : (reinitBegin vs s).fNom = s.fNom := rfl
@[simp] theorem reinitBegin_fCur (vs : List Word) (s : State) : (reinitBegin vs s).fCur = s.fCur := rfl
@[simp] theorem reinitBegin_depth (vs : List Word) (s : State) : (reinitBegin vs s).depth = s.depth := rfl
@[simp] theorem reinitBegin_volReq (vs : List Word) (s : State) : (reinitBegin vs s).volReq = s.volReq := rfl
@[simp] theorem reinitBegin_volAcq (vs : List Word) (s : State) : (reinitBegin vs s).volAcq = s.volAcq := rfl
@[simp] theorem reinitBegin_volSmooth (vs : List Word) (s : State) : (reinitBegin vs s).volSmooth = s.volSmooth := rfl
@[simp] theorem reinitBegin_gain (vs : List Word) (s : State) : (reinitBegin vs s).gain = s.gain := rfl
@[simp] theorem reinitBegin_mute (vs : List Word) (s : State) : (reinitBegin vs s).mute = s.mute := rfl
@[simp] theorem reinitBegin_muteCur (vs : List Word) (s : State) : (reinitBegin vs s).muteCur = s.muteCur := rfl
@[simp] theorem reinitBegin_pmSignal (vs : List Word) (s : State) : (reinitBegin vs s).pmSignal = s.pmSignal := rfl
@[simp] theorem reinitBegin_pmCur (vs : List Word) (s : State) : (reinitBegin vs s).pmCur = s.pmCur := rfl
@[simp] theorem reinitBegin_adj (vs : List Word) (s : State) : (reinitBegin vs s).adj = s.adj := rfl
@[simp] theorem reinitBegin_r1 (vs : List Word) (s : State) : (reinitBegin vs s).r1 = s.r1 := rfl
@[simp] theorem reinitBegin_r2 (vs : List Word) (s : State) : (reinitBegin vs s).r2 = s.r2 := rfl
@[simp] theorem reinitBegin_schedState (vs : List Word) (s : State) :
    (reinitBegin vs s).schedState = s.schedState := rfl
@[simp] theorem reinitBegin_qWr (vs : List Word) (s : State) : (reinitBegin vs s).qWr = s.qWr := rfl
@[simp] theorem reinitBegin_qRd (vs : List Word) (s : State) : (reinitBegin vs s).qRd = s.qRd := rfl
@[simp] theorem reinitBegin_qCnt (vs : List Word) (s : State) : (reinitBegin vs s).qCnt = s.qCnt := rfl
@[simp] theorem reinitBegin_slots (vs : List Word) (s : State) : (reinitBegin vs s).slots = s.slots := rfl
@[simp] theorem reinitBegin_timerEnabled (vs : List Word) (s : State) :
    (reinitBegin vs s).timerEnabled = s.timerEnabled := rfl
@[simp] theorem reinitBegin_irqMask (vs : List Word) (s : State) : (reinitBegin vs s).irqMask = s.irqMask := rfl
@[simp] theorem reinitBegin_dmaPend (vs : List Word) (s : State) : (reinitBegin vs s).dmaPend = s.dmaPend := rfl
@[simp] theorem reinitBegin_dmaBusy (vs : List Word) (s : State) : (reinitBegin vs s).dmaBusy = s.dmaBusy := rfl
@[simp] theorem reinitBegin_dmaCur (vs : List Word) (s : State) : (reinitBegin vs s).dmaCur = s.dmaCur := rfl
@[simp] theorem reinitBegin_outRate (vs : List Word) (s : State) : (reinitBegin vs s).outRate = s.outRate := rfl
@[simp] theorem reinitBegin_reinitBusy (vs : List Word) (s : State) :
    (reinitBegin vs s).reinitBusy = s.reinitBusy := rfl
@[simp] theorem reinitBegin_reinitStep (vs : List Word) (s : State) : (reinitBegin vs s).reinitStep = 0 := rfl
@[simp] theorem reinitBegin_pollBusy (vs : List Word) (s : State) : (reinitBegin vs s).pollBusy = s.pollBusy := rfl
@[simp] theorem reinitBegin_pushBusy (vs : List Word) (s : State) : (reinitBegin vs s).pushBusy = s.pushBusy := rfl
@[simp] theorem reinitBegin_d1 (vs : List Word) (s : State) : (reinitBegin vs s).d1 = s.d1 := rfl
@[simp] theorem reinitBegin_d2 (vs : List Word) (s : State) : (reinitBegin vs s).d2 = s.d2 := rfl
@[simp] theorem reinitBegin_outStream (vs : List Word) (s : State) : (reinitBegin vs s).outStream = s.outStream := rfl
@[simp] theorem reinitBegin_dacEvents (vs : List Word) (s : State) : (reinitBegin vs s).dacEvents = s.dacEvents := rfl
@[simp] theorem reinitBegin_booted (vs : List Word) (s : State) : (reinitBegin vs s).booted = s.booted := rfl
@[simp] theorem reinitBegin_usb (vs : List Word) (s : State) : (reinitBegin vs s).usb = s.usb := rfl
@[simp] theorem reinitBegin_tick (vs : List Word) (s : State) : (reinitBegin vs s).tick = s.tick := rfl
@[simp] theorem reinitBegin_poll (vs : List Word) (s : State) : (reinitBegin vs s).poll = s.poll := rfl
@[simp] theorem reinitBegin_main (vs : List Word) (s : State) : (reinitBegin vs s).main = .reinit vs := rfl
@[simp] theorem reinitBegin_host (vs : List Word) (s : State) : (reinitBegin vs s).host = s.host := rfl
@[simp] theorem reinitBegin_schedule (vs : List Word) (s : State) : (reinitBegin vs s).schedule = s.schedule := rfl
@[simp] theorem reinitBegin_stream (vs : List Word) (s : State) : (reinitBegin vs s).stream = s.stream := rfl
@[simp] theorem reinitBegin_responses (vs : List Word) (s : State) : (reinitBegin vs s).responses = s.responses := rfl
@[simp] theorem reinitBegin_pcmFree (vs : List Word) (s : State) : (reinitBegin vs s).pcmFree = s.pcmFree := rfl

/-! ## reinitSuspend: REINIT step 1 (R267) -/

@[simp] theorem reinitSuspend_rb (s : State) : (reinitSuspend s).rb = s.rb := rfl
@[simp] theorem reinitSuspend_fNom (s : State) : (reinitSuspend s).fNom = s.fNom := rfl
@[simp] theorem reinitSuspend_fCur (s : State) : (reinitSuspend s).fCur = s.fCur := rfl
@[simp] theorem reinitSuspend_depth (s : State) : (reinitSuspend s).depth = s.depth := rfl
@[simp] theorem reinitSuspend_volReq (s : State) : (reinitSuspend s).volReq = s.volReq := rfl
@[simp] theorem reinitSuspend_volAcq (s : State) : (reinitSuspend s).volAcq = s.volAcq := rfl
@[simp] theorem reinitSuspend_volSmooth (s : State) : (reinitSuspend s).volSmooth = s.volSmooth := rfl
@[simp] theorem reinitSuspend_gain (s : State) : (reinitSuspend s).gain = s.gain := rfl
@[simp] theorem reinitSuspend_mute (s : State) : (reinitSuspend s).mute = s.mute := rfl
@[simp] theorem reinitSuspend_muteCur (s : State) : (reinitSuspend s).muteCur = s.muteCur := rfl
@[simp] theorem reinitSuspend_pmSignal (s : State) : (reinitSuspend s).pmSignal = s.pmSignal := rfl
@[simp] theorem reinitSuspend_pmCur (s : State) : (reinitSuspend s).pmCur = s.pmCur := rfl
@[simp] theorem reinitSuspend_adj (s : State) : (reinitSuspend s).adj = s.adj := rfl
@[simp] theorem reinitSuspend_r1 (s : State) : (reinitSuspend s).r1 = s.r1 := rfl
@[simp] theorem reinitSuspend_r2 (s : State) : (reinitSuspend s).r2 = s.r2 := rfl
@[simp] theorem reinitSuspend_schedState (s : State) : (reinitSuspend s).schedState = s.schedState := rfl
@[simp] theorem reinitSuspend_qWr (s : State) : (reinitSuspend s).qWr = s.qWr := rfl
@[simp] theorem reinitSuspend_qRd (s : State) : (reinitSuspend s).qRd = s.qRd := rfl
@[simp] theorem reinitSuspend_qCnt (s : State) : (reinitSuspend s).qCnt = s.qCnt := rfl
@[simp] theorem reinitSuspend_slots (s : State) : (reinitSuspend s).slots = s.slots := rfl
@[simp] theorem reinitSuspend_timerEnabled (s : State) : (reinitSuspend s).timerEnabled = false := rfl
@[simp] theorem reinitSuspend_irqMask (s : State) : (reinitSuspend s).irqMask = s.irqMask := rfl
@[simp] theorem reinitSuspend_dmaPend (s : State) : (reinitSuspend s).dmaPend = s.dmaPend := rfl
@[simp] theorem reinitSuspend_dmaBusy (s : State) : (reinitSuspend s).dmaBusy = s.dmaBusy := rfl
@[simp] theorem reinitSuspend_dmaCur (s : State) : (reinitSuspend s).dmaCur = s.dmaCur := rfl
@[simp] theorem reinitSuspend_outRate (s : State) : (reinitSuspend s).outRate = s.outRate := rfl
@[simp] theorem reinitSuspend_reinitBusy (s : State) : (reinitSuspend s).reinitBusy = true := rfl
@[simp] theorem reinitSuspend_reinitStep (s : State) : (reinitSuspend s).reinitStep = 1 := rfl
@[simp] theorem reinitSuspend_pollBusy (s : State) : (reinitSuspend s).pollBusy = s.pollBusy := rfl
@[simp] theorem reinitSuspend_pushBusy (s : State) : (reinitSuspend s).pushBusy = s.pushBusy := rfl
@[simp] theorem reinitSuspend_d1 (s : State) : (reinitSuspend s).d1 = s.d1 := rfl
@[simp] theorem reinitSuspend_d2 (s : State) : (reinitSuspend s).d2 = s.d2 := rfl
@[simp] theorem reinitSuspend_outStream (s : State) : (reinitSuspend s).outStream = s.outStream := rfl
@[simp] theorem reinitSuspend_dacEvents (s : State) : (reinitSuspend s).dacEvents = s.dacEvents := rfl
@[simp] theorem reinitSuspend_booted (s : State) : (reinitSuspend s).booted = s.booted := rfl
@[simp] theorem reinitSuspend_usb (s : State) : (reinitSuspend s).usb = s.usb := rfl
@[simp] theorem reinitSuspend_tick (s : State) : (reinitSuspend s).tick = s.tick := rfl
@[simp] theorem reinitSuspend_poll (s : State) : (reinitSuspend s).poll = s.poll := rfl
@[simp] theorem reinitSuspend_main (s : State) : (reinitSuspend s).main = s.main := rfl
@[simp] theorem reinitSuspend_host (s : State) : (reinitSuspend s).host = s.host := rfl
@[simp] theorem reinitSuspend_schedule (s : State) : (reinitSuspend s).schedule = s.schedule := rfl
@[simp] theorem reinitSuspend_stream (s : State) : (reinitSuspend s).stream = s.stream := rfl
@[simp] theorem reinitSuspend_responses (s : State) : (reinitSuspend s).responses = s.responses := rfl
@[simp] theorem reinitSuspend_pcmFree (s : State) : (reinitSuspend s).pcmFree = s.pcmFree := rfl

/-! ## reinitClock: REINIT step 2 (R268) -/

@[simp] theorem reinitClock_rb (c : Config) (s : State) : (reinitClock c s).rb = s.rb := rfl
@[simp] theorem reinitClock_fNom (c : Config) (s : State) : (reinitClock c s).fNom = s.fNom := rfl
@[simp] theorem reinitClock_fCur (c : Config) (s : State) : (reinitClock c s).fCur = s.fNom := rfl
@[simp] theorem reinitClock_depth (c : Config) (s : State) : (reinitClock c s).depth = s.depth := rfl
@[simp] theorem reinitClock_volReq (c : Config) (s : State) : (reinitClock c s).volReq = s.volReq := rfl
@[simp] theorem reinitClock_volAcq (c : Config) (s : State) : (reinitClock c s).volAcq = s.volAcq := rfl
@[simp] theorem reinitClock_volSmooth (c : Config) (s : State) : (reinitClock c s).volSmooth = s.volSmooth := rfl
@[simp] theorem reinitClock_gain (c : Config) (s : State) : (reinitClock c s).gain = s.gain := rfl
@[simp] theorem reinitClock_mute (c : Config) (s : State) : (reinitClock c s).mute = s.mute := rfl
@[simp] theorem reinitClock_muteCur (c : Config) (s : State) : (reinitClock c s).muteCur = s.muteCur := rfl
@[simp] theorem reinitClock_pmSignal (c : Config) (s : State) : (reinitClock c s).pmSignal = s.pmSignal := rfl
@[simp] theorem reinitClock_pmCur (c : Config) (s : State) : (reinitClock c s).pmCur = s.pmSignal := rfl
@[simp] theorem reinitClock_adj (c : Config) (s : State) : (reinitClock c s).adj = s.adj := rfl
@[simp] theorem reinitClock_r1 (c : Config) (s : State) : (reinitClock c s).r1 = s.fNom.map c.r1Of := rfl
@[simp] theorem reinitClock_r2 (c : Config) (s : State) : (reinitClock c s).r2 = s.pmSignal.map c.r2Of := rfl
@[simp] theorem reinitClock_schedState (c : Config) (s : State) : (reinitClock c s).schedState = s.schedState := rfl
@[simp] theorem reinitClock_qWr (c : Config) (s : State) : (reinitClock c s).qWr = s.qWr := rfl
@[simp] theorem reinitClock_qRd (c : Config) (s : State) : (reinitClock c s).qRd = s.qRd := rfl
@[simp] theorem reinitClock_qCnt (c : Config) (s : State) : (reinitClock c s).qCnt = s.qCnt := rfl
@[simp] theorem reinitClock_slots (c : Config) (s : State) : (reinitClock c s).slots = s.slots := rfl
@[simp] theorem reinitClock_timerEnabled (c : Config) (s : State) :
    (reinitClock c s).timerEnabled = s.timerEnabled := rfl
@[simp] theorem reinitClock_irqMask (c : Config) (s : State) : (reinitClock c s).irqMask = s.irqMask := rfl
@[simp] theorem reinitClock_dmaPend (c : Config) (s : State) : (reinitClock c s).dmaPend = s.dmaPend := rfl
@[simp] theorem reinitClock_dmaBusy (c : Config) (s : State) : (reinitClock c s).dmaBusy = s.dmaBusy := rfl
@[simp] theorem reinitClock_dmaCur (c : Config) (s : State) : (reinitClock c s).dmaCur = s.dmaCur := rfl
@[simp] theorem reinitClock_outRate (c : Config) (s : State) : (reinitClock c s).outRate = s.outRate := rfl
@[simp] theorem reinitClock_reinitBusy (c : Config) (s : State) : (reinitClock c s).reinitBusy = s.reinitBusy := rfl
@[simp] theorem reinitClock_reinitStep (c : Config) (s : State) : (reinitClock c s).reinitStep = 2 := rfl
@[simp] theorem reinitClock_pollBusy (c : Config) (s : State) : (reinitClock c s).pollBusy = s.pollBusy := rfl
@[simp] theorem reinitClock_pushBusy (c : Config) (s : State) : (reinitClock c s).pushBusy = s.pushBusy := rfl
@[simp] theorem reinitClock_d1 (c : Config) (s : State) : (reinitClock c s).d1 = s.d1 := rfl
@[simp] theorem reinitClock_d2 (c : Config) (s : State) : (reinitClock c s).d2 = s.d2 := rfl
@[simp] theorem reinitClock_outStream (c : Config) (s : State) : (reinitClock c s).outStream = s.outStream := rfl
@[simp] theorem reinitClock_dacEvents (c : Config) (s : State) : (reinitClock c s).dacEvents = s.dacEvents := rfl
@[simp] theorem reinitClock_booted (c : Config) (s : State) : (reinitClock c s).booted = s.booted := rfl
@[simp] theorem reinitClock_usb (c : Config) (s : State) : (reinitClock c s).usb = s.usb := rfl
@[simp] theorem reinitClock_tick (c : Config) (s : State) : (reinitClock c s).tick = s.tick := rfl
@[simp] theorem reinitClock_poll (c : Config) (s : State) : (reinitClock c s).poll = s.poll := rfl
@[simp] theorem reinitClock_main (c : Config) (s : State) : (reinitClock c s).main = s.main := rfl
@[simp] theorem reinitClock_host (c : Config) (s : State) : (reinitClock c s).host = s.host := rfl
@[simp] theorem reinitClock_schedule (c : Config) (s : State) : (reinitClock c s).schedule = s.schedule := rfl
@[simp] theorem reinitClock_stream (c : Config) (s : State) : (reinitClock c s).stream = s.stream := rfl
@[simp] theorem reinitClock_responses (c : Config) (s : State) : (reinitClock c s).responses = s.responses := rfl
@[simp] theorem reinitClock_pcmFree (c : Config) (s : State) : (reinitClock c s).pcmFree = s.pcmFree := rfl

/-! ## reinitResume: REINIT step 3 (R269) -/

@[simp] theorem reinitResume_rb (s : State) : (reinitResume s).rb = s.rb := rfl
@[simp] theorem reinitResume_fNom (s : State) : (reinitResume s).fNom = s.fNom := rfl
@[simp] theorem reinitResume_fCur (s : State) : (reinitResume s).fCur = s.fCur := rfl
@[simp] theorem reinitResume_depth (s : State) : (reinitResume s).depth = s.depth := rfl
@[simp] theorem reinitResume_volReq (s : State) : (reinitResume s).volReq = s.volReq := rfl
@[simp] theorem reinitResume_volAcq (s : State) : (reinitResume s).volAcq = s.volAcq := rfl
@[simp] theorem reinitResume_volSmooth (s : State) : (reinitResume s).volSmooth = s.volSmooth := rfl
@[simp] theorem reinitResume_gain (s : State) : (reinitResume s).gain = s.gain := rfl
@[simp] theorem reinitResume_mute (s : State) : (reinitResume s).mute = s.mute := rfl
@[simp] theorem reinitResume_muteCur (s : State) : (reinitResume s).muteCur = s.muteCur := rfl
@[simp] theorem reinitResume_pmSignal (s : State) : (reinitResume s).pmSignal = s.pmSignal := rfl
@[simp] theorem reinitResume_pmCur (s : State) : (reinitResume s).pmCur = s.pmCur := rfl
@[simp] theorem reinitResume_adj (s : State) : (reinitResume s).adj = s.adj := rfl
@[simp] theorem reinitResume_r1 (s : State) : (reinitResume s).r1 = s.r1 := rfl
@[simp] theorem reinitResume_r2 (s : State) : (reinitResume s).r2 = s.r2 := rfl
@[simp] theorem reinitResume_schedState (s : State) : (reinitResume s).schedState = s.schedState := rfl
@[simp] theorem reinitResume_qWr (s : State) : (reinitResume s).qWr = s.qWr := rfl
@[simp] theorem reinitResume_qRd (s : State) : (reinitResume s).qRd = s.qRd := rfl
@[simp] theorem reinitResume_qCnt (s : State) : (reinitResume s).qCnt = s.qCnt := rfl
@[simp] theorem reinitResume_slots (s : State) : (reinitResume s).slots = s.slots := rfl
@[simp] theorem reinitResume_timerEnabled (s : State) : (reinitResume s).timerEnabled = true := rfl
@[simp] theorem reinitResume_irqMask (s : State) : (reinitResume s).irqMask = s.irqMask := rfl
@[simp] theorem reinitResume_dmaPend (s : State) : (reinitResume s).dmaPend = s.dmaPend := rfl
@[simp] theorem reinitResume_dmaBusy (s : State) : (reinitResume s).dmaBusy = s.dmaBusy := rfl
@[simp] theorem reinitResume_dmaCur (s : State) : (reinitResume s).dmaCur = s.dmaCur := rfl
@[simp] theorem reinitResume_outRate (s : State) : (reinitResume s).outRate = s.outRate := rfl
@[simp] theorem reinitResume_reinitBusy (s : State) : (reinitResume s).reinitBusy = s.reinitBusy := rfl
@[simp] theorem reinitResume_reinitStep (s : State) : (reinitResume s).reinitStep = 3 := rfl
@[simp] theorem reinitResume_pollBusy (s : State) : (reinitResume s).pollBusy = s.pollBusy := rfl
@[simp] theorem reinitResume_pushBusy (s : State) : (reinitResume s).pushBusy = s.pushBusy := rfl
@[simp] theorem reinitResume_d1 (s : State) : (reinitResume s).d1 = s.d1 := rfl
@[simp] theorem reinitResume_d2 (s : State) : (reinitResume s).d2 = s.d2 := rfl
@[simp] theorem reinitResume_outStream (s : State) : (reinitResume s).outStream = s.outStream := rfl
@[simp] theorem reinitResume_dacEvents (s : State) : (reinitResume s).dacEvents = s.dacEvents := rfl
@[simp] theorem reinitResume_booted (s : State) : (reinitResume s).booted = s.booted := rfl
@[simp] theorem reinitResume_usb (s : State) : (reinitResume s).usb = s.usb := rfl
@[simp] theorem reinitResume_tick (s : State) : (reinitResume s).tick = s.tick := rfl
@[simp] theorem reinitResume_poll (s : State) : (reinitResume s).poll = s.poll := rfl
@[simp] theorem reinitResume_main (s : State) : (reinitResume s).main = s.main := rfl
@[simp] theorem reinitResume_host (s : State) : (reinitResume s).host = s.host := rfl
@[simp] theorem reinitResume_schedule (s : State) : (reinitResume s).schedule = s.schedule := rfl
@[simp] theorem reinitResume_stream (s : State) : (reinitResume s).stream = s.stream := rfl
@[simp] theorem reinitResume_responses (s : State) : (reinitResume s).responses = s.responses := rfl
@[simp] theorem reinitResume_pcmFree (s : State) : (reinitResume s).pcmFree = s.pcmFree := rfl

/-! ## abortTransfer: what REINIT step 4 does under the mask (R270) -/

@[simp] theorem abortTransfer_rb (s : State) : (abortTransfer s).rb = s.rb := rfl
@[simp] theorem abortTransfer_fNom (s : State) : (abortTransfer s).fNom = s.fNom := rfl
@[simp] theorem abortTransfer_fCur (s : State) : (abortTransfer s).fCur = s.fCur := rfl
@[simp] theorem abortTransfer_depth (s : State) : (abortTransfer s).depth = s.depth := rfl
@[simp] theorem abortTransfer_volReq (s : State) : (abortTransfer s).volReq = s.volReq := rfl
@[simp] theorem abortTransfer_volAcq (s : State) : (abortTransfer s).volAcq = s.volAcq := rfl
@[simp] theorem abortTransfer_volSmooth (s : State) : (abortTransfer s).volSmooth = s.volSmooth := rfl
@[simp] theorem abortTransfer_gain (s : State) : (abortTransfer s).gain = s.gain := rfl
@[simp] theorem abortTransfer_mute (s : State) : (abortTransfer s).mute = s.mute := rfl
@[simp] theorem abortTransfer_muteCur (s : State) : (abortTransfer s).muteCur = s.muteCur := rfl
@[simp] theorem abortTransfer_pmSignal (s : State) : (abortTransfer s).pmSignal = s.pmSignal := rfl
@[simp] theorem abortTransfer_pmCur (s : State) : (abortTransfer s).pmCur = s.pmCur := rfl
@[simp] theorem abortTransfer_adj (s : State) : (abortTransfer s).adj = s.adj := rfl
@[simp] theorem abortTransfer_r1 (s : State) : (abortTransfer s).r1 = s.r1 := rfl
@[simp] theorem abortTransfer_r2 (s : State) : (abortTransfer s).r2 = s.r2 := rfl
@[simp] theorem abortTransfer_schedState (s : State) : (abortTransfer s).schedState = s.schedState := rfl
@[simp] theorem abortTransfer_qWr (s : State) : (abortTransfer s).qWr = 0 := rfl
@[simp] theorem abortTransfer_qRd (s : State) : (abortTransfer s).qRd = 0 := rfl
@[simp] theorem abortTransfer_qCnt (s : State) : (abortTransfer s).qCnt = 0 := rfl
@[simp] theorem abortTransfer_slots (s : State) : (abortTransfer s).slots = s.slots.map fun _ => .zeroed := rfl
@[simp] theorem abortTransfer_timerEnabled (s : State) : (abortTransfer s).timerEnabled = s.timerEnabled := rfl
@[simp] theorem abortTransfer_irqMask (s : State) : (abortTransfer s).irqMask = s.irqMask := rfl
@[simp] theorem abortTransfer_dmaPend (s : State) : (abortTransfer s).dmaPend = false := rfl
@[simp] theorem abortTransfer_dmaBusy (s : State) : (abortTransfer s).dmaBusy = false := rfl
@[simp] theorem abortTransfer_dmaCur (s : State) : (abortTransfer s).dmaCur = ⟨0, []⟩ := rfl
@[simp] theorem abortTransfer_outRate (s : State) : (abortTransfer s).outRate = s.outRate := rfl
@[simp] theorem abortTransfer_reinitBusy (s : State) : (abortTransfer s).reinitBusy = s.reinitBusy := rfl
@[simp] theorem abortTransfer_reinitStep (s : State) : (abortTransfer s).reinitStep = s.reinitStep := rfl
@[simp] theorem abortTransfer_pollBusy (s : State) : (abortTransfer s).pollBusy = s.pollBusy := rfl
@[simp] theorem abortTransfer_pushBusy (s : State) : (abortTransfer s).pushBusy = s.pushBusy := rfl
@[simp] theorem abortTransfer_d1 (s : State) : (abortTransfer s).d1 = s.d1 := rfl
@[simp] theorem abortTransfer_d2 (s : State) : (abortTransfer s).d2 = s.d2 := rfl
@[simp] theorem abortTransfer_outStream (s : State) : (abortTransfer s).outStream = s.outStream := rfl
@[simp] theorem abortTransfer_dacEvents (s : State) : (abortTransfer s).dacEvents = s.dacEvents := rfl
@[simp] theorem abortTransfer_booted (s : State) : (abortTransfer s).booted = s.booted := rfl
@[simp] theorem abortTransfer_usb (s : State) : (abortTransfer s).usb = s.usb := rfl
@[simp] theorem abortTransfer_tick (s : State) : (abortTransfer s).tick = s.tick := rfl
@[simp] theorem abortTransfer_poll (s : State) : (abortTransfer s).poll = s.poll := rfl
@[simp] theorem abortTransfer_main (s : State) : (abortTransfer s).main = s.main := rfl
@[simp] theorem abortTransfer_host (s : State) : (abortTransfer s).host = s.host := rfl
@[simp] theorem abortTransfer_schedule (s : State) : (abortTransfer s).schedule = s.schedule := rfl
@[simp] theorem abortTransfer_stream (s : State) : (abortTransfer s).stream = s.stream := rfl
@[simp] theorem abortTransfer_responses (s : State) : (abortTransfer s).responses = s.responses := rfl
@[simp] theorem abortTransfer_pcmFree (s : State) : (abortTransfer s).pcmFree = s.pcmFree := rfl

/-! ## reinitAbort: REINIT step 4 (R270) -/

@[simp] theorem reinitAbort_rb (s : State) : (reinitAbort s).rb = s.rb := abortTransfer_rb { s with irqMask := true }
@[simp] theorem reinitAbort_fNom (s : State) :
    (reinitAbort s).fNom = s.fNom := abortTransfer_fNom { s with irqMask := true }
@[simp] theorem reinitAbort_fCur (s : State) :
    (reinitAbort s).fCur = s.fCur := abortTransfer_fCur { s with irqMask := true }
@[simp] theorem reinitAbort_depth (s : State) :
    (reinitAbort s).depth = s.depth := abortTransfer_depth { s with irqMask := true }
@[simp] theorem reinitAbort_volReq (s : State) :
    (reinitAbort s).volReq = s.volReq := abortTransfer_volReq { s with irqMask := true }
@[simp] theorem reinitAbort_volAcq (s : State) :
    (reinitAbort s).volAcq = s.volAcq := abortTransfer_volAcq { s with irqMask := true }
@[simp] theorem reinitAbort_volSmooth (s : State) :
    (reinitAbort s).volSmooth = s.volSmooth := abortTransfer_volSmooth { s with irqMask := true }
@[simp] theorem reinitAbort_gain (s : State) :
    (reinitAbort s).gain = s.gain := abortTransfer_gain { s with irqMask := true }
@[simp] theorem reinitAbort_mute (s : State) :
    (reinitAbort s).mute = s.mute := abortTransfer_mute { s with irqMask := true }
@[simp] theorem reinitAbort_muteCur (s : State) :
    (reinitAbort s).muteCur = s.muteCur := abortTransfer_muteCur { s with irqMask := true }
@[simp] theorem reinitAbort_pmSignal (s : State) :
    (reinitAbort s).pmSignal = s.pmSignal := abortTransfer_pmSignal { s with irqMask := true }
@[simp] theorem reinitAbort_pmCur (s : State) :
    (reinitAbort s).pmCur = s.pmCur := abortTransfer_pmCur { s with irqMask := true }
@[simp] theorem reinitAbort_adj (s : State) :
    (reinitAbort s).adj = s.adj := abortTransfer_adj { s with irqMask := true }
@[simp] theorem reinitAbort_r1 (s : State) : (reinitAbort s).r1 = s.r1 := abortTransfer_r1 { s with irqMask := true }
@[simp] theorem reinitAbort_r2 (s : State) : (reinitAbort s).r2 = s.r2 := abortTransfer_r2 { s with irqMask := true }
@[simp] theorem reinitAbort_schedState (s : State) :
    (reinitAbort s).schedState = s.schedState := abortTransfer_schedState { s with irqMask := true }
@[simp] theorem reinitAbort_qWr (s : State) : (reinitAbort s).qWr = 0 := abortTransfer_qWr { s with irqMask := true }
@[simp] theorem reinitAbort_qRd (s : State) : (reinitAbort s).qRd = 0 := abortTransfer_qRd { s with irqMask := true }
@[simp] theorem reinitAbort_qCnt (s : State) : (reinitAbort s).qCnt = 0 := abortTransfer_qCnt { s with irqMask := true }
@[simp] theorem reinitAbort_slots (s : State) :
    (reinitAbort s).slots = s.slots.map fun _ => .zeroed := abortTransfer_slots { s with irqMask := true }
@[simp] theorem reinitAbort_timerEnabled (s : State) :
    (reinitAbort s).timerEnabled = s.timerEnabled := abortTransfer_timerEnabled { s with irqMask := true }
@[simp] theorem reinitAbort_irqMask (s : State) : (reinitAbort s).irqMask = false := rfl
@[simp] theorem reinitAbort_dmaPend (s : State) :
    (reinitAbort s).dmaPend = false := abortTransfer_dmaPend { s with irqMask := true }
@[simp] theorem reinitAbort_dmaBusy (s : State) :
    (reinitAbort s).dmaBusy = false := abortTransfer_dmaBusy { s with irqMask := true }
@[simp] theorem reinitAbort_dmaCur (s : State) :
    (reinitAbort s).dmaCur = ⟨0, []⟩ := abortTransfer_dmaCur { s with irqMask := true }
@[simp] theorem reinitAbort_outRate (s : State) :
    (reinitAbort s).outRate = s.outRate := abortTransfer_outRate { s with irqMask := true }
@[simp] theorem reinitAbort_reinitBusy (s : State) :
    (reinitAbort s).reinitBusy = s.reinitBusy := abortTransfer_reinitBusy { s with irqMask := true }
@[simp] theorem reinitAbort_reinitStep (s : State) : (reinitAbort s).reinitStep = 4 := rfl
@[simp] theorem reinitAbort_pollBusy (s : State) :
    (reinitAbort s).pollBusy = s.pollBusy := abortTransfer_pollBusy { s with irqMask := true }
@[simp] theorem reinitAbort_pushBusy (s : State) :
    (reinitAbort s).pushBusy = s.pushBusy := abortTransfer_pushBusy { s with irqMask := true }
@[simp] theorem reinitAbort_d1 (s : State) : (reinitAbort s).d1 = s.d1 := abortTransfer_d1 { s with irqMask := true }
@[simp] theorem reinitAbort_d2 (s : State) : (reinitAbort s).d2 = s.d2 := abortTransfer_d2 { s with irqMask := true }
@[simp] theorem reinitAbort_outStream (s : State) :
    (reinitAbort s).outStream = s.outStream := abortTransfer_outStream { s with irqMask := true }
@[simp] theorem reinitAbort_dacEvents (s : State) :
    (reinitAbort s).dacEvents = s.dacEvents := abortTransfer_dacEvents { s with irqMask := true }
@[simp] theorem reinitAbort_booted (s : State) :
    (reinitAbort s).booted = s.booted := abortTransfer_booted { s with irqMask := true }
@[simp] theorem reinitAbort_usb (s : State) :
    (reinitAbort s).usb = s.usb := abortTransfer_usb { s with irqMask := true }
@[simp] theorem reinitAbort_tick (s : State) :
    (reinitAbort s).tick = s.tick := abortTransfer_tick { s with irqMask := true }
@[simp] theorem reinitAbort_poll (s : State) :
    (reinitAbort s).poll = s.poll := abortTransfer_poll { s with irqMask := true }
@[simp] theorem reinitAbort_main (s : State) :
    (reinitAbort s).main = s.main := abortTransfer_main { s with irqMask := true }
@[simp] theorem reinitAbort_host (s : State) :
    (reinitAbort s).host = s.host := abortTransfer_host { s with irqMask := true }
@[simp] theorem reinitAbort_schedule (s : State) :
    (reinitAbort s).schedule = s.schedule := abortTransfer_schedule { s with irqMask := true }
@[simp] theorem reinitAbort_stream (s : State) :
    (reinitAbort s).stream = s.stream := abortTransfer_stream { s with irqMask := true }
@[simp] theorem reinitAbort_responses (s : State) :
    (reinitAbort s).responses = s.responses := abortTransfer_responses { s with irqMask := true }
@[simp] theorem reinitAbort_pcmFree (s : State) :
    (reinitAbort s).pcmFree = s.pcmFree := abortTransfer_pcmFree { s with irqMask := true }

/-! ## reinitDivider: REINIT step 5 (R271) -/

@[simp] theorem reinitDivider_rb (s : State) : (reinitDivider s).rb = s.rb := rfl
@[simp] theorem reinitDivider_fNom (s : State) : (reinitDivider s).fNom = s.fNom := rfl
@[simp] theorem reinitDivider_fCur (s : State) : (reinitDivider s).fCur = s.fCur := rfl
@[simp] theorem reinitDivider_depth (s : State) : (reinitDivider s).depth = s.depth := rfl
@[simp] theorem reinitDivider_volReq (s : State) : (reinitDivider s).volReq = s.volReq := rfl
@[simp] theorem reinitDivider_volAcq (s : State) : (reinitDivider s).volAcq = s.volAcq := rfl
@[simp] theorem reinitDivider_volSmooth (s : State) : (reinitDivider s).volSmooth = s.volSmooth := rfl
@[simp] theorem reinitDivider_gain (s : State) : (reinitDivider s).gain = s.gain := rfl
@[simp] theorem reinitDivider_mute (s : State) : (reinitDivider s).mute = s.mute := rfl
@[simp] theorem reinitDivider_muteCur (s : State) : (reinitDivider s).muteCur = s.muteCur := rfl
@[simp] theorem reinitDivider_pmSignal (s : State) : (reinitDivider s).pmSignal = s.pmSignal := rfl
@[simp] theorem reinitDivider_pmCur (s : State) : (reinitDivider s).pmCur = s.pmCur := rfl
@[simp] theorem reinitDivider_adj (s : State) : (reinitDivider s).adj = s.adj := rfl
@[simp] theorem reinitDivider_r1 (s : State) : (reinitDivider s).r1 = s.r1 := rfl
@[simp] theorem reinitDivider_r2 (s : State) : (reinitDivider s).r2 = s.r2 := rfl
@[simp] theorem reinitDivider_schedState (s : State) : (reinitDivider s).schedState = s.schedState := rfl
@[simp] theorem reinitDivider_qWr (s : State) : (reinitDivider s).qWr = s.qWr := rfl
@[simp] theorem reinitDivider_qRd (s : State) : (reinitDivider s).qRd = s.qRd := rfl
@[simp] theorem reinitDivider_qCnt (s : State) : (reinitDivider s).qCnt = s.qCnt := rfl
@[simp] theorem reinitDivider_slots (s : State) : (reinitDivider s).slots = s.slots := rfl
@[simp] theorem reinitDivider_timerEnabled (s : State) : (reinitDivider s).timerEnabled = s.timerEnabled := rfl
@[simp] theorem reinitDivider_irqMask (s : State) : (reinitDivider s).irqMask = s.irqMask := rfl
@[simp] theorem reinitDivider_dmaPend (s : State) : (reinitDivider s).dmaPend = s.dmaPend := rfl
@[simp] theorem reinitDivider_dmaBusy (s : State) : (reinitDivider s).dmaBusy = s.dmaBusy := rfl
@[simp] theorem reinitDivider_dmaCur (s : State) : (reinitDivider s).dmaCur = s.dmaCur := rfl
@[simp] theorem reinitDivider_outRate (s : State) : (reinitDivider s).outRate = outputRate s.fCur s.r1 s.r2 := rfl
@[simp] theorem reinitDivider_reinitBusy (s : State) : (reinitDivider s).reinitBusy = s.reinitBusy := rfl
@[simp] theorem reinitDivider_reinitStep (s : State) : (reinitDivider s).reinitStep = 5 := rfl
@[simp] theorem reinitDivider_pollBusy (s : State) : (reinitDivider s).pollBusy = s.pollBusy := rfl
@[simp] theorem reinitDivider_pushBusy (s : State) : (reinitDivider s).pushBusy = s.pushBusy := rfl
@[simp] theorem reinitDivider_d1 (s : State) : (reinitDivider s).d1 = s.d1 := rfl
@[simp] theorem reinitDivider_d2 (s : State) : (reinitDivider s).d2 = s.d2 := rfl
@[simp] theorem reinitDivider_outStream (s : State) : (reinitDivider s).outStream = s.outStream := rfl
@[simp] theorem reinitDivider_dacEvents (s : State) : (reinitDivider s).dacEvents = s.dacEvents := rfl
@[simp] theorem reinitDivider_booted (s : State) : (reinitDivider s).booted = s.booted := rfl
@[simp] theorem reinitDivider_usb (s : State) : (reinitDivider s).usb = s.usb := rfl
@[simp] theorem reinitDivider_tick (s : State) : (reinitDivider s).tick = s.tick := rfl
@[simp] theorem reinitDivider_poll (s : State) : (reinitDivider s).poll = s.poll := rfl
@[simp] theorem reinitDivider_main (s : State) : (reinitDivider s).main = s.main := rfl
@[simp] theorem reinitDivider_host (s : State) : (reinitDivider s).host = s.host := rfl
@[simp] theorem reinitDivider_schedule (s : State) : (reinitDivider s).schedule = s.schedule := rfl
@[simp] theorem reinitDivider_stream (s : State) : (reinitDivider s).stream = s.stream := rfl
@[simp] theorem reinitDivider_responses (s : State) : (reinitDivider s).responses = s.responses := rfl
@[simp] theorem reinitDivider_pcmFree (s : State) : (reinitDivider s).pcmFree = s.pcmFree := rfl

/-! ## reinitEnd: the end of a REINIT -/

@[simp] theorem reinitEnd_rb (s : State) : (reinitEnd s).rb = s.rb := rfl
@[simp] theorem reinitEnd_fNom (s : State) : (reinitEnd s).fNom = s.fNom := rfl
@[simp] theorem reinitEnd_fCur (s : State) : (reinitEnd s).fCur = s.fCur := rfl
@[simp] theorem reinitEnd_depth (s : State) : (reinitEnd s).depth = s.depth := rfl
@[simp] theorem reinitEnd_volReq (s : State) : (reinitEnd s).volReq = s.volReq := rfl
@[simp] theorem reinitEnd_volAcq (s : State) : (reinitEnd s).volAcq = s.volAcq := rfl
@[simp] theorem reinitEnd_volSmooth (s : State) : (reinitEnd s).volSmooth = s.volSmooth := rfl
@[simp] theorem reinitEnd_gain (s : State) : (reinitEnd s).gain = s.gain := rfl
@[simp] theorem reinitEnd_mute (s : State) : (reinitEnd s).mute = s.mute := rfl
@[simp] theorem reinitEnd_muteCur (s : State) : (reinitEnd s).muteCur = s.muteCur := rfl
@[simp] theorem reinitEnd_pmSignal (s : State) : (reinitEnd s).pmSignal = s.pmSignal := rfl
@[simp] theorem reinitEnd_pmCur (s : State) : (reinitEnd s).pmCur = s.pmCur := rfl
@[simp] theorem reinitEnd_adj (s : State) : (reinitEnd s).adj = s.adj := rfl
@[simp] theorem reinitEnd_r1 (s : State) : (reinitEnd s).r1 = s.r1 := rfl
@[simp] theorem reinitEnd_r2 (s : State) : (reinitEnd s).r2 = s.r2 := rfl
@[simp] theorem reinitEnd_schedState (s : State) : (reinitEnd s).schedState = s.schedState := rfl
@[simp] theorem reinitEnd_qWr (s : State) : (reinitEnd s).qWr = s.qWr := rfl
@[simp] theorem reinitEnd_qRd (s : State) : (reinitEnd s).qRd = s.qRd := rfl
@[simp] theorem reinitEnd_qCnt (s : State) : (reinitEnd s).qCnt = s.qCnt := rfl
@[simp] theorem reinitEnd_slots (s : State) : (reinitEnd s).slots = s.slots := rfl
@[simp] theorem reinitEnd_timerEnabled (s : State) : (reinitEnd s).timerEnabled = s.timerEnabled := rfl
@[simp] theorem reinitEnd_irqMask (s : State) : (reinitEnd s).irqMask = s.irqMask := rfl
@[simp] theorem reinitEnd_dmaPend (s : State) : (reinitEnd s).dmaPend = s.dmaPend := rfl
@[simp] theorem reinitEnd_dmaBusy (s : State) : (reinitEnd s).dmaBusy = s.dmaBusy := rfl
@[simp] theorem reinitEnd_dmaCur (s : State) : (reinitEnd s).dmaCur = s.dmaCur := rfl
@[simp] theorem reinitEnd_outRate (s : State) : (reinitEnd s).outRate = s.outRate := rfl
@[simp] theorem reinitEnd_reinitBusy (s : State) : (reinitEnd s).reinitBusy = s.reinitBusy := rfl
@[simp] theorem reinitEnd_reinitStep (s : State) : (reinitEnd s).reinitStep = s.reinitStep := rfl
@[simp] theorem reinitEnd_pollBusy (s : State) : (reinitEnd s).pollBusy = s.pollBusy := rfl
@[simp] theorem reinitEnd_pushBusy (s : State) : (reinitEnd s).pushBusy = s.pushBusy := rfl
@[simp] theorem reinitEnd_d1 (s : State) : (reinitEnd s).d1 = s.d1 := rfl
@[simp] theorem reinitEnd_d2 (s : State) : (reinitEnd s).d2 = s.d2 := rfl
@[simp] theorem reinitEnd_outStream (s : State) : (reinitEnd s).outStream = s.outStream := rfl
@[simp] theorem reinitEnd_dacEvents (s : State) : (reinitEnd s).dacEvents = s.dacEvents := rfl
@[simp] theorem reinitEnd_booted (s : State) : (reinitEnd s).booted = s.booted := rfl
@[simp] theorem reinitEnd_usb (s : State) : (reinitEnd s).usb = s.usb := rfl
@[simp] theorem reinitEnd_tick (s : State) : (reinitEnd s).tick = s.tick := rfl
@[simp] theorem reinitEnd_poll (s : State) : (reinitEnd s).poll = s.poll := rfl
@[simp] theorem reinitEnd_main (s : State) : (reinitEnd s).main = .idle := rfl
@[simp] theorem reinitEnd_host (s : State) : (reinitEnd s).host = s.host := rfl
@[simp] theorem reinitEnd_schedule (s : State) : (reinitEnd s).schedule = s.schedule := rfl
@[simp] theorem reinitEnd_stream (s : State) : (reinitEnd s).stream = s.stream := rfl
@[simp] theorem reinitEnd_responses (s : State) :
    (reinitEnd s).responses = s.responses ++ [⟨.ok, mainValues s.main⟩] := rfl
@[simp] theorem reinitEnd_pcmFree (s : State) : (reinitEnd s).pcmFree = s.pcmFree := rfl

/-! ## zeroStop: the zeroing of `DRAINING_TO_STOP` (R236) -/

@[simp] theorem zeroStop_rb (s : State) : (zeroStop s).rb = s.rb := zeroQueue_rb { s with irqMask := true }
@[simp] theorem zeroStop_fNom (s : State) : (zeroStop s).fNom = s.fNom := zeroQueue_fNom { s with irqMask := true }
@[simp] theorem zeroStop_fCur (s : State) : (zeroStop s).fCur = s.fCur := zeroQueue_fCur { s with irqMask := true }
@[simp] theorem zeroStop_depth (s : State) : (zeroStop s).depth = s.depth := zeroQueue_depth { s with irqMask := true }
@[simp] theorem zeroStop_volReq (s : State) :
    (zeroStop s).volReq = s.volReq := zeroQueue_volReq { s with irqMask := true }
@[simp] theorem zeroStop_volAcq (s : State) :
    (zeroStop s).volAcq = s.volAcq := zeroQueue_volAcq { s with irqMask := true }
@[simp] theorem zeroStop_volSmooth (s : State) :
    (zeroStop s).volSmooth = s.volSmooth := zeroQueue_volSmooth { s with irqMask := true }
@[simp] theorem zeroStop_gain (s : State) : (zeroStop s).gain = s.gain := zeroQueue_gain { s with irqMask := true }
@[simp] theorem zeroStop_mute (s : State) : (zeroStop s).mute = s.mute := zeroQueue_mute { s with irqMask := true }
@[simp] theorem zeroStop_muteCur (s : State) :
    (zeroStop s).muteCur = s.muteCur := zeroQueue_muteCur { s with irqMask := true }
@[simp] theorem zeroStop_pmSignal (s : State) :
    (zeroStop s).pmSignal = s.pmSignal := zeroQueue_pmSignal { s with irqMask := true }
@[simp] theorem zeroStop_pmCur (s : State) : (zeroStop s).pmCur = s.pmCur := zeroQueue_pmCur { s with irqMask := true }
@[simp] theorem zeroStop_adj (s : State) : (zeroStop s).adj = s.adj := zeroQueue_adj { s with irqMask := true }
@[simp] theorem zeroStop_r1 (s : State) : (zeroStop s).r1 = s.r1 := zeroQueue_r1 { s with irqMask := true }
@[simp] theorem zeroStop_r2 (s : State) : (zeroStop s).r2 = s.r2 := zeroQueue_r2 { s with irqMask := true }
@[simp] theorem zeroStop_schedState (s : State) : (zeroStop s).schedState = .draining := rfl
@[simp] theorem zeroStop_qWr (s : State) : (zeroStop s).qWr = 0 := zeroQueue_qWr { s with irqMask := true }
@[simp] theorem zeroStop_qRd (s : State) : (zeroStop s).qRd = 0 := zeroQueue_qRd { s with irqMask := true }
@[simp] theorem zeroStop_qCnt (s : State) : (zeroStop s).qCnt = 0 := zeroQueue_qCnt { s with irqMask := true }
@[simp] theorem zeroStop_slots (s : State) :
    (zeroStop s).slots = s.slots.map fun _ => .zeroed := zeroQueue_slots { s with irqMask := true }
@[simp] theorem zeroStop_timerEnabled (s : State) :
    (zeroStop s).timerEnabled = s.timerEnabled := zeroQueue_timerEnabled { s with irqMask := true }
@[simp] theorem zeroStop_irqMask (s : State) : (zeroStop s).irqMask = false := rfl
@[simp] theorem zeroStop_dmaPend (s : State) :
    (zeroStop s).dmaPend = s.dmaPend := zeroQueue_dmaPend { s with irqMask := true }
@[simp] theorem zeroStop_dmaBusy (s : State) :
    (zeroStop s).dmaBusy = s.dmaBusy := zeroQueue_dmaBusy { s with irqMask := true }
@[simp] theorem zeroStop_dmaCur (s : State) :
    (zeroStop s).dmaCur = s.dmaCur := zeroQueue_dmaCur { s with irqMask := true }
@[simp] theorem zeroStop_outRate (s : State) :
    (zeroStop s).outRate = s.outRate := zeroQueue_outRate { s with irqMask := true }
@[simp] theorem zeroStop_reinitBusy (s : State) :
    (zeroStop s).reinitBusy = s.reinitBusy := zeroQueue_reinitBusy { s with irqMask := true }
@[simp] theorem zeroStop_reinitStep (s : State) :
    (zeroStop s).reinitStep = s.reinitStep := zeroQueue_reinitStep { s with irqMask := true }
@[simp] theorem zeroStop_pollBusy (s : State) :
    (zeroStop s).pollBusy = s.pollBusy := zeroQueue_pollBusy { s with irqMask := true }
@[simp] theorem zeroStop_pushBusy (s : State) :
    (zeroStop s).pushBusy = s.pushBusy := zeroQueue_pushBusy { s with irqMask := true }
@[simp] theorem zeroStop_d1 (s : State) : (zeroStop s).d1 = s.d1 := zeroQueue_d1 { s with irqMask := true }
@[simp] theorem zeroStop_d2 (s : State) : (zeroStop s).d2 = s.d2 := zeroQueue_d2 { s with irqMask := true }
@[simp] theorem zeroStop_outStream (s : State) :
    (zeroStop s).outStream = s.outStream := zeroQueue_outStream { s with irqMask := true }
@[simp] theorem zeroStop_dacEvents (s : State) :
    (zeroStop s).dacEvents = s.dacEvents := zeroQueue_dacEvents { s with irqMask := true }
@[simp] theorem zeroStop_booted (s : State) :
    (zeroStop s).booted = s.booted := zeroQueue_booted { s with irqMask := true }
@[simp] theorem zeroStop_usb (s : State) : (zeroStop s).usb = s.usb := zeroQueue_usb { s with irqMask := true }
@[simp] theorem zeroStop_tick (s : State) : (zeroStop s).tick = s.tick := zeroQueue_tick { s with irqMask := true }
@[simp] theorem zeroStop_poll (s : State) : (zeroStop s).poll = s.poll := zeroQueue_poll { s with irqMask := true }
@[simp] theorem zeroStop_main (s : State) : (zeroStop s).main = s.main := zeroQueue_main { s with irqMask := true }
@[simp] theorem zeroStop_host (s : State) : (zeroStop s).host = s.host := zeroQueue_host { s with irqMask := true }
@[simp] theorem zeroStop_schedule (s : State) :
    (zeroStop s).schedule = s.schedule := zeroQueue_schedule { s with irqMask := true }
@[simp] theorem zeroStop_stream (s : State) :
    (zeroStop s).stream = s.stream := zeroQueue_stream { s with irqMask := true }
@[simp] theorem zeroStop_responses (s : State) :
    (zeroStop s).responses = s.responses := zeroQueue_responses { s with irqMask := true }
@[simp] theorem zeroStop_pcmFree (s : State) :
    (zeroStop s).pcmFree = s.pcmFree := zeroQueue_pcmFree { s with irqMask := true }

/-! ## usbEnd: the last micro-step of `USB.PUSH` -/

@[simp] theorem usbEnd_rb (r : Result) (s : State) : (usbEnd r s).rb = s.rb := rfl
@[simp] theorem usbEnd_fNom (r : Result) (s : State) : (usbEnd r s).fNom = s.fNom := rfl
@[simp] theorem usbEnd_fCur (r : Result) (s : State) : (usbEnd r s).fCur = s.fCur := rfl
@[simp] theorem usbEnd_depth (r : Result) (s : State) : (usbEnd r s).depth = s.depth := rfl
@[simp] theorem usbEnd_volReq (r : Result) (s : State) : (usbEnd r s).volReq = s.volReq := rfl
@[simp] theorem usbEnd_volAcq (r : Result) (s : State) : (usbEnd r s).volAcq = s.volAcq := rfl
@[simp] theorem usbEnd_volSmooth (r : Result) (s : State) : (usbEnd r s).volSmooth = s.volSmooth := rfl
@[simp] theorem usbEnd_gain (r : Result) (s : State) : (usbEnd r s).gain = s.gain := rfl
@[simp] theorem usbEnd_mute (r : Result) (s : State) : (usbEnd r s).mute = s.mute := rfl
@[simp] theorem usbEnd_muteCur (r : Result) (s : State) : (usbEnd r s).muteCur = s.muteCur := rfl
@[simp] theorem usbEnd_pmSignal (r : Result) (s : State) : (usbEnd r s).pmSignal = s.pmSignal := rfl
@[simp] theorem usbEnd_pmCur (r : Result) (s : State) : (usbEnd r s).pmCur = s.pmCur := rfl
@[simp] theorem usbEnd_adj (r : Result) (s : State) : (usbEnd r s).adj = s.adj := rfl
@[simp] theorem usbEnd_r1 (r : Result) (s : State) : (usbEnd r s).r1 = s.r1 := rfl
@[simp] theorem usbEnd_r2 (r : Result) (s : State) : (usbEnd r s).r2 = s.r2 := rfl
@[simp] theorem usbEnd_schedState (r : Result) (s : State) : (usbEnd r s).schedState = s.schedState := rfl
@[simp] theorem usbEnd_qWr (r : Result) (s : State) : (usbEnd r s).qWr = s.qWr := rfl
@[simp] theorem usbEnd_qRd (r : Result) (s : State) : (usbEnd r s).qRd = s.qRd := rfl
@[simp] theorem usbEnd_qCnt (r : Result) (s : State) : (usbEnd r s).qCnt = s.qCnt := rfl
@[simp] theorem usbEnd_slots (r : Result) (s : State) : (usbEnd r s).slots = s.slots := rfl
@[simp] theorem usbEnd_timerEnabled (r : Result) (s : State) : (usbEnd r s).timerEnabled = s.timerEnabled := rfl
@[simp] theorem usbEnd_irqMask (r : Result) (s : State) : (usbEnd r s).irqMask = s.irqMask := rfl
@[simp] theorem usbEnd_dmaPend (r : Result) (s : State) : (usbEnd r s).dmaPend = s.dmaPend := rfl
@[simp] theorem usbEnd_dmaBusy (r : Result) (s : State) : (usbEnd r s).dmaBusy = s.dmaBusy := rfl
@[simp] theorem usbEnd_dmaCur (r : Result) (s : State) : (usbEnd r s).dmaCur = s.dmaCur := rfl
@[simp] theorem usbEnd_outRate (r : Result) (s : State) : (usbEnd r s).outRate = s.outRate := rfl
@[simp] theorem usbEnd_reinitBusy (r : Result) (s : State) : (usbEnd r s).reinitBusy = s.reinitBusy := rfl
@[simp] theorem usbEnd_reinitStep (r : Result) (s : State) : (usbEnd r s).reinitStep = s.reinitStep := rfl
@[simp] theorem usbEnd_pollBusy (r : Result) (s : State) : (usbEnd r s).pollBusy = s.pollBusy := rfl
@[simp] theorem usbEnd_pushBusy (r : Result) (s : State) : (usbEnd r s).pushBusy = false := rfl
@[simp] theorem usbEnd_d1 (r : Result) (s : State) : (usbEnd r s).d1 = s.d1 := rfl
@[simp] theorem usbEnd_d2 (r : Result) (s : State) : (usbEnd r s).d2 = s.d2 := rfl
@[simp] theorem usbEnd_outStream (r : Result) (s : State) : (usbEnd r s).outStream = s.outStream := rfl
@[simp] theorem usbEnd_dacEvents (r : Result) (s : State) : (usbEnd r s).dacEvents = s.dacEvents := rfl
@[simp] theorem usbEnd_booted (r : Result) (s : State) : (usbEnd r s).booted = s.booted := rfl
@[simp] theorem usbEnd_usb (r : Result) (s : State) : (usbEnd r s).usb = .idle := rfl
@[simp] theorem usbEnd_tick (r : Result) (s : State) : (usbEnd r s).tick = s.tick := rfl
@[simp] theorem usbEnd_poll (r : Result) (s : State) : (usbEnd r s).poll = s.poll := rfl
@[simp] theorem usbEnd_main (r : Result) (s : State) : (usbEnd r s).main = s.main := rfl
@[simp] theorem usbEnd_host (r : Result) (s : State) : (usbEnd r s).host = s.host := rfl
@[simp] theorem usbEnd_schedule (r : Result) (s : State) : (usbEnd r s).schedule = s.schedule := rfl
@[simp] theorem usbEnd_stream (r : Result) (s : State) : (usbEnd r s).stream = s.stream := rfl
@[simp] theorem usbEnd_responses (r : Result) (s : State) : (usbEnd r s).responses = s.responses ++ [⟨r, []⟩] := rfl
@[simp] theorem usbEnd_pcmFree (r : Result) (s : State) : (usbEnd r s).pcmFree = s.pcmFree := rfl

/-! ## tickEnd: the last micro-step of `TICK` or `ENG.RUN` -/

@[simp] theorem tickEnd_rb (r : Result) (vs : List Word) (s : State) : (tickEnd r vs s).rb = s.rb := rfl
@[simp] theorem tickEnd_fNom (r : Result) (vs : List Word) (s : State) : (tickEnd r vs s).fNom = s.fNom := rfl
@[simp] theorem tickEnd_fCur (r : Result) (vs : List Word) (s : State) : (tickEnd r vs s).fCur = s.fCur := rfl
@[simp] theorem tickEnd_depth (r : Result) (vs : List Word) (s : State) : (tickEnd r vs s).depth = s.depth := rfl
@[simp] theorem tickEnd_volReq (r : Result) (vs : List Word) (s : State) : (tickEnd r vs s).volReq = s.volReq := rfl
@[simp] theorem tickEnd_volAcq (r : Result) (vs : List Word) (s : State) : (tickEnd r vs s).volAcq = s.volAcq := rfl
@[simp] theorem tickEnd_volSmooth (r : Result) (vs : List Word) (s : State) :
    (tickEnd r vs s).volSmooth = s.volSmooth := rfl
@[simp] theorem tickEnd_gain (r : Result) (vs : List Word) (s : State) : (tickEnd r vs s).gain = s.gain := rfl
@[simp] theorem tickEnd_mute (r : Result) (vs : List Word) (s : State) : (tickEnd r vs s).mute = s.mute := rfl
@[simp] theorem tickEnd_muteCur (r : Result) (vs : List Word) (s : State) : (tickEnd r vs s).muteCur = s.muteCur := rfl
@[simp] theorem tickEnd_pmSignal (r : Result) (vs : List Word) (s : State) :
    (tickEnd r vs s).pmSignal = s.pmSignal := rfl
@[simp] theorem tickEnd_pmCur (r : Result) (vs : List Word) (s : State) : (tickEnd r vs s).pmCur = s.pmCur := rfl
@[simp] theorem tickEnd_adj (r : Result) (vs : List Word) (s : State) : (tickEnd r vs s).adj = s.adj := rfl
@[simp] theorem tickEnd_r1 (r : Result) (vs : List Word) (s : State) : (tickEnd r vs s).r1 = s.r1 := rfl
@[simp] theorem tickEnd_r2 (r : Result) (vs : List Word) (s : State) : (tickEnd r vs s).r2 = s.r2 := rfl
@[simp] theorem tickEnd_schedState (r : Result) (vs : List Word) (s : State) :
    (tickEnd r vs s).schedState = s.schedState := rfl
@[simp] theorem tickEnd_qWr (r : Result) (vs : List Word) (s : State) : (tickEnd r vs s).qWr = s.qWr := rfl
@[simp] theorem tickEnd_qRd (r : Result) (vs : List Word) (s : State) : (tickEnd r vs s).qRd = s.qRd := rfl
@[simp] theorem tickEnd_qCnt (r : Result) (vs : List Word) (s : State) : (tickEnd r vs s).qCnt = s.qCnt := rfl
@[simp] theorem tickEnd_slots (r : Result) (vs : List Word) (s : State) : (tickEnd r vs s).slots = s.slots := rfl
@[simp] theorem tickEnd_timerEnabled (r : Result) (vs : List Word) (s : State) :
    (tickEnd r vs s).timerEnabled = s.timerEnabled := rfl
@[simp] theorem tickEnd_irqMask (r : Result) (vs : List Word) (s : State) : (tickEnd r vs s).irqMask = s.irqMask := rfl
@[simp] theorem tickEnd_dmaPend (r : Result) (vs : List Word) (s : State) : (tickEnd r vs s).dmaPend = s.dmaPend := rfl
@[simp] theorem tickEnd_dmaBusy (r : Result) (vs : List Word) (s : State) : (tickEnd r vs s).dmaBusy = s.dmaBusy := rfl
@[simp] theorem tickEnd_dmaCur (r : Result) (vs : List Word) (s : State) : (tickEnd r vs s).dmaCur = s.dmaCur := rfl
@[simp] theorem tickEnd_outRate (r : Result) (vs : List Word) (s : State) : (tickEnd r vs s).outRate = s.outRate := rfl
@[simp] theorem tickEnd_reinitBusy (r : Result) (vs : List Word) (s : State) :
    (tickEnd r vs s).reinitBusy = s.reinitBusy := rfl
@[simp] theorem tickEnd_reinitStep (r : Result) (vs : List Word) (s : State) :
    (tickEnd r vs s).reinitStep = s.reinitStep := rfl
@[simp] theorem tickEnd_pollBusy (r : Result) (vs : List Word) (s : State) :
    (tickEnd r vs s).pollBusy = s.pollBusy := rfl
@[simp] theorem tickEnd_pushBusy (r : Result) (vs : List Word) (s : State) :
    (tickEnd r vs s).pushBusy = s.pushBusy := rfl
@[simp] theorem tickEnd_d1 (r : Result) (vs : List Word) (s : State) : (tickEnd r vs s).d1 = s.d1 := rfl
@[simp] theorem tickEnd_d2 (r : Result) (vs : List Word) (s : State) : (tickEnd r vs s).d2 = s.d2 := rfl
@[simp] theorem tickEnd_outStream (r : Result) (vs : List Word) (s : State) :
    (tickEnd r vs s).outStream = s.outStream := rfl
@[simp] theorem tickEnd_dacEvents (r : Result) (vs : List Word) (s : State) :
    (tickEnd r vs s).dacEvents = s.dacEvents := rfl
@[simp] theorem tickEnd_booted (r : Result) (vs : List Word) (s : State) : (tickEnd r vs s).booted = s.booted := rfl
@[simp] theorem tickEnd_usb (r : Result) (vs : List Word) (s : State) : (tickEnd r vs s).usb = s.usb := rfl
@[simp] theorem tickEnd_tick (r : Result) (vs : List Word) (s : State) : (tickEnd r vs s).tick = .idle := rfl
@[simp] theorem tickEnd_poll (r : Result) (vs : List Word) (s : State) : (tickEnd r vs s).poll = s.poll := rfl
@[simp] theorem tickEnd_main (r : Result) (vs : List Word) (s : State) : (tickEnd r vs s).main = s.main := rfl
@[simp] theorem tickEnd_host (r : Result) (vs : List Word) (s : State) : (tickEnd r vs s).host = s.host := rfl
@[simp] theorem tickEnd_schedule (r : Result) (vs : List Word) (s : State) :
    (tickEnd r vs s).schedule = s.schedule := rfl
@[simp] theorem tickEnd_stream (r : Result) (vs : List Word) (s : State) : (tickEnd r vs s).stream = s.stream := rfl
@[simp] theorem tickEnd_responses (r : Result) (vs : List Word) (s : State) :
    (tickEnd r vs s).responses = s.responses ++ [⟨r, vs⟩] := rfl
@[simp] theorem tickEnd_pcmFree (r : Result) (vs : List Word) (s : State) : (tickEnd r vs s).pcmFree = s.pcmFree := rfl

/-! ## pollEnd: the last micro-step of `TX.POLL` -/

@[simp] theorem pollEnd_rb (r : Result) (vs : List Word) (s : State) : (pollEnd r vs s).rb = s.rb := rfl
@[simp] theorem pollEnd_fNom (r : Result) (vs : List Word) (s : State) : (pollEnd r vs s).fNom = s.fNom := rfl
@[simp] theorem pollEnd_fCur (r : Result) (vs : List Word) (s : State) : (pollEnd r vs s).fCur = s.fCur := rfl
@[simp] theorem pollEnd_depth (r : Result) (vs : List Word) (s : State) : (pollEnd r vs s).depth = s.depth := rfl
@[simp] theorem pollEnd_volReq (r : Result) (vs : List Word) (s : State) : (pollEnd r vs s).volReq = s.volReq := rfl
@[simp] theorem pollEnd_volAcq (r : Result) (vs : List Word) (s : State) : (pollEnd r vs s).volAcq = s.volAcq := rfl
@[simp] theorem pollEnd_volSmooth (r : Result) (vs : List Word) (s : State) :
    (pollEnd r vs s).volSmooth = s.volSmooth := rfl
@[simp] theorem pollEnd_gain (r : Result) (vs : List Word) (s : State) : (pollEnd r vs s).gain = s.gain := rfl
@[simp] theorem pollEnd_mute (r : Result) (vs : List Word) (s : State) : (pollEnd r vs s).mute = s.mute := rfl
@[simp] theorem pollEnd_muteCur (r : Result) (vs : List Word) (s : State) : (pollEnd r vs s).muteCur = s.muteCur := rfl
@[simp] theorem pollEnd_pmSignal (r : Result) (vs : List Word) (s : State) :
    (pollEnd r vs s).pmSignal = s.pmSignal := rfl
@[simp] theorem pollEnd_pmCur (r : Result) (vs : List Word) (s : State) : (pollEnd r vs s).pmCur = s.pmCur := rfl
@[simp] theorem pollEnd_adj (r : Result) (vs : List Word) (s : State) : (pollEnd r vs s).adj = s.adj := rfl
@[simp] theorem pollEnd_r1 (r : Result) (vs : List Word) (s : State) : (pollEnd r vs s).r1 = s.r1 := rfl
@[simp] theorem pollEnd_r2 (r : Result) (vs : List Word) (s : State) : (pollEnd r vs s).r2 = s.r2 := rfl
@[simp] theorem pollEnd_schedState (r : Result) (vs : List Word) (s : State) :
    (pollEnd r vs s).schedState = s.schedState := rfl
@[simp] theorem pollEnd_qWr (r : Result) (vs : List Word) (s : State) : (pollEnd r vs s).qWr = s.qWr := rfl
@[simp] theorem pollEnd_qRd (r : Result) (vs : List Word) (s : State) : (pollEnd r vs s).qRd = s.qRd := rfl
@[simp] theorem pollEnd_qCnt (r : Result) (vs : List Word) (s : State) : (pollEnd r vs s).qCnt = s.qCnt := rfl
@[simp] theorem pollEnd_slots (r : Result) (vs : List Word) (s : State) : (pollEnd r vs s).slots = s.slots := rfl
@[simp] theorem pollEnd_timerEnabled (r : Result) (vs : List Word) (s : State) :
    (pollEnd r vs s).timerEnabled = s.timerEnabled := rfl
@[simp] theorem pollEnd_irqMask (r : Result) (vs : List Word) (s : State) : (pollEnd r vs s).irqMask = s.irqMask := rfl
@[simp] theorem pollEnd_dmaPend (r : Result) (vs : List Word) (s : State) : (pollEnd r vs s).dmaPend = s.dmaPend := rfl
@[simp] theorem pollEnd_dmaBusy (r : Result) (vs : List Word) (s : State) : (pollEnd r vs s).dmaBusy = s.dmaBusy := rfl
@[simp] theorem pollEnd_dmaCur (r : Result) (vs : List Word) (s : State) : (pollEnd r vs s).dmaCur = s.dmaCur := rfl
@[simp] theorem pollEnd_outRate (r : Result) (vs : List Word) (s : State) : (pollEnd r vs s).outRate = s.outRate := rfl
@[simp] theorem pollEnd_reinitBusy (r : Result) (vs : List Word) (s : State) :
    (pollEnd r vs s).reinitBusy = s.reinitBusy := rfl
@[simp] theorem pollEnd_reinitStep (r : Result) (vs : List Word) (s : State) :
    (pollEnd r vs s).reinitStep = s.reinitStep := rfl
@[simp] theorem pollEnd_pollBusy (r : Result) (vs : List Word) (s : State) : (pollEnd r vs s).pollBusy = false := rfl
@[simp] theorem pollEnd_pushBusy (r : Result) (vs : List Word) (s : State) :
    (pollEnd r vs s).pushBusy = s.pushBusy := rfl
@[simp] theorem pollEnd_d1 (r : Result) (vs : List Word) (s : State) : (pollEnd r vs s).d1 = s.d1 := rfl
@[simp] theorem pollEnd_d2 (r : Result) (vs : List Word) (s : State) : (pollEnd r vs s).d2 = s.d2 := rfl
@[simp] theorem pollEnd_outStream (r : Result) (vs : List Word) (s : State) :
    (pollEnd r vs s).outStream = s.outStream := rfl
@[simp] theorem pollEnd_dacEvents (r : Result) (vs : List Word) (s : State) :
    (pollEnd r vs s).dacEvents = s.dacEvents := rfl
@[simp] theorem pollEnd_booted (r : Result) (vs : List Word) (s : State) : (pollEnd r vs s).booted = s.booted := rfl
@[simp] theorem pollEnd_usb (r : Result) (vs : List Word) (s : State) : (pollEnd r vs s).usb = s.usb := rfl
@[simp] theorem pollEnd_tick (r : Result) (vs : List Word) (s : State) : (pollEnd r vs s).tick = s.tick := rfl
@[simp] theorem pollEnd_poll (r : Result) (vs : List Word) (s : State) : (pollEnd r vs s).poll = .idle := rfl
@[simp] theorem pollEnd_main (r : Result) (vs : List Word) (s : State) : (pollEnd r vs s).main = s.main := rfl
@[simp] theorem pollEnd_host (r : Result) (vs : List Word) (s : State) : (pollEnd r vs s).host = s.host := rfl
@[simp] theorem pollEnd_schedule (r : Result) (vs : List Word) (s : State) :
    (pollEnd r vs s).schedule = s.schedule := rfl
@[simp] theorem pollEnd_stream (r : Result) (vs : List Word) (s : State) : (pollEnd r vs s).stream = s.stream := rfl
@[simp] theorem pollEnd_responses (r : Result) (vs : List Word) (s : State) :
    (pollEnd r vs s).responses = s.responses ++ [⟨r, vs⟩] := rfl
@[simp] theorem pollEnd_pcmFree (r : Result) (vs : List Word) (s : State) : (pollEnd r vs s).pcmFree = s.pcmFree := rfl

end Sys2Proof.Machine
end

