-- ==== Sys2Proof/Tests/TestConfig.lean ====
section
/-! SUPPORT. The test configuration TC of 95_test_vectors.md section 0, with exact rational arithmetic for `F` (its vectors use
values that binary32 and binary64 hold exactly) and small states to run one step from. -/

namespace Sys2Proof.Tests

open Sys2Proof Sys2Proof.Machine

/-- An integer as a natural number: even codes are non-negative. -/
def zig (i : Int) : Nat := if 0 ≤ i then 2 * i.toNat else 2 * (-i).toNat - 1

/-- The integer of a code of `zig`. -/
def zag (n : Nat) : Int := if n % 2 = 0 then (n / 2 : Nat) else -(((n + 1) / 2 : Nat) : Int)

/-- The code of a rational: numerator above, denominator in the low 64 bits; code 0 is a NaN. -/
def ratCode (q : Rat) : FVal := if q.den < 2 ^ 64 then ⟨zig q.num * 2 ^ 64 + q.den⟩ else ⟨0⟩

/-- What a code of `ratCode` stands for. -/
def ratVal (v : FVal) : FNum :=
  if v.code % 2 ^ 64 = 0 then .nan else .fin (mkRat (zag (v.code / 2 ^ 64)) (v.code % 2 ^ 64))

/-- An operation on rationals as one on codes. -/
def ratOp (f : Rat → Rat → Rat) (a b : FVal) : FVal :=
  match ratVal a, ratVal b with
  | .fin p, .fin q => ratCode (f p q)
  | _, _ => ⟨0⟩

theorem ratVal_code_zero : ratVal (ratCode 0) = .fin 0 := by decide +kernel

theorem ratOp_zero (f : Rat → Rat → Rat) (a b : FVal) (p q : Rat) (ha : ratVal a = .fin p) (hb : ratVal b = .fin q)
    (h : f p q = 0) : ratVal (ratOp f a b) = .fin 0 := by
  simp only [ratOp, ha, hb, h, ratVal_code_zero]

/-- Exact rational arithmetic as a numerics record. -/
def ratNum : Numerics where
  val := ratVal
  ofInt i := ratCode i
  ofReal := ratCode
  add := ratOp (· + ·)
  sub := ratOp (· - ·)
  mul := ratOp (· * ·)
  ofInt_zero := ratVal_code_zero
  zero_mul z c q hz hc := ratOp_zero _ z c 0 q hz hc (by simp)
  mul_zero z c q hz hc := ratOp_zero _ c z q 0 hc hz (by simp)
  zero_add_zero y z hy hz := ratOp_zero _ y z 0 0 hy hz (by simp)
  zero_sub_zero y z hy hz := ratOp_zero _ y z 0 0 hy hz (by simp)

/-- `hT` of TC. -/
def hT : List FVal := [ratCode (1 / 2), ratCode 1, ratCode (1 / 2), ratCode 0]

/-- `qA` of TC. -/
def qA : Biquad := ⟨ratCode (1 / 2), ratCode (1 / 2), ratCode 0, ratCode 0, ratCode 0⟩

/-- The configuration TC; its volume curve here is the constant 1, the value of the suggested curve at volume code 0. -/
def tc : Config where
  num := ratNum
  capEp := 32
  capMid := 256
  r1Hi := .two
  r2Of pm := if pm then .x2 else .x1
  chain1
    | .x1 => []
    | .x2 => [.firi 2 2 hT]
    | .x4 => [.firi 2 2 hT, .rbq 2 [qA]]
    | .x8 => [.firi 2 2 hT, .rbq 2 [qA], .rbq 2 [qA]]
  chain2
    | .x1 => []
    | .x2 => [.rbq 2 [qA]]
    | .x4 => [.rbq 2 [qA], .rbq 2 [qA]]
  volCurve _ := ratCode 1
  fbLimit := 1000
  slotCap := 64
  renderBudget := none
  silenceWords := 4
  wordSize := .w32
  pcmFree _ := 0

/-- TC on a machine of one channel. -/
def monoConfig : Config :=
  { tc with
    nch := 1, nch_range := .inl rfl, slotCap_ge := by decide, silenceWords_ge := by decide, silenceWords_multiple := by decide }

end Sys2Proof.Tests
end

