-- ==== Sys2Proof/Tests/Slice0.lean ====
section
/-! SUPPORT. Tests of the model, each about one operation on a small state, and for every statement of
Certificates/Slice0/Obligations.lean that has hypotheses a state and operands that meet them. Expected values come from the worked
examples of 95_test_vectors.md (vector named at each test) or from the examples of the rule named. -/

namespace Sys2Proof.Tests

open Sys2Proof Sys2Proof.Machine

/-! ## Well-formedness: each check refuses an ill-formed term (R107) -/

theorem test_wf_refuses_long_writeN : (Instr.rbWriteN .ep0 (List.replicate (2 ^ 20) 0)).wf = false := by
  rw [Instr.wf, Instr.wfFor, List.length_replicate]; decide

theorem test_wf_refuses_long_readN : (Instr.rbReadN .ep0 (2 ^ 20)).wf = false := by decide

theorem test_wf_refuses_long_fltRun : (Instr.fltRun ⟨.chain1, .c0⟩ (List.replicate (2 ^ 20) 0)).wf = false := by
  rw [Instr.wf, Instr.wfFor, List.length_replicate]; decide

theorem test_wf_refuses_long_push : (Instr.usbPush (List.replicate (2 ^ 20) [0, 0])).wf = false := by
  rw [Instr.wf, Instr.wfFor, List.length_replicate, show countOk (2 ^ 20) = false by decide, Bool.false_and]

theorem test_wf_refuses_short_frame : (Instr.usbPush [[0, 0], [0]]).wf = false := by decide

theorem test_wf_accepts_longest_readN : (Instr.rbReadN .mid1 (2 ^ 20 - 1)).wf = true := by decide

/-! ## Decoding of words written out from R101, R103, R106, R107 (op 31:24, unit 23:20, arg 19:0) -/

theorem test_decode_rbInit : decode [0x01300001, 0x00000100] = .ok (.rbInit .mid1 true 256, []) := by decide
theorem test_decode_rbClear : decode [0x02100000] = .ok (.rbClear .ep1, []) := by decide
theorem test_decode_rbIsFull : decode [0x03000000] = .ok (.rbIsFull .ep0, []) := by decide
theorem test_decode_rbUsed : decode [0x04200000] = .ok (.rbUsed .mid0, []) := by decide
theorem test_decode_rbRemain : decode [0x05300000] = .ok (.rbRemain .mid1, []) := by decide
theorem test_decode_rbWrite1 : decode [0x06100000, 0x00000009] = .ok (.rbWrite1 .ep1 9, []) := by decide
theorem test_decode_rbRead1 : decode [0x07000000, 7] = .ok (.rbRead1 .ep0, [7]) := by decide
theorem test_decode_rbWriteN : decode [0x08200003, 0x0000000A, 0x00000014, 0x0000001E] = .ok (.rbWriteN .mid0 [10, 20, 30], []) := by
  decide
theorem test_decode_rbReadN : decode [0x09100005] = .ok (.rbReadN .ep1 5, []) := by decide
theorem test_decode_fltClear : decode [0x10200000] = .ok (.fltClear (.one ⟨.chain2, .c0⟩), []) := by decide
theorem test_decode_fltRun : decode [0x11300002, 1, 2] = .ok (.fltRun ⟨.chain2, .c1⟩ [1, 2], []) := by decide
theorem test_decode_usbPush : decode [0x20000001, 0x00000001, 0xFFFFFFFF] = .ok (.usbPush [[1, 0xFFFFFFFF]], []) := by decide
theorem test_decode_engRun : decode [0x21000000] = .ok (.engRun, []) := by decide
theorem test_decode_tick : decode [0x22000000] = .ok (.tick, []) := by decide
theorem test_decode_ctlAdj : decode [0x30000000] = .ok (.ctlAdj, []) := by decide
theorem test_decode_fbReport : decode [0x31000000] = .ok (.fbReport, []) := by decide
theorem test_decode_volSmooth : decode [0x32000000] = .ok (.volSmooth, []) := by decide
theorem test_decode_txPoll : decode [0x40000000] = .ok (.txPoll, []) := by decide
theorem test_decode_dmaDone : decode [0x41000000] = .ok (.dmaDone, []) := by decide
theorem test_decode_setRate : decode [0x50000000, 0x0000BB80] = .ok (.setRate 48000, []) := by decide
theorem test_decode_setDepth : decode [0x51000018] = .ok (.setDepth 24, []) := by decide
theorem test_decode_setVol : decode [0x5200C000] = .ok (.setVol (BitVec.ofInt 16 (-16384)), []) := by decide
theorem test_decode_setMute : decode [0x53000001] = .ok (.setMute true, []) := by decide
theorem test_decode_setPower : decode [0x54000000] = .ok (.setPower false, []) := by decide
theorem test_decode_reinit : decode [0x55000000] = .ok (.reinit, []) := by decide
theorem test_decode_mainPoll : decode [0x56000000] = .ok (.mainPoll, []) := by decide

/-- X1, X2. -/
theorem test_decode_refuses_op : decode [0x00000000] = .error .reservedOp ∧ decode [0xFFFFFFFF] = .error .reservedOp := by decide

/-- X3, X7, X8, X10, X18. -/
theorem test_decode_refuses_unit :
    decode [0x02400000] = .error .illegalUnit ∧ decode [0x10500000] = .error .illegalUnit ∧
    decode [0x11400000] = .error .illegalUnit ∧ decode [0x22100000] = .error .illegalUnit ∧
    decode [0x20100000] = .error .illegalUnit := by decide

/-- X4, X5, X11, X13, X15. -/
theorem test_decode_refuses_bits :
    decode [0x02000001] = .error .mustBeZero ∧ decode [0x01000002, 4] = .error .mustBeZero ∧
    decode [0x51000040] = .error .mustBeZero ∧ decode [0x52010000] = .error .mustBeZero ∧
    decode [0x53000002] = .error .mustBeZero := by decide

/-- X16. -/
theorem test_decode_refuses_truncated : decode [0x08000003, 1, 2] = .error .truncatedPayload := by decide

/-- The row of the opcode table whose 64 bits are the words `0x06100000 0x00000009`, the first word lowest. -/
theorem test_table_word : decodeTableWord 64 (9 * 2 ^ 32 + 0x06100000) = some (.rbWrite1 .ep1 9) := by decide

/-! ## Helpers -/

/-- What a step that answers a next state shows of it. -/
def after {α : Type} (o : Host.Outcome State Fault Refusal) (f : State → α) : Option α :=
  match o with
  | .next s => some (f s)
  | .fault _ | .refused _ => none

/-- The fault of a step that faults. -/
def faultOf (o : Host.Outcome State Fault Refusal) : Option Fault :=
  match o with
  | .fault f => some f
  | .next _ | .refused _ => none

/-- A buffer of capacity `cap` in locked mode with the elements `xs` from index 0 on. -/
def filled (cap : Nat) (xs : List Sample) : RingBuffer :=
  { RingBuffer.init true cap with wr := xs.length % cap, cnt := xs.length, mem := ⟨xs.zipIdx.map fun p => (p.2, p.1)⟩ }

/-- The registers of a buffer as 95_test_vectors.md writes them. -/
def regs (q : RingBuffer) : Nat × Nat × Nat := (q.wr, q.rd, q.cnt)

/-- The elements of a buffer's array from index 0 on. -/
def array (q : RingBuffer) (n : Nat) : List (Option Sample) := (List.range n).map q.mem.get

/-- A state of TC that runs at 48000 Hz, depth 16, volume 0, power mode 1. -/
def running (e0 e1 m0 m1 : RingBuffer) : State :=
  { State.resetOf tc with
    rb := ⟨e0, e1, m0, m1⟩, fNom := some .r48000, fCur := some .r48000, depth := some .d16, volReq := some 0
    mute := some false, pmSignal := some true, pmCur := some true, r1 := some .x8, r2 := some .x2, timerEnabled := true
    dmaBusy := true, booted := true }

/-- `running` with `k` elements 5 in each MID buffer and the EP buffers empty. -/
def midAt (k : Nat) : State :=
  running (filled 32 []) (filled 32 []) (filled 256 (List.replicate k 5)) (filled 256 (List.replicate k 5))

/-- The machine at reset with one buffer in place. -/
def oneBuf (q : RingBuffer) : State := { State.resetOf tc with rb := { (State.resetOf tc).rb with ep0 := q } }

/-- The last response. -/
def last (s : State) : Option Response := s.responses.getLast?

/-- What `oneBuf` shows after a step: the buffer's registers and the response. -/
def look (s : State) : (Nat × Nat × Nat) × Option Response := (regs s.rb.ep0, last s)

/-! ## Ring buffers -/

/-- Q1, Q2. -/
theorem test_rbInit :
    after (exec (.rbInit .ep0 true 0) (State.resetOf tc)) (fun s => (s.rb.ep0.valid, last s)) = some (false, some ⟨.initError, []⟩) ∧
    after (exec (.rbInit .ep0 false 8) (oneBuf (filled 4 []))) (fun s => (s.rb.ep0.cap, s.rb.ep0.mode, last s)) =
      some (4, true, some ⟨.initError, []⟩) := by decide

/-- Q8. -/
theorem test_rbClear :
    after (exec (.rbClear .ep0) (oneBuf { filled 4 [1, 2, 3] with wr := 1, rd := 2 }))
      (fun s => (regs s.rb.ep0, array s.rb.ep0 4, s.rb.ep0.cap, s.rb.ep0.valid)) =
      some ((0, 0, 0), [some 1, some 2, some 3, none], 4, true) := by decide

/-- R132: `ClearRace`. -/
theorem test_rbClear_race :
    faultOf (exec (.rbClear .ep0) (oneBuf { filled 4 [1] with consOp := some ⟨1, .checked, []⟩ })) = some .clearRace := by decide

/-- Q5. -/
theorem test_rbIsFull : after (exec (.rbIsFull .ep0) (oneBuf (filled 4 [1, 2, 3, 4]))) look =
    some ((0, 0, 4), some ⟨.ok, [1]⟩) := by decide

/-- S1, the third value of program P1. -/
theorem test_rbUsed : after (exec (.rbUsed .ep0) (oneBuf (filled 4 [1, 2, 3]))) look = some ((3, 0, 3), some ⟨.ok, [3]⟩) := by
  decide

/-- Q5. -/
theorem test_rbRemain : after (exec (.rbRemain .ep0) (oneBuf (filled 4 [1, 2, 3, 4]))) look =
    some ((0, 0, 4), some ⟨.ok, [0]⟩) := by decide

/-- Q7. -/
theorem test_rbWrite1 :
    after (exec (.rbWrite1 .ep0 7) (oneBuf (filled 1 []))) look = some ((0, 0, 1), some ⟨.ok, []⟩) ∧
    after (exec (.rbWrite1 .ep0 8) (oneBuf (filled 1 [7]))) look = some ((0, 0, 1), some ⟨.bufferFull, []⟩) := by decide

/-- Q7. -/
theorem test_rbRead1 :
    after (exec (.rbRead1 .ep0) (oneBuf (filled 1 [7]))) look = some ((0, 0, 0), some ⟨.ok, [7]⟩) ∧
    after (exec (.rbRead1 .ep0) (oneBuf (filled 1 []))) look = some ((0, 0, 0), some ⟨.bufferEmpty, []⟩) := by decide

/-- P1, the second write: index 3, then 0 and 1. -/
theorem test_rbWriteN_wraps :
    after (exec (.rbWriteN .ep0 [4, 5, 6]) (oneBuf { filled 4 [1, 2, 3] with rd := 2, cnt := 1 }))
      (fun s => (look s, array s.rb.ep0 4)) =
      some (((2, 2, 4), some ⟨.ok, []⟩), [some 5, some 6, some 3, some 4]) := by decide

/-- Q6. -/
theorem test_rbWriteN_full :
    after (exec (.rbWriteN .ep0 [1, 2, 3, 4, 5]) (oneBuf (filled 4 []))) (fun s => (look s, array s.rb.ep0 4)) =
      some (((0, 0, 0), some ⟨.bufferFull, []⟩), [none, none, none, none]) := by decide

/-- S3. -/
theorem test_rbReadN_wraps :
    after (exec (.rbReadN .ep0 4) (oneBuf { filled 4 [5, 6, 3, 4] with wr := 2, rd := 2 })) look =
      some ((2, 2, 0), some ⟨.ok, [3, 4, 5, 6]⟩) := by decide

/-- S3. -/
theorem test_rbReadN_few :
    after (exec (.rbReadN .ep0 5) (oneBuf { filled 4 [5, 6, 3, 4] with wr := 2, rd := 2 })) look =
      some ((2, 2, 4), some ⟨.insufficientData, []⟩) := by decide

/-! ## The phases of a write and a read: M1, M2 -/

/-- The buffer of M1 and M2. -/
def microBuf : State := oneBuf (filled 4 [1, 2, 3])

theorem test_micro_m1 :
    after (microAll [.start (.rbReadN .ep0 2), .start (.rbWriteN .ep0 [9]), .prod .ep0, .cons .ep0, .prod .ep0, .cons .ep0] microBuf)
      (fun s => (regs s.rb.ep0, array s.rb.ep0 4, s.responses)) =
      some ((0, 2, 2), [some 1, some 2, some 3, some 9], [⟨.ok, []⟩, ⟨.ok, [1, 2]⟩]) := by decide

theorem test_micro_m2 :
    after (microAll [.start (.rbWriteN .ep0 [9]), .prod .ep0, .start (.rbReadN .ep0 2), .cons .ep0, .cons .ep0, .prod .ep0] microBuf)
      (fun s => (regs s.rb.ep0, s.responses)) = some ((0, 2, 2), [⟨.ok, [1, 2]⟩, ⟨.ok, []⟩]) := by decide

/-- The refusal of a step that refuses. -/
def refusalOf (o : Host.Outcome State Fault Refusal) : Option Refusal :=
  match o with
  | .refused r => some r
  | .next _ | .fault _ => none

/-- R332, R335: a packet before boot has ended; R312: a clear outside REINIT; R57, U9: a read of a register without a value. -/
theorem test_micro_stops :
    refusalOf (micro (.start (.usbPush [])) State.reset) = some .notInitialised ∧
    refusalOf (micro (.start (.rbClear .ep0)) microBuf) = some .outsideOwnership ∧
    faultOf (micro (.start .volSmooth) { State.reset with booted := true }) = some .noValue := by decide

/-- R195: the check of the MID write leaves `d1`; `RunChain` runs with the copy phase. Seven micro-steps precede the check. -/
theorem test_micro_engine_phases :
    ((after (microAllOf tc (.start .engRun :: List.replicate 8 (.agent .ticka)) (running (filled 32 [64]) (filled 32 [0])
        (filled 256 []) (filled 256 []))) fun s => (s.rb.mid0.prodOp, decide (s.d1 = (State.resetOf tc).d1))) =
      some (some ⟨8, [], .checked⟩, true)) ∧
    (after (microAllOf tc (.start .engRun :: List.replicate 9 (.agent .ticka)) (running (filled 32 [64]) (filled 32 [0])
        (filled 256 []) (filled 256 []))) fun s => (s.rb.mid0.prodOp, decide (s.d1 = (State.resetOf tc).d1))) =
      some (some ⟨8, [8, 16, 24, 32, 40, 48, 56, 64], .copied⟩, false) := by decide +kernel

/-! ## Filters -/

/-- Integers as Samples. -/
def samples (l : List Int) : List Sample := l.map (BitVec.ofInt 32)

/-- The result of `RunChain` from zero delays. -/
def chainOut (chain : List Stage) (xs : List Int) (g : Option FVal) : Option (List Sample) :=
  match runChain ratNum chain (delaysOf ratNum chain) (samples xs) g with
  | .ok (ys, _) => some ys
  | .error _ => none

/-- F7. -/
theorem test_fltRun_f7 :
    after (fltRun tc ⟨.chain1, .c0⟩ (samples [64, -64]) { midAt 0 with r1 := some .x4 })
      (fun s => (last s, decide (s.d1.x4.c0 = [[ratCode (-64), ratCode 64], [ratCode (-64), ratCode (-64), ratCode (-64), ratCode (-32)]]))) =
      some (some ⟨.ok, samples [16, 32, 48, 64, 32, 0, -32, -64]⟩, true) := by decide +kernel

/-- F3. -/
theorem test_fltRun_f3 :
    after (fltRun tc ⟨.chain2, .c0⟩ (samples [4, 8, -4, 0]) (midAt 0)) last =
      some (some ⟨.ok, samples [2, 4, 6, 8, 2, -4, -2, 0]⟩) := by decide +kernel

/-- F11: the order of the cascade, and rounding toward zero of the output only. -/
theorem test_cascade_f11 :
    chainOut [.rbq 2 [⟨ratCode (1 / 2), ratCode (1 / 2), ratCode 0, ratCode 0, ratCode 0⟩,
      ⟨ratCode 1, ratCode 0, ratCode (-1), ratCode 0, ratCode (1 / 4)⟩]] [16, 0, 0] none =
      some (samples [8, 16, -2, -20, -7, 5]) := by decide +kernel

/-- F12: saturation. -/
theorem test_saturation_f12 :
    chainOut [.rbq 2 [⟨ratCode 2, ratCode 0, ratCode 0, ratCode 0, ratCode 0⟩]] [1073741824, -1073741824, 1073741760] none =
      some (samples [2147483647, 2147483647, -2147483648, -2147483648, 2147483520, 2147483520]) := by decide +kernel

/-- The gain example of section 2.2. -/
theorem test_gain :
    chainOut [] [65536, -65536, 3, -3] (some (ratCode (1 / 2))) = some (samples [32768, -32768, 1, -1]) := by decide +kernel

/-- R171: one chain and channel, then all; the other channel's array stays. -/
theorem test_fltClear :
    after (fltClear tc (.one ⟨.chain2, .c1⟩) { midAt 0 with d2 := ⟨⟨[], []⟩, ⟨[[⟨9⟩]], [[⟨9⟩]]⟩, ⟨[], []⟩⟩ })
      (fun s => (s.d2.x2.c0, s.d2.x2.c1)) = some ([[⟨9⟩]], [[ratNum.zero]]) ∧
    after (fltClear tc .all { midAt 0 with d2 := ⟨⟨[], []⟩, ⟨[[⟨9⟩]], [[⟨9⟩]]⟩, ⟨[], []⟩⟩ })
      (fun s => (s.d2.x2.c0, s.d2.x2.c1)) = some ([[ratNum.zero]], [[ratNum.zero]]) := by decide +kernel

/-! ## Ingestion, the engine, the tick -/

/-- G2. -/
theorem test_usbPush_g2 :
    after (usbPush tc [[8388607, BitVec.ofInt 32 (-8388608)], [1, BitVec.ofInt 32 (-1)]] { midAt 0 with depth := some .d24 })
      (fun s => (array s.rb.ep0 2, array s.rb.ep1 2, regs s.rb.ep1)) =
      some ((samples [2147483392, 256]).map some, (samples [-2147483648, -256]).map some, (2, 0, 2)) := by decide

/-- G4: a packet that does not fit both buffers is dropped whole. -/
theorem test_usbPush_g4 :
    after (usbPush tc [[1, 1], [2, 2], [3, 3]] { midAt 0 with rb := { (midAt 0).rb with ep1 := filled 32 (List.replicate 30 0) } })
      (fun s => (regs s.rb.ep0, regs s.rb.ep1, last s)) =
      some ((0, 0, 0), (30, 0, 30), some ⟨.bufferFull, []⟩) := by decide

/-- The first block of F6, by `ENG.RUN`: one Sample available of the twelve wanted. -/
theorem test_engRun_moves :
    after (engRun tc (running (filled 32 [64]) (filled 32 [0]) (filled 256 []) (filled 256 []))).outcome
      (fun s => (regs s.rb.ep0, array s.rb.mid0 8, regs s.rb.mid1, last s)) =
      some ((1, 1, 0), (samples [8, 16, 24, 32, 40, 48, 56, 64]).map some, (8, 0, 8), some ⟨.ok, [1]⟩) := by decide +kernel

/-- R193 with the numbers of E2: 88 outputs do not fit 32 free elements. -/
theorem test_engRun_full :
    after (engRun tc { running (filled 32 (List.replicate 12 1)) (filled 32 (List.replicate 12 1)) (filled 256 (List.replicate 224 5))
        (filled 256 (List.replicate 224 5)) with adj := -1 }).outcome (fun s => (regs s.rb.ep0, regs s.rb.mid0, last s)) =
      some ((12, 0, 12), (224, 0, 224), some ⟨.bufferFull, []⟩) := by decide +kernel

/-- E2 by `TICK`: `adj` is written, nothing is consumed. -/
theorem test_tick_full :
    after (tickOp tc (running (filled 32 (List.replicate 12 1)) (filled 32 (List.replicate 12 1)) (filled 256 (List.replicate 224 5))
        (filled 256 (List.replicate 224 5)))) (fun s => (s.adj, regs s.rb.ep0, regs s.rb.mid0, last s)) =
      some (-1, (12, 0, 12), (224, 0, 224), some ⟨.bufferFull, []⟩) := by decide +kernel

/-- G3, channel 1: rate 96000, ratio 4, Samples −2^31, −256, −2^31; 24 + 1 wanted, 3 available. -/
theorem test_tick_g3 :
    after (tickOp tc { running (filled 32 (samples [0, 0, 0])) (filled 32 (samples [-2147483648, -256, -2147483648])) (filled 256 [])
        (filled 256 []) with fCur := some .r96000, r1 := some .x4 }) (fun s => (array s.rb.mid1 4, s.adj, regs s.rb.mid0, last s)) =
      some ((samples [-536870912, -1073741824, -1610612736, -2147483648]).map some, 1, (12, 0, 12), some ⟨.ok, [3]⟩) := by
  decide +kernel

/-! ## A machine of one channel (R10: not more than two) -/

/-- The packet of one word per frame goes to `EP0` only, whatever `EP1` holds. -/
theorem test_usbPush_mono :
    after (usbPush monoConfig [[1], [2]] { midAt 0 with rb := { (midAt 0).rb with ep1 := filled 32 (List.replicate 32 0) } })
      (fun s => (array s.rb.ep0 2, regs s.rb.ep1, last s, s.pcmFree)) =
      some ((samples [65536, 131072]).map some, (0, 0, 32), some ⟨.ok, []⟩, 2) := by decide +kernel

/-- The engine moves channel 0 only. -/
theorem test_engRun_mono :
    after (engRun monoConfig (running (filled 32 [64]) (filled 32 []) (filled 256 []) (filled 256 []))).outcome
      (fun s => (regs s.rb.ep0, array s.rb.mid0 8, regs s.rb.mid1, last s)) =
      some ((1, 1, 0), (samples [8, 16, 24, 32, 40, 48, 56, 64]).map some, (0, 0, 0), some ⟨.ok, [1]⟩) := by decide +kernel

/-- Its micro-steps end after channel 0. -/
theorem test_micro_engRun_mono :
    after (microAllOf monoConfig (.start .engRun :: List.replicate 10 (.agent .ticka))
        (running (filled 32 [64]) (filled 32 []) (filled 256 []) (filled 256 [])))
      (fun s => (regs s.rb.mid0, regs s.rb.mid1, s.tick == .idle, last s)) =
      some ((8, 0, 8), (0, 0, 0), true, some ⟨.ok, [1]⟩) := by decide +kernel

/-- A render takes channel 0 only and puts one word per frame. -/
theorem test_txPoll_mono :
    after (txPoll monoConfig { running (filled 32 []) (filled 32 []) (filled 256 [4, 8]) (filled 256 []) with
        schedState := .streaming }).outcome
      (fun s => (regs s.rb.mid0, regs s.rb.mid1, s.slots.map (·.count), (List.range 4).map (s.slotAt 0).payload.getZero)) =
      some ((2, 2, 0), (0, 0, 0), [4, 0, 0], [2, 4, 6, 8]) := by decide +kernel

/-! ## The controller -/

/-- A3, A5. -/
theorem test_ctlAdj :
    after (exec .ctlAdj (midAt 127)) (fun s => (s.adj, last s)) = some (1, some ⟨.ok, [1]⟩) ∧
    after (exec .ctlAdj (midAt 129)) (fun s => (s.adj, last s)) = some (-1, some ⟨.ok, [0xFFFFFFFF]⟩) := by decide +kernel

/-- B2, B4. -/
theorem test_fbReport :
    after (fbReport tc (midAt 100)) last = some (some ⟨.ok, [0x000C0031]⟩) ∧
    after (fbReport tc (midAt 192)) last = some (some ⟨.ok, [0x000BFF7C]⟩) := by decide +kernel

/-- B7, B8: the clamp, with `FB_LIMIT` 10. -/
theorem test_fbReport_clamps :
    after (fbReport { tc with fbLimit := 10, fbLimit_lt := by decide } (midAt 0)) last = some (some ⟨.ok, [0x000C00A3]⟩) ∧
    after (fbReport { tc with fbLimit := 10, fbLimit_lt := by decide } (midAt 256)) last = some (some ⟨.ok, [0x000BFF5C]⟩) := by
  decide +kernel

/-- Section 2.7, tick 1. -/
theorem test_volSmooth :
    after (volSmooth tc { midAt 0 with volReq := some (BitVec.ofInt 16 (-2560)) })
      (fun s => (s.volAcq.toInt, decide (s.volSmooth = ratCode (-2176)))) = some (-2560, true) := by decide +kernel

/-! ## The scheduler and the transfer -/

/-- T2. -/
theorem test_txPoll_t2 :
    after (txPoll tc (midAt 129)).outcome (fun s => (s.schedState, regs s.rb.mid0, last s)) =
      some (.streaming, (129, 0, 129), some ⟨.ok, [1]⟩) := by decide +kernel

/-- T4, with the payload's first words from F4: `[4, 8]` gives 2, 4, 6, 8. -/
theorem test_txPoll_t4 :
    after (txPoll tc { running (filled 32 []) (filled 32 []) (filled 256 [4, 8, 0, 0, 0]) (filled 256 [0, 0, 0, 0, 0]) with
        schedState := .streaming }).outcome
      (fun s => (regs s.rb.mid0, s.qCnt, s.slots.map (·.count), (List.range 7).map (s.slotAt 0).payload.getZero)) =
      some ((5, 5, 0), 1, [20, 0, 0], [2, 0, 4, 0, 6, 0, 8]) := by decide +kernel

/-- T10: slot 1 is armed. -/
theorem test_dmaDone_t10 :
    after (OpRes.outcome (.ok (dmaDone tc { midAt 0 with
        qWr := 0, qRd := 1, qCnt := 2, slots := [.zeroed, ⟨2, ⟨[(0, 7), (1, 9)]⟩⟩, .zeroed] })))
      (fun s => ([s.qWr, s.qRd, s.qCnt], s.dmaCur, s.outStream, last s)) =
      some ([0, 2, 1], ⟨2, [7, 9]⟩, [⟨2, [7, 9]⟩], some ⟨.ok, [1]⟩) := by decide +kernel

/-- T11, T12. -/
theorem test_dmaDone_silence :
    after (OpRes.outcome (.ok (dmaDone tc (midAt 0)))) (fun s => (s.dmaCur, last s)) =
      some (⟨4, [0, 0, 0, 0]⟩, some ⟨.ok, [0]⟩) ∧
    after (OpRes.outcome (.ok (dmaDone tc (State.resetOf tc)))) (fun s => (s.dmaCur, last s)) =
      some (⟨0, []⟩, some ⟨.held, []⟩) := by decide +kernel

/-- Section 2.9, S9: `OutWord` at word size 16. -/
theorem test_outWord : outWord { tc with wordSize := .w16 } 0x02468000 = 0x0246 ∧
    outWord { tc with wordSize := .w16 } (BitVec.ofInt 32 (-16384)) = 0xFFFF := by decide +kernel

/-! ## Control writes, REINIT, the main loop -/

/-- K1. -/
theorem test_setRate :
    after (exec (.setRate 12345) (midAt 0)) (fun s => (s.fNom, last s)) = some (some .r48000, some ⟨.ok, []⟩) ∧
    after (exec (.setRate 44100) (midAt 0)) (fun s => s.fNom) = some (some .r44100) := by decide +kernel

/-- X12, K7. -/
theorem test_setDepth :
    after (exec (.setDepth 20) (midAt 0)) (fun s => (s.depth, last s)) = some (some .d16, some ⟨.ok, []⟩) ∧
    after (exec (.setDepth 24) (midAt 0)) (fun s => s.depth) = some (some .d24) := by decide +kernel

/-- Section 2.7: −16384 is accepted, −16385 and 1 are ignored. -/
theorem test_setVol :
    after (exec (.setVol 0xC000) (midAt 0)) (fun s => s.volReq) = some (some 0xC000) ∧
    after (exec (.setVol 0xBFFF) (midAt 0)) (fun s => s.volReq) = some (some 0) ∧
    after (exec (.setVol 1) (midAt 0)) (fun s => (s.volReq, last s)) = some (some 0, some ⟨.ok, []⟩) := by decide +kernel

/-- R263. -/
theorem test_setMute : after (exec (.setMute true) (midAt 0)) (fun s => (s.mute, s.muteCur)) = some (some true, false) := by
  decide +kernel

/-- P4: `SET.POWER 0` writes `pm_signal`, nothing else. -/
theorem test_setPower : after (exec (.setPower false) (midAt 0)) (fun s => (s.pmSignal, s.pmCur)) = some (some false, some true) := by
  decide +kernel

/-- K4: rate 192000 at power 0 gives ratio 2 and output rate 384000. -/
theorem test_reinit_k4 :
    after (reinitOp tc { midAt 9 with fNom := some .r192000, pmSignal := some false })
      (fun s => (s.r1, s.outRate, s.dacEvents, s.outStream)) =
      some (some .x2, some 384000, [.applyConfig], [⟨4, [0, 0, 0, 0]⟩]) := by decide +kernel

/-- K8: no `SET.*` issued. -/
theorem test_reinit_k8 :
    after (reinitOp tc { State.resetOf tc with rb := (midAt 0).rb }) (fun s => (last s, s.dacEvents)) =
      some (some ⟨.notInitialised, []⟩, []) := by decide +kernel

/-- K5. -/
theorem test_mainPoll_k5 :
    after (mainPoll tc { midAt 9 with mute := some true }) (fun s => (s.muteCur, s.dacEvents, last s)) =
      some (true, [.setMute, .applyConfig], some ⟨.ok, [1]⟩) := by decide +kernel

/-- K6. -/
theorem test_mainPoll_k6 :
    after (mainPoll tc { midAt 9 with muteCur := true }) (fun s => (s.muteCur, s.dacEvents, regs s.rb.mid0, last s)) =
      some (false, [.setUnmute], (9, 0, 9), some ⟨.ok, [2]⟩) := by decide +kernel

/-- X5: the illegal word is passed over, its payload word is decoded next. -/
theorem test_step_x5 :
    after (step { State.resetOf tc with stream := [0x01000002, 4] }) (fun s => (s.stream, last s, s.rb.ep0.valid)) =
      some ([4], some ⟨.illegalCommand, []⟩, false) := by decide +kernel


/-! ## Witnesses: states and operands that meet the hypotheses of the statements

`witness_<name>` is about `Obligations.<name>`, one conjunct for each clause with hypotheses of its own, at boundary values. A statement
about the opaque `Config.current` is witnessed by the rate 192000 and the ratio 1 of both chains, whose stage lists are empty. -/

/-- A locked buffer of capacity `cap` with `n` elements 0. -/
def zeros (cap n : Nat) : RingBuffer := filled cap (List.replicate n 0)

/-- A state that runs under a configuration, with the given buffers; its gain is F zero, which is finite whatever `F` is. -/
def stateOf (c : Config) (e0 e1 m0 m1 : RingBuffer) : State :=
  { State.resetOf c with
    rb := ⟨e0, e1, m0, m1⟩, fNom := some .r48000, fCur := some .r192000, depth := some .d16, volReq := some 0, gain := c.num.zero
    mute := some false, pmSignal := some true, pmCur := some true, r1 := some .x1, r2 := some .x1, timerEnabled := true
    booted := true }

/-- A state of the machine that runs, with the given buffers. -/
def wState (e0 e1 m0 m1 : RingBuffer) : State := stateOf Config.current e0 e1 m0 m1

/-- Every buffer holds 1 of 4. -/
def w1 : State := wState (zeros 4 1) (zeros 4 1) (zeros 4 1) (zeros 4 1)

/-- The plain conditions of the invariant of a buffer with nothing in flight. -/
theorem inv_of {q : RingBuffer} (h : q.mem.wf = true ∧ q.lock = .free ∧ q.valid = true ∧ q.Bounds ∧
    q.contents.all Option.isSome = true ∧ q.prodOp = none ∧ q.consOp = none) : q.Inv := by
  obtain ⟨hm, hl, hv, hb, hc, hp, ho⟩ := h
  have hn : q.valid = false → q.cnt = 0 ∧ q.prodOp = none ∧ q.consOp = none := by rw [hv]; intro hf; cases hf
  refine ⟨hm, hl, hn, fun _ => ⟨hb, List.all_eq_true.mp hc, ?_, ?_⟩⟩
  · intro op hop; rw [hp] at hop; cases hop
  · intro op hop; rw [ho] at hop; cases hop

/-- Buffers with nothing in flight, no agent being in an operation. -/
theorem buffers_of {s : State} (h0 : s.rb.ep0.Inv) (h1 : s.rb.ep1.Inv) (h2 : s.rb.mid0.Inv) (h3 : s.rb.mid1.Inv)
    (hi : s.usb = .idle ∧ s.tick = .idle ∧ s.poll = .idle) : s.BuffersInv :=
  ⟨h0, h1, h2, h3, by rw [hi.2.1]; trivial, fun h => absurd hi.1 h, fun h => absurd hi.2.1 h, fun h => absurd hi.2.2 h⟩

theorem w1_inv : (zeros 4 1).Inv := inv_of (by decide)

theorem w1_buffers : w1.BuffersInv := buffers_of w1_inv w1_inv w1_inv w1_inv (by decide)

/-- A Sample 0 is a number that counts as zero, also after a gain. -/
theorem chainInput_zero (n : Numerics) (g : Option FVal) (hg : ∀ v ∈ g, finiteF n v) : n.val (chainInput n g 0) = .fin 0 := by
  cases g with
  | none => exact n.ofInt_zero
  | some g => obtain ⟨q, hq⟩ := hg g rfl; exact n.zero_mul _ _ q n.ofInt_zero hq

/-- A chain of no stage gives back Samples 0. -/
theorem runChain_nil (n : Numerics) (ds : Delays) (k : Nat) (g : Option FVal) (hg : ∀ v ∈ g, finiteF n v) :
    runChain n [] ds (List.replicate k 0) g = .ok (List.replicate k 0, []) := by
  have h : ∀ k, satAll n (List.replicate k (chainInput n g 0)) = .ok (List.replicate k 0) := by
    intro k
    induction k with
    | zero => rfl
    | succ k ih =>
      have hs : sat32 n (chainInput n g 0) = .ok 0 := by
        simp only [sat32, chainInput_zero n g hg]
        norm_num
        rfl
      simp only [List.replicate_succ, satAll, hs, ih]
  simp only [runChain, runStages, List.map_replicate, h k]

theorem zero_finite (c : Config) : finiteF c.num c.num.zero := ⟨0, c.num.ofInt_zero⟩

theorem witness_DecodeOfEncode :
    (Instr.rbReadN .mid1 (2 ^ 20 - 1)).wf = true ∧ (Instr.usbPush [[1, 2]]).wfFor tc.nch = true ∧
      (Instr.usbPush [[1], [2]]).wfFor monoConfig.nch = true := by decide

theorem witness_EncodeOfDecode :
    decode [0x20000001, 1, 0xFFFFFFFF, 5] = .ok (.usbPush [[1, 0xFFFFFFFF]], [5]) ∧
      decodeFor monoConfig.nch [0x20000001, 1, 0xFFFFFFFF, 5] = .ok (.usbPush [[1]], [0xFFFFFFFF, 5]) := by decide

theorem witness_PayloadLengthOfEncoding :
    (Instr.usbPush [[1, 2]]).wf = true ∧ (Instr.rbWriteN .ep0 []).wf = true := by decide

theorem illegal_of {w : Word} {u k : Nat} (h : operandBounds (opField w) = some (u, k))
    (h' : u < unitField w ∨ 2 ^ k ≤ argField w) : IllegalWord w := by
  intro u' k' e
  rw [h] at e
  cases e
  exact h'

/-- An unknown `op`, a `unit` one above its bound, the lowest bit above `arg`'s. -/
theorem witness_IllegalCommandWord :
    (IllegalWord 0x0A000000 ∧ IllegalWord 0x02400000 ∧ IllegalWord 0x51000040) ∧
    ∃ s : State, s.schedule = [] ∧ s.stream = 0x02400000 :: [1] := by
  refine ⟨⟨?_, illegal_of (u := 3) (k := 0) (by decide) (by decide), illegal_of (u := 0) (k := 6) (by decide) (by decide)⟩,
    { State.reset with stream := [0x02400000, 1] }, rfl, rfl⟩
  intro u k h
  have hn : operandBounds (opField 0x0A000000) = none := by decide
  rw [hn] at h
  cases h

theorem witness_TruncatedPayloadConsumesNothing :
    ∃ s : State, (Instr.rbWriteN .ep0 [1, 2, 3]).wf = true ∧ 0 < 3 ∧ 3 < (encode (.rbWriteN .ep0 [1, 2, 3])).length ∧
      s.schedule = [] ∧ s.stream = (encode (.rbWriteN .ep0 [1, 2, 3])).take 3 :=
  ⟨{ State.reset with stream := (encode (.rbWriteN .ep0 [1, 2, 3])).take 3 }, by decide, by decide, by decide, rfl, rfl⟩

theorem witness_StepRunsDecodedInstruction :
    ∃ s : State, s.schedule = [] ∧ decode s.stream = .ok (.tick, [7]) :=
  ⟨{ State.reset with stream := [0x22000000, 7] }, rfl, by decide⟩

theorem witness_RbInitResult :
    (w1.buf .ep0).valid = true ∧ (State.reset.buf .ep0).valid = false ∧ (1 : Word) ≠ 0 ∧ (0xFFFFFFFF : Word) ≠ 0 := by decide

theorem witness_RbClearResult :
    ((w1.buf .mid1).valid = true ∧ (w1.buf .mid1).prodOp = none ∧ (w1.buf .mid1).consOp = none) ∧
    ∃ s : State, (s.buf .ep0).valid = true ∧ (s.buf .ep0).prodOp ≠ none :=
  ⟨by decide, w1.setBuf .ep0 { zeros 4 1 with prodOp := some ⟨0, [], .checked⟩ }, by decide, by decide⟩

theorem witness_ObserversReturnCounts : (w1.buf .ep1).valid = true := by decide

theorem witness_InvalidBufferNotInitialised : (State.reset.buf .mid0).valid = false := by decide

/-- A write that fills the buffer, and one element more. -/
theorem witness_WriteStoresFromCursor :
    (w1.buf .ep0).valid = true ∧ (w1.buf .ep0).Inv ∧ w1.producerFree .ep0 = true ∧
    ([1, 2, 3] : List Sample).length = (w1.buf .ep0).cap - (w1.buf .ep0).cnt ∧
    (w1.buf .ep0).cap - (w1.buf .ep0).cnt < ([1, 2, 3, 4] : List Sample).length :=
  ⟨by decide, w1_inv, by decide, by decide, by decide⟩

/-- A read of all there is, one element more, and an empty buffer. -/
theorem witness_ReadReturnsOldest :
    ((w1.buf .mid0).valid = true ∧ (w1.buf .mid0).Inv ∧ w1.consumerFree .mid0 = true ∧
      1 ≤ (w1.buf .mid0).cnt ∧ (w1.buf .mid0).cnt < 2 ∧ 0 < (w1.buf .mid0).cnt) ∧
    ((w1.setBuf .mid0 (zeros 4 0)).buf .mid0).valid = true ∧ ((w1.setBuf .mid0 (zeros 4 0)).buf .mid0).Inv ∧
      (w1.setBuf .mid0 (zeros 4 0)).consumerFree .mid0 = true ∧ ((w1.setBuf .mid0 (zeros 4 0)).buf .mid0).cnt = 0 :=
  ⟨⟨by decide, w1_inv, by decide⟩, by decide, inv_of (by decide), by decide⟩

theorem witness_BufferRefinesQueue :
    (w1.buf .ep0).valid = true ∧ (w1.buf .ep0).Inv ∧ w1.producerFree .ep0 = true ∧ w1.consumerFree .ep0 = true ∧
      (w1.buf .ep0).contents = ([0] : List Sample).map some := ⟨by decide, w1_inv, by decide⟩

/-- A write and a read in flight, and an agent in an operation that has none in flight. -/
theorem witness_SecondProducerOrConsumerRefused :
    (∃ s : State, (s.buf .ep0).valid = true ∧ (s.buf .ep0).prodOp ≠ none ∧ (s.buf .ep0).consOp ≠ none) ∧
    (∃ s : State, (s.buf .ep0).valid = true ∧ (s.buf .ep0).prodOp = none ∧ s.agentIdle (producerOf .ep0) = false) ∧
    (∃ s : State, (s.buf .mid1).valid = true ∧ (s.buf .mid1).consOp = none ∧ s.agentIdle (consumerOf .mid1) = false) :=
  ⟨⟨w1.setBuf .ep0 { zeros 4 1 with prodOp := some ⟨0, [], .checked⟩, consOp := some ⟨1, .checked, []⟩ }, by decide, by decide, by decide⟩,
    ⟨{ w1 with usb := .readEp0 .d16 [] }, by decide⟩, ⟨{ w1 with poll := .readMid0 }, by decide⟩⟩

/-- A locked buffer with room and elements, an unlocked one, a full one and an empty one. -/
theorem witness_PhasesAgreeWithSequential :
    ((w1.buf .ep0).valid = true ∧ (w1.buf .ep0).Inv ∧ w1.producerFree .ep0 = true ∧ w1.consumerFree .ep0 = true ∧
      (w1.buf .ep0).mode = true ∧ ([1, 2, 3] : List Sample).length = (w1.buf .ep0).cap - (w1.buf .ep0).cnt ∧
      (w1.buf .ep0).cap - (w1.buf .ep0).cnt < ([1, 2, 3, 4] : List Sample).length ∧ 1 = (w1.buf .ep0).cnt ∧ (w1.buf .ep0).cnt < 2) ∧
    (∃ s : State, (s.buf .ep0).valid = true ∧ (s.buf .ep0).Inv ∧ s.producerFree .ep0 = true ∧ s.consumerFree .ep0 = true ∧
      (s.buf .ep0).mode = false) ∧
    (∃ s : State, (s.buf .ep0).valid = true ∧ (s.buf .ep0).Inv ∧ s.producerFree .ep0 = true ∧ (s.buf .ep0).cnt = (s.buf .ep0).cap) ∧
    (∃ s : State, (s.buf .ep0).valid = true ∧ (s.buf .ep0).Inv ∧ s.consumerFree .ep0 = true ∧ (s.buf .ep0).cnt = 0) :=
  ⟨⟨by decide, w1_inv, by decide⟩, ⟨w1.setBuf .ep0 { zeros 4 1 with mode := false }, by decide, inv_of (by decide), by decide⟩,
    ⟨w1.setBuf .ep0 (zeros 4 4), by decide, inv_of (by decide), by decide⟩,
    ⟨w1.setBuf .ep0 (zeros 4 0), by decide, inv_of (by decide), by decide⟩⟩

/-- The operands of M1 and M2 stand in `test_micro_m1` and `test_micro_m2`, two of the interleavings. -/
theorem witness_InterleavingsOfWriteAndReadAgree :
    ((microBuf.buf .ep0).valid = true ∧ (microBuf.buf .ep0).mode = true ∧ (microBuf.buf .ep0).Inv ∧
      microBuf.producerFree .ep0 = true ∧ microBuf.consumerFree .ep0 = true ∧
      ([9] : List Sample).length ≤ (microBuf.buf .ep0).cap - (microBuf.buf .ep0).cnt ∧ 2 ≤ (microBuf.buf .ep0).cnt) ∧
    ∃ es : List Event, List.Perm es [.start (.rbWriteN .ep0 [9]), .prod .ep0, .prod .ep0, .start (.rbReadN .ep0 2), .cons .ep0, .cons .ep0] ∧
      List.Sublist [.start (.rbWriteN .ep0 [9]), .prod .ep0, .prod .ep0] es ∧
      List.Sublist [.start (.rbReadN .ep0 2), .cons .ep0, .cons .ep0] es :=
  ⟨⟨by decide, by decide, inv_of (by decide), by decide⟩, [.start (.rbReadN .ep0 2), .start (.rbWriteN .ep0 [9]), .prod .ep0, .cons .ep0, .prod .ep0, .cons .ep0],
    by decide, by decide, by decide⟩

theorem witness_HeldLockDelaysPublish :
    ∃ (s : State) (op : ProdOp) (rop : ConsOp), (s.buf .ep0).mode = true ∧ (s.buf .ep0).lock = .held .ticka ∧
      (s.buf .ep0).prodOp = some op ∧ op.phase = .copied ∧ s.agentIdle (producerOf .ep0) = true ∧
      (s.buf .ep0).consOp = some rop ∧ rop.phase = .copied ∧ s.agentIdle (consumerOf .ep0) = true :=
  ⟨w1.setBuf .ep0 { zeros 4 1 with lock := .held .ticka, prodOp := some ⟨0, [], .copied⟩, consOp := some ⟨1, .copied, [0]⟩ },
    ⟨0, [], .copied⟩, ⟨1, .copied, [0]⟩, by decide⟩

theorem witness_FltRunRunsChain :
    (w1.r1 = some .x1 ∧ runChain Config.current.num (Config.current.chain1 .x1) ((w1.d1.get .x1).get .c1) [0, 0] none =
      .ok ([0, 0], [])) ∧
    (w1.r2 = some .x1 ∧ runChain Config.current.num (Config.current.chain2 .x1) ((w1.d2.get .x1).get .c1) [0, 0] none =
      .ok ([0, 0], [])) ∧ State.reset.r1 = none ∧ State.reset.r2 = none := by
  refine ⟨⟨rfl, ?_⟩, ⟨rfl, ?_⟩, rfl, rfl⟩
  · rw [Config.current.chain1_x1]; exact runChain_nil _ _ 2 none (by simp)
  · rw [Config.current.chain2_x1]; exact runChain_nil _ _ 2 none (by simp)

theorem witness_ZeroInputZeroOutput :
    (∀ st ∈ tc.chain1 .x8, finiteCoeffs ratNum st) ∧ Delays.Zeros ratNum (delaysOf ratNum (tc.chain1 .x8)) ∧
    (∀ v ∈ [ratNum.zero, ratNum.zero], zeroF ratNum v) ∧ ∀ v ∈ some (ratCode (1 / 2)), finiteF ratNum v := by
  have hz : ratVal (ratCode 0) = .fin 0 := ratVal_code_zero
  have h1 : finiteF ratNum (ratCode 1) := ⟨1, by decide +kernel⟩
  have h2 : finiteF ratNum (ratCode (1 / 2)) := ⟨1 / 2, by decide +kernel⟩
  have h0 : finiteF ratNum (ratCode 0) := ⟨0, hz⟩
  refine ⟨?_, ?_, ?_, ?_⟩
  · intro st hst
    simp only [tc, List.mem_cons, List.not_mem_nil, or_false] at hst
    rcases hst with rfl | rfl | rfl
    · intro v hv
      simp only [hT, List.mem_cons, List.not_mem_nil, or_false] at hv
      rcases hv with rfl | rfl | rfl | rfl <;> assumption
    · simp only [finiteCoeffs, List.mem_cons, List.not_mem_nil, or_false, qA]; rintro b rfl; exact ⟨h2, h2, h0, h0, h0⟩
    · simp only [finiteCoeffs, List.mem_cons, List.not_mem_nil, or_false, qA]; rintro b rfl; exact ⟨h2, h2, h0, h0, h0⟩
  · intro a ha v hv
    simp only [delaysOf, List.mem_map] at ha
    obtain ⟨st, -, rfl⟩ := ha
    rw [List.eq_of_mem_replicate hv]
    exact hz
  · simp only [List.mem_cons, List.not_mem_nil, or_false, or_self]; rintro v rfl; exact hz
  · rintro v ⟨⟩; exact h2

/-- A numerics record with a NaN and both infinities. -/
def infNum : Numerics where
  val v := if v.code = 1 then .nan else if v.code = 2 then .inf false else if v.code = 3 then .inf true else .fin 0

theorem witness_SaturationRoundsTowardZero :
    infNum.val ⟨1⟩ = .nan ∧ infNum.val ⟨2⟩ = .inf false ∧ infNum.val ⟨3⟩ = .inf true ∧
    ratNum.val (ratCode 2147483647) = .fin 2147483647 ∧ ratNum.val (ratCode (-2147483648)) = .fin (-2147483648) ∧
    ratNum.val (ratCode (-15 / 2)) = .fin (-15 / 2) := by decide +kernel

theorem witness_PcmLeftJustified :
    -2 ^ (Depth.d16.bits - 1) ≤ (BitVec.ofInt 32 (-32768)).toInt ∧
    (BitVec.ofInt 32 32767).toInt ≤ 2 ^ (Depth.d16.bits - 1) - 1 ∧
    (BitVec.ofInt 32 (-32768)).toInt ≤ 2 ^ (Depth.d16.bits - 1) - 1 ∧
    -2 ^ (Depth.d32.bits - 1) ≤ (BitVec.ofInt 32 (-2147483648)).toInt := by decide

/-- A packet during REINIT, one with no depth, one that fills the buffers, and one frame more. -/
theorem witness_UsbPushAllOrNothing :
    (∃ s : State, s.usbcbBlocked = none ∧ s.reinitBusy = true) ∧
    (State.reset.usbcbBlocked = none ∧ State.reset.reinitBusy = false ∧ State.reset.depth = none) ∧
    (w1.usbcbBlocked = none ∧ w1.reinitBusy = false ∧ w1.depth = some .d16 ∧ w1.rb.ep0.valid = true ∧ w1.rb.ep1.valid = true ∧
      w1.BuffersInv ∧ (List.replicate 3 ([1, 2] : PcmFrame)).length ≤ min (w1.rb.ep0.cap - w1.rb.ep0.cnt) (w1.rb.ep1.cap - w1.rb.ep1.cnt) ∧
      min (w1.rb.ep0.cap - w1.rb.ep0.cnt) (w1.rb.ep1.cap - w1.rb.ep1.cnt) < (List.replicate 4 ([1, 2] : PcmFrame)).length) :=
  ⟨⟨{ w1 with reinitBusy := true }, by decide, rfl⟩, by decide, by decide, by decide, by decide, by decide, by decide, w1_buffers, by decide⟩

/-- A configuration whose numbers are all 0 but one, quick to evaluate. -/
def plainConfig : Config where
  num := {}
  r1Hi := .two
  r2Of _ := .x1
  volCurve _ := ⟨0⟩
  fbLimit := 10
  renderBudget := none
  wordSize := .w32
  pcmFree _ := 0

/-- The engine may run on buffers of zeros. -/
theorem eng_ready {c : Config} {e0 e1 m0 m1 : RingBuffer} (h0 : e0.Inv) (h1 : e1.Inv) (h2 : m0.Inv) (h3 : m1.Inv)
    (hv : (stateOf c e0 e1 m0 m1).allValid = true) (hb : (stateOf c e0 e1 m0 m1).tickaBlocked = none) :
    (stateOf c e0 e1 m0 m1).EngReady .r192000 .x1 :=
  ⟨rfl, rfl, hv, hb, buffers_of h0 h1 h2 h3 ⟨rfl, rfl, rfl⟩⟩

/-- Samples 0 in both EP buffers give no NaN at ratio 1 and a finite gain. -/
theorem chain1_defined {c : Config} {s : State} {n : Nat} (hg : finiteF c.num s.gain)
    (h0 : s.rb.ep0.contents.take n = (List.replicate n 0).map some)
    (h1 : s.rb.ep1.contents.take n = (List.replicate n 0).map some) : s.Chain1Defined c .x1 n := by
  have key : ∀ (ds : Delays) (x : List Sample) (l : List (Option Sample)), l = (List.replicate n 0).map some → x.map some = l →
      ∃ p, runChain c.num (c.chain1 .x1) ds x (some s.gain) = .ok p := by
    intro ds x l hl hx
    rw [hl] at hx
    rw [List.map_injective_iff.mpr (Option.some_injective _) hx, c.chain1_x1]
    exact ⟨_, runChain_nil _ _ n _ (by rintro v ⟨⟩; exact hg)⟩
  exact ⟨fun x hx => key _ x _ h0 hx, fun _ x hx => key _ x _ h1 hx⟩

/-- No input, outputs that exactly fill the MID buffers, and outputs that do not fit by one. -/
theorem witness_EngRunMovesSamples :
    (∃ s : State, s.EngReady .r192000 .x1 ∧
      ((0 : Nat) : Int) = min (max ((Rate.r192000.hz * 250 / 1000000 : Nat) + s.adj) 0) (s.avail Config.current)) ∧
    (∃ s : State, s.EngReady .r192000 .x1 ∧
      ((1 : Nat) : Int) = min (max ((Rate.r192000.hz * 250 / 1000000 : Nat) + s.adj) 0) (s.avail Config.current) ∧
      1 * Ratio1.x1.toNat = s.midFree Config.current ∧ s.Chain1Defined Config.current .x1 1) ∧
    (∃ s : State, s.EngReady .r192000 .x1 ∧
      ((1 : Nat) : Int) = min (max ((Rate.r192000.hz * 250 / 1000000 : Nat) + s.adj) 0) (s.avail Config.current) ∧
      s.midFree Config.current < 1 * Ratio1.x1.toNat) :=
  ⟨⟨wState (zeros 4 0) (zeros 4 1) (zeros 4 1) (zeros 4 1),
      eng_ready (inv_of (by decide)) (inv_of (by decide)) (inv_of (by decide)) (inv_of (by decide)) (by decide) (by decide), by decide⟩,
    ⟨wState (zeros 4 1) (zeros 4 2) (zeros 4 3) (zeros 4 1),
      eng_ready (inv_of (by decide)) (inv_of (by decide)) (inv_of (by decide)) (inv_of (by decide)) (by decide) (by decide), by decide, by decide,
      chain1_defined (zero_finite _) (by decide) (by decide)⟩,
    ⟨wState (zeros 4 1) (zeros 4 2) (zeros 4 4) (zeros 4 1),
      eng_ready (inv_of (by decide)) (inv_of (by decide)) (inv_of (by decide)) (inv_of (by decide)) (by decide) (by decide), by decide, by decide⟩⟩

theorem ok_of {α : Type} {o : Except Fault α} (h : (match o with | .ok _ => true | .error _ => false) = true) : ∃ p, o = .ok p := by
  cases o with
  | ok p => exact ⟨p, rfl⟩
  | error f => cases h

/-- The scenario of S6 with Samples 0, MID buffers of capacity 192 at 96. -/
theorem witness_TargetOccupancyScenario :
    plainConfig.tickUs = 250 ∧ ∃ s : State, s.EngReady .r48000 .x8 ∧ s.rb.mid0.cnt = s.rb.mid0.cap / 2 ∧ s.rb.mid1.cnt = s.rb.mid1.cap / 2 ∧
      12 ≤ s.rb.ep0.cnt ∧ 12 ≤ s.rb.ep1.cnt ∧ 96 ≤ s.rb.mid0.cap / 2 ∧ 96 ≤ s.rb.mid1.cap / 2 ∧
      s.Chain1Defined plainConfig .x8 12 := by
  refine ⟨rfl, { State.resetOf plainConfig with
      rb := ⟨zeros 12 12, zeros 12 12, zeros 192 96, zeros 192 96⟩, fCur := some .r48000, r1 := some .x8 },
    ⟨rfl, rfl, by decide, by decide, buffers_of (inv_of (by decide +kernel)) (inv_of (by decide +kernel))
      (inv_of (by decide +kernel)) (inv_of (by decide +kernel)) (by decide)⟩, by decide, by decide, by decide, by decide, by decide,
    by decide, ?_, fun _ => ?_⟩
  all_goals
    intro x hx
    have hc : x.map some = (List.replicate 12 (0 : Sample)).map some := hx.trans (by decide +kernel)
    rw [List.map_injective_iff.mpr (Option.some_injective _) hc]
    exact ok_of (by decide +kernel)

/-- What a tick of `plainConfig` needs, at volume code 0. -/
theorem tick_meets {e m0 m1 : RingBuffer} (n : Nat) (hi : e.Inv ∧ m0.Inv ∧ m1.Inv)
    (hv : (stateOf plainConfig e e m0 m1).allValid = true) (hb : (stateOf plainConfig e e m0 m1).tickaBlocked = none)
    (h0 : e.contents.take n = (List.replicate n 0).map some) :
    (stateOf plainConfig e e m0 m1).timerEnabled = true ∧ (stateOf plainConfig e e m0 m1).EngReady .r192000 .x1 ∧
      (stateOf plainConfig e e m0 m1).volReq = some 0 ∧
      satUnit plainConfig.num (plainConfig.volCurve (smoothed plainConfig (stateOf plainConfig e e m0 m1).volSmooth
        (plainConfig.num.ofInt (0#16).toInt))) = .ok ⟨0⟩ ∧
      ∀ a, (afterVolumeAndController plainConfig 0 ⟨0⟩ a (stateOf plainConfig e e m0 m1)).Chain1Defined plainConfig .x1 n :=
  ⟨rfl, eng_ready hi.1 hi.1 hi.2.1 hi.2.2 hv hb, rfl, rfl, fun _ => chain1_defined ⟨0, rfl⟩ h0 h0⟩

/-- No input, outputs that exactly fill the MID buffers, and outputs that do not fit by one. -/
theorem witness_TickSmoothsAdjustsRuns :
    ∀ k ∈ [((0 : Int), 0, zeros 4 0, zeros 4 2), (-1, 1, zeros 4 1, zeros 4 3), (-1, 1, zeros 4 1, zeros 4 4)],
      ∃ s : State, s.timerEnabled = true ∧ s.EngReady .r192000 .x1 ∧ s.volReq = some 0 ∧
        satUnit plainConfig.num (plainConfig.volCurve
          (smoothed plainConfig s.volSmooth (plainConfig.num.ofInt (0#16).toInt))) = .ok ⟨0⟩ ∧
        k.1 = signInt (((s.rb.mid0.cap / 2 : Nat) : Int) - s.rb.mid0.cnt) ∧
        ((k.2.1 : Nat) : Int) = min (max ((Rate.r192000.hz * plainConfig.tickUs / 1000000 : Nat) + k.1) 0) (s.avail plainConfig) ∧
        s.midFree plainConfig = 4 - k.2.2.2.cnt ∧ (afterVolumeAndController plainConfig 0 ⟨0⟩ k.1 s).Chain1Defined plainConfig .x1 k.2.1 := by
  intro k hk
  simp only [List.mem_cons, List.not_mem_nil, or_false] at hk
  rcases hk with rfl | rfl | rfl
  · obtain ⟨h1, h2, h3, h4, h5⟩ := tick_meets (e := zeros 4 0) (m0 := zeros 4 2) (m1 := zeros 4 1) 0
      ⟨inv_of (by decide), inv_of (by decide), inv_of (by decide)⟩ (by decide) (by decide) (by decide)
    exact ⟨_, h1, h2, h3, h4, by decide, by decide, by decide, h5 _⟩
  · obtain ⟨h1, h2, h3, h4, h5⟩ := tick_meets (e := zeros 4 1) (m0 := zeros 4 3) (m1 := zeros 4 1) 1
      ⟨inv_of (by decide), inv_of (by decide), inv_of (by decide)⟩ (by decide) (by decide) (by decide)
    exact ⟨_, h1, h2, h3, h4, by decide, by decide, by decide, h5 _⟩
  · obtain ⟨h1, h2, h3, h4, h5⟩ := tick_meets (e := zeros 4 1) (m0 := zeros 4 4) (m1 := zeros 4 1) 1
      ⟨inv_of (by decide), inv_of (by decide), inv_of (by decide)⟩ (by decide) (by decide) (by decide)
    exact ⟨_, h1, h2, h3, h4, by decide, by decide, by decide, h5 _⟩

theorem witness_TickHeldWhenDisabled :
    State.reset.timerEnabled = false ∧ ∃ s : State, s.tick ≠ .idle :=
  ⟨rfl, { w1 with tick := .ctl }, by decide⟩

/-- Occupancies one below, at, and one above the target 2. -/
theorem witness_AdjustmentIsSignOfDeviation :
    w1.rb.mid0.valid = true ∧ w1.tick = .idle ∧ w1.rb.mid0.cnt + 1 = w1.rb.mid0.cap / 2 ∧
    (zeros 4 3).cnt = (zeros 4 3).cap / 2 + 1 ∧ (zeros 5 2).cnt = (zeros 5 2).cap / 2 ∧ (zeros 5 2).valid = true := by decide

theorem witness_FeedbackReportsRate :
    (w1.host = .idle ∧ w1.fCur = some .r192000 ∧ w1.r1 = some .x1 ∧ w1.rb.mid0.valid = true ∧ w1.booted = true) ∧
    State.reset.host = .idle ∧ State.reset.fCur = none := by decide

theorem witness_VolSmoothUpdatesGain :
    (State.reset.tick = .idle ∧ State.reset.volReq = none) ∧
    (∃ (s : State) (w g : FVal), s.tick = .idle ∧ s.volReq = some 0 ∧
      w = plainConfig.num.add s.volSmooth (plainConfig.num.mul (plainConfig.num.sub (plainConfig.num.ofInt (0#16).toInt) s.volSmooth)
        (plainConfig.num.ofReal plainConfig.alpha)) ∧ satUnit plainConfig.num (plainConfig.volCurve w) = .ok g) ∧
    (infNum.val ⟨1⟩ = .nan ∧ infNum.val ⟨2⟩ = .inf false ∧ infNum.val ⟨3⟩ = .inf true) ∧
    ratNum.val (ratCode (-1 / 8)) = .fin (-1 / 8) ∧ ratNum.val (ratCode (9 / 8)) = .fin (9 / 8) ∧
    ratNum.val (ratCode 0) = .fin 0 ∧ ratNum.val (ratNum.ofReal 1) = .fin 1 ∧
    satUnit ratNum (ratCode (9 / 8)) = .ok (ratNum.ofReal 1) := by
  refine ⟨by decide, ⟨stateOf plainConfig (zeros 4 1) (zeros 4 1) (zeros 4 1) (zeros 4 1), _, ⟨0⟩, rfl, rfl, rfl, rfl⟩, ?_⟩
  decide +kernel

/-- Each action that renders nothing, the threshold of `DRAINING` met and passed. -/
theorem witness_PollSelectsOneAction :
    (∃ s : State, s.pollbBlocked = none ∧ s.reinitBusy = true) ∧
    (∃ s : State, s.PollReady .x1 ∧ s.schedState = .draining ∧ s.occ Config.current = s.rb.mid0.cap / 2 + 1) ∧
    (∃ s : State, s.PollReady .x1 ∧ s.schedState = .draining ∧ s.occ Config.current = s.rb.mid0.cap / 2) ∧
    (∃ s : State, s.PollReady .x1 ∧ s.schedState = .streaming ∧ s.occ Config.current = 0 ∧ s.qCnt = 0) ∧
    (∃ s : State, s.PollReady .x1 ∧ s.schedState = .streaming ∧ s.qCnt = 3) ∧
    (∃ s : State, s.PollReady .x1 ∧ s.schedState = .streaming ∧ s.occ Config.current = 0 ∧ 0 < s.qCnt ∧ s.qCnt < 3) ∧
    (∃ s : State, s.PollReady .x1 ∧ s.schedState = .drainingToStop) := by
  refine ⟨⟨{ w1 with reinitBusy := true }, by decide⟩, ⟨wState (zeros 4 0) (zeros 4 0) (zeros 4 3) (zeros 4 4), by decide⟩,
    ⟨wState (zeros 4 0) (zeros 4 0) (zeros 4 3) (zeros 4 2), by decide⟩,
    ⟨{ wState (zeros 4 0) (zeros 4 0) (zeros 4 0) (zeros 4 2) with schedState := .streaming }, by decide⟩,
    ⟨{ w1 with schedState := .streaming, qCnt := 3 }, by decide⟩,
    ⟨{ wState (zeros 4 0) (zeros 4 0) (zeros 4 2) (zeros 4 0) with schedState := .streaming, qCnt := 1, qWr := 1 }, by decide⟩,
    ⟨{ w1 with schedState := .drainingToStop }, by decide⟩⟩

theorem witness_FullQueueSkipsRender :
    ∃ s : State, s.PollReady .x1 ∧ s.schedState = .streaming ∧ s.qCnt = Config.current.txqDepth :=
  ⟨{ w1 with schedState := .streaming, qCnt := 3 }, by decide⟩

theorem chain2_defined {s : State} (m : Nat) (hm : m ≤ 1) (h0 : s.rb.mid0.contents = [some 0]) (h1 : s.rb.mid1.contents = [some 0]) :
    s.Chain2Defined Config.current .x1 m := by
  have key : ∀ (ds : Delays) (x : List Sample) (l : List (Option Sample)), l = [some 0] → x.map some = l.take m →
      ∃ p, runChain Config.current.num (Config.current.chain2 .x1) ds x none = .ok p := by
    intro ds x l hl hx
    have he : l.take m = (List.replicate m 0).map some := by
      subst hl
      rcases Nat.le_one_iff_eq_zero_or_eq_one.mp hm with rfl | rfl <;> rfl
    rw [he] at hx
    rw [List.map_injective_iff.mpr (Option.some_injective _) hx, Config.current.chain2_x1]
    exact ⟨_, runChain_nil _ _ m _ (by simp)⟩
  exact ⟨fun x hx => key _ x _ h0 hx, fun _ x hx => key _ x _ h1 hx⟩

/-- The queue of a state whose slots are all zeroed is well formed. -/
theorem queue_zeroed {s : State} (hs : s.slots = List.replicate 3 .zeroed) (hw : s.qWr < 3) (hr : s.qRd < 3) (hq : s.qCnt ≤ 3)
    (he : s.qWr = (s.qRd + s.qCnt) % 3) (hp : s.poll = .idle) : s.QueueInv Config.current := by
  refine ⟨by rw [hs]; rfl, hw, hr, hq, he, ?_, by rw [hp]; trivial⟩
  rw [hs]
  intro sl hsl
  rw [List.eq_of_mem_replicate hsl]
  exact ⟨Nat.zero_le _, rfl⟩

theorem witness_RenderFillsAndQueuesSlot :
    ∃ (s : State) (m : Nat), s.PollReady .x1 ∧ s.BuffersInv ∧ s.QueueInv Config.current ∧ s.schedState = .streaming ∧ 0 < s.occ Config.current ∧
      s.qCnt < 3 ∧ m = renderSize Config.current (s.occ Config.current) .x1 ∧ s.Chain2Defined Config.current .x1 m := by
  refine ⟨{ w1 with schedState := .streaming, qWr := 2, qCnt := 2 }, _, by decide, w1_buffers,
    queue_zeroed rfl (by decide) (by decide) (by decide) (by decide) rfl, rfl, by decide, by decide, rfl,
    chain2_defined _ ?_ (by decide) (by decide)⟩
  have h : ∀ c : Config, renderSize c 1 .x1 ≤ 1 := by
    intro c
    simp only [renderSize]
    split <;> omega
  exact h _

theorem witness_RenderSizeIsLargestAllowed :
    (0 < 1 ∧ tc.renderBudget = none ∧ 1 * Ratio2.x4.toNat * tc.nch ≤ tc.slotCap) ∧
    ({ tc with renderBudget := some 1, renderBudget_pos := by decide } : Config).renderBudget = some 1 := by decide +kernel

theorem witness_OutputWordOfSample : tc.wordSize = .w32 ∧ ({ tc with wordSize := .w16 } : Config).wordSize = .w16 := ⟨rfl, rfl⟩

/-- Nothing armed, a slot queued, the queue empty. -/
theorem witness_DmaDoneArmsNextFrame :
    (State.reset.dmaBusy = false ∧ State.reset.dmaPend = false) ∧
    (∃ (s : State) (sl : Slot), s.dmaBusy = true ∧ s.irqMask = false ∧ 0 < s.qCnt ∧ s.slots[s.qRd]? = some sl) ∧
    (∃ s : State, s.dmaPend = true ∧ s.irqMask = false ∧ s.qCnt = 0) :=
  ⟨by decide,
    ⟨{ w1 with dmaBusy := true, qRd := 2, qCnt := 1, slots := [.zeroed, .zeroed, ⟨1, ⟨[(0, 7)]⟩⟩] }, ⟨1, ⟨[(0, 7)]⟩⟩, by decide⟩,
    ⟨{ w1 with dmaPend := true }, by decide⟩⟩

theorem witness_SchedulerCycle :
    (∃ s t : State, exec .txPoll s = .next t ∧ t.schedState ≠ s.schedState) ∧
    ∃ s t : State, micro (.agent .pollb) s = .next t ∧ t.schedState ≠ s.schedState :=
  ⟨⟨wState (zeros 4 0) (zeros 4 0) (zeros 4 3) (zeros 4 4), _, rfl, by decide⟩,
    ⟨{ wState (zeros 4 0) (zeros 4 0) (zeros 4 3) (zeros 4 4) with poll := .act 3 0, pollBusy := true }, _, rfl, by decide⟩⟩

/-- Values one beyond each bound, and the bounds. -/
theorem witness_ControlWritesOneRegister :
    (∀ f : Rate, (44101 : Word).toNat ≠ f.hz) ∧ (∀ d : Depth, (33 : BitVec 6).toNat ≠ d.bits) ∧
    (-16384 ≤ (BitVec.ofInt 16 (-16384)).toInt ∧ (BitVec.ofInt 16 (-16384)).toInt ≤ 0) ∧
    (-16384 ≤ (0 : BitVec 16).toInt ∧ (0 : BitVec 16).toInt ≤ 0) ∧
    (BitVec.ofInt 16 (-16385)).toInt < -16384 ∧ 0 < (1 : BitVec 16).toInt :=
  ⟨by intro f; cases f <;> decide, by intro d; cases d <;> decide, by decide, by decide, by decide, by decide⟩

theorem witness_ReinitRunsSixSteps :
    (w1.Quiet ∧ w1.fNom ≠ none ∧ w1.pmSignal ≠ none ∧ w1.mute ≠ none ∧ w1.allValid = true) ∧
    State.reset.main = .idle ∧ State.reset.fNom = none := by decide

theorem witness_ReinitWaitsForInterlock :
    (∃ s : State, s.main = .idle ∧ s.tick = .idle ∧ s.fNom ≠ none ∧ s.pmSignal ≠ none ∧ s.mute ≠ none ∧ s.allValid = true ∧
      s.pollBusy = true) ∧
    (∃ s : State, s.main = .idle ∧ s.tick = .idle ∧ s.fNom ≠ none ∧ s.pmSignal ≠ none ∧ s.mute ≠ none ∧ s.allValid = true ∧
      s.pollBusy = false ∧ s.pushBusy = true) :=
  ⟨⟨{ w1 with pollBusy := true, poll := .readMid0 }, by decide⟩, ⟨{ w1 with pushBusy := true, usb := .write0 [] [] }, by decide⟩⟩

/-- A trigger (the nominal rate is not the latched one), a mute to release, and nothing to do. -/
theorem witness_MainPollDetectsTriggers :
    (w1.Quiet ∧ w1.fNom ≠ none ∧ w1.pmSignal ≠ none ∧ w1.allValid = true ∧ w1.mute = some false ∧ w1.fNom ≠ w1.fCur) ∧
    (∃ s : State, s.Quiet ∧ s.fNom ≠ none ∧ s.pmSignal ≠ none ∧ s.allValid = true ∧ s.mute = some false ∧ s.fCur ≠ none ∧
      s.fNom = s.fCur ∧ s.pmCur ≠ none ∧ s.pmSignal = s.pmCur ∧ s.muteCur = true) ∧
    (∃ s : State, s.Quiet ∧ s.fNom ≠ none ∧ s.pmSignal ≠ none ∧ s.allValid = true ∧ s.mute = some true ∧ s.fCur ≠ none ∧
      s.fNom = s.fCur ∧ s.pmCur ≠ none ∧ s.pmSignal = s.pmCur ∧ true = s.muteCur) :=
  ⟨by decide, ⟨{ w1 with fNom := some .r192000, muteCur := true }, by decide⟩,
    ⟨{ w1 with fNom := some .r192000, mute := some true, muteCur := true }, by decide⟩⟩

theorem witness_PowerToggleClearsEverything :
    w1.Quiet ∧ w1.fNom = some .r48000 ∧ w1.mute ≠ none ∧ w1.allValid = true ∧ w1.pmCur ≠ some false := by decide

theorem witness_BootLeavesListedState :
    (-16384 ≤ (BitVec.ofInt 16 (-16384)).toInt ∧ (BitVec.ofInt 16 (-16384)).toInt ≤ 0) ∧
    (-16384 ≤ (0 : BitVec 16).toInt ∧ (0 : BitVec 16).toInt ≤ 0) := by decide

theorem witness_UnwrittenRegisterNotInitialised :
    (State.reset.tickaBlocked = none ∧ State.reset.fCur = none) ∧
    (∃ s : State, s.timerEnabled = true ∧ s.tickaBlocked = none ∧ s.volReq = none) ∧
    (State.reset.tick = .idle ∧ State.reset.rb.mid0.valid = false) ∧
    (State.reset.reinitBusy = false ∧ State.reset.pollbBlocked = none ∧ State.reset.r2 = none) ∧
    (∃ s : State, s.booted = false ∧ s.timerEnabled = true ∧ s.tick = .idle) ∧
    (∃ s : State, s.booted = true ∧ s.usbcbBlocked = none ∧ s.reinitBusy = false ∧ s.depth = none) ∧
    (∃ s : State, s.booted = true ∧ s.tickaBlocked = none ∧ s.allValid = true ∧ s.allLocked = true ∧ s.fCur = none ∧
      s.timerEnabled = true ∧ s.volReq = none ∧ s.tick = .idle) ∧
    (∃ s : State, s.tick = .regs ∧ s.r1 = none) ∧ (∃ s : State, s.poll = .act 1 0 ∧ s.r2 = none) ∧
    (∃ s : State, s.poll = .enqueue 0 [] [] ∧ s.r2 = none) ∧ (∃ s : State, s.host = .readF 4 1 ∧ s.fCur = none) ∧
    (∃ s : State, s.host = .readR1 4 1 .r48000 ∧ s.r1 = none) :=
  ⟨by decide, ⟨{ w1 with volReq := none }, by decide⟩, by decide, by decide, ⟨{ w1 with booted := false }, by decide⟩,
    ⟨{ w1 with depth := none }, by decide⟩, ⟨{ w1 with volReq := none, fCur := none }, by decide⟩,
    ⟨{ w1 with tick := .regs, r1 := none }, by decide⟩, ⟨{ w1 with poll := .act 1 0, r2 := none }, by decide⟩,
    ⟨{ w1 with poll := .enqueue 0 [] [], r2 := none }, by decide⟩, ⟨{ w1 with host := .readF 4 1, fCur := none }, by decide⟩,
    ⟨{ w1 with host := .readR1 4 1 .r48000, r1 := none }, by decide⟩⟩

/-- A command that writes a buffer. -/
theorem witness_StepKeepsBuffers :
    ∃ s t : State, s.BuffersInv ∧ step s = .next t :=
  ⟨{ w1 with stream := [0x06000000, 7] }, _, w1_buffers, rfl⟩

/-- A completion that takes the head of the queue. -/
theorem witness_StepKeepsQueue :
    ∃ s t : State, s.QueueInv Config.current ∧ step s = .next t :=
  ⟨{ w1 with stream := [0x41000000], qWr := 2, qRd := 1, qCnt := 1, dmaBusy := true }, _,
    queue_zeroed rfl (by decide) (by decide) (by decide) (by decide) rfl, rfl⟩

/-- The first micro-step of a push. -/
theorem witness_StepKeepsSequencing :
    ∃ s t : State, s.SequencingInv ∧ step s = .next t :=
  ⟨{ w1 with schedule := [.start (.usbPush [[1, 2]])] }, _,
    ⟨rfl, rfl, rfl, by decide, fun h => absurd rfl h, fun h => absurd h (by decide), fun h => absurd h (by decide),
      fun h => absurd h (by decide)⟩, rfl⟩

/-- A controller update, from the ratios of the latched rate and power mode. -/
theorem witness_StepKeepsControlRegisters :
    ∃ s t : State, s.ControlInv Config.current ∧ step s = .next t := by
  refine ⟨{ w1 with r1 := some (Config.current.r1Of .r192000), r2 := some (Config.current.r2Of true), stream := [0x30000000] }, _,
    ⟨.inr (.inl rfl), ?_, by decide, .inl rfl, rfl, rfl, rfl⟩, rfl⟩
  rintro v ⟨⟩
  decide

/-- A clear of all delay arrays. -/
theorem witness_StepKeepsDelayLengths :
    ∃ s t : State, s.DelayInv Config.current ∧ step s = .next t := by
  refine ⟨{ w1 with stream := [0x10400000] }, _, ⟨?_, ?_⟩, rfl⟩ <;> intro r <;> cases r <;>
    exact ⟨delaysOf_fits _ _, delaysOf_fits _ _⟩

theorem witness_PushMicroStepsAgree :
    w1.booted = true ∧ w1.usbcbBlocked = none ∧ w1.pushBusy = false ∧ w1.depth ≠ none ∧ w1.BuffersInv ∧ w1.rb.ep0.valid = true ∧
      w1.rb.ep1.valid = true ∧ w1.rb.ep0.mode = true ∧ w1.rb.ep1.mode = true :=
  ⟨by decide, by decide, by decide, by decide, w1_buffers, by decide⟩

theorem next_of {o : Host.Outcome State Fault Refusal} (h : (after o fun _ => ()).isSome = true) : ∃ t, o = .next t := by
  cases o with
  | next t => exact ⟨t, rfl⟩
  | fault f => cases h
  | refused r => cases h

/-- An engine run and a tick that each move one Sample per channel. -/
theorem witness_EngineMicroStepsAgree :
    ∃ (c : Config) (s t t' : State), s.booted = true ∧ s.EngReady .r192000 .x1 ∧ s.allLocked = true ∧
      (engRun c s).outcome = .next t ∧ s.timerEnabled = true ∧ s.volReq ≠ none ∧ tickOp c s = .next t' := by
  have hv : (stateOf plainConfig (zeros 4 1) (zeros 4 1) (zeros 4 1) (zeros 4 1)).allValid = true := by decide
  obtain ⟨t, ht⟩ := next_of (o := (engRun plainConfig (stateOf plainConfig (zeros 4 1) (zeros 4 1) (zeros 4 1) (zeros 4 1))).outcome)
    (by decide +kernel)
  obtain ⟨t', ht'⟩ := next_of (o := tickOp plainConfig (stateOf plainConfig (zeros 4 1) (zeros 4 1) (zeros 4 1) (zeros 4 1)))
    (by decide +kernel)
  exact ⟨plainConfig, _, t, t', rfl, eng_ready w1_inv w1_inv w1_inv w1_inv hv (by decide), by decide, ht, rfl, by decide, ht'⟩

/-- A poll that starts the streaming. -/
theorem witness_PollMicroStepsAgree :
    ∃ s t : State, s.booted = true ∧ s.PollReady .x1 ∧ s.BuffersInv ∧ s.pollBusy = false ∧ s.rb.mid0.mode = true ∧ s.rb.mid1.mode = true ∧
      exec .txPoll s = .next t :=
  ⟨wState (zeros 4 1) (zeros 4 1) (zeros 4 3) (zeros 4 4), _, rfl, by decide,
    buffers_of w1_inv w1_inv (inv_of (by decide)) (inv_of (by decide)) (by decide), rfl, rfl, rfl, rfl⟩

theorem witness_ReinitMicroStepsAgree :
    w1.Quiet ∧ w1.fNom ≠ none ∧ w1.pmSignal ≠ none ∧ w1.mute ≠ none ∧ w1.allValid = true := by decide

end Sys2Proof.Tests
end

section
/-! Uninterrupted operations (00_scope.md R9): the phases of one write and one read against the operation run to its end, and an
agent that takes its micro-steps with no other agent stepping in between. -/

namespace Sys2Proof.Machine

/-! ## Access to the four buffers -/

@[simp] theorem setBuf_buf_self (s : State) (b : BufId) : s.setBuf b (s.buf b) = s := by cases b <;> rfl

@[simp] theorem setBuf_setBuf (s : State) (b : BufId) (q q' : RingBuffer) : (s.setBuf b q).setBuf b q' = s.setBuf b q' := by
  cases b <;> rfl

/-! ## The phases of a write (R141) -/

/-- The buffer with a write of `xs` in flight that has completed the phase `p`. -/
def RingBuffer.writing (q : RingBuffer) (xs : List Sample) (p : Phase) : RingBuffer :=
  { q with prodOp := some ⟨xs.length, xs, p⟩ }

/-- A locked buffer on which a write can begin and nobody holds the lock. -/
abbrev RingBuffer.WriteIdle (q : RingBuffer) : Prop := q.mode = true ∧ q.lock = .free ∧ q.prodOp = none

/-- The copy does not read the register of the write in flight. -/
theorem copyIn_writing {q p : RingBuffer} {i : Nat} {xs : List Sample} (h : q.copyIn i xs = .ok p) (ys : List Sample) (ph : Phase) :
    (q.writing ys ph).copyIn i xs = .ok (p.writing ys ph) := by
  induction xs generalizing q i with
  | nil => cases h; rfl
  | cons x xs ih =>
    by_cases hi : (q.wr + i) % q.cap < q.cap
    · simp only [RingBuffer.copyIn, RingBuffer.memWrite, hi, if_true] at h
      simpa only [RingBuffer.copyIn, RingBuffer.memWrite, RingBuffer.writing, hi, if_true] using ih h
    · simp only [RingBuffer.copyIn, RingBuffer.memWrite, hi, if_false, reduceCtorEq] at h

/-- A write run to its end is its copy and then the register writes of its publish phase. -/
theorem write_split {q q' : RingBuffer} {a : Agent} {xs : List Sample} (hl : q.lock = .free) (h : q.write a xs = .ok q') :
    ∃ m, q.copyIn 0 xs = .ok { q with mem := m } ∧ q' = { q with mem := m }.advanceWr xs.length := by
  obtain ⟨m, hm, _⟩ := write_ok h
  simp only [RingBuffer.write, hm, publishIn_free (q := { q with mem := m }) hl, Except.ok.injEq] at h
  exact ⟨m, hm, h.symm⟩

/-- A write that fits ends, on a buffer that meets its invariant. -/
theorem write_ends {q : RingBuffer} (hv : q.valid = true) (h : q.Inv) (a : Agent) (xs : List Sample) :
    ∃ q', q.write a xs = .ok q' := by
  obtain ⟨_, hl, _, hb⟩ := h
  obtain ⟨⟨hc, _⟩, _⟩ := hb hv
  obtain ⟨m, hm, _⟩ := write_spec q hc hl a xs
  exact ⟨_, hm⟩

theorem writeStep_check {q : RingBuffer} (h : q.WriteIdle) {xs : List Sample} (hn : xs.length ≤ q.free) (a : Agent) :
    q.writeStep a xs = .ok (.go (q.writing xs .checked)) := by
  obtain ⟨hm, _, hp⟩ := h
  simp only [RingBuffer.writeStep, hp, hn, hm, if_true, RingBuffer.writing]

theorem writeStep_copy {q p : RingBuffer} {xs : List Sample} (h : q.copyIn 0 xs = .ok p) (a : Agent) (ys : List Sample) :
    (q.writing xs .checked).writeStep a ys = .ok (.go (p.writing xs .copied)) := by
  have hc := copyIn_writing h xs .checked
  simp only [RingBuffer.writeStep, RingBuffer.writing] at hc ⊢
  simp only [hc]

theorem writeStep_publish {q : RingBuffer} (h : q.lock = .free) (xs : List Sample) (a : Agent) (ys : List Sample) :
    (q.writing xs .copied).writeStep a ys = .ok (.done (q.advanceWr xs.length)) := by
  have hp := publishIn_free (q := q.writing xs .copied) h a xs.length
  simp only [RingBuffer.writeStep, RingBuffer.writing] at hp ⊢
  simp only [hp, RingBuffer.advanceWr]

/-! ## The phases of a read (R142) -/

/-- The buffer with a read of `n` elements in flight that has completed the phase `p` and filled the list `d`. -/
def RingBuffer.reading (q : RingBuffer) (n : Nat) (p : Phase) (d : List Sample) : RingBuffer := { q with consOp := some ⟨n, p, d⟩ }

/-- A locked buffer on which a read can begin and nobody holds the lock. -/
abbrev RingBuffer.ReadIdle (q : RingBuffer) : Prop := q.mode = true ∧ q.lock = .free ∧ q.consOp = none

/-- The copy does not read the register of the read in flight. -/
theorem copyOut_reading (q : RingBuffer) (i n k : Nat) (p : Phase) (d : List Sample) :
    (q.reading k p d).copyOut i n = q.copyOut i n := by
  induction n generalizing i with
  | zero => rfl
  | succ n ih => simp only [RingBuffer.copyOut, ih]; rfl

/-- A read run to its end is its copy and then the register writes of its publish phase. -/
theorem read_split {q q' : RingBuffer} {a : Agent} {n : Nat} {d : List Sample} (hl : q.lock = .free)
    (h : q.read a n = .ok (d, q')) : q.copyOut 0 n = .ok d ∧ q' = q.advanceRd n := by
  simp only [RingBuffer.read, publishOut_free hl] at h
  split at h
  · cases h
  · next hc => cases h; exact ⟨hc, rfl⟩

/-- A read of counted elements ends, on a buffer that meets its invariant. -/
theorem read_ends {q : RingBuffer} (hv : q.valid = true) (h : q.Inv) (a : Agent) {n : Nat} (hn : n ≤ q.cnt) :
    ∃ d q', q.read a n = .ok (d, q') := by
  obtain ⟨_, hl, _, hb⟩ := h
  obtain ⟨⟨hc, _⟩, hs, _⟩ := hb hv
  obtain ⟨d, hd, _⟩ := read_spec q hc hl a n fun j hj => contents_stored hs (by omega)
  exact ⟨_, _, hd⟩

theorem readStep_check {q : RingBuffer} (h : q.ReadIdle) {n : Nat} (hn : n ≤ q.cnt) (a : Agent) :
    q.readStep a n = .ok (.go (q.reading n .checked [])) := by
  obtain ⟨hm, _, hc⟩ := h
  simp only [RingBuffer.readStep, hc, hn, hm, if_true, RingBuffer.reading]

theorem readStep_copy {q : RingBuffer} {n : Nat} {d : List Sample} (h : q.copyOut 0 n = .ok d) (a : Agent) (k : Nat) :
    (q.reading n .checked []).readStep a k = .ok (.go (q.reading n .copied d)) := by
  rw [← copyOut_reading q 0 n n .checked []] at h
  simp only [RingBuffer.readStep, RingBuffer.reading] at h ⊢
  simp only [h]

theorem readStep_publish {q : RingBuffer} (h : q.lock = .free) (n : Nat) (d : List Sample) (a : Agent) (k : Nat) :
    (q.reading n .copied d).readStep a k = .ok (.done d (q.advanceRd n)) := by
  have hp := publishOut_free (q := q.reading n .copied d) h a n
  simp only [RingBuffer.readStep, RingBuffer.reading] at hp ⊢
  simp only [hp, RingBuffer.advanceRd]

/-! ## The three phases as elements of an interleaving -/

/-- Three elements of an interleaving that are the micro-steps of one write that fits leave what the write run to its end leaves. -/
theorem microAllOf_write {c : Config} {e₀ e : Event} {s s' : State} {b : BufId} {xs : List Sample} {q' : RingBuffer}
    {full done : State → State} (hq : (s'.buf b).WriteIdle) (hfit : xs.length ≤ (s'.buf b).free)
    (hw : (s'.buf b).write (producerOf b) xs = .ok q')
    (first : microOp c e₀ s = stateOutcome (s'.writeMicro b xs full done))
    (next : ∀ q : RingBuffer, q.prodOp ≠ none → ∃ ys full',
      microOp c e (s'.setBuf b q) = stateOutcome ((s'.setBuf b q).writeMicro b ys full' done)) :
    microAllOf c [e₀, e, e] s = .next (done (s'.setBuf b q')) := by
  obtain ⟨m, hcopy, rfl⟩ := write_split hq.2.1 hw
  obtain ⟨ys₁, full₁, hcopied⟩ := next ((s'.buf b).writing xs .checked) nofun
  obtain ⟨ys₂, full₂, hdone⟩ := next (RingBuffer.writing { s'.buf b with mem := m } xs .copied) nofun
  simp only [State.writeMicro, writeStep_check hq hfit, stateOutcome] at first
  simp only [State.writeMicro, buf_setBuf_same, writeStep_copy hcopy, setBuf_setBuf, stateOutcome] at hcopied
  simp only [State.writeMicro, buf_setBuf_same, writeStep_publish (q := { s'.buf b with mem := m }) hq.2.1, setBuf_setBuf,
    stateOutcome] at hdone
  simp only [microAllOf, first, hcopied, hdone]

/-- Three elements of an interleaving that are the micro-steps of one read of counted elements leave what the read run to its end
leaves. -/
theorem microAllOf_read {c : Config} {e₀ e : Event} {s s' : State} {b : BufId} {n : Nat} {d : List Sample} {q' : RingBuffer}
    {few : State → State} {done : List Sample → State → State} (hq : (s'.buf b).ReadIdle) (hn : n ≤ (s'.buf b).cnt)
    (hr : (s'.buf b).read (consumerOf b) n = .ok (d, q'))
    (first : microOp c e₀ s = stateOutcome (s'.readMicro b n few done))
    (next : ∀ q : RingBuffer, q.consOp ≠ none → ∃ k few',
      microOp c e (s'.setBuf b q) = stateOutcome ((s'.setBuf b q).readMicro b k few' done)) :
    microAllOf c [e₀, e, e] s = .next (done d (s'.setBuf b q')) := by
  obtain ⟨hcopy, rfl⟩ := read_split hq.2.1 hr
  obtain ⟨k₁, few₁, hcopied⟩ := next ((s'.buf b).reading n .checked []) nofun
  obtain ⟨k₂, few₂, hdone⟩ := next ((s'.buf b).reading n .copied d) nofun
  simp only [State.readMicro, readStep_check hq hn, stateOutcome] at first
  simp only [State.readMicro, buf_setBuf_same, readStep_copy hcopy, setBuf_setBuf, stateOutcome] at hcopied
  simp only [State.readMicro, buf_setBuf_same, readStep_publish hq.2.1, setBuf_setBuf, stateOutcome] at hdone
  simp only [microAllOf, first, hcopied, hdone]

/-! ## An agent that steps alone -/

/-- `k` micro-steps of the agent `a`, with no other agent stepping in between, lead from `s` to `t`. -/
def Alone (c : Config) (a : Agent) (k : Nat) (s t : State) : Prop := microAllOf c (List.replicate k (.agent a)) s = .next t

theorem microAllOf_append (c : Config) (es es' : List Event) {s t : State} (h : microAllOf c es s = .next t) :
    microAllOf c (es ++ es') s = microAllOf c es' t := by
  induction es generalizing s with
  | nil => cases h; rfl
  | cons e es ih =>
    cases hs : microOp c e s with
    | next u => simp only [microAllOf, hs] at h; simpa only [List.cons_append, microAllOf, hs] using ih h
    | fault f => simp only [microAllOf, hs, reduceCtorEq] at h
    | refused r => simp only [microAllOf, hs, reduceCtorEq] at h

/-- An interleaving that begins with the first micro-step of an operation. -/
theorem microAllOf_start {c : Config} {i : Instr} {a : Agent} {k : Nat} {s u t : State} (hs : startOp c i s = .next u)
    (h : Alone c a k u t) : microAllOf c (.start i :: List.replicate k (.agent a)) s = .next t := by
  simp only [microAllOf, microOp, hs]
  exact h

theorem Alone.refl (c : Config) (a : Agent) (s : State) : Alone c a 0 s s := rfl

theorem Alone.trans {c : Config} {a : Agent} {j k : Nat} {s t u : State} (h : Alone c a j s t) (h' : Alone c a k t u) :
    Alone c a (j + k) s u := by
  unfold Alone
  rw [List.replicate_add, microAllOf_append c _ _ h]
  exact h'

/-- A micro-step, and then the rest. -/
theorem Alone.step {c : Config} {a : Agent} {k : Nat} {s t u : State} (h : agentMicro c a s = .ok t) (h' : Alone c a k t u) :
    Alone c a (k + 1) s u := by
  simp only [Alone, List.replicate_succ, microAllOf, microOp, h, stateOutcome]
  exact h'

/-- An agent in no operation takes no step. -/
theorem agentMicro_idle (c : Config) {a : Agent} {s : State} (h : s.agentIdle a = true) : agentMicro c a s = .ok s := by
  cases a <;> simp only [State.agentIdle, beq_iff_eq] at h <;>
    simp only [agentMicro, usbMicro, tickMicro, mainMicro, pollMicro, hostMicro, h, ite_self]

theorem Alone.idle (c : Config) {a : Agent} {s : State} (h : s.agentIdle a = true) (k : Nat) : Alone c a k s s := by
  induction k with
  | zero => exact Alone.refl c a s
  | succ k ih => exact ih.step (agentMicro_idle c h)

/-- An operation that has ended leaves the same state after any further steps of its agent. -/
theorem Alone.upTo {c : Config} {a : Agent} {j k : Nat} {s t : State} (h : Alone c a j s t) (hi : t.agentIdle a = true)
    (hk : j ≤ k) : Alone c a k s t := by
  have := h.trans (Alone.idle c hi (k - j))
  rwa [Nat.add_sub_cancel' hk] at this

/-- A write that is the agent's next part. -/
theorem Alone.write {c : Config} {a : Agent} {s : State} {b : BufId} {xs : List Sample} {q' : RingBuffer} {full done : State → State}
    (hq : (s.buf b).WriteIdle) (hfit : xs.length ≤ (s.buf b).free) (hw : (s.buf b).write (producerOf b) xs = .ok q')
    (step : ∀ q, agentMicro c a (s.setBuf b q) = (s.setBuf b q).writeMicro b xs full done) :
    Alone c a 3 s (done (s.setBuf b q')) :=
  microAllOf_write hq hfit hw (e₀ := .agent a) (congrArg stateOutcome (by simpa using step (s.buf b)))
    fun q _ => ⟨xs, full, congrArg stateOutcome (step q)⟩

/-- A read that is the agent's next part, `s'` being the state its first micro-step leaves the rest to. -/
theorem Alone.read {c : Config} {a : Agent} {s s' : State} {b : BufId} {n : Nat} {d : List Sample} {q' : RingBuffer}
    {few : State → State} {done : List Sample → State → State} (hq : (s'.buf b).ReadIdle) (hn : n ≤ (s'.buf b).cnt)
    (hr : (s'.buf b).read (consumerOf b) n = .ok (d, q')) (first : agentMicro c a s = s'.readMicro b n few done)
    (step : ∀ q, agentMicro c a (s'.setBuf b q) = (s'.setBuf b q).readMicro b n few done) :
    Alone c a 3 s (done d (s'.setBuf b q')) :=
  microAllOf_read hq hn hr (e₀ := .agent a) (congrArg stateOutcome first) fun q _ => ⟨n, few, congrArg stateOutcome (step q)⟩

end Sys2Proof.Machine
end

section
/-! `ENG.RUN` and `TICK` taken as micro-steps (42_engine.md R195, R196): with no other agent in between they leave what the command
leaves. -/

namespace Sys2Proof.Machine

/-! ## What the commands do -/

theorem outcome_next {r : OpRes} {t : State} (h : r.outcome = .next t) :
    ∃ d : Done, r = .ok d ∧ t = d.state.respond d.result d.values := by
  cases r with
  | ok d => cases h; exact ⟨d, rfl, rfl⟩
  | error f => cases h

/-- `Read(b, n)` as a command writes the one buffer. -/
theorem readBuf_ok {s s' : State} {b : BufId} {n : Nat} {d : List Sample} (h : s.readBuf b n = .ok (d, s')) :
    ∃ q', (s.buf b).read (consumerOf b) n = .ok (d, q') ∧ s' = s.setBuf b q' := by
  simp only [State.readBuf] at h
  split at h
  · next hr => cases h; exact ⟨_, hr, rfl⟩
  · cases h

/-- `Write(b, S)` as a command writes the one buffer. -/
theorem writeBuf_ok {s s' : State} {b : BufId} {xs : List Sample} (h : s.writeBuf b xs = .ok s') :
    ∃ q', (s.buf b).write (producerOf b) xs = .ok q' ∧ s' = s.setBuf b q' := by
  simp only [State.writeBuf] at h
  split at h
  · next hw => cases h; exact ⟨_, hw, rfl⟩
  · cases h

/-- One channel of an `ENG.RUN` that ends: the read of the EP buffer, the chain on the delay arrays, the write of the MID buffer. -/
theorem engChannel_ok {c : Config} {r : Ratio1} {g : FVal} {n : Nat} {ch : Chan} {s s' : State}
    (h : engChannel c r g n ch s = .ok s') :
    ∃ x y d q p, (s.buf (epOf ch)).read (consumerOf (epOf ch)) n = .ok (x, q) ∧
      runChain c.num (c.chain1 r) ((s.d1.get r).get ch) x (some g) = .ok (y, d) ∧
      (s.buf (midOf ch)).write (producerOf (midOf ch)) y = .ok p ∧
      s' = { (s.setBuf (epOf ch) q).setBuf (midOf ch) p with d1 := s.d1.set r ((s.d1.get r).set ch d) } := by
  simp only [engChannel] at h
  split at h
  · cases h
  · next x s₁ hread =>
    obtain ⟨q, hq, rfl⟩ := readBuf_ok hread
    split at h
    · cases h
    · next y s₂ hchain =>
      obtain ⟨-, d, hd, rfl⟩ := runChain1_spec hchain
      obtain ⟨p, hp, rfl⟩ := writeBuf_ok h
      refine ⟨x, y, d, q, p, hq, hd, ?_, rfl⟩
      cases ch <;> exact hp

theorem engChannel_tick {c : Config} {r : Ratio1} {g : FVal} {n : Nat} {ch : Chan} {s s' : State}
    (h : engChannel c r g n ch s = .ok s') : s'.tick = s.tick := by
  obtain ⟨x, y, d, q, p, _, _, _, rfl⟩ := engChannel_ok h
  rfl

/-- Channel 0 of an `ENG.RUN` leaves the buffers of channel 1 as they are. -/
theorem engChannel_c0_bufs {c : Config} {r : Ratio1} {g : FVal} {n : Nat} {s s' : State} (h : engChannel c r g n .c0 s = .ok s') :
    s'.buf .ep1 = s.buf .ep1 ∧ s'.buf .mid1 = s.buf .mid1 := by
  obtain ⟨x, y, d, q, p, _, _, _, rfl⟩ := engChannel_ok h
  exact ⟨rfl, rfl⟩

/-- The three ways `ENG.RUN` ends (R192, R193). -/
theorem engBody_ok {c : Config} {f : Rate} {r : Ratio1} {s : State} {n : Nat} {d : Done} (hn : n = engCount c f s.adj (s.avail c))
    (h : engBody c f r s = .ok d) :
    (n = 0 ∧ d = ⟨s, .ok, [0]⟩) ∨
    (n ≠ 0 ∧ ¬ n * r.toNat ≤ c.least s.rb.mid0.free s.rb.mid1.free ∧ d = ⟨s, .bufferFull, []⟩) ∨
    (n ≠ 0 ∧ n * r.toNat ≤ c.least s.rb.mid0.free s.rb.mid1.free ∧ ∃ s₁ s₂, engChannel c r s.gain n .c0 s = .ok s₁ ∧
      c.ifTwo (engChannel c r s.gain n .c1 s₁) (.ok s₁) = .ok s₂ ∧ d = ⟨s₂, .ok, [countWord n]⟩) := by
  subst hn
  simp only [engBody] at h
  split at h
  · next h0 => cases h; exact .inl ⟨h0, rfl⟩
  · next h0 =>
    split at h
    · next hfit =>
      split at h
      · cases h
      · next s₁ h₁ =>
        split at h
        · cases h
        · next s₂ h₂ => cases h; exact .inr (.inr ⟨h0, hfit, s₁, s₂, h₁, h₂, rfl⟩)
    · next hfit => cases h; exact .inr (.inl ⟨h0, hfit, rfl⟩)

theorem engCount_le (c : Config) (f : Rate) (a : Int) (avail : Nat) : engCount c f a avail ≤ avail := by
  simp only [engCount, clampInt]; omega

/-- `VOL.SMOOTH` leaves the buffers, the engine's position and its two latched registers as they are (R218). -/
theorem volUpdate_keeps {c : Config} {v : BitVec 16} {s s' : State} (h : volUpdate c v s = .ok s') :
    s'.rb = s.rb ∧ s'.tick = s.tick ∧ s'.fCur = s.fCur ∧ s'.r1 = s.r1 := by
  simp only [volUpdate] at h
  split at h
  · cases h; exact ⟨rfl, rfl, rfl, rfl⟩
  · cases h

/-! ## One channel, micro-step by micro-step -/

/-- The buffers of a channel, on which its read and its write can begin. -/
def State.ChannelIdle (s : State) (ch : Chan) : Prop := (s.buf (epOf ch)).ReadIdle ∧ (s.buf (midOf ch)).WriteIdle

theorem runChain1_ok {c : Config} {s : State} {r : Ratio1} {ch : Chan} {x y : List Sample} {g : Option FVal} {d : Delays}
    (h : runChain c.num (c.chain1 r) ((s.d1.get r).get ch) x g = .ok (y, d)) :
    s.runChain1 c r ch x g = .ok (y, { s with d1 := s.d1.set r ((s.d1.get r).set ch d) }) := by
  simp only [State.runChain1, h]

/-- `RunChain` and the copy phase after it, on a buffer whose space was checked (R195). -/
theorem tickCopy_reserved {c : Config} {ch : Chan} {e : EngRegs} {x y : List Sample} {d : Delays} {s : State} {m : Mem}
    (hchain : runChain c.num (c.chain1 e.r) ((s.d1.get e.r).get ch) x (some e.g) = .ok (y, d))
    (hcopy : (s.buf (midOf ch)).copyIn 0 y = .ok { s.buf (midOf ch) with mem := m }) (k n : Nat) :
    tickCopy c ch e n x (s.setBuf (midOf ch) ((s.buf (midOf ch)).reserve k)) =
      .ok ({ s with d1 := s.d1.set e.r ((s.d1.get e.r).set ch d) }.setBuf (midOf ch)
        (RingBuffer.writing { s.buf (midOf ch) with mem := m } y .copied)) := by
  have hrun := runChain1_ok (s := s.setBuf (midOf ch) ((s.buf (midOf ch)).reserve k)) hchain
  have hsupply : ((s.buf (midOf ch)).reserve k).supply y = (s.buf (midOf ch)).writing y .checked := rfl
  have hbuf : ({ s.setBuf (midOf ch) ((s.buf (midOf ch)).reserve k) with d1 := s.d1.set e.r ((s.d1.get e.r).set ch d) } : State).buf
      (midOf ch) = (s.buf (midOf ch)).reserve k := buf_setBuf_same s _ _
  simp only [tickCopy, hrun, setBuf_d1, hbuf, hsupply, State.writeMicro, buf_setBuf_same, writeStep_copy hcopy, setBuf_setBuf]
  cases ch <;> rfl

theorem State.ChannelIdle.congr {s s' : State} {ch : Chan} (h : s.ChannelIdle ch) (hrb : s'.rb = s.rb) : s'.ChannelIdle ch := by
  simp only [State.ChannelIdle, State.buf, hrb] at h ⊢
  exact h

/-- The write of a channel's outputs: check, `RunChain` and copy, publish (R195). -/
theorem alone_tickWrite {c : Config} {ch : Chan} {e : EngRegs} {n : Nat} {x y : List Sample} {d : Delays} {s : State}
    {p : RingBuffer} (hs : s.tick = .write ch e n x) (hq : (s.buf (midOf ch)).WriteIdle)
    (hfit : x.length * e.r.toNat ≤ (s.buf (midOf ch)).free)
    (hchain : runChain c.num (c.chain1 e.r) ((s.d1.get e.r).get ch) x (some e.g) = .ok (y, d))
    (hw : (s.buf (midOf ch)).write (producerOf (midOf ch)) y = .ok p) :
    Alone c .ticka 3 s
      (tickNext c ch e n ({ s with d1 := s.d1.set e.r ((s.d1.get e.r).set ch d) }.setBuf (midOf ch) p)) := by
  obtain ⟨m, hcopy, rfl⟩ := write_split hq.2.1 hw
  obtain ⟨hmode, hlock, hprod⟩ := hq
  refine Alone.step (t := s.setBuf (midOf ch) ((s.buf (midOf ch)).reserve (x.length * e.r.toNat))) ?_ ?_
  · simp only [agentMicro, tickMicro, hs, tickWrite, hprod, hfit, hmode, if_true]
  refine Alone.step (t := { s with d1 := s.d1.set e.r ((s.d1.get e.r).set ch d) }.setBuf (midOf ch)
    (RingBuffer.writing { s.buf (midOf ch) with mem := m } y .copied)) ?_ ?_
  · rw [← tickCopy_reserved hchain hcopy (x.length * e.r.toNat) n]
    simp only [agentMicro, tickMicro, setBuf_tick, hs, tickWrite, buf_setBuf_same, RingBuffer.reserve]
  refine Alone.step ?_ (Alone.refl _ _ _)
  have hpub := writeStep_publish (q := { s.buf (midOf ch) with mem := m }) hlock y (producerOf (midOf ch)) y
  simp only [RingBuffer.writing] at hpub ⊢
  simp only [agentMicro, tickMicro, setBuf_tick, hs, tickWrite, buf_setBuf_same, State.writeMicro, hpub, setBuf_setBuf]

/-- `tickNext` writes the position of `TICKA` whatever it was. -/
theorem tickNext_tick (c : Config) (ch : Chan) (e : EngRegs) (n : Nat) (s : State) (t : TickOp) :
    tickNext c ch e n { s with tick := t } = tickNext c ch e n s := by
  cases ch <;> rfl

/-- One channel of an `ENG.RUN` as its six micro-steps (R195). -/
theorem alone_engChannel {c : Config} {ch : Chan} {e : EngRegs} {n : Nat} {s s' : State} (hi : s.ChannelIdle ch)
    (hn : n ≤ (s.buf (epOf ch)).cnt) (hfit : n * e.r.toNat ≤ (s.buf (midOf ch)).free)
    (h : engChannel c e.r e.g n ch s = .ok s') :
    Alone c .ticka 6 { s with tick := .read ch e n } (tickNext c ch e n s') := by
  obtain ⟨hread, hwrite⟩ := hi
  obtain ⟨x, y, d, q, p, hr, hchain, hw, rfl⟩ := engChannel_ok h
  have hlen : x.length = n := copyOut_length (read_split hread.2.1 hr).1
  have hmid : (s.setBuf (epOf ch) q).buf (midOf ch) = s.buf (midOf ch) := by cases ch <;> rfl
  have first : Alone c .ticka 3 { s with tick := .read ch e n } { s.setBuf (epOf ch) q with tick := .write ch e n x } :=
    Alone.read (s' := { s with tick := .read ch e n }) (done := fun x s => { s with tick := .write ch e n x })
      hread hn hr rfl fun _ => rfl
  have second := alone_tickWrite (c := c) (s := { s.setBuf (epOf ch) q with tick := .write ch e n x }) (p := p) rfl
    (hmid.symm ▸ hwrite) (by rw [hlen]; exact hmid.symm ▸ hfit) hchain (hmid.symm ▸ hw)
  rw [← tickNext_tick c ch e n _ (.write ch e n x)]
  exact first.trans second

/-! ## The whole operation -/

theorem tickaBlocked_eq_none {s : State} (h : s.tickaBlocked = none) :
    s.tick = .idle ∧ s.rb.ep0.consOp = none ∧ s.rb.ep1.consOp = none ∧ s.rb.mid0.prodOp = none ∧ s.rb.mid1.prodOp = none := by
  simp only [State.tickaBlocked] at h
  split_ifs at h with ht hc hp
  simp only [bne_iff_ne, ne_eq, not_not, Bool.or_eq_true, Option.isSome_iff_ne_none, not_or] at ht hc hp
  exact ⟨ht, hc.1, hc.2, hp.1, hp.2⟩

/-- `ENG.RUN` may begin its reads and writes on the locked buffers when its agent may start. -/
theorem channelIdle_of_ready {s : State} {f : Rate} {r : Ratio1} (hr : s.EngReady f r) (hl : s.allLocked = true) (ch : Chan) :
    s.ChannelIdle ch := by
  obtain ⟨-, -, -, hfree, ⟨-, hep0, -⟩, ⟨-, hep1, -⟩, ⟨-, hmid0, -⟩, ⟨-, hmid1, -⟩, -⟩ := hr
  obtain ⟨-, hc0, hc1, hp0, hp1⟩ := tickaBlocked_eq_none hfree
  simp only [State.allLocked, Bool.and_eq_true] at hl
  obtain ⟨⟨⟨hm0, hm1⟩, hm2⟩, hm3⟩ := hl
  cases ch with
  | c0 => exact ⟨⟨hm0, hep0, hc0⟩, hm2, hmid0, hp0⟩
  | c1 => exact ⟨⟨hm1, hep1, hc1⟩, hm3, hmid1, hp1⟩

theorem tickEnd_idle {s : State} (h : s.tick = .idle) (r : Result) (vs : List Word) : tickEnd r vs s = s.respond r vs := by
  cases s; cases h; rfl

/-- The reads of the four counts: after them `TICKA` ends, or goes on with channel 0 (R195). -/
theorem alone_engCounts {c : Config} {e : EngRegs} {n : Nat} {s : State} (hn : n = engCount c e.f e.a (s.avail c)) (h0 : n ≠ 0) :
    Alone c .ticka 3 { s with tick := .readEp0 e } { s with tick := .readMid1 e n s.rb.mid0.free } := by
  have hcount : agentMicro c .ticka { s with tick := .readEp1 e s.rb.ep0.cnt } = .ok { s with tick := .readMid0 e n } := by
    subst hn
    simp only [agentMicro, tickMicro, h0, if_false]
  exact Alone.step rfl (Alone.step hcount (Alone.step rfl (Alone.refl _ _ _)))

/-- Nothing to move: `TICKA` ends after the two EP counts (R192). -/
theorem alone_engNothing {c : Config} {e : EngRegs} {s : State} (h0 : engCount c e.f e.a (s.avail c) = 0) :
    Alone c .ticka 2 { s with tick := .readEp0 e } (tickEnd .ok [0] s) := by
  have hend : agentMicro c .ticka { s with tick := .readEp1 e s.rb.ep0.cnt } = .ok (tickEnd .ok [0] s) := by
    simp only [agentMicro, tickMicro, h0, if_true]
    rfl
  exact Alone.step rfl (Alone.step hend (Alone.refl _ _ _))

/-- The outputs do not fit: `TICKA` ends after the four counts (R193). -/
theorem alone_engFull {c : Config} {e : EngRegs} {n : Nat} {s : State} (hn : n = engCount c e.f e.a (s.avail c)) (h0 : n ≠ 0)
    (hfit : ¬ n * e.r.toNat ≤ c.least s.rb.mid0.free s.rb.mid1.free) :
    Alone c .ticka 4 { s with tick := .readEp0 e } (tickEnd .bufferFull [] s) := by
  have hend : agentMicro c .ticka { s with tick := .readMid1 e n s.rb.mid0.free } = .ok (tickEnd .bufferFull [] s) := by
    simp only [agentMicro, tickMicro, hfit, if_false]
    rfl
  exact (alone_engCounts hn h0).trans (Alone.step hend (Alone.refl _ _ _))

/-- The outputs fit: after the four counts the channels follow one another (R195). -/
theorem alone_engChannels {c : Config} {e : EngRegs} {n : Nat} {s s₁ s₂ : State} (hi : ∀ ch, s.ChannelIdle ch)
    (hn : n = engCount c e.f e.a (s.avail c)) (h0 : n ≠ 0) (hfit : n * e.r.toNat ≤ c.least s.rb.mid0.free s.rb.mid1.free)
    (h₁ : engChannel c e.r e.g n .c0 s = .ok s₁) (h₂ : c.ifTwo (engChannel c e.r e.g n .c1 s₁) (.ok s₁) = .ok s₂) :
    ∃ k ≤ 16, Alone c .ticka k { s with tick := .readEp0 e } (tickEnd .ok [countWord n] s₂) := by
  have hle : n ≤ s.avail c := hn ▸ engCount_le c e.f e.a _
  have hgo : agentMicro c .ticka { s with tick := .readMid1 e n s.rb.mid0.free } = .ok { s with tick := .read .c0 e n } := by
    simp only [agentMicro, tickMicro, hfit, if_true]
  have hc0 := alone_engChannel (hi .c0) (hle.trans (c.least_le_left _ _)) (hfit.trans (c.least_le_left _ _)) h₁
  have hall := ((alone_engCounts hn h0).trans (Alone.step hgo (Alone.refl _ _ _))).trans hc0
  rcases c.nch_range with hc | hc
  · simp only [Config.ifTwo_one hc, Except.ok.injEq] at h₂
    subst h₂
    simp only [tickNext, Config.ifTwo_one hc] at hall
    exact ⟨_, by omega, hall⟩
  · rw [Config.ifTwo_two hc] at h₂
    simp only [tickNext, Config.ifTwo_two hc] at hall
    obtain ⟨hep1, hmid1⟩ := engChannel_c0_bufs h₁
    have hi1 : s₁.ChannelIdle .c1 := by
      have := hi .c1
      simp only [State.ChannelIdle, epOf, midOf, hep1, hmid1] at this ⊢
      exact this
    have hc1 := alone_engChannel hi1 (by rw [epOf, hep1]; exact hle.trans (Config.least_le_right hc _ _))
      (by rw [midOf, hmid1]; exact hfit.trans (Config.least_le_right hc _ _)) h₂
    exact ⟨_, by omega, hall.trans hc1⟩

/-- `ENG.RUN` from the read of its registers on, as its sixteen micro-steps (R195). -/
theorem alone_engBody {c : Config} {f : Rate} {r : Ratio1} {s : State} {d : Done} (hi : ∀ ch, s.ChannelIdle ch)
    (ht : s.tick = .idle) (h : engBody c f r s = .ok d) :
    Alone c .ticka 16 { s with tick := .readEp0 ⟨f, s.adj, s.gain, r⟩ } (d.state.respond d.result d.values) := by
  obtain ⟨h0, rfl⟩ | ⟨h0, hfit, rfl⟩ | ⟨h0, hfit, s₁, s₂, h₁, h₂, rfl⟩ := engBody_ok rfl h
  · rw [← tickEnd_idle ht]
    exact (alone_engNothing (e := ⟨f, s.adj, s.gain, r⟩) h0).upTo rfl (by omega)
  · rw [← tickEnd_idle ht]
    exact (alone_engFull (e := ⟨f, s.adj, s.gain, r⟩) rfl h0 hfit).upTo rfl (by omega)
  · have ht₁ := (engChannel_tick h₁).trans ht
    have ht₂ : s₂.tick = .idle := by
      rcases c.nch_range with hc | hc
      · rw [Config.ifTwo_one hc] at h₂; cases h₂; exact ht₁
      · rw [Config.ifTwo_two hc] at h₂; exact (engChannel_tick h₂).trans ht₁
    rw [← tickEnd_idle ht₂]
    obtain ⟨k, hk, hrun⟩ := alone_engChannels (e := ⟨f, s.adj, s.gain, r⟩) hi rfl h0 hfit h₁ h₂
    exact hrun.upTo rfl hk

/-! ## The two operations -/

theorem engRun_ready {c : Config} {s : State} {f : Rate} {r : Ratio1} (hr : s.EngReady f r) : engRun c s = engBody c f r s := by
  obtain ⟨hf, hr1, hv, -⟩ := hr
  simp only [engRun, hf, hr1, hv, if_true]

/-- The first micro-step of an `ENG.RUN`, the read of its registers (R195). -/
theorem startOp_engRun {c : Config} {s : State} {f : Rate} {r : Ratio1} (hb : s.booted = true) (hr : s.EngReady f r)
    (hl : s.allLocked = true) : startOp c .engRun s = .next { s with tick := .readEp0 ⟨f, s.adj, s.gain, r⟩ } := by
  obtain ⟨hf, hr1, hv, hfree, -⟩ := hr
  simp only [startOp, afterBoot_booted hb, hfree, ifFree, engStart, hv, hl, needsValid_true, needsLocked_true, tickRegs, hf, hr1,
    stateOutcome]

/-- A `TICK` whose timer runs and whose agent may start: `VOL.SMOOTH`, `CTL.ADJ`, then the engine (R196). -/
theorem tickOp_ready {c : Config} {s t : State} {f : Rate} {r : Ratio1} {v : BitVec 16} (hr : s.EngReady f r)
    (ht : s.timerEnabled = true) (hv : s.volReq = some v) (h : tickOp c s = .next t) :
    ∃ s' d, volUpdate c v s = .ok s' ∧ engBody c f r (ctlUpdate s') = .ok d ∧ t = d.state.respond d.result d.values := by
  obtain ⟨hf, hr1, hvalid, hfree, -⟩ := hr
  have hidle := (tickaBlocked_eq_none hfree).1
  simp only [tickOp, ht, hidle, beq_self_eq_true, Bool.and_self, if_true, hfree, ifFree] at h
  obtain ⟨d, hd, rfl⟩ := outcome_next h
  simp only [tickBody, hv, hf, hr1, hvalid, if_true] at hd
  split at hd
  · next s' hvol => exact ⟨s', d, hvol, hd, rfl⟩
  · cases hd

/-- The first micro-step of a `TICK`, its `VOL.SMOOTH` (R196). -/
theorem startOp_tick {c : Config} {s s' : State} {f : Rate} {r : Ratio1} {v : BitVec 16} (hb : s.booted = true)
    (hr : s.EngReady f r) (hl : s.allLocked = true) (ht : s.timerEnabled = true) (hv : s.volReq = some v)
    (h : volUpdate c v s = .ok s') : startOp c .tick s = .next { s' with tick := .ctl } := by
  obtain ⟨-, -, hvalid, hfree, -⟩ := hr
  have hidle := (tickaBlocked_eq_none hfree).1
  simp only [startOp, tickStart, ht, hidle, beq_self_eq_true, Bool.and_self, if_true, afterBoot_booted hb, hfree, ifFree, hvalid, hl,
    needsValid_true, needsLocked_true, hv, h]

/-- The micro-steps of a `TICK` between its `VOL.SMOOTH` and its engine: `CTL.ADJ` and the read of the registers. -/
theorem alone_tickControl {c : Config} {s : State} {f : Rate} {r : Ratio1} (hf : s.fCur = some f) (hr : s.r1 = some r) :
    Alone c .ticka 2 { s with tick := .ctl } { ctlUpdate s with tick := .readEp0 ⟨f, (ctlUpdate s).adj, s.gain, r⟩ } := by
  have hregs : agentMicro c .ticka { ctlUpdate s with tick := .regs } =
      .ok { ctlUpdate s with tick := .readEp0 ⟨f, (ctlUpdate s).adj, s.gain, r⟩ } := by
    simp only [agentMicro, tickMicro, tickRegs, ctlUpdate_fCur, ctlUpdate_r1, hf, hr, ctlUpdate_gain]
  exact Alone.step rfl (Alone.step hregs (Alone.refl _ _ _))

/-- Settles O58: the register reads, the counts and the phases of each channel follow the command's own parts one by one. -/
theorem engineMicroStepsAgree : Obligations.EngineMicroStepsAgree := by
  intro c s t f r hb hr hl
  have hi := channelIdle_of_ready hr hl
  obtain ⟨hf, hr1, -, hfree, -⟩ := id hr
  obtain ⟨hidle, -⟩ := tickaBlocked_eq_none hfree
  refine ⟨fun h => ?_, fun ht hvol h => ?_⟩
  · rw [engRun_ready hr] at h
    obtain ⟨d, hd, rfl⟩ := outcome_next h
    exact microAllOf_start (startOp_engRun hb hr hl) (alone_engBody hi hidle hd)
  · obtain ⟨v, hv⟩ := Option.ne_none_iff_exists'.mp hvol
    obtain ⟨s', d, hsmooth, hd, rfl⟩ := tickOp_ready hr ht hv h
    refine microAllOf_start (startOp_tick hb hr hl ht hv hsmooth) ?_
    obtain ⟨hrb, ht', hf', hr1'⟩ := volUpdate_keeps hsmooth
    have hi' : ∀ ch, (ctlUpdate s').ChannelIdle ch := fun ch => (hi ch).congr hrb
    exact (alone_tickControl (hf'.trans hf) (hr1'.trans hr1)).trans (alone_engBody hi' (ht'.trans hidle) hd)

end Sys2Proof.Machine
end

section
/-! `TX.POLL` taken as micro-steps (44_scheduler.md R247): with no other agent in between they leave what the command leaves. -/

namespace Sys2Proof.Machine

/-! ## What the command does -/

theorem pollbBlocked_eq_none {s : State} (h : s.pollbBlocked = none) :
    s.poll = .idle ∧ s.rb.mid0.consOp = none ∧ s.rb.mid1.consOp = none := by
  simp only [State.pollbBlocked] at h
  split_ifs at h with hp hc
  simp only [bne_iff_ne, ne_eq, not_not, Bool.or_eq_true, Option.isSome_iff_ne_none, not_or] at hp hc
  exact ⟨hp, hc.1, hc.2⟩

/-- A poll that is not held takes the one action its reads choose (R230). -/
theorem txPoll_ready {c : Config} {s : State} {r : Ratio2} (hr : s.PollReady r) :
    txPoll c s = pollAct c r (s.occ c) s.qCnt s := by
  obtain ⟨hb, hr2, h0, h1, -⟩ := hr
  simp only [txPoll, hb, hr2, h0, h1, Bool.false_eq_true, if_false, Bool.and_self, if_true]

/-- A poll renders, or it takes an action that touches no buffer (R230). -/
theorem pollAct_ok {c : Config} {r : Ratio2} {occ q : Nat} {s : State} {a : PollAction} {d : Done}
    (ha : a = pollChoice c.txqDepth s.schedState (s.rb.mid0.cap / 2) occ q) (h : pollAct c r occ q s = .ok d) :
    (a ≠ .rendered ∧ d = ⟨pollPlain a s, .ok, [a.code]⟩) ∨
    (a = .rendered ∧ ∃ s', render c r (renderSize c occ r) s = .ok s' ∧ d = ⟨s', .ok, [PollAction.rendered.code]⟩) := by
  simp only [pollAct, ← ha] at h
  split at h
  · split at h
    · next s' hs' => cases h; exact .inr ⟨rfl, s', hs', rfl⟩
    · cases h
  · next hne => cases h; exact .inl ⟨hne, rfl⟩

theorem renderSize_le (c : Config) (occ : Nat) (r : Ratio2) : renderSize c occ r ≤ occ := by
  simp only [renderSize]
  split <;> omega

/-- A render on two channels is the read of each MID buffer, then the second stage (R235). -/
theorem render_ok {c : Config} (hc : c.nch = 2) {r : Ratio2} {m : Nat} {s s' : State} (h : render c r m s = .ok s') :
    ∃ x0 x1 q0 q1, s.rb.mid0.read .pollb m = .ok (x0, q0) ∧ s.rb.mid1.read .pollb m = .ok (x1, q1) ∧
      renderInto c r x0 x1 ((s.setBuf .mid0 q0).setBuf .mid1 q1) = .ok s' := by
  simp only [render, Config.ifTwo_two hc] at h
  split at h
  · cases h
  · next x0 s₁ h0 =>
    obtain ⟨q0, hq0, rfl⟩ := readBuf_ok h0
    split at h
    · cases h
    · next x1 s₂ h1 =>
      obtain ⟨q1, hq1, rfl⟩ := readBuf_ok h1
      exact ⟨x0, x1, q0, q1, hq0, hq1, h⟩

/-! ## The registers of a poll in flight -/

/-- The state with `poll_busy` set and `POLLB` at `p`. -/
def State.polling (s : State) (p : PollOp) : State := { s with pollBusy := true, poll := p }

/-- Ending a poll forgets where it stood. -/
theorem pollEnd_polling {s : State} (hp : s.poll = .idle) (hb : s.pollBusy = false) (p : PollOp) (r : Result) (vs : List Word) :
    pollEnd r vs (s.polling p) = s.respond r vs := by
  cases s; cases hp; cases hb; rfl

theorem pollPlain_polling (a : PollAction) (s : State) (p : PollOp) : pollPlain a (s.polling p) = (pollPlain a s).polling p := by
  cases a <;> rfl

theorem pollPlain_poll (a : PollAction) (s : State) : (pollPlain a s).poll = s.poll ∧ (pollPlain a s).pollBusy = s.pollBusy := by
  cases a <;> exact ⟨rfl, rfl⟩

/-- A chain reads and writes no register of the poll it belongs to (R169). -/
theorem runChain2_polling {c : Config} {s s' : State} {r : Ratio2} {ch : Chan} {x y : List Sample}
    (h : s.runChain2 c r ch x = .ok (y, s')) (p : PollOp) :
    (s.polling p).runChain2 c r ch x = .ok (y, s'.polling p) ∧ s'.poll = s.poll ∧ s'.pollBusy = s.pollBusy := by
  obtain ⟨-, d, hd, rfl⟩ := runChain2_spec h
  have hd' : runChain c.num (c.chain2 r) (((s.polling p).d2.get r).get ch) x none = .ok (y, d) := hd
  refine ⟨?_, rfl, rfl⟩
  simp only [State.runChain2, hd']
  rfl

/-- The second stage reads and writes no register of the poll it belongs to (R235). -/
theorem renderInto_polling {c : Config} (hc : c.nch = 2) {r : Ratio2} {x0 x1 : List Sample} {s s' : State}
    (h : renderInto c r x0 x1 s = .ok s') (p : PollOp) :
    renderInto c r x0 x1 (s.polling p) = .ok (s'.polling p) ∧ s'.poll = s.poll ∧ s'.pollBusy = s.pollBusy := by
  simp only [renderInto, Config.ifTwo_two hc] at h
  split at h
  · cases h
  · next y0 s₁ h0 =>
    obtain ⟨h0', hp0, hb0⟩ := runChain2_polling h0 p
    split at h
    · cases h
    · next y1 s₂ h1 =>
      obtain ⟨h1', hp1, hb1⟩ := runChain2_polling h1 p
      split at h
      · cases h
      · next sl hsl =>
        cases h
        have hsl' : ((s₂.polling p).slotAt (s₂.polling p).qWr).fill c (framePayload c y0 y1) = .ok sl := hsl
        refine ⟨?_, hp1.trans hp0, hb1.trans hb0⟩
        simp only [renderInto, Config.ifTwo_two hc, h0', h1', hsl']
        rfl

/-! ## The micro-steps -/

/-- The first micro-step of a `TX.POLL` that is not held (R247). -/
theorem startOp_txPoll {c : Config} {s : State} {r : Ratio2} (hb : s.booted = true) (hr : s.PollReady r)
    (hm0 : s.rb.mid0.mode = true) (hm1 : s.rb.mid1.mode = true) : startOp c .txPoll s = .next (s.polling .readMid0) := by
  obtain ⟨hbusy, -, h0, h1, hfree⟩ := hr
  simp only [startOp, afterBoot_booted hb, hfree, ifFree, pollStart, hbusy, Bool.false_eq_true, if_false, h0, h1, hm0, hm1,
    Bool.and_self, needsValid_true, needsLocked_true, State.polling]

/-- The reads of the two occupancies and of `q_cnt` (R247). -/
theorem alone_pollReads (c : Config) (s : State) :
    Alone c .pollb 3 (s.polling .readMid0) (s.polling (.act (s.occ c) s.qCnt)) :=
  Alone.step rfl (Alone.step rfl (Alone.step rfl (Alone.refl _ _ _)))

theorem pollMicro_act {c : Config} {r : Ratio2} {s : State} (hr : s.r2 = some r) (occ q : Nat) :
    agentMicro c .pollb (s.polling (.act occ q)) = pollActMicro c r occ q (s.polling (.act occ q)) := by
  simp only [agentMicro, pollMicro, State.polling, hr]

theorem pollActMicro_plain {c : Config} {r : Ratio2} {occ q : Nat} {a : PollAction} {s : State}
    (ha : a = pollChoice c.txqDepth s.schedState (s.rb.mid0.cap / 2) occ q) (hne : a ≠ .rendered) :
    pollActMicro c r occ q s = .ok (pollEnd .ok [a.code] (pollPlain a s)) := by
  simp only [pollActMicro, ← ha]

theorem pollActMicro_rendered {c : Config} {r : Ratio2} {occ q m : Nat} {s : State}
    (ha : pollChoice c.txqDepth s.schedState (s.rb.mid0.cap / 2) occ q = .rendered) (hm : m = renderSize c occ r) :
    pollActMicro c r occ q s =
      { s with poll := .read0 m }.readMicro .mid0 m (pollEnd .insufficientData []) (pollNext c m) := by
  simp only [pollActMicro, ha, hm]

/-- An action that renders nothing is the poll's last micro-step (R247). -/
theorem alone_pollPlain {c : Config} {r : Ratio2} {occ q : Nat} {a : PollAction} {s : State} (hr : s.r2 = some r)
    (ha : a = pollChoice c.txqDepth s.schedState (s.rb.mid0.cap / 2) occ q) (hne : a ≠ .rendered) (hp : s.poll = .idle)
    (hb : s.pollBusy = false) :
    Alone c .pollb 1 (s.polling (.act occ q)) ((pollPlain a s).respond .ok [a.code]) := by
  obtain ⟨hp', hb'⟩ := pollPlain_poll a s
  refine Alone.step ?_ (Alone.refl _ _ _)
  rw [pollMicro_act hr, pollActMicro_plain (s := s.polling (.act occ q)) ha hne, pollPlain_polling,
    pollEnd_polling (hp'.trans hp) (hb'.trans hb)]

/-- A render is the phases of the two reads and then the second stage with `Enqueue` (R247). -/
theorem alone_render {c : Config} (hc : c.nch = 2) {r : Ratio2} {occ q m : Nat} {s s' : State} (hr : s.r2 = some r)
    (ha : pollChoice c.txqDepth s.schedState (s.rb.mid0.cap / 2) occ q = .rendered) (hm : m = renderSize c occ r)
    (hi0 : s.rb.mid0.ReadIdle) (hi1 : s.rb.mid1.ReadIdle) (h0 : m ≤ s.rb.mid0.cnt) (h1 : m ≤ s.rb.mid1.cnt) (hp : s.poll = .idle)
    (hb : s.pollBusy = false) (h : render c r m s = .ok s') :
    Alone c .pollb 7 (s.polling (.act occ q)) (s'.respond .ok [PollAction.rendered.code]) := by
  obtain ⟨x0, x1, q0, q1, hr0, hr1, hinto⟩ := render_ok hc h
  have first : Alone c .pollb 3 (s.polling (.act occ q)) ((s.setBuf .mid0 q0).polling (.read1 m x0)) := by
    have hdone : pollNext c m x0 ((s.setBuf .mid0 q0).polling (.read0 m)) = (s.setBuf .mid0 q0).polling (.read1 m x0) := by
      rw [pollNext, Config.ifTwo_two hc]
      rfl
    rw [← hdone]
    exact Alone.read (s' := s.polling (.read0 m)) (b := .mid0) hi0 h0 hr0
      ((pollMicro_act hr occ q).trans (pollActMicro_rendered (s := s.polling (.act occ q)) ha hm)) fun _ => rfl
  have second : Alone c .pollb 3 ((s.setBuf .mid0 q0).polling (.read1 m x0))
      (((s.setBuf .mid0 q0).setBuf .mid1 q1).polling (.enqueue m x0 x1)) :=
    Alone.read (s' := (s.setBuf .mid0 q0).polling (.read1 m x0)) (b := .mid1)
      (done := fun x1 s => { s with poll := .enqueue m x0 x1 }) hi1 h1 hr1 rfl fun _ => rfl
  have third : Alone c .pollb 1 (((s.setBuf .mid0 q0).setBuf .mid1 q1).polling (.enqueue m x0 x1))
      (s'.respond .ok [PollAction.rendered.code]) := by
    obtain ⟨hstage, hp', hb'⟩ := renderInto_polling hc hinto (.enqueue m x0 x1)
    rw [← pollEnd_polling (hp'.trans hp) (hb'.trans hb) (.enqueue m x0 x1)]
    have hr' : (((s.setBuf .mid0 q0).setBuf .mid1 q1).polling (.enqueue m x0 x1)).r2 = some r := hr
    have hpoll : (((s.setBuf .mid0 q0).setBuf .mid1 q1).polling (.enqueue m x0 x1)).poll = .enqueue m x0 x1 := rfl
    refine Alone.step ?_ (Alone.refl _ _ _)
    simp only [agentMicro, pollMicro, hpoll, hr', hstage]
  exact (first.trans second).trans third

/-- Settles O59: the reads of the poll, then its one action, which for a render is two reads and the second stage. -/
theorem pollMicroStepsAgree : Obligations.PollMicroStepsAgree := by
  intro s t r hb hr hinv hbusy hm0 hm1 h
  obtain ⟨-, hr2, -, -, hfree⟩ := id hr
  obtain ⟨hp, hc0, hc1⟩ := pollbBlocked_eq_none hfree
  obtain ⟨-, -, ⟨-, hl0, -⟩, ⟨-, hl1, -⟩, -⟩ := hinv
  simp only [exec, execTxPoll, hfree, ifFree, txPoll_ready hr] at h
  obtain ⟨d, hd, rfl⟩ := outcome_next h
  have hreads := alone_pollReads Config.current s
  refine microAllOf_start (startOp_txPoll hb hr hm0 hm1) ?_
  obtain ⟨hne, rfl⟩ | ⟨ha, s', hrender, rfl⟩ := pollAct_ok rfl hd
  · exact (hreads.trans (alone_pollPlain hr2 rfl hne hp hbusy)).upTo
      (beq_iff_eq.mpr ((pollPlain_poll _ s).1.trans hp)) (by omega)
  · have hle := renderSize_le Config.current (s.occ Config.current) r
    exact hreads.trans (alone_render rfl hr2 ha rfl ⟨hm0, hl0, hc0⟩ ⟨hm1, hl1, hc1⟩ (hle.trans (Config.least_le_left _ _ _))
      (hle.trans (Config.least_le_right rfl _ _)) hp hbusy hrender)

end Sys2Proof.Machine
end

section
/-! A write or a read issued on its own (40_ringbuffer.md R140 to R144): its phases on a locked buffer, and its one micro-step where
the buffer is unlocked or the check fails, leave what the operation run to completion leaves. -/

namespace Sys2Proof.Machine

/-! ## Writes -/

theorem writeOp_fits {s : State} {b : BufId} {xs : List Sample} {q' : RingBuffer} (hv : (s.buf b).valid = true)
    (hf : s.producerFree b = true) (hn : xs.length ≤ (s.buf b).free) (hw : (s.buf b).write (producerOf b) xs = .ok q') :
    s.writeOp b xs = .next ((s.setBuf b q').respond .ok []) := by
  simp only [State.writeOp, State.onValid, hv, hf, hn, if_true, State.writeBuf, hw, State.ok]

theorem writeOp_full {s : State} {b : BufId} {xs : List Sample} (hv : (s.buf b).valid = true) (hf : s.producerFree b = true)
    (hn : ¬ xs.length ≤ (s.buf b).free) : s.writeOp b xs = .next (s.respond .bufferFull []) := by
  simp only [State.writeOp, State.onValid, hv, hf, hn, if_true, if_false, State.raise]

theorem writeStart_free {s : State} {b : BufId} {xs : List Sample} (hv : (s.buf b).valid = true) (hf : s.producerFree b = true) :
    writeStart b xs s = stateOutcome (s.writeMicro b xs (·.respond .bufferFull []) (·.respond .ok [])) := by
  simp only [writeStart, hv, needsValid_true, hf, if_true]

/-- The later phases of a write issued on its own, its agent being in no operation (R141). -/
theorem prodMicro_inFlight {s : State} {b : BufId} (hi : s.agentIdle (producerOf b) = true) {q : RingBuffer} (hq : q.prodOp ≠ none) :
    ∃ ys, prodMicro b (s.setBuf b q) = (s.setBuf b q).writeMicro b ys (·.respond .bufferFull []) (·.respond .ok []) := by
  obtain ⟨op, hop⟩ := Option.ne_none_iff_exists'.mp hq
  have hi' : (s.setBuf b q).agentIdle (producerOf b) = true := by rw [← hi]; cases b <;> rfl
  exact ⟨op.data, by simp only [prodMicro, buf_setBuf_same, hop, hi', if_true]⟩

/-- On a locked buffer a write that fits is its three phases (R141). -/
theorem write_threePhases {c : Config} {i : Instr} {s : State} {b : BufId} {xs : List Sample}
    (hi : startOp c i s = writeStart b xs s) (hv : (s.buf b).valid = true) (hinv : (s.buf b).Inv) (hf : s.producerFree b = true)
    (hm : (s.buf b).mode = true) (hn : xs.length ≤ (s.buf b).free) :
    ∃ t, s.writeOp b xs = .next t ∧ microAllOf c [.start i, .prod b, .prod b] s = .next t := by
  obtain ⟨q', hw⟩ := write_ends hv hinv (producerOf b) xs
  refine ⟨_, writeOp_fits hv hf hn hw, ?_⟩
  have hstart := hi.trans (writeStart_free hv hf)
  simp only [State.producerFree, Bool.and_eq_true, Option.isNone_iff_eq_none] at hf
  refine microAllOf_write (e₀ := .start i) ⟨hm, hinv.2.1, hf.1⟩ hn hw hstart fun q hq => ?_
  obtain ⟨ys, hys⟩ := prodMicro_inFlight hf.2 hq
  exact ⟨ys, _, congrArg stateOutcome hys⟩

/-- On an unlocked buffer, and where the check fails, a write is one micro-step (R144). -/
theorem write_oneStep {s : State} {b : BufId} {xs : List Sample} (hv : (s.buf b).valid = true) (hinv : (s.buf b).Inv)
    (hf : s.producerFree b = true) (h : (s.buf b).mode = false ∨ (s.buf b).free < xs.length) :
    ∃ t, s.writeOp b xs = .next t ∧ writeStart b xs s = .next t := by
  have hidle : (s.buf b).prodOp = none := by
    simp only [State.producerFree, Bool.and_eq_true, Option.isNone_iff_eq_none] at hf
    exact hf.1
  rw [writeStart_free hv hf]
  by_cases hn : xs.length ≤ (s.buf b).free
  · have hm : (s.buf b).mode = false := h.resolve_right (by omega)
    obtain ⟨q', hw⟩ := write_ends hv hinv (producerOf b) xs
    refine ⟨_, writeOp_fits hv hf hn hw, ?_⟩
    simp only [State.writeMicro, RingBuffer.writeStep, hidle, hn, hm, if_true, Bool.false_eq_true, if_false, hw, stateOutcome]
  · refine ⟨_, writeOp_full hv hf hn, ?_⟩
    simp only [State.writeMicro, RingBuffer.writeStep, hidle, hn, if_false, stateOutcome]

/-! ## Reads -/

theorem readOp_counted {s : State} {b : BufId} {n : Nat} {d : List Sample} {q' : RingBuffer} (hv : (s.buf b).valid = true)
    (hf : s.consumerFree b = true) (hn : n ≤ (s.buf b).cnt) (hr : (s.buf b).read (consumerOf b) n = .ok (d, q')) (few : Result) :
    s.readOp b n few = .next ((s.setBuf b q').respond .ok d) := by
  simp only [State.readOp, State.onValid, hv, hf, hn, if_true, State.readBuf, hr, State.ok]

theorem readOp_few {s : State} {b : BufId} {n : Nat} (hv : (s.buf b).valid = true) (hf : s.consumerFree b = true)
    (hn : ¬ n ≤ (s.buf b).cnt) (few : Result) : s.readOp b n few = .next (s.respond few []) := by
  simp only [State.readOp, State.onValid, hv, hf, hn, if_true, if_false, State.raise]

theorem readStart_free {s : State} {b : BufId} {n : Nat} (hv : (s.buf b).valid = true) (hf : s.consumerFree b = true)
    (few : Result) : readStart b n few s = stateOutcome (s.readMicro b n (·.respond few []) (fun d s => s.respond .ok d)) := by
  simp only [readStart, hv, needsValid_true, hf, if_true]

/-- The later phases of a read issued on its own, its agent being in no operation (R142). -/
theorem consMicro_inFlight {s : State} {b : BufId} (hi : s.agentIdle (consumerOf b) = true) {q : RingBuffer} (hq : q.consOp ≠ none) :
    ∃ k, consMicro b (s.setBuf b q) =
      (s.setBuf b q).readMicro b k (·.respond .insufficientData []) (fun d s => s.respond .ok d) := by
  obtain ⟨op, hop⟩ := Option.ne_none_iff_exists'.mp hq
  have hi' : (s.setBuf b q).agentIdle (consumerOf b) = true := by rw [← hi]; cases b <;> rfl
  exact ⟨op.n, by simp only [consMicro, buf_setBuf_same, hop, hi', if_true]⟩

/-- On a locked buffer a read of counted elements is its three phases (R142). -/
theorem read_threePhases {c : Config} {i : Instr} {s : State} {b : BufId} {n : Nat} {few : Result}
    (hi : startOp c i s = readStart b n few s) (hv : (s.buf b).valid = true) (hinv : (s.buf b).Inv)
    (hf : s.consumerFree b = true) (hm : (s.buf b).mode = true) (hn : n ≤ (s.buf b).cnt) :
    ∃ t, s.readOp b n few = .next t ∧ microAllOf c [.start i, .cons b, .cons b] s = .next t := by
  obtain ⟨d, q', hr⟩ := read_ends hv hinv (consumerOf b) hn
  refine ⟨_, readOp_counted hv hf hn hr few, ?_⟩
  have hstart := hi.trans (readStart_free hv hf few)
  simp only [State.consumerFree, Bool.and_eq_true, Option.isNone_iff_eq_none] at hf
  refine microAllOf_read (e₀ := .start i) (done := fun d s => s.respond .ok d) ⟨hm, hinv.2.1, hf.1⟩ hn hr hstart fun q hq => ?_
  obtain ⟨k, hk⟩ := consMicro_inFlight hf.2 hq
  exact ⟨k, _, congrArg stateOutcome hk⟩

/-- On an unlocked buffer, and where the check fails, a read is one micro-step (R144). -/
theorem read_oneStep {s : State} {b : BufId} {n : Nat} (few : Result) (hv : (s.buf b).valid = true) (hinv : (s.buf b).Inv)
    (hf : s.consumerFree b = true) (h : (s.buf b).mode = false ∨ (s.buf b).cnt < n) :
    ∃ t, s.readOp b n few = .next t ∧ readStart b n few s = .next t := by
  have hidle : (s.buf b).consOp = none := by
    simp only [State.consumerFree, Bool.and_eq_true, Option.isNone_iff_eq_none] at hf
    exact hf.1
  rw [readStart_free hv hf]
  by_cases hn : n ≤ (s.buf b).cnt
  · have hm : (s.buf b).mode = false := h.resolve_right (by omega)
    obtain ⟨d, q', hr⟩ := read_ends hv hinv (consumerOf b) hn
    refine ⟨_, readOp_counted hv hf hn hr few, ?_⟩
    simp only [State.readMicro, RingBuffer.readStep, hidle, hn, hm, if_true, Bool.false_eq_true, if_false, hr, stateOutcome]
  · refine ⟨_, readOp_few hv hf hn few, ?_⟩
    simp only [State.readMicro, RingBuffer.readStep, hidle, hn, if_false, stateOutcome]

/-! ## The four operations -/

/-- Settles O16: an operation of one element is that of a list of one, with its own answer where the buffer holds nothing. -/
theorem phasesAgreeWithSequential : Obligations.PhasesAgreeWithSequential := by
  intro b s x xs n hv hinv
  refine ⟨fun hf => ⟨fun hm hn => ?_, fun hm hn => ?_, fun h => write_oneStep hv hinv hf h, fun h => ?_⟩,
    fun hf => ⟨fun hm hn => ?_, fun hm hn => ?_, fun h => read_oneStep _ hv hinv hf h, fun h => ?_⟩⟩
  · exact write_threePhases rfl hv hinv hf hm hn
  · exact write_threePhases (xs := [x]) rfl hv hinv hf hm (Nat.sub_pos_of_lt hn)
  · exact write_oneStep hv hinv hf (h.imp_right fun h => by simp [RingBuffer.free, h])
  · exact read_threePhases rfl hv hinv hf hm hn
  · exact read_threePhases (n := 1) rfl hv hinv hf hm hn
  · exact read_oneStep _ hv hinv hf (h.imp_right fun h => by simp [h])

end Sys2Proof.Machine
end

section
/-! `USB.PUSH` taken as micro-steps (42_engine.md R190): with no other agent in between they leave what the command leaves. -/

namespace Sys2Proof.Machine

theorem usbcbBlocked_eq_none {s : State} (h : s.usbcbBlocked = none) :
    s.usb = .idle ∧ s.rb.ep0.prodOp = none ∧ s.rb.ep1.prodOp = none := by
  simp only [State.usbcbBlocked] at h
  split_ifs at h with hu hp
  simp only [bne_iff_ne, ne_eq, not_not, Bool.or_eq_true, Option.isSome_iff_ne_none, not_or] at hu hp
  exact ⟨hu, hp.1, hp.2⟩

/-- Every frame of a packet gives one Sample per channel (R190). -/
theorem channelSamples_length (c : Config) (d : Depth) (ch : Chan) (free : Nat) (frames : List PcmFrame) :
    (channelSamples c d ch free frames).length = frames.length := by
  induction frames generalizing free with
  | nil => rfl
  | cons f fs ih => simp only [channelSamples, List.length_cons, ih]

/-- The state with `push_busy` set and `USBCB` at `u`. -/
def State.pushing (s : State) (u : UsbOp) : State := { s with pushBusy := true, usb := u }

/-- Ending a push forgets where it stood. -/
theorem usbEnd_pushing {s : State} (hu : s.usb = .idle) (hb : s.pushBusy = false) (u : UsbOp) (r : Result) :
    usbEnd r (s.pushing u) = s.respond r [] := by
  cases s; cases hu; cases hb; rfl

/-- The state after the Samples of a packet are computed, its payload words counted (log entry 5). -/
def State.sampled (c : Config) (frames : List PcmFrame) (s : State) : State :=
  { s with pcmFree := s.pcmFree + c.nch * frames.length }

/-- The state after a packet is in the EP buffers `q0` and `q1` (R190). -/
def State.pushed (c : Config) (frames : List PcmFrame) (q0 q1 : RingBuffer) (s : State) : State :=
  ((s.sampled c frames).setBuf .ep0 q0).setBuf .ep1 q1

/-- The two writes of a packet on two channels. -/
theorem pushWrite_two {c : Config} (hc : c.nch = 2) {d : Depth} {frames : List PcmFrame} {s : State} {q0 q1 : RingBuffer}
    (h0 : s.rb.ep0.write .usbcb (channelSamples c d .c0 s.pcmFree frames) = .ok q0)
    (h1 : s.rb.ep1.write .usbcb (channelSamples c d .c1 s.pcmFree frames) = .ok q1) :
    pushWrite c d frames s = .ok (s.pushed c frames q0 q1) := by
  have w0 : s.writeBuf .ep0 (channelSamples c d .c0 s.pcmFree frames) = .ok (s.setBuf .ep0 q0) := by
    simp only [State.writeBuf, State.buf, Buffers.get, producerOf, h0]
  have w1 : (s.setBuf .ep0 q0).writeBuf .ep1 (channelSamples c d .c1 s.pcmFree frames) =
      .ok ((s.setBuf .ep0 q0).setBuf .ep1 q1) := by
    simp only [State.writeBuf, State.buf, State.setBuf, Buffers.set, Buffers.get, producerOf, h1]
  simp only [pushWrite, w0, Config.ifTwo_two hc, w1]
  rfl

/-- The check of a push: the packet does not fit, and is dropped whole (R190). -/
theorem alone_pushFull {c : Config} {d : Depth} {frames : List PcmFrame} {s : State}
    (hfit : ¬ frames.length ≤ c.least s.rb.ep0.free s.rb.ep1.free) :
    Alone c .usbcb 2 (s.pushing (.readEp0 d frames)) (usbEnd .bufferFull (s.pushing .idle)) := by
  have hend : agentMicro c .usbcb (s.pushing (.readEp1 d frames s.rb.ep0.free)) = .ok (usbEnd .bufferFull (s.pushing .idle)) := by
    simp only [agentMicro, usbMicro, State.pushing, hfit, if_false]
    rfl
  exact Alone.step rfl (Alone.step hend (Alone.refl _ _ _))

/-- A push that fits: the two counts, then the phases of the two writes (R190). -/
theorem alone_pushWrites {c : Config} (hc : c.nch = 2) {d : Depth} {frames : List PcmFrame} {s : State} {q0 q1 : RingBuffer}
    (hi0 : s.rb.ep0.WriteIdle) (hi1 : s.rb.ep1.WriteIdle) (hfit : frames.length ≤ c.least s.rb.ep0.free s.rb.ep1.free)
    (h0 : s.rb.ep0.write .usbcb (channelSamples c d .c0 s.pcmFree frames) = .ok q0)
    (h1 : s.rb.ep1.write .usbcb (channelSamples c d .c1 s.pcmFree frames) = .ok q1) :
    Alone c .usbcb 8 (s.pushing (.readEp0 d frames)) (usbEnd .ok ((s.pushed c frames q0 q1).pushing .idle)) := by
  generalize hx0 : channelSamples c d .c0 s.pcmFree frames = x0 at h0
  generalize hx1 : channelSamples c d .c1 s.pcmFree frames = x1 at h1
  have hl0 : x0.length ≤ s.rb.ep0.free := by
    rw [← hx0, channelSamples_length]; exact hfit.trans (c.least_le_left _ _)
  have hl1 : x1.length ≤ s.rb.ep1.free := by
    rw [← hx1, channelSamples_length]; exact hfit.trans (Config.least_le_right hc _ _)
  have hcheck : agentMicro c .usbcb (s.pushing (.readEp1 d frames s.rb.ep0.free)) =
      .ok ((s.sampled c frames).pushing (.write0 x0 x1)) := by
    simp only [agentMicro, usbMicro, State.pushing, hfit, if_true, hx0, hx1]
    rfl
  have counts : Alone c .usbcb 2 (s.pushing (.readEp0 d frames)) ((s.sampled c frames).pushing (.write0 x0 x1)) :=
    Alone.step rfl (Alone.step hcheck (Alone.refl _ _ _))
  have first : Alone c .usbcb 3 ((s.sampled c frames).pushing (.write0 x0 x1))
      (((s.sampled c frames).setBuf .ep0 q0).pushing (.write1 x1)) := by
    have := Alone.write (c := c) (a := .usbcb) (s := (s.sampled c frames).pushing (.write0 x0 x1)) (b := .ep0)
      (full := usbEnd .bufferFull) (done := fun s => c.ifTwo { s with usb := .write1 x1 } (usbEnd .ok s)) hi0 hl0 h0 fun _ => rfl
    rw [Config.ifTwo_two hc] at this
    exact this
  have second : Alone c .usbcb 3 (((s.sampled c frames).setBuf .ep0 q0).pushing (.write1 x1))
      (usbEnd .ok ((((s.sampled c frames).setBuf .ep0 q0).setBuf .ep1 q1).pushing (.write1 x1))) :=
    Alone.write (s := ((s.sampled c frames).setBuf .ep0 q0).pushing (.write1 x1)) (b := .ep1) hi1 hl1 h1 fun _ => rfl
  exact (counts.trans first).trans second

/-- The first micro-step of a `USB.PUSH` outside REINIT (R190, R274). -/
theorem startOp_usbPush {c : Config} {s : State} {frames : List PcmFrame} {d : Depth} (hb : s.booted = true)
    (hfree : s.usbcbBlocked = none) (hr : s.reinitBusy = false) (hd : s.depth = some d) (hv0 : s.rb.ep0.valid = true)
    (hv1 : s.rb.ep1.valid = true) (hm0 : s.rb.ep0.mode = true) (hm1 : s.rb.ep1.mode = true) :
    startOp c (.usbPush frames) s = .next (s.pushing (.readEp0 d frames)) := by
  simp only [startOp, afterBoot_booted hb, hfree, ifFree, usbStart, hr, Bool.false_eq_true, if_false, hd, hv0, hv1, hm0, hm1,
    Bool.and_self, needsValid_true, needsLocked_true, State.pushing]

/-- Settles O57: a packet is discarded during REINIT, dropped where it does not fit, and written to both buffers otherwise. -/
theorem pushMicroStepsAgree : Obligations.PushMicroStepsAgree := by
  intro s frames hb hfree hbusy hdepth hinv hv0 hv1 hm0 hm1
  obtain ⟨d, hd⟩ := Option.ne_none_iff_exists'.mp hdepth
  obtain ⟨hu, hp0, hp1⟩ := usbcbBlocked_eq_none hfree
  obtain ⟨hinv0, hinv1, -⟩ := hinv
  have hidle (r : Result) : (s.respond r []).agentIdle .usbcb = true := beq_iff_eq.mpr hu
  simp only [exec, execUsbPush, hfree, ifFree]
  cases hr : s.reinitBusy with
  | true =>
    refine ⟨s.respond .ok [], by simp only [usbPush, hr, if_true, State.ok], microAllOf_start ?_ (Alone.idle _ (hidle .ok) 8)⟩
    simp only [startOp, afterBoot_booted hb, hfree, ifFree, usbStart, hr, if_true, State.ok]
  | false =>
    have hstart := startOp_usbPush (c := Config.current) (frames := frames) hb hfree hr hd hv0 hv1 hm0 hm1
    by_cases hfit : frames.length ≤ Config.current.least s.rb.ep0.free s.rb.ep1.free
    · obtain ⟨q0, h0⟩ := write_ends hv0 hinv0 .usbcb (channelSamples Config.current d .c0 s.pcmFree frames)
      obtain ⟨q1, h1⟩ := write_ends hv1 hinv1 .usbcb (channelSamples Config.current d .c1 s.pcmFree frames)
      refine ⟨(s.pushed Config.current frames q0 q1).respond .ok [], ?_, microAllOf_start hstart ?_⟩
      · simp only [usbPush, hr, Bool.false_eq_true, if_false, hd, hv0, hv1, Bool.and_self, if_true, hfit,
          pushWrite_two rfl h0 h1, State.ok]
      · have := alone_pushWrites rfl ⟨hm0, hinv0.2.1, hp0⟩ ⟨hm1, hinv1.2.1, hp1⟩ hfit h0 h1
        rwa [usbEnd_pushing (by exact hu) (by exact hbusy)] at this
    · refine ⟨s.respond .bufferFull [], ?_, microAllOf_start hstart ?_⟩
      · simp only [usbPush, hr, Bool.false_eq_true, if_false, hd, hv0, hv1, Bool.and_self, if_true, hfit, State.raise]
      · rw [← usbEnd_pushing hu hbusy .idle]
        exact (alone_pushFull hfit).upTo rfl (by omega)

end Sys2Proof.Machine
end

section
/-! `REINIT` and `MAIN.POLL` taken as micro-steps (45_system.md R266, R272): with no other agent in between they leave what the command
leaves. -/

namespace Sys2Proof.Machine

/-- A REINIT with `n` steps behind it is in flight, and nothing else that could hold up its next steps (R274, R305). -/
def State.ReinitAt (vs : List Word) (n : Nat) (s : State) : Prop :=
  s.tick = .idle ∧ s.main = .reinit vs ∧ s.reinitStep = n ∧ s.pollBusy = false ∧ s.pushBusy = false ∧ s.BuffersQuiet

theorem reinitBegin_at {s : State} (h : s.Quiet) (vs : List Word) : (reinitBegin vs s).ReinitAt vs 0 := by
  obtain ⟨-, ht, -, -, -, hbufs, hpoll, hpush, -⟩ := h
  exact ⟨ht, rfl, rfl, hpoll, hpush, hbufs⟩

/-- With no poll and no push in flight every step is enabled (R274). -/
theorem reinitEnabled_at {vs : List Word} {n : Nat} {s : State} (h : s.ReinitAt vs n) (k : ReinitStep) : reinitEnabled k s = true := by
  obtain ⟨-, -, -, hpoll, hpush, -⟩ := h
  cases k <;> simp only [reinitEnabled, hpoll, hpush, Bool.not_false, Bool.and_self]

/-- `MAINA` takes the next step of the REINIT in flight (R266). -/
theorem agentMicro_reinit {c : Config} {vs : List Word} {n : Nat} {k : ReinitStep} {s : State} (h : s.ReinitAt vs n)
    (hn : nextReinitStep n = some k) : agentMicro c .maina s = reinitStep c k s := by
  have he := reinitEnabled_at h k
  obtain ⟨ht, hm, rfl, -⟩ := h
  simp only [agentMicro, mainMicro, ht, beq_self_eq_true, if_true, hm, hn, he]

/-- Every step but the last one is counted and leaves the REINIT in flight (R51). -/
theorem reinitStep_at {c : Config} {vs : List Word} {n : Nat} {k : ReinitStep} {s : State} (h : s.ReinitAt vs n)
    (hn : nextReinitStep n = some k) (hk : k ≠ .clearBuffers) : ∃ u, reinitStep c k s = .ok u ∧ u.ReinitAt vs (n + 1) := by
  obtain ⟨ht, hm, -, hrest⟩ := h
  match n, hn with
  | 0, rfl | 1, rfl | 2, rfl | 3, rfl | 4, rfl => exact ⟨_, rfl, by simpa [State.ReinitAt] using ⟨ht, hm, hrest⟩⟩
  | 5, rfl => exact absurd rfl hk

theorem clearBuffers_quiet {s : State} (h : s.BuffersQuiet) :
    clearBuffers s.rb = .ok ⟨s.rb.ep0.cleared, s.rb.ep1.cleared, s.rb.mid0.cleared, s.rb.mid1.cleared⟩ := by
  obtain ⟨p0, c0, p1, c1, p2, c2, p3, c3⟩ := h
  simp only [clearBuffers, clear_quiet p0 c0, clear_quiet p1 c1, clear_quiet p2 c2, clear_quiet p3 c3]

/-- The steps `ks` as the command runs them lead from `s` to `t`, and so do as many micro-steps of `MAINA`. -/
def ReinitAgrees (c : Config) (ks : List ReinitStep) (s t : State) : Prop :=
  reinitRun c ks s = .ok t ∧ Alone c .maina ks.length s t

theorem ReinitAgrees.cons {c : Config} {vs : List Word} {n : Nat} {k : ReinitStep} {ks : List ReinitStep} {s u t : State}
    (hs : s.ReinitAt vs n) (hn : nextReinitStep n = some k) (hk : reinitStep c k s = .ok u) (h : ReinitAgrees c ks u t) :
    ReinitAgrees c (k :: ks) s t := by
  obtain ⟨hrun, halone⟩ := h
  exact ⟨by simp only [reinitRun, reinitEnabled_at hs k, if_true, hk, hrun], Alone.step ((agentMicro_reinit hs hn).trans hk) halone⟩

/-- One more step before steps that agree wherever they begin. -/
theorem reinitAgrees_before {c : Config} {vs : List Word} {n : Nat} {k : ReinitStep} {ks : List ReinitStep}
    (hn : nextReinitStep n = some k) (hk : k ≠ .clearBuffers) (ih : ∀ s, s.ReinitAt vs (n + 1) → ∃ t, ReinitAgrees c ks s t)
    (s : State) (h : s.ReinitAt vs n) : ∃ t, ReinitAgrees c (k :: ks) s t := by
  obtain ⟨u, hu, hat⟩ := reinitStep_at h hn hk
  obtain ⟨t, ht⟩ := ih u hat
  exact ⟨t, .cons h hn hu ht⟩

theorem reinitAgrees_last {c : Config} {vs : List Word} (s : State) (h : s.ReinitAt vs 5) :
    ∃ t, ReinitAgrees c [.clearBuffers] s t := by
  obtain ⟨-, -, -, -, -, hbufs⟩ := id h
  have hclear := clearBuffers_quiet hbufs
  exact ⟨_, .cons h rfl (by simp only [reinitStep, hclear]; rfl) ⟨rfl, Alone.refl _ _ _⟩⟩

/-- From a state in which no operation is in flight all six steps run (R266). -/
theorem reinit_agrees {s : State} (hq : s.Quiet) (c : Config) (vs : List Word) :
    ∃ t, ReinitAgrees c reinitSteps (reinitBegin vs s) t := by
  have from4 := reinitAgrees_before (c := c) (vs := vs) (n := 4) (k := .resetDivider) rfl (by decide) reinitAgrees_last
  have from3 := reinitAgrees_before (k := .abortDma) rfl (by decide) from4
  have from2 := reinitAgrees_before (k := .resumeTimer) rfl (by decide) from3
  have from1 := reinitAgrees_before (k := .reconfigureClock) rfl (by decide) from2
  exact reinitAgrees_before (k := .suspendTimer) rfl (by decide) from1 _ (reinitBegin_at hq vs)

/-- An operation whose first micro-step is one that its agent takes from `u`. -/
theorem microAllOf_startAs {c : Config} {i : Instr} {a : Agent} {k : Nat} {s u t : State}
    (hs : startOp c i s = stateOutcome (agentMicro c a u)) (h : Alone c a (k + 1) u t) :
    microAllOf c (.start i :: List.replicate k (.agent a)) s = .next t := by
  simp only [Alone, List.replicate_succ, microAllOf, microOp] at h ⊢
  rw [hs]
  exact h

/-- What `REINIT` and `MAIN.POLL` test at their start (R266, R272). -/
theorem reinitReady_of {s : State} (hf : s.fNom ≠ none) (hp : s.pmSignal ≠ none) (hm : s.mute ≠ none) (hv : s.allValid = true) :
    s.reinitReady = true := by
  simp only [State.reinitReady, Option.isSome_iff_ne_none.mpr hf, Option.isSome_iff_ne_none.mpr hp, Option.isSome_iff_ne_none.mpr hm,
    hv, Bool.and_self]

theorem mainaBlocked_idle {s : State} (h : s.main = .idle) : s.mainaBlocked = none := by
  simp only [State.mainaBlocked, h, bne_self_eq_false, Bool.false_eq_true, if_false]

theorem reinit_microSteps {c : Config} {s : State} (hq : s.Quiet) (hr : s.reinitReady = true) :
    ∃ t, reinitOp c s = .next t ∧ microAllOf c (.start .reinit :: List.replicate 5 (.agent .maina)) s = .next t := by
  obtain ⟨t, hrun, halone⟩ := reinit_agrees hq c []
  obtain ⟨-, ht, -, hm, -⟩ := hq
  refine ⟨t, ?_, microAllOf_startAs ?_ halone⟩
  · simp only [reinitOp, hr, if_true, ht, beq_self_eq_true, hrun, stateOutcome]
  · simp only [startOp, mainaBlocked_idle hm, ifFree, reinitStart, hr, needsValid_true, ht, beq_self_eq_true, if_true, agentMicro]

/-- The state with a `MAIN.POLL` begun, whose test is still to come. -/
def State.mainPolling (s : State) : State := { s with main := .poll }

/-- A pending REINIT is begun by the test of `MAIN.POLL` (R272). -/
theorem agentMicro_poll_pending {c : Config} {s : State} (ht : s.tick = .idle) (hp : s.pending = true) :
    agentMicro c .maina s.mainPolling = .ok (reinitBegin [1] s) := by
  have ht' : s.mainPolling.tick = .idle := ht
  have hm' : s.mainPolling.main = .poll := rfl
  have hp' : s.mainPolling.pending = true := hp
  simp only [agentMicro, mainMicro, ht', beq_self_eq_true, if_true, hm', hp']
  rfl

/-- With no REINIT pending the test of `MAIN.POLL` is the whole of it (R272, R275). -/
theorem agentMicro_poll_release {c : Config} {s : State} (ht : s.tick = .idle) (hm : s.main = .idle) (hp : ¬ s.pending = true) :
    agentMicro c .maina s.mainPolling = .ok (mainRelease s) := by
  have ht' : s.mainPolling.tick = .idle := ht
  have hm' : s.mainPolling.main = .poll := rfl
  have hp' : ¬ s.mainPolling.pending = true := hp
  simp only [agentMicro, mainMicro, ht', beq_self_eq_true, if_true, hm', if_neg hp']
  cases s; cases ht; cases hm; rfl

theorem mainRelease_main (s : State) : (mainRelease s).main = s.main := by
  simp only [mainRelease]
  split <;> rfl

theorem mainPoll_microSteps {c : Config} {s : State} (hq : s.Quiet) (hr : s.reinitReady = true) :
    ∃ t, mainPoll c s = .next t ∧ microAllOf c (.start .mainPoll :: List.replicate 6 (.agent .maina)) s = .next t := by
  obtain ⟨t, hrun, halone⟩ := reinit_agrees hq c [1]
  obtain ⟨-, ht, -, hm, -⟩ := hq
  have hstart : startOp c .mainPoll s = stateOutcome (agentMicro c .maina s.mainPolling) := by
    simp only [startOp, mainaBlocked_idle hm, ifFree, mainStart, hr, ht, beq_self_eq_true, if_true, agentMicro, State.mainPolling]
  simp only [mainPoll, hr, if_true, ht, beq_self_eq_true]
  by_cases hp : s.pending = true
  · refine ⟨t, ?_, microAllOf_startAs hstart (Alone.step (agentMicro_poll_pending ht hp) halone)⟩
    rw [if_pos hp, hrun, stateOutcome]
  · have hidle : (mainRelease s).agentIdle .maina = true := beq_iff_eq.mpr ((mainRelease_main s).trans hm)
    exact ⟨mainRelease s, if_neg hp, microAllOf_startAs hstart (Alone.step (agentMicro_poll_release ht hm hp) (Alone.idle c hidle 6))⟩

/-- Settles O60: each of the six steps is enabled, and is one micro-step; the test of `MAIN.POLL` is one more. -/
theorem reinitMicroStepsAgree : Obligations.ReinitMicroStepsAgree := by
  intro s hq hf hp hm hv
  have hr := reinitReady_of hf hp hm hv
  obtain ⟨-, -, -, hmain, -⟩ := id hq
  simp only [exec, execReinit, execMainPoll, mainaBlocked_idle hmain, ifFree]
  exact ⟨reinit_microSteps hq hr, mainPoll_microSteps hq hr⟩

end Sys2Proof.Machine
end

section
/-! `FB.REPORT` (43_controller.md R213 to R216): the range of the reported rate, its value word, and the report as a command and as three
micro-steps (70_reset_and_hazards.md R352). -/

namespace Sys2Proof.Machine

theorem rate_hz_range (f : Rate) : 44100 ≤ f.hz ∧ f.hz ≤ 192000 := by cases f <;> decide

/-- A rate corrected by at most `FB_LIMIT` is positive and fits 24 bits in 10.14 form (R214, R216). -/
theorem corrected_rate_range (c : Config) (f : Rate) {corr rate : Int} {x : Int} (hcorr : corr = min (max x (-c.fbLimit)) c.fbLimit)
    (hrate : rate = f.hz + corr) : 0 < rate ∧ rate * 16384 / 1000 < 2 ^ 24 := by
  have hlim := c.fbLimit_lt
  obtain ⟨hlo, hhi⟩ := rate_hz_range f
  omega

/-- The value word of a positive rate that fits 24 bits (R105, R214). -/
theorem fbWord_fb1014 {rate : Int} (hpos : 0 < rate) (hfit : rate * 16384 / 1000 < 2 ^ 24) :
    fbWord (fb1014 rate) = BitVec.ofInt 32 (rate * 16384 / 1000) := by
  rw [fbWord, fb1014, Int.tdiv_eq_ediv_of_nonneg (by omega)]
  apply BitVec.eq_of_toNat_eq
  simp only [BitVec.toNat_setWidth, BitVec.toNat_ofInt]
  omega

theorem fbReport_command {c : Config} {s : State} {f : Rate} {r : Ratio1} (hf : s.fCur = some f) (hr : s.r1 = some r)
    (hv : s.rb.mid0.valid = true) :
    fbReport c s = .next (s.respond .ok [fbWord (fbValue c s.rb.mid0.cap s.rb.mid0.cnt f r)]) := by
  simp only [fbReport, hf, hr, hv, if_true, State.ok]

theorem fbReport_missing {c : Config} {s : State} (h : s.fCur = none ∨ s.r1 = none ∨ s.rb.mid0.valid = false) :
    fbReport c s = .next (s.respond .notInitialised []) := by
  simp only [fbReport, State.raise]
  split
  · next hf hr =>
    have hv : s.rb.mid0.valid = false := by simpa only [hf, hr, reduceCtorEq, false_or] using h
    simp only [hv, Bool.false_eq_true, if_false]
  · rfl

/-- The reads of the occupancy, of `f_cur` and of `R1`, in this order (R352). -/
theorem fbReport_microSteps {c : Config} {s : State} {f : Rate} {r : Ratio1} (hb : s.booted = true) (hi : s.host = .idle)
    (hf : s.fCur = some f) (hr : s.r1 = some r) (hv : s.rb.mid0.valid = true) :
    microAllOf c [.start .fbReport, .agent .hostfb, .agent .hostfb] s =
      .next (s.respond .ok [fbWord (fbValue c s.rb.mid0.cap s.rb.mid0.cnt f r)]) := by
  have hstart : startOp c .fbReport s = .next { s with host := .readF s.rb.mid0.cap s.rb.mid0.cnt } := by
    simp only [startOp, afterBoot_booted hb, hi, bne_self_eq_false, busy, Bool.false_eq_true, if_false, ifFree, hostStart, hv,
      needsValid_true]
  have hrate : agentMicro c .hostfb { s with host := .readF s.rb.mid0.cap s.rb.mid0.cnt } =
      .ok { s with host := .readR1 s.rb.mid0.cap s.rb.mid0.cnt f } := by
    simp only [agentMicro, hostMicro, hf]
  have hratio : agentMicro c .hostfb { s with host := .readR1 s.rb.mid0.cap s.rb.mid0.cnt f } =
      .ok (s.respond .ok [fbWord (fbValue c s.rb.mid0.cap s.rb.mid0.cnt f r)]) := by
    simp only [agentMicro, hostMicro, hr]
    cases s; cases hi; cases hr; rfl
  exact microAllOf_start (k := 2) hstart (Alone.step hrate (Alone.step hratio (Alone.refl _ _ _)))

/-- Settles O32: the command and the three reads give the same value, whose word loses no bit. -/
theorem feedbackReportsRate : Obligations.FeedbackReportsRate := by
  intro s hidle
  have hexec : exec .fbReport s = fbReport Config.current s := by
    simp only [exec, execFbReport, hidle, bne_self_eq_false, Bool.false_eq_true, if_false, ifFree]
  rw [hexec]
  refine ⟨fun f r hf hr hv dev corr rate hdev hcorr hrate => ?_, fbReport_missing⟩
  obtain ⟨hpos, hfit⟩ := corrected_rate_range Config.current f hcorr hrate
  have hword : fbWord (fbValue Config.current s.rb.mid0.cap s.rb.mid0.cnt f r) = BitVec.ofInt 32 (rate * 16384 / 1000) := by
    rw [← fbWord_fb1014 hpos hfit, hrate, hcorr, hdev]
    rfl
  rw [← hword]
  exact ⟨hpos, hfit, fbReport_command hf hr hv, fun hb => fbReport_microSteps hb hidle hf hr hv⟩

end Sys2Proof.Machine
end

section
/-! What a step can leave (10_state.md R23 to R25, R43 to R56): the five invariants as one relation between the state before and the
state after, and the changes of the registers that are not ring buffers, each shown once to keep all five. -/

namespace Sys2Proof.Machine

/-! ## What an operation can answer -/

/-- The next state, if there is one, meets `P`. -/
def Yields (P : State → Prop) : Host.Outcome State Fault Refusal → Prop
  | .next t => P t
  | .fault _ | .refused _ => True

/-- The value, if there is one, meets `P`. -/
def Gives {α : Type} (P : α → Prop) : Except Fault α → Prop
  | .ok a => P a
  | .error _ => True

theorem gives_of {α : Type} {P : α → Prop} {r : Except Fault α} (h : ∀ a, r = .ok a → P a) : Gives P r := by
  cases r with
  | ok a => exact h a rfl
  | error f => trivial

theorem Gives.of_ok {α : Type} {P : α → Prop} {r : Except Fault α} {a : α} (h : Gives P r) (hr : r = .ok a) : P a := by
  subst hr; exact h

theorem Yields.of_next {P : State → Prop} {o : Host.Outcome State Fault Refusal} {t : State} (h : Yields P o) (ho : o = .next t) :
    P t := by
  subst ho; exact h

theorem yields_stateOutcome {P : State → Prop} {r : Except Fault State} (h : Gives P r) : Yields P (stateOutcome r) := by
  cases r with
  | ok s => exact h
  | error f => trivial

theorem yields_ifFree {P : State → Prop} {b : Option Refusal} {k : Host.Outcome State Fault Refusal} (h : b = none → Yields P k) :
    Yields P (ifFree b k) := by
  cases b with
  | none => exact h rfl
  | some r => trivial

theorem yields_needsValue {P : State → Prop} {b : Bool} {k : Host.Outcome State Fault Refusal} (h : Yields P k) :
    Yields P (needsValue b k) := by
  cases b with
  | true => exact h
  | false => trivial

theorem yields_needsValid {P : State → Prop} {b : Bool} {k : Host.Outcome State Fault Refusal} (h : b = true → Yields P k) :
    Yields P (needsValid b k) := by
  cases b with
  | true => exact h rfl
  | false => trivial

theorem yields_needsLocked {P : State → Prop} {b : Bool} {k : Host.Outcome State Fault Refusal} (h : Yields P k) :
    Yields P (needsLocked b k) := by
  cases b with
  | true => exact h
  | false => trivial

theorem yields_afterBoot {P : State → Prop} {s : State} {k : Host.Outcome State Fault Refusal} (h : Yields P k) :
    Yields P (s.afterBoot k) := by
  simp only [State.afterBoot]
  split
  · exact h
  · trivial

/-! ## The five invariants together -/

/-- Each of the five invariants, where it holds of `s`, holds of `t`. A change that writes no field an invariant speaks of keeps it
by definition: a proof takes it from `Keeps.refl` and names only the invariants its change concerns. -/
structure Keeps (c : Config) (s t : State) : Prop where
  buffers : s.BuffersInv → t.BuffersInv
  queue : s.QueueInv c → t.QueueInv c
  sequencing : s.SequencingInv → t.SequencingInv
  control : s.ControlInv c → t.ControlInv c
  delays : s.DelayInv c → t.DelayInv c

theorem Keeps.refl (c : Config) (s : State) : Keeps c s s := ⟨id, id, id, id, id⟩

theorem Keeps.trans {c : Config} {s t u : State} (h : Keeps c s t) (h' : Keeps c t u) : Keeps c s u :=
  ⟨h'.buffers ∘ h.buffers, h'.queue ∘ h.queue, h'.sequencing ∘ h.sequencing, h'.control ∘ h.control, h'.delays ∘ h.delays⟩

theorem Keeps.respond (c : Config) (s : State) (r : Result) (vs : List Word) : Keeps c s (s.respond r vs) := ⟨id, id, id, id, id⟩

theorem Keeps.thenRespond {c : Config} {s t : State} (h : Keeps c s t) (r : Result) (vs : List Word) :
    Keeps c s (t.respond r vs) := h.trans (.respond c t r vs)

theorem yields_outcome {c : Config} {s : State} {r : OpRes} (h : Gives (fun d => Keeps c s d.state) r) :
    Yields (Keeps c s) r.outcome := by
  cases r with
  | ok d => exact Keeps.thenRespond h _ _
  | error f => trivial

/-! ## Control registers (R43 to R49) -/

theorem signInt_range (v : Int) : signInt v = -1 ∨ signInt v = 0 ∨ signInt v = 1 := by
  simp only [signInt]
  split_ifs <;> decide

/-- What `SatUnit` answers is in the range of the gain (R220). -/
theorem satUnit_saturated (n : Numerics) (x : FVal) : Gives (gainSaturated n) (satUnit n x) := by
  simp only [satUnit]
  split
  · trivial
  · exact .inl rfl
  · exact .inr (.inl rfl)
  · next q hq =>
    split_ifs with h0 h1
    · exact .inl rfl
    · exact .inr (.inl rfl)
    · exact .inr (.inr ⟨q, hq, not_lt.mp h0, not_lt.mp h1⟩)

theorem Keeps.ctlUpdate (c : Config) (s : State) : Keeps c s (ctlUpdate s) where
  __ := Keeps.refl c s
  control := by
    rintro ⟨_, h⟩
    exact ⟨signInt_range _, h⟩

/-- `VOL.SMOOTH` copies a legal code and saturates the gain (R218, R220). -/
theorem keeps_volUpdate {c : Config} {s : State} {v : BitVec 16} (hv : s.volReq = some v) : Gives (Keeps c s) (volUpdate c v s) := by
  have hsat := satUnit_saturated c.num (c.volCurve (smoothed c s.volSmooth (c.num.ofInt v.toInt)))
  simp only [volUpdate]
  split
  · next g hg =>
    have hgain := hsat.of_ok hg
    refine { Keeps.refl c s with control := ?_ }
    rintro ⟨ha, hreq, _, _, h⟩
    exact ⟨ha, hreq, hreq v hv, hgain, h⟩
  · trivial

theorem Keeps.volReq {c : Config} (s : State) {v : BitVec 16} (h : volLegal c v) : Keeps c s { s with volReq := some v } where
  __ := Keeps.refl c s
  control := by
    rintro ⟨ha, _, hrest⟩
    exact ⟨ha, fun _ hw => Option.some.inj hw ▸ h, hrest⟩

/-! ## Delay arrays (R53, R54) -/

theorem ChanDelays.FitsChain.get {d : ChanDelays} {chain : List Stage} (h : d.FitsChain chain) (ch : Chan) :
    (d.get ch).FitsChain chain := by
  cases ch with
  | c0 => exact h.1
  | c1 => exact h.2

theorem ChanDelays.FitsChain.set {d : ChanDelays} {chain : List Stage} (h : d.FitsChain chain) (ch : Chan) {v : Delays}
    (hv : v.FitsChain chain) : (d.set ch v).FitsChain chain := by
  cases ch with
  | c0 => exact ⟨hv, h.2⟩
  | c1 => exact ⟨h.1, hv⟩

theorem ChanDelays.FitsChain.zeroChan {d : ChanDelays} {chain : List Stage} (h : d.FitsChain chain) (z : FVal) (ch : Chan) :
    (d.zeroChan z ch).FitsChain chain := h.set ch (Delays.zeroed_fits (h.get ch))

/-- `RunChain(1, …)` advances one set of delay arrays (R169). -/
theorem Keeps.chain1 {c : Config} {s : State} {r : Ratio1} {ch : Chan} {xs ys : List Sample} {g : Option FVal} {d : Delays}
    (h : runChain c.num (c.chain1 r) ((s.d1.get r).get ch) xs g = .ok (ys, d)) :
    Keeps c s { s with d1 := s.d1.set r ((s.d1.get r).set ch d) } where
  __ := Keeps.refl c s
  delays := by
    rintro ⟨h1, h2⟩
    refine ⟨fun r' => ?_, h2⟩
    rw [Banks1.get_set]
    split
    · next hr => subst hr; exact (h1 r').set ch ((runChain_spec h).2.2 (c.chain1_ok r') ((h1 r').get ch))
    · exact h1 r'

/-- `RunChain(2, …)` advances one set of delay arrays (R169). -/
theorem Keeps.chain2 {c : Config} {s : State} {r : Ratio2} {ch : Chan} {xs ys : List Sample} {d : Delays}
    (h : runChain c.num (c.chain2 r) ((s.d2.get r).get ch) xs none = .ok (ys, d)) :
    Keeps c s { s with d2 := s.d2.set r ((s.d2.get r).set ch d) } where
  __ := Keeps.refl c s
  delays := by
    rintro ⟨h1, h2⟩
    refine ⟨h1, fun r' => ?_⟩
    rw [Banks2.get_set]
    split
    · next hr => subst hr; exact (h2 r').set ch ((runChain_spec h).2.2 (c.chain2_ok r') ((h2 r').get ch))
    · exact h2 r'

theorem State.DelayInv.zeroD1 {c : Config} {s : State} (h : s.DelayInv c) (ch : Chan) :
    State.DelayInv c { s with d1 := s.d1.zeroChan c.num.zero ch } :=
  ⟨fun r => by rw [Banks1.get_zeroChan]; exact (h.1 r).zeroChan _ _, h.2⟩

theorem State.DelayInv.zeroD2 {c : Config} {s : State} (h : s.DelayInv c) (ch : Chan) :
    State.DelayInv c { s with d2 := s.d2.zeroChan c.num.zero ch } :=
  ⟨h.1, fun r => by rw [Banks2.get_zeroChan]; exact (h.2 r).zeroChan _ _⟩

theorem Keeps.clearDelay (c : Config) (s : State) (sel : FltSel) : Keeps c s (s.clearDelay c sel) := by
  obtain ⟨chain, ch⟩ := sel
  cases chain with
  | chain1 => exact { Keeps.refl c s with delays := fun h => h.zeroD1 ch }
  | chain2 => exact { Keeps.refl c s with delays := fun h => h.zeroD2 ch }

theorem Keeps.clearAllDelays (c : Config) (s : State) : Keeps c s (s.clearAllDelays c) where
  __ := Keeps.refl c s
  delays := fun h => (((h.zeroD1 .c0).zeroD1 .c1).zeroD2 .c0).zeroD2 .c1

/-! ## The transmit queue (R50, R56) -/

theorem Slot.ok_zeroed (c : Config) : Slot.zeroed.Ok c := ⟨Nat.zero_le _, rfl⟩

/-- A poll in flight still has its slot when the occupancy falls (R232). -/
theorem queueOk_mono {c : Config} {p : PollOp} {m n : Nat} (h : p.queueOk c n) (hmn : m ≤ n) : p.queueOk c m := by
  cases p with
  | act occ q => exact ⟨hmn.trans h.1, h.2⟩
  | read0 | read1 | enqueue => exact hmn.trans_lt h
  | idle | readMid0 | readMid1 | readCnt => trivial

/-- A queue with its indices, its occupancy and every slot at zero (R236, R270). -/
theorem State.QueueInv.emptied {c : Config} {s t : State} (h : s.QueueInv c) (hs : t.slots = s.slots.map fun _ => .zeroed)
    (hw : t.qWr = 0) (hr : t.qRd = 0) (hn : t.qCnt = 0) (hp : t.poll = s.poll) : t.QueueInv c := by
  obtain ⟨hlen, _, _, _, _, _, hpoll⟩ := h
  have hpos : 0 < c.txqDepth := c.txqDepth_pos
  refine ⟨by rw [hs, List.length_map, hlen], hw ▸ hpos, hr ▸ hpos, hn ▸ Nat.zero_le _, ?_, fun sl hsl => ?_, ?_⟩
  · rw [hw, hr, hn, Nat.zero_mod]
  · rw [hs, List.mem_map] at hsl
    obtain ⟨_, _, rfl⟩ := hsl
    exact Slot.ok_zeroed c
  · rw [hp, hn]
    exact queueOk_mono hpoll (Nat.zero_le _)

theorem zeroStop_eq (s : State) : zeroStop s = { s with
    qWr := 0, qRd := 0, qCnt := 0, slots := s.slots.map fun _ => .zeroed, irqMask := false, schedState := .draining } := rfl

theorem Keeps.zeroStop (c : Config) (s : State) : Keeps c s (zeroStop s) := by
  rw [zeroStop_eq]
  refine { Keeps.refl c s with queue := fun h => h.emptied rfl rfl rfl rfl rfl, control := ?_ }
  rintro ⟨ha, hv, hq, hg, h1, h2, _⟩
  exact ⟨ha, hv, hq, hg, h1, h2, rfl⟩

/-- The payload written into a slot keeps it well formed (R56, R235). -/
theorem fill_ok {c : Config} {sl sl' : Slot} {ws : List Word} (h : sl.Ok c) (hf : sl.fill c ws = .ok sl') : sl'.Ok c := by
  simp only [Slot.fill] at hf
  split at hf
  · next hle => cases hf; exact ⟨hle, Mem.wfZero_putZeroRun h.2 0 ws⟩
  · cases hf

theorem slotAt_ok {c : Config} {s : State} (h : ∀ sl ∈ s.slots, sl.Ok c) (i : Nat) : (s.slotAt i).Ok c := by
  rcases Nat.lt_or_ge i s.slots.length with hi | hi
  · rw [State.slotAt, List.getD_eq_getElem _ _ hi]
    exact h _ (List.getElem_mem hi)
  · rw [State.slotAt, List.getD_eq_default _ _ hi]
    exact Slot.ok_zeroed c

/-- `Enqueue` of a filled slot while one is free, no poll being in flight afterwards (R232, R235, R238). -/
theorem State.QueueInv.enqueued {c : Config} {s t : State} {sl : Slot} {ws : List Word} (h : s.QueueInv c) (hroom : s.qCnt < c.txqDepth)
    (hf : (s.slotAt s.qWr).fill c ws = .ok sl) (hs : t.slots = s.slots.set s.qWr sl) (hw : t.qWr = (s.qWr + 1) % c.txqDepth)
    (hr : t.qRd = s.qRd) (hn : t.qCnt = s.qCnt + 1) (hp : t.poll = .idle) : t.QueueInv c := by
  obtain ⟨hlen, _, hrd, _, hrel, hslots, _⟩ := h
  refine ⟨by rw [hs, List.length_set, hlen], hw ▸ Nat.mod_lt _ c.txqDepth_pos, hr ▸ hrd, hn ▸ hroom, ?_, fun sl' hsl => ?_, ?_⟩
  · rw [hw, hr, hn, hrel, Nat.mod_add_mod, Nat.add_assoc]
  · rw [hs] at hsl
    rcases List.mem_or_eq_of_mem_set hsl with hold | rfl
    · exact hslots sl' hold
    · exact fill_ok (slotAt_ok hslots _) hf
  · rw [hp]
    trivial

/-! ## The transfer (R51, R241, R242) -/

theorem Keeps.dmaComplete (c : Config) (s : State) : Keeps c s s.dmaComplete := by
  simp only [State.dmaComplete]
  split
  · next hb =>
    refine { Keeps.refl c s with sequencing := ?_ }
    rintro ⟨hp, hu, hr, hlt, hm, hpoll, _, habort⟩
    exact ⟨hp, hu, hr, hlt, hm, hpoll, fun _ => rfl, fun h4 => absurd (habort h4).2 (by simp [hb])⟩
  · exact .refl c s

/-- Arming a transfer for a pending completion (R241). -/
theorem State.SequencingInv.armed {s t : State} (h : s.SequencingInv) (hpend : s.dmaPend = true)
    (ht : ∃ qr qn f out, t = { s with dmaPend := false, qRd := qr, qCnt := qn, dmaCur := f, dmaBusy := true, outStream := out }) :
    t.SequencingInv := by
  obtain ⟨qr, qn, f, out, rfl⟩ := ht
  obtain ⟨hp, hu, hr, hlt, hm, hpoll, _, habort⟩ := h
  exact ⟨hp, hu, hr, hlt, hm, hpoll, nofun, fun h4 => absurd (habort h4).1 (by simp [hpend])⟩

/-- The head of the queue leaves it (R241). -/
theorem State.QueueInv.served {c : Config} {s t : State} (h : s.QueueInv c) (hpos : 0 < s.qCnt) (hs : t.slots = s.slots)
    (hw : t.qWr = s.qWr) (hr : t.qRd = (s.qRd + 1) % c.txqDepth) (hn : t.qCnt = s.qCnt - 1) (hp : t.poll = s.poll) :
    t.QueueInv c := by
  obtain ⟨hlen, hwr, _, hcnt, hrel, hslots, hpoll⟩ := h
  refine ⟨hs ▸ hlen, hw ▸ hwr, hr ▸ Nat.mod_lt _ c.txqDepth_pos, by omega, ?_, hs ▸ hslots, ?_⟩
  · rw [hw, hr, hn, hrel, Nat.mod_add_mod, Nat.add_assoc, Nat.add_sub_cancel' hpos]
  · rw [hp, hn]
    exact queueOk_mono hpoll (Nat.sub_le _ _)

theorem Keeps.dmaService (c : Config) {s : State} (hpend : s.dmaPend = true) : Keeps c s (dmaService c s).state := by
  simp only [Machine.dmaService]
  split
  · next hpos =>
    exact { Keeps.refl c s with
      queue := fun h => h.served hpos rfl rfl rfl rfl rfl
      sequencing := fun h => h.armed hpend ⟨_, _, _, _, rfl⟩ }
  · exact { Keeps.refl c s with sequencing := fun h => h.armed hpend ⟨_, _, _, _, rfl⟩ }

/-! ## Positions of the agents (R51, R274) -/

theorem Keeps.usbStart (c : Config) {s : State} (d : Depth) (frames : List PcmFrame)
    (hv : s.rb.ep0.valid = true ∧ s.rb.ep1.valid = true) : Keeps c s (s.pushing (.readEp0 d frames)) where
  __ := Keeps.refl c s
  buffers := by
    rintro ⟨h0, h1, h2, h3, hw, _, h⟩
    exact ⟨h0, h1, h2, h3, hw, fun _ => hv, h⟩
  sequencing := by
    rintro ⟨hp, _, h⟩
    exact ⟨hp, rfl, h⟩

theorem Keeps.usbGo (c : Config) {s : State} {u u' : UsbOp} (hs : s.usb = u) (hu : u ≠ .idle)
    (hu' : u' ≠ .idle) : Keeps c s { s with usb := u' } where
  __ := Keeps.refl c s
  buffers := by
    rintro ⟨h0, h1, h2, h3, hw, hv, h⟩
    exact ⟨h0, h1, h2, h3, hw, fun _ => hv (hs ▸ hu), h⟩
  sequencing := by
    rintro ⟨hp, hb, h⟩
    rw [hs] at hb
    exact ⟨hp, hb.trans ((bne_iff_ne.mpr hu).trans (bne_iff_ne.mpr hu').symm), h⟩

theorem Keeps.usbEnd (c : Config) (r : Result) (s : State) : Keeps c s (usbEnd r s) where
  __ := Keeps.refl c s
  buffers := by
    rintro ⟨h0, h1, h2, h3, hw, _, h⟩
    exact ⟨h0, h1, h2, h3, hw, fun hne => absurd rfl hne, h⟩
  sequencing := by
    rintro ⟨hp, _, h⟩
    exact ⟨hp, rfl, h⟩

/-- A move of `TICKA`: it begins on valid buffers, and the writes in flight on the MID buffers suit where it then stands. -/
theorem Keeps.tick (c : Config) {s : State} {t : TickOp} (hv : s.tick ≠ .idle ∨ s.allValid = true)
    (hw : s.tick.writesOk s.rb → t.writesOk s.rb) : Keeps c s { s with tick := t } where
  __ := Keeps.refl c s
  buffers := by
    rintro ⟨h0, h1, h2, h3, hold, hu, hvalid, hp⟩
    exact ⟨h0, h1, h2, h3, hw hold, hu, fun _ => hv.elim hvalid id, hp⟩

theorem Keeps.tickEnd (c : Config) (r : Result) (vs : List Word) (s : State) : Keeps c s (tickEnd r vs s) where
  __ := Keeps.refl c s
  buffers := by
    rintro ⟨h0, h1, h2, h3, _, hu, _, hp⟩
    exact ⟨h0, h1, h2, h3, trivial, hu, fun hne => absurd rfl hne, hp⟩

/-- Outside REINIT none of its steps is behind (R51). -/
theorem reinitStep_of_not_busy {s : State} (h : s.SequencingInv) (hb : s.reinitBusy = false) : s.reinitStep = 0 := by
  obtain ⟨_, _, hr, _⟩ := h
  rw [hb] at hr
  exact bne_eq_false_iff_eq.mp hr.symm

theorem Keeps.pollStart (c : Config) {s : State} (hb : s.reinitBusy = false) (hv : s.rb.mid0.valid = true ∧ s.rb.mid1.valid = true) :
    Keeps c s (s.polling .readMid0) where
  __ := Keeps.refl c s
  buffers := by
    rintro ⟨h0, h1, h2, h3, hw, hu, ht, _⟩
    exact ⟨h0, h1, h2, h3, hw, hu, ht, fun _ => hv⟩
  queue := by
    rintro ⟨hl, hw, hr, hc, hrel, hs, _⟩
    exact ⟨hl, hw, hr, hc, hrel, hs, trivial⟩
  sequencing := fun h => by
    have h0 := reinitStep_of_not_busy h hb
    obtain ⟨_, hu, hr, hlt, hm, _, h⟩ := h
    exact ⟨rfl, hu, hr, hlt, hm, fun (h2 : 2 ≤ s.reinitStep) => by omega, h⟩

theorem Keeps.pollGo (c : Config) {s : State} {p p' : PollOp} (hs : s.poll = p) (hp : p ≠ .idle)
    (hp' : p' ≠ .idle) (hq : s.qCnt ≤ c.txqDepth → p.queueOk c s.qCnt → p'.queueOk c s.qCnt) : Keeps c s { s with poll := p' } where
  __ := Keeps.refl c s
  buffers := by
    rintro ⟨h0, h1, h2, h3, hw, hu, ht, hv⟩
    exact ⟨h0, h1, h2, h3, hw, hu, ht, fun _ => hv (hs ▸ hp)⟩
  queue := by
    rintro ⟨hl, hw, hr, hc, hrel, hslots, hold⟩
    exact ⟨hl, hw, hr, hc, hrel, hslots, hq hc (hs ▸ hold)⟩
  sequencing := by
    rintro ⟨hb, hu, hr, hlt, hm, hpoll, h⟩
    rw [hs] at hb hpoll
    exact ⟨hb.trans ((bne_iff_ne.mpr hp).trans (bne_iff_ne.mpr hp').symm), hu, hr, hlt, hm, fun h2 => absurd (hpoll h2) hp, h⟩

theorem Keeps.pollEnd (c : Config) (r : Result) (vs : List Word) (s : State) : Keeps c s (pollEnd r vs s) where
  __ := Keeps.refl c s
  buffers := by
    rintro ⟨h0, h1, h2, h3, hw, hu, ht, _⟩
    exact ⟨h0, h1, h2, h3, hw, hu, ht, fun hne => absurd rfl hne⟩
  queue := by
    rintro ⟨hl, hw, hr, hc, hrel, hslots, _⟩
    exact ⟨hl, hw, hr, hc, hrel, hslots, trivial⟩
  sequencing := by
    rintro ⟨_, hu, hr, hlt, hm, _, h⟩
    exact ⟨rfl, hu, hr, hlt, hm, fun _ => rfl, h⟩

/-- Where no REINIT is in flight none of its steps is behind (R51). -/
theorem reinitStep_of_main {s : State} (h : s.SequencingInv) (hm : ∀ vs, s.main ≠ .reinit vs) : s.reinitStep = 0 := by
  obtain ⟨_, _, _, _, hmain, _⟩ := h
  by_contra h0
  exact hm _ (hmain h0)

theorem Keeps.main (c : Config) {s : State} (hm : ∀ vs, s.main ≠ .reinit vs) (m : MainOp) : Keeps c s { s with main := m } where
  __ := Keeps.refl c s
  sequencing := fun h => by
    have h0 := reinitStep_of_main h hm
    obtain ⟨hp, hu, hr, hlt, _, h⟩ := h
    exact ⟨hp, hu, hr, hlt, fun hne => absurd h0 hne, h⟩

theorem Keeps.reinitBegin (c : Config) {s : State} (hm : ∀ vs, s.main ≠ .reinit vs) (vs : List Word) :
    Keeps c s (reinitBegin vs s) where
  __ := Keeps.refl c s
  sequencing := fun h => by
    have h0 := reinitStep_of_main h hm
    obtain ⟨hp, hu, hr, _, _, _, hd, _⟩ := h
    rw [h0] at hr
    exact ⟨hp, hu, hr, Nat.zero_lt_succ 5, fun hne => absurd rfl hne, nofun, hd, nofun⟩

/-! ## The steps of REINIT (R266 to R273) -/

theorem Keeps.reinitSuspend (c : Config) {s : State} {vs : List Word} (hm : s.main = .reinit vs) :
    Keeps c s (reinitSuspend s) where
  __ := Keeps.refl c s
  sequencing := by
    rintro ⟨hp, hu, _, _, _, _, hd, _⟩
    exact ⟨hp, hu, rfl, Nat.one_lt_succ_succ 4, fun _ => by simp only [reinitSuspend_main, hm, mainValues], by simp, hd, by simp⟩

/-- A step of REINIT after the first one that only counts itself among the registers of the sequence. -/
theorem State.SequencingInv.counted {s t : State} {n : Nat} (h : s.SequencingInv) (h0 : s.reinitStep ≠ 0)
    (hpoll : 2 ≤ n → s.poll = .idle) (habort : 4 ≤ n → s.dmaPend = false ∧ s.dmaBusy = false) (hn : 0 < n) (hlt : n < 6)
    (ht : ∃ f p r1 r2 te o, t = { s with fCur := f, pmCur := p, r1 := r1, r2 := r2, timerEnabled := te, outRate := o, reinitStep := n }) :
    t.SequencingInv := by
  obtain ⟨f, p, r1, r2, te, o, rfl⟩ := ht
  obtain ⟨hp, hu, hr, _, hm, _, hd, _⟩ := h
  exact ⟨hp, hu, hr.trans ((bne_iff_ne.mpr h0).trans (bne_iff_ne.mpr hn.ne').symm), hlt, fun _ => hm h0, hpoll, hd, habort⟩

theorem Keeps.reinitClock (c : Config) {s : State} (h1 : s.reinitStep = 1) (hfree : s.pollBusy = false) :
    Keeps c s (reinitClock c s) where
  __ := Keeps.refl c s
  sequencing := fun h => by
    have hidle : s.poll = .idle := bne_eq_false_iff_eq.mp (h.1.symm.trans hfree)
    exact h.counted (by omega) (fun _ => hidle) (by simp) (by decide) (by decide) ⟨_, _, _, _, _, _, rfl⟩
  control := by
    rintro ⟨ha, hv, hq, hg, _, _, hi⟩
    exact ⟨ha, hv, hq, hg, rfl, rfl, hi⟩

theorem Keeps.reinitResume (c : Config) {s : State} (h2 : s.reinitStep = 2) : Keeps c s (reinitResume s) where
  __ := Keeps.refl c s
  sequencing := fun h => by
    obtain ⟨_, _, _, _, _, hpoll, _⟩ := id h
    exact h.counted (by omega) (fun _ => hpoll (by omega)) (by simp) (by decide) (by decide) ⟨_, _, _, _, _, _, rfl⟩

theorem reinitAbort_eq (s : State) : reinitAbort s = { s with
    qWr := 0, qRd := 0, qCnt := 0, slots := s.slots.map fun _ => .zeroed, irqMask := false, dmaBusy := false, dmaPend := false,
    dmaCur := ⟨0, []⟩, reinitStep := 4 } := rfl

theorem Keeps.reinitAbort (c : Config) {s : State} (h3 : s.reinitStep = 3) : Keeps c s (reinitAbort s) := by
  rw [reinitAbort_eq]
  refine { Keeps.refl c s with queue := fun h => h.emptied rfl rfl rfl rfl rfl, sequencing := ?_, control := ?_ }
  · rintro ⟨hp, hu, hr, _, hm, hpoll, _, _⟩
    have h0 : s.reinitStep ≠ 0 := by omega
    have hidle := hpoll (by omega)
    exact ⟨hp, hu, hr.trans (bne_iff_ne.mpr h0), by simp, fun _ => hm h0, fun _ => hidle, nofun, fun _ => ⟨rfl, rfl⟩⟩
  · rintro ⟨ha, hv, hq, hg, h1, h2, _⟩
    exact ⟨ha, hv, hq, hg, h1, h2, rfl⟩

theorem Keeps.reinitDivider (c : Config) {s : State} (h4 : s.reinitStep = 4) : Keeps c s (reinitDivider s) where
  __ := Keeps.refl c s
  sequencing := fun h => by
    obtain ⟨_, _, _, _, _, hpoll, _, habort⟩ := id h
    exact h.counted (by omega) (fun _ => hpoll (by omega)) (fun _ => habort (by omega)) (by decide) (by decide)
      ⟨_, _, _, _, _, _, rfl⟩

theorem engageMute_eq (s : State) : ∃ m d, engageMute s = { s with muteCur := m, dacEvents := d } := by
  simp only [engageMute]
  split
  · exact ⟨_, _, rfl⟩
  · exact ⟨s.muteCur, s.dacEvents, rfl⟩

/-- What step 6 writes after the buffers are cleared, with the end of the operation (R273). -/
theorem reinitFinish_eq (c : Config) (s : State) : ∃ m d f o b r, reinitEnd (reinitRest c s) =
    { s.clearAllDelays c with
      schedState := .draining, adj := 0, muteCur := m, dacEvents := d, dmaCur := f, dmaBusy := true, outStream := o,
      reinitBusy := false, reinitStep := 0, booted := b, main := .idle, responses := r } := by
  obtain ⟨m, d, h⟩ := engageMute_eq { s.clearAllDelays c with schedState := .draining, adj := 0 }
  simp only [reinitRest, h]
  exact ⟨_, _, _, _, _, _, rfl⟩

/-- The rest of step 6: no completion is pending, so that the transfer can be armed (R270, R273). -/
theorem Keeps.reinitFinish (c : Config) {s : State} (h5 : s.reinitStep = 5) : Keeps c s (reinitEnd (reinitRest c s)) := by
  obtain ⟨m, d, f, o, b, r, h⟩ := reinitFinish_eq c s
  rw [h]
  refine (Keeps.clearAllDelays c s).trans { Keeps.refl c (s.clearAllDelays c) with sequencing := ?_, control := fun h => ⟨.inr (.inl rfl), h.2⟩ }
  rintro ⟨hp, hu, _, _, _, _, _, habort⟩
  have hpend : s.dmaPend = false := (habort (h5 ▸ by decide)).1
  exact ⟨hp, hu, rfl, Nat.zero_lt_succ 5, fun hne => absurd rfl hne, nofun,
    fun (ht : s.dmaPend = true) => absurd ht (by simp [hpend]), nofun⟩

end Sys2Proof.Machine
end

section
/-! The ring buffers' part of the invariants (10_state.md R23 to R25): a write of one ring buffer keeps all five invariants when it
keeps what holds of that buffer, and each phase of a write or a read and each whole operation does (40_ringbuffer.md R141, R142). -/

namespace Sys2Proof.Machine

/-! ## One buffer -/

/-- What a tick in progress lets the producer of a buffer have in flight on it: on an EP buffer anything, on a MID buffer nothing but
the write of the channel the tick is writing (R195). -/
def TickOp.allows (t : TickOp) (b : BufId) (p : Option ProdOp) : Prop :=
  producerOf b = .ticka → t = .idle ∨ p = none ∨
    ∃ ch e n x, t = .write ch e n x ∧ b = midOf ch ∧ ∀ op ∈ p, op.phase = .checked → op.n = x.length * e.r.toNat

/-- What the tick checked before the write it is in (R195). -/
theorem TickOp.allows.own {ch : Chan} {e : EngRegs} {n : Nat} {x : List Sample} {p : Option ProdOp}
    (h : (TickOp.write ch e n x).allows (midOf ch) p) : ∀ op ∈ p, op.phase = .checked → op.n = x.length * e.r.toNat := by
  obtain h | rfl | ⟨_, _, _, _, ht, _, h⟩ := h (by cases ch <;> rfl)
  · cases h
  · nofun
  · cases ht; exact h

/-- On a MID buffer the tick is not writing, nothing is in flight. -/
theorem TickOp.allows.other {t : TickOp} {b : BufId} {p : Option ProdOp} (h : t.allows b p) (hb : producerOf b = .ticka)
    (ht : t ≠ .idle) (hw : ∀ ch e n x, t = .write ch e n x → b ≠ midOf ch) : p = none := by
  obtain h | h | ⟨ch, e, n, x, h, hm, _⟩ := h hb
  · exact absurd h ht
  · exact h
  · exact absurd hm (hw ch e n x h)

theorem writesOk_iff (t : TickOp) (m : Buffers) : t.writesOk m ↔ ∀ b, t.allows b (m.get b).prodOp := by
  constructor
  · intro h b hb
    cases t with
    | idle => exact .inl rfl
    | write ch e n x =>
      cases ch <;> cases b <;> cases hb
      · exact .inr (.inr ⟨.c0, e, n, x, rfl, rfl, h.1⟩)
      · exact .inr (.inl h.2)
      · exact .inr (.inl h.2)
      · exact .inr (.inr ⟨.c1, e, n, x, rfl, rfl, h.1⟩)
    | _ =>
      cases b with
      | ep0 | ep1 => cases hb
      | mid0 => exact .inr (.inl h.1)
      | mid1 => exact .inr (.inl h.2)
  · intro h
    cases t with
    | idle => trivial
    | write ch e n x =>
      cases ch with
      | c0 => exact ⟨(h .mid0).own, (h .mid1).other rfl nofun (by rintro _ _ _ _ ⟨⟩; nofun)⟩
      | c1 => exact ⟨(h .mid1).own, (h .mid0).other rfl nofun (by rintro _ _ _ _ ⟨⟩; nofun)⟩
    | _ => exact ⟨(h .mid0).other rfl nofun nofun, (h .mid1).other rfl nofun nofun⟩

/-- An agent of the buffer is in an operation. -/
def State.InUse (s : State) (b : BufId) : Prop := s.agentIdle (producerOf b) = false ∨ s.agentIdle (consumerOf b) = false

/-- What `BuffersInv` says of one buffer. -/
def State.BufferInv (s : State) (b : BufId) : Prop :=
  (s.buf b).Inv ∧ (s.InUse b → (s.buf b).valid = true) ∧ s.tick.allows b (s.buf b).prodOp

theorem buffersInv_iff (s : State) : s.BuffersInv ↔ ∀ b, s.BufferInv b := by
  constructor
  · rintro ⟨h0, h1, h2, h3, hw, hu, ht, hp⟩ b
    refine ⟨by cases b <;> assumption, fun huse => ?_, (writesOk_iff _ _).mp hw b⟩
    simp only [State.allValid, Bool.and_eq_true] at ht
    cases b <;> simp only [State.InUse, producerOf, consumerOf, State.agentIdle, beq_eq_false_iff_ne] at huse
    · exact huse.elim (fun h => (hu h).1) (fun h => (ht h).1.1.1)
    · exact huse.elim (fun h => (hu h).2) (fun h => (ht h).1.1.2)
    · exact huse.elim (fun h => (ht h).1.2) (fun h => (hp h).1)
    · exact huse.elim (fun h => (ht h).2) (fun h => (hp h).2)
  · intro h
    have hidle {a : Agent} {b : BufId} (hb : producerOf b = a ∨ consumerOf b = a) (ha : s.agentIdle a = false) :
        (s.buf b).valid = true := (h b).2.1 (hb.elim (fun e => .inl (e ▸ ha)) (fun e => .inr (e ▸ ha)))
    refine ⟨(h .ep0).1, (h .ep1).1, (h .mid0).1, (h .mid1).1, (writesOk_iff _ _).mpr fun b => (h b).2.2, fun hu => ?_, fun ht => ?_,
      fun hp => ?_⟩
    · have hu' : s.agentIdle .usbcb = false := beq_eq_false_iff_ne.mpr hu
      exact ⟨hidle (b := .ep0) (.inl rfl) hu', hidle (b := .ep1) (.inl rfl) hu'⟩
    · have ht' : s.agentIdle .ticka = false := beq_eq_false_iff_ne.mpr ht
      simp only [State.allValid, Bool.and_eq_true]
      exact ⟨⟨⟨hidle (b := .ep0) (.inr rfl) ht', hidle (b := .ep1) (.inr rfl) ht'⟩, hidle (b := .mid0) (.inl rfl) ht'⟩,
        hidle (b := .mid1) (.inl rfl) ht'⟩
    · have hp' : s.agentIdle .pollb = false := beq_eq_false_iff_ne.mpr hp
      exact ⟨hidle (b := .mid0) (.inr rfl) hp', hidle (b := .mid1) (.inr rfl) hp'⟩

theorem agentIdle_setBuf (s : State) (b : BufId) (q : RingBuffer) (a : Agent) : (s.setBuf b q).agentIdle a = s.agentIdle a := by
  cases a <;> rfl

/-- A write of one ring buffer keeps the invariants when the buffer stays initialised and keeps what holds of it. -/
theorem Keeps.setBuf (c : Config) {s : State} {b : BufId} {q : RingBuffer}
    (h : s.BufferInv b → ((s.buf b).valid = true → q.valid = true) ∧ q.Inv ∧ s.tick.allows b q.prodOp) :
    Keeps c s (s.setBuf b q) where
  __ := Keeps.refl c s
  buffers := fun hs => by
    rw [buffersInv_iff] at hs ⊢
    intro b'
    by_cases hb : b' = b
    · subst hb
      obtain ⟨hvalid, hinv, hallows⟩ := h (hs b')
      obtain ⟨_, huse, _⟩ := hs b'
      simp only [State.BufferInv, State.InUse, agentIdle_setBuf, buf_setBuf_same, setBuf_tick]
      exact ⟨hinv, fun hu => hvalid (huse hu), hallows⟩
    · simp only [State.BufferInv, State.InUse, agentIdle_setBuf, buf_setBuf, hb, if_false, setBuf_tick]
      exact hs b'

/-- A buffer on which an operation can be in flight: it is initialised, or something is in flight on it or in an agent of it. -/
def State.Opened (s : State) (b : BufId) : Prop :=
  (s.buf b).valid = true ∨ (s.buf b).prodOp ≠ none ∨ (s.buf b).consOp ≠ none ∨ s.InUse b

theorem State.BufferInv.valid {s : State} {b : BufId} (h : s.BufferInv b) (ho : s.Opened b) : (s.buf b).valid = true := by
  obtain ⟨⟨_, _, hnone, _⟩, huse, _⟩ := h
  by_contra hv
  obtain ⟨_, hp, hc⟩ := hnone (Bool.eq_false_iff.mpr hv)
  rcases ho with h | h | h | h
  · exact hv h
  · exact h hp
  · exact h hc
  · exact hv (huse h)

theorem TickOp.allows_none (t : TickOp) (b : BufId) : t.allows b none := fun _ => .inr (.inl rfl)

/-- A write in flight whose elements are copied is one the tick allows, if it allowed what was in flight before (R195). -/
theorem TickOp.allows_copied {t : TickOp} {b : BufId} {p : ProdOp} (h : t.allows b (some p)) (n : Nat) (xs : List Sample) :
    t.allows b (some ⟨n, xs, .copied⟩) := fun hb =>
  (h hb).imp_right fun h => .inr <| by
    obtain ⟨ch, e, k, x, ht, hm, _⟩ := h.resolve_left nofun
    exact ⟨ch, e, k, x, ht, hm, fun op hop hph => by cases Option.some.inj hop; cases hph⟩

theorem TickOp.allows_idle {s : State} {b : BufId} (h : s.agentIdle (producerOf b) = true) (p : Option ProdOp) : s.tick.allows b p :=
  fun hb => .inl (by rw [hb] at h; exact beq_iff_eq.mp h)

/-! ## Initialising and clearing (R131, R132) -/

theorem Keeps.initBuf (c : Config) (s : State) (b : BufId) (mode : Bool) {cap : Nat} (h : 0 < cap) :
    Keeps c s (s.setBuf b (.init mode cap)) :=
  .setBuf c fun _ => ⟨fun _ => rfl, Inv.init mode h, TickOp.allows_none _ _⟩

theorem clear_prodOp {q q' : RingBuffer} (h : q.clear = .ok q') : q'.prodOp = q.prodOp := by
  simp only [RingBuffer.clear] at h
  split at h
  · cases h; rfl
  · cases h

theorem Keeps.clearBuf (c : Config) {s : State} {b : BufId} {q : RingBuffer} (h : (s.buf b).clear = .ok q) :
    Keeps c s (s.setBuf b q) := by
  refine .setBuf c fun hs => ?_
  obtain ⟨hinv, _, ha⟩ := hs
  obtain ⟨hv, hq⟩ := Inv.clear hinv h
  exact ⟨hv.trans, hq, (clear_prodOp h).symm ▸ ha⟩

/-! ## Whole operations -/

theorem write_prodOp {q q' : RingBuffer} {a : Agent} {xs : List Sample} (h : q.write a xs = .ok q') : q'.prodOp = none := by
  obtain ⟨_, _, _, _, _, _, _, _, _, hp, _⟩ := write_ok h
  exact hp

/-- A write whose check has passed (R141). -/
theorem Keeps.write (c : Config) {s : State} {b : BufId} {a : Agent} {xs : List Sample} {q : RingBuffer}
    (hv : (s.buf b).valid = true) (hfit : xs.length ≤ (s.buf b).free) (h : (s.buf b).write a xs = .ok q) :
    Keeps c s (s.setBuf b q) := by
  refine .setBuf c fun hs => ?_
  obtain ⟨hv', hq⟩ := Inv.write hv hs.1 hfit h
  exact ⟨fun _ => hv', hq, (write_prodOp h).symm ▸ TickOp.allows_none _ _⟩

/-- A publish phase writes the registers of its side, in locked mode with the lock taken and released (R80). -/
theorem critical_some {q q' : RingBuffer} {a : Agent} {f : RingBuffer → RingBuffer} (h : q.critical a f = some q') :
    q' = f q ∨ q' = (f { q with lock := .held a }).release := by
  simp only [RingBuffer.critical, RingBuffer.acquire] at h
  split at h
  · split at h
    · next h' =>
      split at h'
      · cases h'; cases h; exact .inr rfl
      · cases h'
    · cases h
  · cases h; exact .inl rfl

theorem publishIn_prodOp {q q' : RingBuffer} {a : Agent} {n : Nat} (h : q.publishIn a n = some q') : q'.prodOp = none := by
  obtain rfl | rfl := critical_some h <;> rfl

theorem publishOut_prodOp {q q' : RingBuffer} {a : Agent} {n : Nat} (h : q.publishOut a n = some q') : q'.prodOp = q.prodOp := by
  obtain rfl | rfl := critical_some h <;> rfl

theorem read_prodOp {q q' : RingBuffer} {a : Agent} {n : Nat} {d : List Sample} (h : q.read a n = .ok (d, q')) :
    q'.prodOp = q.prodOp := by
  simp only [RingBuffer.read] at h
  split at h
  · cases h
  · split at h
    · next hp => cases h; exact publishOut_prodOp hp
    · cases h

/-- A read whose check has passed (R142). -/
theorem Keeps.read (c : Config) {s : State} {b : BufId} {a : Agent} {n : Nat} {d : List Sample} {q : RingBuffer}
    (hv : (s.buf b).valid = true) (hn : n ≤ (s.buf b).cnt) (h : (s.buf b).read a n = .ok (d, q)) : Keeps c s (s.setBuf b q) := by
  refine .setBuf c fun hs => ?_
  obtain ⟨hinv, _, ha⟩ := hs
  obtain ⟨hv', hq⟩ := Inv.read hv hinv hn h
  exact ⟨fun _ => hv', hq, (read_prodOp h).symm ▸ ha⟩

/-! ## The phases of a write (R141, R144) -/

/-- What a micro-step of a write leaves of the buffer `q`: it checked the list `xs`, or copied the list of the write in flight, or
ended. -/
def WriteOut.Ok (q : RingBuffer) (xs : List Sample) : WriteOut → Prop
  | .go q' => q'.valid = true ∧ q'.Inv ∧ (q.prodOp = none ∧ q'.prodOp = some ⟨xs.length, xs, .checked⟩ ∨
      ∃ op n ys, q.prodOp = some op ∧ q'.prodOp = some ⟨n, ys, .copied⟩)
  | .done q' => q'.valid = true ∧ q'.Inv ∧ q'.prodOp = none
  | .full | .blocked => True

/-- The copy phase on the list of a write in flight (R141). -/
theorem Inv.copyIn {q p : RingBuffer} (hv : q.valid = true) (h : q.Inv) {xs : List Sample} (hfit : xs.length ≤ q.free)
    (hc : q.copyIn 0 xs = .ok p) : (p.writing xs .copied).valid = true ∧ (p.writing xs .copied).Inv := by
  obtain ⟨hwf, _, _, hb⟩ := id h
  obtain ⟨⟨hcap, _⟩, _⟩ := hb hv
  obtain ⟨m, hm, hmwf, hrest, hst⟩ := copyIn_spec q hcap 0 xs
  rw [hc, Except.ok.injEq] at hm
  subst hm
  simp only [Nat.zero_add] at hrest hst
  exact ⟨hv, Inv.copiedIn hv h hfit (hmwf hwf) ⟨hst (hfit.trans (Nat.sub_le _ _)), hrest⟩⟩

theorem Inv.writeStep {q : RingBuffer} (hv : q.valid = true) (h : q.Inv) (a : Agent) (xs : List Sample) :
    Gives (WriteOut.Ok q xs) (q.writeStep a xs) := by
  obtain ⟨_, hl, _, hb⟩ := id h
  obtain ⟨_, _, hprod, _⟩ := hb hv
  simp only [RingBuffer.writeStep]
  split
  · next hp =>
    split_ifs with hfit hm
    · exact ⟨hv, Inv.checkIn hv h hfit, .inl ⟨hp, rfl⟩⟩
    · split
      · next hw =>
        obtain ⟨hv', hq⟩ := Inv.write hv h hfit hw
        exact ⟨hv', hq, write_prodOp hw⟩
      · trivial
    · trivial
  · next n ys hp =>
    obtain ⟨hn, hlen, _⟩ := hprod _ hp
    split
    · next hc =>
      obtain ⟨hv', hq⟩ := Inv.copyIn hv h (hlen.trans hn) hc
      exact ⟨hv', hq, .inr ⟨_, _, _, hp, rfl⟩⟩
    · trivial
  · next n ys hp =>
    obtain ⟨hn, hlen, hcopied⟩ := hprod _ hp
    obtain ⟨_, hstored⟩ := hcopied rfl
    rw [publishIn_free hl]
    exact ⟨hv, Inv.published hv h (hlen.trans hn) hstored, rfl⟩

/-- A write that ends leaves none in flight. -/
theorem writeStep_done {q q' : RingBuffer} {a : Agent} {xs : List Sample} (h : q.writeStep a xs = .ok (.done q')) :
    q'.prodOp = none := by
  simp only [RingBuffer.writeStep] at h
  split at h
  · split_ifs at h
    · cases h
    · split at h
      · next hw => cases h; exact write_prodOp hw
      · cases h
    · cases h
  · split at h <;> cases h
  · split at h
    · next hp => cases h; exact publishIn_prodOp hp
    · cases h

/-- A micro-step of a write, `full` and `done` being how the operation around it goes on. -/
theorem keeps_writeMicro {c : Config} {s : State} {b : BufId} {xs : List Sample} {full done : State → State} (ho : s.Opened b)
    (ha : (s.buf b).prodOp = none → s.tick.allows b (some ⟨xs.length, xs, .checked⟩)) (hfull : Keeps c s (full s))
    (hdone : ∀ q, q.prodOp = none → Keeps c (s.setBuf b q) (done (s.setBuf b q))) :
    Gives (Keeps c s) (s.writeMicro b xs full done) := by
  have hstep {out : WriteOut} (hw : (s.buf b).writeStep (producerOf b) xs = .ok out) (h : s.BufferInv b) :
      out.Ok (s.buf b) xs := (Inv.writeStep (h.valid ho) h.1 _ _).of_ok hw
  simp only [State.writeMicro]
  split
  · next q hw =>
    refine Keeps.setBuf c fun h => ?_
    obtain ⟨hv, hq, ⟨hnone, hp⟩ | ⟨op, n, ys, hop, hp⟩⟩ := hstep hw h
    · exact ⟨fun _ => hv, hq, hp ▸ ha hnone⟩
    · obtain ⟨_, _, hold⟩ := h
      exact ⟨fun _ => hv, hq, hp ▸ TickOp.allows_copied (hop ▸ hold) n ys⟩
  · next q hw =>
    refine Keeps.trans (Keeps.setBuf c fun h => ?_) (hdone q (writeStep_done hw))
    obtain ⟨hv, hq, hp⟩ := hstep hw h
    exact ⟨fun _ => hv, hq, hp ▸ TickOp.allows_none _ _⟩
  · exact hfull
  · exact .refl c s
  · trivial

/-! ## The phases of a read (R142, R144) -/

/-- What a micro-step of a read leaves of the buffer `q`. -/
def ReadOut.Ok (q : RingBuffer) : ReadOut → Prop
  | .go q' | .done _ q' => q'.valid = true ∧ q'.Inv ∧ q'.prodOp = q.prodOp
  | .few | .blocked => True

/-- The copy phase gives the counted elements (R142). -/
theorem Inv.copyOut {q : RingBuffer} (hv : q.valid = true) (h : q.Inv) {n : Nat} (hn : n ≤ q.cnt) {d : List Sample}
    (hc : q.copyOut 0 n = .ok d) : d.map some = (List.range n).map (q.at q.rd) := by
  obtain ⟨_, _, _, hb⟩ := id h
  obtain ⟨⟨hcap, _⟩, hstored, _⟩ := hb hv
  obtain ⟨d', hd, helems⟩ := copyOut_spec q hcap 0 n fun j hj => by
    rw [Nat.zero_add]
    exact contents_stored hstored (by omega)
  rw [hc, Except.ok.injEq] at hd
  subst hd
  simpa only [Nat.zero_add] using helems

theorem Inv.readStep {q : RingBuffer} (hv : q.valid = true) (h : q.Inv) (a : Agent) (n : Nat) :
    Gives (ReadOut.Ok q) (q.readStep a n) := by
  obtain ⟨_, hl, _, hb⟩ := id h
  obtain ⟨_, _, _, hcons⟩ := hb hv
  simp only [RingBuffer.readStep]
  split
  · split_ifs with hn hm
    · exact ⟨hv, Inv.checkOut hv h hn, rfl⟩
    · split
      · next hr =>
        obtain ⟨hv', hq⟩ := Inv.read hv h hn hr
        exact ⟨hv', hq, read_prodOp hr⟩
      · trivial
    · trivial
  · next n _ hp =>
    obtain ⟨hn, _⟩ := hcons _ hp
    split
    · next hc => exact ⟨hv, Inv.copiedOut hv h hn (Inv.copyOut hv h hn hc), rfl⟩
    · trivial
  · next n d hp =>
    obtain ⟨hn, _⟩ := hcons _ hp
    rw [publishOut_free hl]
    exact ⟨hv, Inv.freed hv h hn, rfl⟩

/-- A micro-step of a read, `few` and `done` being how the operation around it goes on. -/
theorem keeps_readMicro {c : Config} {s : State} {b : BufId} {n : Nat} {few : State → State} {done : List Sample → State → State}
    (ho : s.Opened b) (hfew : Keeps c s (few s)) (hdone : ∀ d q, Keeps c (s.setBuf b q) (done d (s.setBuf b q))) :
    Gives (Keeps c s) (s.readMicro b n few done) := by
  have hkeeps {q : RingBuffer} {out : ReadOut} (hr : (s.buf b).readStep (consumerOf b) n = .ok out)
      (hq : out.Ok (s.buf b) → q.valid = true ∧ q.Inv ∧ q.prodOp = (s.buf b).prodOp) : Keeps c s (s.setBuf b q) := by
    refine Keeps.setBuf c fun h => ?_
    obtain ⟨hv, hq, hp⟩ := hq ((Inv.readStep (h.valid ho) h.1 _ _).of_ok hr)
    obtain ⟨_, _, hold⟩ := h
    exact ⟨fun _ => hv, hq, hp ▸ hold⟩
  simp only [State.readMicro]
  split
  · next q hr => exact hkeeps hr id
  · next d q hr => exact (hkeeps hr id).trans (hdone d q)
  · exact hfew
  · exact .refl c s
  · trivial

end Sys2Proof.Machine
end

section
/-! Each operation run as a command keeps the five invariants (10_state.md R23 to R25, R43 to R56). -/

namespace Sys2Proof.Machine

/-! ## Ring buffers (R131 to R139) -/

theorem yields_onValid {P : State → Prop} {s : State} {b : BufId} {k : RingBuffer → Host.Outcome State Fault Refusal}
    (hno : P (s.respond .notInitialised [])) (h : (s.buf b).valid = true → Yields P (k (s.buf b))) : Yields P (s.onValid b k) := by
  simp only [State.onValid]
  split
  · next hv => exact h hv
  · exact hno

theorem keeps_rbInit (c : Config) (b : BufId) (mode : Bool) (capacity : Word) (s : State) :
    Yields (Keeps c s) (execRbInit b mode capacity s) := by
  simp only [execRbInit]
  split_ifs with hv h0
  · exact .respond c s _ _
  · exact .respond c s _ _
  · exact (Keeps.initBuf c s b mode (by bv_omega)).thenRespond _ _

theorem keeps_rbClear (c : Config) (b : BufId) (s : State) : Yields (Keeps c s) (execRbClear b s) :=
  yields_onValid (.respond c s _ _) fun _ => by
    split
    · next hq => exact (Keeps.clearBuf c hq).thenRespond _ _
    · trivial

/-- The operations that only read a buffer (R133 to R135). -/
theorem keeps_onValid_ok (c : Config) (b : BufId) (s : State) (vs : RingBuffer → List Word) :
    Yields (Keeps c s) (s.onValid b fun q => s.ok (vs q)) :=
  yields_onValid (.respond c s _ _) fun _ => .respond c s _ _

theorem keeps_writeOp (c : Config) (b : BufId) (xs : List Sample) (s : State) : Yields (Keeps c s) (s.writeOp b xs) :=
  yields_onValid (.respond c s _ _) fun hv => by
    split_ifs with hfree hfit
    · split
      · next hw =>
        obtain ⟨q, hq, rfl⟩ := writeBuf_ok hw
        exact (Keeps.write c hv hfit hq).thenRespond _ _
      · trivial
    · exact .respond c s _ _
    · trivial

theorem keeps_readOp (c : Config) (b : BufId) (n : Nat) (few : Result) (s : State) : Yields (Keeps c s) (s.readOp b n few) :=
  yields_onValid (.respond c s _ _) fun hv => by
    split_ifs with hfree hn
    · split
      · next hr =>
        obtain ⟨q, hq, rfl⟩ := readBuf_ok hr
        exact (Keeps.read c hv hn hq).thenRespond _ _
      · trivial
    · exact .respond c s _ _
    · trivial

/-! ## Filters (R171, R172) -/

theorem keeps_fltClear (c : Config) (sel : ClearSel) (s : State) : Yields (Keeps c s) (fltClear c sel s) := by
  cases sel with
  | one sel => exact (Keeps.clearDelay c s sel).thenRespond _ _
  | all => exact (Keeps.clearAllDelays c s).thenRespond _ _

theorem keeps_runChain1 (c : Config) (s : State) (r : Ratio1) (ch : Chan) (xs : List Sample) (g : Option FVal) :
    Gives (fun p => Keeps c s p.2) (s.runChain1 c r ch xs g) := gives_of fun p hp => by
  obtain ⟨_, d, hd, hs⟩ := runChain1_spec (ys := p.1) (s' := p.2) hp
  rw [hs]
  exact .chain1 hd

theorem keeps_runChain2 (c : Config) (s : State) (r : Ratio2) (ch : Chan) (xs : List Sample) :
    Gives (fun p => Keeps c s p.2) (s.runChain2 c r ch xs) := gives_of fun p hp => by
  obtain ⟨_, d, hd, hs⟩ := runChain2_spec (ys := p.1) (s' := p.2) hp
  rw [hs]
  exact .chain2 hd

theorem keeps_fltRunEnd {c : Config} {s : State} {r : Except Fault (List Sample × State)} (h : Gives (fun p => Keeps c s p.2) r) :
    Yields (Keeps c s) (fltRunEnd r) := by
  cases r with
  | ok p => exact Keeps.thenRespond h _ _
  | error f => trivial

theorem keeps_fltRun (c : Config) (sel : FltSel) (xs : List Sample) (s : State) : Yields (Keeps c s) (fltRun c sel xs s) := by
  simp only [fltRun]
  split
  · split
    · exact keeps_fltRunEnd (keeps_runChain1 c s _ _ _ _)
    · exact .respond c s _ _
  · split
    · exact keeps_fltRunEnd (keeps_runChain2 c s _ _ _)
    · exact .respond c s _ _

/-! ## Ingestion (R190) -/

theorem Keeps.pcmFree (c : Config) (s : State) (n : Nat) : Keeps c s { s with pcmFree := n } := ⟨id, id, id, id, id⟩

theorem keeps_pushWrite (c : Config) (d : Depth) (frames : List PcmFrame) {s : State} (h0 : s.rb.ep0.valid = true)
    (h1 : s.rb.ep1.valid = true) (hfit : frames.length ≤ c.least s.rb.ep0.free s.rb.ep1.free) :
    Gives (Keeps c s) (pushWrite c d frames s) := by
  simp only [pushWrite]
  split
  · trivial
  · next s₁ hw0 =>
    obtain ⟨q0, hq0, rfl⟩ := writeBuf_ok hw0
    have hkeep0 := Keeps.write c (b := .ep0) h0 ((channelSamples_length ..).trans_le (hfit.trans (c.least_le_left _ _))) hq0
    split
    · trivial
    · next s₂ hw1 =>
      refine Keeps.trans ?_ (.pcmFree c _ _)
      rcases c.nch_range with hc | hc
      · rw [Config.ifTwo_one hc] at hw1
        cases hw1
        exact hkeep0
      · rw [Config.ifTwo_two hc] at hw1
        obtain ⟨q1, hq1, rfl⟩ := writeBuf_ok hw1
        have hle := (channelSamples_length c d .c1 s.pcmFree frames).trans_le (hfit.trans (Config.least_le_right hc _ _))
        exact hkeep0.trans (Keeps.write c (b := .ep1) h1 hle hq1)

theorem keeps_usbPush (c : Config) (frames : List PcmFrame) (s : State) : Yields (Keeps c s) (usbPush c frames s) := by
  simp only [usbPush]
  split
  · exact .respond c s _ _
  · split
    · exact .respond c s _ _
    · split_ifs with hv hfit
      · rw [Bool.and_eq_true] at hv
        have hpush := keeps_pushWrite c ‹Depth› frames hv.1 hv.2 hfit
        split
        · next hs => exact (hpush.of_ok hs).thenRespond _ _
        · trivial
      · exact .respond c s _ _
      · exact .respond c s _ _

/-! ## The engine and the tick (R192, R196) -/

theorem read_length {q q' : RingBuffer} {a : Agent} {n : Nat} {d : List Sample} (h : q.read a n = .ok (d, q')) : d.length = n := by
  simp only [RingBuffer.read] at h
  split at h
  · cases h
  · next hc =>
    split at h
    · cases h; exact copyOut_length hc
    · cases h

/-- One channel of an `ENG.RUN` whose counts were checked (R192). -/
theorem keeps_engChannel (c : Config) (r : Ratio1) (g : FVal) {n : Nat} {ch : Chan} {s : State} (hve : (s.buf (epOf ch)).valid = true)
    (hvm : (s.buf (midOf ch)).valid = true) (hn : n ≤ (s.buf (epOf ch)).cnt) (hfit : n * r.toNat ≤ (s.buf (midOf ch)).free) :
    Gives (Keeps c s) (engChannel c r g n ch s) := gives_of fun s' h => by
  obtain ⟨x, y, d, q, p, hread, hchain, hwrite, rfl⟩ := engChannel_ok h
  have hlen : y.length = n * r.toNat := by
    obtain ⟨hy, _⟩ := runChain_spec hchain
    rw [hy, read_length hread, c.chain1_ratio]
  have hmid : (s.setBuf (epOf ch) q).buf (midOf ch) = s.buf (midOf ch) := by cases ch <;> rfl
  have hw : Keeps c (s.setBuf (epOf ch) q) ((s.setBuf (epOf ch) q).setBuf (midOf ch) p) :=
    .write c (hmid ▸ hvm) (hlen.trans_le (hmid ▸ hfit)) (hmid ▸ hwrite)
  exact ((Keeps.read c hve hn hread).trans hw).trans (.chain1 hchain)

theorem valid_of_allValid {s : State} (h : s.allValid = true) (b : BufId) : (s.buf b).valid = true := by
  simp only [State.allValid, Bool.and_eq_true] at h
  obtain ⟨⟨⟨h0, h1⟩, h2⟩, h3⟩ := h
  cases b <;> assumption

theorem keeps_engBody (c : Config) (f : Rate) (r : Ratio1) {s : State} (hv : s.allValid = true) :
    Gives (fun d => Keeps c s d.state) (engBody c f r s) := gives_of fun d h => by
  obtain ⟨_, rfl⟩ | ⟨_, _, rfl⟩ | ⟨_, hfit, s₁, s₂, h₁, h₂, rfl⟩ := engBody_ok rfl h
  · exact .refl c s
  · exact .refl c s
  · have hle := engCount_le c f s.adj (s.avail c)
    have hk₁ := (keeps_engChannel c r s.gain (ch := .c0) (valid_of_allValid hv _) (valid_of_allValid hv _)
      (hle.trans (c.least_le_left _ _)) (hfit.trans (c.least_le_left _ _))).of_ok h₁
    rcases c.nch_range with hc | hc
    · rw [Config.ifTwo_one hc] at h₂
      cases h₂
      exact hk₁
    · rw [Config.ifTwo_two hc] at h₂
      obtain ⟨hep, hmid⟩ := engChannel_c0_bufs h₁
      exact hk₁.trans ((keeps_engChannel c r s.gain (ch := .c1) (by rw [epOf, hep]; exact valid_of_allValid hv _)
        (by rw [midOf, hmid]; exact valid_of_allValid hv _) (by rw [epOf, hep]; exact hle.trans (Config.least_le_right hc _ _))
        (by rw [midOf, hmid]; exact hfit.trans (Config.least_le_right hc _ _))).of_ok h₂)

theorem keeps_engRun (c : Config) (s : State) : Gives (fun d => Keeps c s d.state) (engRun c s) := by
  simp only [engRun]
  split
  · split_ifs with hv
    · exact keeps_engBody c _ _ hv
    · exact .refl c s
  · exact .refl c s

theorem keeps_tickBody (c : Config) (s : State) : Gives (fun d => Keeps c s d.state) (tickBody c s) := by
  simp only [tickBody]
  split
  · next v f r hreq hf hr =>
    split_ifs with hv
    · split
      · next s' hvol =>
        obtain ⟨hrb, _⟩ := volUpdate_keeps hvol
        have hv' : (ctlUpdate s').allValid = true := by
          simpa only [State.allValid, ctlUpdate_rb, hrb] using hv
        have hk : Keeps c s (ctlUpdate s') := ((keeps_volUpdate hreq).of_ok hvol).trans (.ctlUpdate c s')
        exact gives_of fun d hd => hk.trans ((keeps_engBody c f r hv').of_ok hd)
      · trivial
    · exact .refl c s
  · exact .refl c s

theorem keeps_tickOp (c : Config) (s : State) : Yields (Keeps c s) (tickOp c s) := by
  simp only [tickOp]
  split
  · exact yields_ifFree fun _ => yields_outcome (keeps_tickBody c s)
  · exact .respond c s _ _

/-! ## The controller (R211, R213, R218) -/

theorem keeps_ctlAdj (c : Config) (s : State) : Yields (Keeps c s) (execCtlAdj s) :=
  yields_ifFree fun _ => by
    split
    · exact (Keeps.ctlUpdate c s).thenRespond _ _
    · exact .respond c s _ _

theorem keeps_fbReport (c c' : Config) (s : State) : Yields (Keeps c s) (fbReport c' s) := by
  simp only [fbReport]
  split
  · split
    · exact .respond c s _ _
    · exact .respond c s _ _
  · exact .respond c s _ _

theorem keeps_volSmooth (c : Config) (s : State) : Yields (Keeps c s) (volSmooth c s) := by
  simp only [volSmooth]
  split
  · next v hv =>
    split
    · next hs => exact ((keeps_volUpdate hv).of_ok hs).thenRespond _ _
    · trivial
  · exact .respond c s _ _

/-! ## The scheduler and the transfer (R230, R235, R241) -/

theorem Keeps.pollPlain (c : Config) (a : PollAction) (s : State) : Keeps c s (pollPlain a s) := by
  cases a with
  | zeroed => exact .zeroStop c s
  | started | stopDetected => exact ⟨id, id, id, id, id⟩
  | idle | skipped | rendered | held => exact .refl c s

/-- The state with the filled slot `sl` at `q_wr` entered in the queue (R235, R238). -/
def State.queued (c : Config) (sl : Slot) (s : State) : State :=
  { s with slots := s.slots.set s.qWr sl, qWr := (s.qWr + 1) % c.txqDepth, qCnt := s.qCnt + 1, irqMask := false }

/-- The second stage: the chains advance their delay arrays, the outputs fill the slot at `q_wr`, which enters the queue (R235, R238). -/
theorem renderInto_ok {c : Config} {r : Ratio2} {x0 x1 : List Sample} {s s' : State} (h : renderInto c r x0 x1 s = .ok s') :
    ∃ d ws sl, Keeps c s { s with d2 := d } ∧ (s.slotAt s.qWr).fill c ws = .ok sl ∧
      s' = State.queued c sl { s with d2 := d } := by
  simp only [renderInto] at h
  split at h
  · cases h
  · next y0 s₁ h0 =>
    obtain ⟨_, d0, hd0, rfl⟩ := runChain2_spec h0
    split at h
    · cases h
    · next y1 s₂ h1 =>
      obtain ⟨d1, hk, rfl⟩ : ∃ d, Keeps c s { s with d2 := d } ∧ s₂ = { s with d2 := d } := by
        rcases c.nch_range with hc | hc
        · rw [Config.ifTwo_one hc] at h1
          cases h1
          exact ⟨_, .chain2 hd0, rfl⟩
        · rw [Config.ifTwo_two hc] at h1
          obtain ⟨_, d1, hd1, rfl⟩ := runChain2_spec h1
          exact ⟨_, (Keeps.chain2 hd0).trans (.chain2 hd1), rfl⟩
      split at h
      · cases h
      · next sl hsl => cases h; exact ⟨d1, _, sl, hk, hsl, rfl⟩

theorem State.ControlInv.queued {c : Config} {s : State} (h : s.ControlInv c) (sl : Slot) : (s.queued c sl).ControlInv c := by
  obtain ⟨ha, hv, hq, hg, h1, h2, _⟩ := h
  exact ⟨ha, hv, hq, hg, h1, h2, rfl⟩

/-- A command queues a frame only where it read that a slot is free (R230). -/
theorem Keeps.queued {c : Config} {s : State} {sl : Slot} {ws : List Word} (hp : s.poll = .idle) (hq : s.qCnt ≠ c.txqDepth)
    (hf : (s.slotAt s.qWr).fill c ws = .ok sl) : Keeps c s (s.queued c sl) where
  __ := Keeps.refl c s
  queue := fun h => by
    obtain ⟨_, _, _, hle, _⟩ := id h
    exact h.enqueued (Nat.lt_of_le_of_ne hle hq) hf rfl rfl rfl rfl hp
  control := fun h => h.queued sl

/-- The last micro-step of a render: a slot is free since the poll read so, and the poll ends (R232, R247). -/
theorem Keeps.pollQueued {c : Config} {s : State} {m : Nat} {x0 x1 : List Sample} {sl : Slot} {ws : List Word}
    (hs : s.poll = .enqueue m x0 x1) (hf : (s.slotAt s.qWr).fill c ws = .ok sl) (r : Result) (vs : List Word) :
    Keeps c s (Machine.pollEnd r vs (s.queued c sl)) where
  __ := Keeps.refl c s
  buffers := (Keeps.pollEnd c r vs s).buffers
  queue := fun h => by
    obtain ⟨_, _, _, _, _, _, hpoll⟩ := id h
    rw [hs] at hpoll
    exact h.enqueued hpoll hf rfl rfl rfl rfl rfl
  sequencing := (Keeps.pollEnd c r vs s).sequencing
  control := fun h => h.queued sl

/-- A poll renders only while a slot is free (R232). -/
theorem pollChoice_rendered {depth : Nat} {st : SchedState} {thr occ q : Nat} (h : pollChoice depth st thr occ q = .rendered) :
    q ≠ depth := by
  cases st with
  | draining => simp only [pollChoice] at h; split at h <;> cases h
  | streaming =>
    simp only [pollChoice] at h
    split_ifs at h with _ hq
    exact hq
  | drainingToStop => cases h

/-- A render issued as part of a command (R235). -/
theorem keeps_render (c : Config) (r : Ratio2) {m : Nat} {s : State} (hv0 : s.rb.mid0.valid = true) (hv1 : s.rb.mid1.valid = true)
    (hm0 : m ≤ s.rb.mid0.cnt) (hm1 : c.nch = 2 → m ≤ s.rb.mid1.cnt) (hp : s.poll = .idle) (hq : s.qCnt ≠ c.txqDepth) :
    Gives (Keeps c s) (render c r m s) := gives_of fun s' h => by
  simp only [render] at h
  split at h
  · cases h
  · next x0 s₁ hr0 =>
    obtain ⟨q0, hq0, rfl⟩ := readBuf_ok hr0
    have hk0 := Keeps.read c (s := s) (b := .mid0) hv0 hm0 hq0
    split at h
    · cases h
    · next x1 s₂ hr1 =>
      obtain ⟨rb, hk, rfl⟩ : ∃ rb, Keeps c s { s with rb := rb } ∧ s₂ = { s with rb := rb } := by
        rcases c.nch_range with hc | hc
        · rw [Config.ifTwo_one hc] at hr1
          cases hr1
          exact ⟨_, hk0, rfl⟩
        · rw [Config.ifTwo_two hc] at hr1
          obtain ⟨q1, hq1, rfl⟩ := readBuf_ok hr1
          exact ⟨_, hk0.trans (Keeps.read c (b := .mid1) hv1 (hm1 hc) hq1), rfl⟩
      obtain ⟨d, ws, sl, hchain, hf, rfl⟩ := renderInto_ok h
      exact (hk.trans hchain).trans (Keeps.queued (s := { s with rb := rb, d2 := d }) hp hq hf)

theorem keeps_txPoll (c : Config) {s : State} (hp : s.poll = .idle) : Gives (fun d => Keeps c s d.state) (txPoll c s) := by
  simp only [txPoll]
  split
  · exact .refl c s
  · split
    · exact .refl c s
    · next r _ =>
      split_ifs with hv
      · rw [Bool.and_eq_true] at hv
        refine gives_of fun d hd => ?_
        obtain ⟨_, rfl⟩ | ⟨ha, s', hrender, rfl⟩ := pollAct_ok rfl hd
        · exact .pollPlain c _ s
        · have hle := renderSize_le c (s.occ c) r
          exact (keeps_render c r hv.1 hv.2 (hle.trans (c.least_le_left _ _)) (fun hc => hle.trans (Config.least_le_right hc _ _)) hp
            (pollChoice_rendered ha)).of_ok hrender
      · exact .refl c s

theorem keeps_dmaDone (c : Config) (s : State) : Keeps c s (dmaDone c s).state := by
  simp only [dmaDone]
  split
  · next h =>
    rw [Bool.and_eq_true] at h
    exact (Keeps.dmaComplete c s).trans (.dmaService c h.1)
  · exact .refl c s

/-! ## Control writes (R260 to R264) -/

theorem Keeps.fNom (c : Config) (s : State) (f : Option Rate) : Keeps c s { s with fNom := f } := ⟨id, id, id, id, id⟩

theorem Keeps.depth (c : Config) (s : State) (d : Option Depth) : Keeps c s { s with depth := d } := ⟨id, id, id, id, id⟩

theorem Keeps.mute (c : Config) (s : State) (m : Option Bool) : Keeps c s { s with mute := m } := ⟨id, id, id, id, id⟩

theorem Keeps.pmSignal (c : Config) (s : State) (p : Option Bool) : Keeps c s { s with pmSignal := p } := ⟨id, id, id, id, id⟩

theorem keeps_setRate (c c' : Config) (rate : Word) (s : State) : Yields (Keeps c s) (setRate c' rate s) := by
  simp only [setRate]
  split
  · split_ifs
    · exact (Keeps.fNom c s _).thenRespond _ _
    · exact .respond c s _ _
  · exact .respond c s _ _

theorem keeps_setDepth (c : Config) (d : BitVec 6) (s : State) : Yields (Keeps c s) (execSetDepth d s) := by
  simp only [execSetDepth]
  split
  · exact (Keeps.depth c s _).thenRespond _ _
  · exact .respond c s _ _

theorem keeps_setVol (c : Config) (code : BitVec 16) (s : State) : Yields (Keeps c s) (setVol c code s) := by
  simp only [setVol]
  split
  · next h => exact (Keeps.volReq s h).thenRespond _ _
  · exact .respond c s _ _

theorem keeps_setMute (c : Config) (m : Bool) (s : State) : Yields (Keeps c s) (execSetMute m s) :=
  (Keeps.mute c s _).thenRespond .ok []

theorem keeps_setPower (c : Config) (p : Bool) (s : State) : Yields (Keeps c s) (execSetPower p s) :=
  (Keeps.pmSignal c s _).thenRespond .ok []

/-! ## REINIT and the main loop (R266, R272) -/

theorem Keeps.clearBuffers (c : Config) {s : State} {m : Buffers} (h : clearBuffers s.rb = .ok m) : Keeps c s { s with rb := m } := by
  simp only [Machine.clearBuffers] at h
  split at h
  · next q0 q1 q2 q3 h0 h1 h2 h3 =>
    cases h
    have hk0 : Keeps c s (s.setBuf .ep0 q0) := .clearBuf c h0
    have hk1 : Keeps c (s.setBuf .ep0 q0) ((s.setBuf .ep0 q0).setBuf .ep1 q1) := .clearBuf c h1
    have hk2 : Keeps c ((s.setBuf .ep0 q0).setBuf .ep1 q1) (((s.setBuf .ep0 q0).setBuf .ep1 q1).setBuf .mid0 q2) := .clearBuf c h2
    exact ((hk0.trans hk1).trans hk2).trans (.clearBuf c (b := .mid1) h3)
  · cases h

/-- The next step of the REINIT in flight (R266). -/
theorem keeps_reinitStep (c : Config) {k : ReinitStep} {vs : List Word} {s : State} (hn : nextReinitStep s.reinitStep = some k)
    (hm : s.main = .reinit vs) (he : reinitEnabled k s = true) : Gives (Keeps c s) (reinitStep c k s) := by
  generalize hcount : s.reinitStep = n at hn
  match n, hn with
  | 0, rfl => exact Keeps.reinitSuspend c hm
  | 1, rfl => exact Keeps.reinitClock c hcount (by simpa only [reinitEnabled, Bool.not_eq_true'] using he)
  | 2, rfl => exact Keeps.reinitResume c hcount
  | 3, rfl => exact Keeps.reinitAbort c hcount
  | 4, rfl => exact Keeps.reinitDivider c hcount
  | 5, rfl =>
    simp only [reinitStep]
    split
    · next m hclear => exact (Keeps.clearBuffers c hclear).trans (.reinitFinish c hcount)
    · trivial

/-- A step of REINIT that is not the last one leaves the next one due (R51). -/
theorem reinitStep_next {c : Config} {k : ReinitStep} {ks : List ReinitStep} {vs : List Word} {s t : State}
    (hks : reinitSteps.drop s.reinitStep = k :: ks) (hne : ks ≠ []) (hm : s.main = .reinit vs) (h : reinitStep c k s = .ok t) :
    reinitSteps.drop t.reinitStep = ks ∧ t.main = .reinit vs := by
  generalize hcount : s.reinitStep = n at hks
  match n, hks with
  | 0, rfl | 1, rfl | 2, rfl | 3, rfl | 4, rfl => cases h; exact ⟨rfl, by simp [hm]⟩
  | 5, rfl => exact absurd rfl hne
  | n + 6, hks => simp [reinitSteps] at hks

/-- The steps of REINIT run one after another, up to the first that is not enabled (R266, R274). -/
theorem keeps_reinitRun (c : Config) {vs : List Word} (ks : List ReinitStep) (s : State) (hks : reinitSteps.drop s.reinitStep = ks)
    (hm : s.main = .reinit vs) : Gives (Keeps c s) (reinitRun c ks s) := by
  induction ks generalizing s with
  | nil => exact .refl c s
  | cons k ks ih =>
    simp only [reinitRun]
    split_ifs with he
    · have hn : nextReinitStep s.reinitStep = some k := by
        rw [nextReinitStep, ← List.head?_drop, hks, List.head?_cons]
      split
      · next s' hs' =>
        have hk := (keeps_reinitStep c hn hm he).of_ok hs'
        cases ks with
        | nil => exact hk
        | cons k' ks =>
          obtain ⟨hks', hm'⟩ := reinitStep_next hks nofun hm hs'
          exact gives_of fun t ht => hk.trans ((ih s' hks' hm').of_ok ht)
      · trivial
    · exact .refl c s

theorem keeps_reinitFrom (c : Config) (vs : List Word) {s : State} (hm : ∀ vs, s.main ≠ .reinit vs) :
    Yields (Keeps c s) (stateOutcome (reinitRun c reinitSteps (reinitBegin vs s))) :=
  yields_stateOutcome <| gives_of fun _ h => (Keeps.reinitBegin c hm vs).trans ((keeps_reinitRun c _ _ rfl rfl).of_ok h)

theorem keeps_reinitOp (c : Config) {s : State} (hm : ∀ vs, s.main ≠ .reinit vs) : Yields (Keeps c s) (reinitOp c s) := by
  simp only [reinitOp]
  split_ifs
  · exact keeps_reinitFrom c [] hm
  · exact Keeps.reinitBegin c hm []
  · exact .respond c s _ _

theorem Keeps.muteCur (c : Config) (s : State) (m : Bool) (ops : List DacOp) :
    Keeps c s { s with muteCur := m, dacEvents := ops } := ⟨id, id, id, id, id⟩

theorem Keeps.mainRelease (c : Config) (s : State) : Keeps c s (mainRelease s) := by
  simp only [Machine.mainRelease]
  split
  · exact (Keeps.muteCur c s _ _).thenRespond _ _
  · exact .respond c s _ _

theorem keeps_mainPoll (c : Config) {s : State} (hm : ∀ vs, s.main ≠ .reinit vs) : Yields (Keeps c s) (mainPoll c s) := by
  simp only [mainPoll]
  split_ifs
  · exact keeps_reinitFrom c [1] hm
  · exact Keeps.mainRelease c s
  · exact Keeps.main c hm .poll
  · exact .respond c s _ _

theorem main_ne_reinit {s : State} (h : s.mainaBlocked = none) (vs : List Word) : s.main ≠ .reinit vs := by
  simp only [State.mainaBlocked] at h
  split_ifs at h with hm
  rw [bne_iff_ne, ne_eq, not_not] at hm
  rw [hm]
  nofun

/-! ## Every command -/

/-- An instruction run as a command keeps the invariants. -/
theorem exec_keeps (i : Instr) (s : State) : Yields (Keeps Config.current s) (exec i s) := by
  cases i with
  | rbInit b mode capacity => exact keeps_rbInit _ b mode capacity s
  | rbClear b => exact keeps_rbClear _ b s
  | rbIsFull b => exact keeps_onValid_ok _ b s fun q => [if q.cnt = q.cap then 1 else 0]
  | rbUsed b => exact keeps_onValid_ok _ b s fun q => [countWord q.cnt]
  | rbRemain b => exact keeps_onValid_ok _ b s fun q => [countWord q.free]
  | rbWrite1 b x => exact keeps_writeOp _ b [x] s
  | rbRead1 b => exact keeps_readOp _ b 1 _ s
  | rbWriteN b xs => exact keeps_writeOp _ b xs s
  | rbReadN b n => exact keeps_readOp _ b n _ s
  | fltClear sel => exact keeps_fltClear _ sel s
  | fltRun sel xs => exact keeps_fltRun _ sel xs s
  | usbPush frames => exact yields_ifFree fun _ => keeps_usbPush _ frames s
  | engRun => exact yields_ifFree fun _ => yields_outcome (keeps_engRun _ s)
  | tick => exact keeps_tickOp _ s
  | ctlAdj => exact keeps_ctlAdj _ s
  | fbReport => exact yields_ifFree fun _ => keeps_fbReport _ _ s
  | volSmooth => exact yields_ifFree fun _ => keeps_volSmooth _ s
  | txPoll => exact yields_ifFree fun h => yields_outcome (keeps_txPoll _ (pollbBlocked_eq_none h).1)
  | dmaDone => exact yields_outcome (r := .ok _) (keeps_dmaDone _ s)
  | setRate rate => exact keeps_setRate _ _ rate s
  | setDepth d => exact keeps_setDepth _ d s
  | setVol code => exact keeps_setVol _ code s
  | setMute m => exact keeps_setMute _ m s
  | setPower p => exact keeps_setPower _ p s
  | reinit => exact yields_ifFree fun h => keeps_reinitOp _ (main_ne_reinit h)
  | mainPoll => exact yields_ifFree fun h => keeps_mainPoll _ (main_ne_reinit h)

end Sys2Proof.Machine
end

section
/-! Each micro-step keeps the five invariants (10_state.md R23 to R25, R43 to R56), and so does every step: the theorems that settle
O51 to O55. -/

namespace Sys2Proof.Machine

/-! ## Buffers an agent in an operation works on -/

theorem opened_of_valid {s : State} {b : BufId} (h : (s.buf b).valid = true) : s.Opened b := .inl h

theorem opened_of_producer {s : State} {b : BufId} (h : s.agentIdle (producerOf b) = false) : s.Opened b := .inr (.inr (.inr (.inl h)))

theorem opened_of_consumer {s : State} {b : BufId} (h : s.agentIdle (consumerOf b) = false) : s.Opened b := .inr (.inr (.inr (.inr h)))

theorem opened_ep {s : State} {t : TickOp} (hs : s.tick = t) (ht : t ≠ .idle) (ch : Chan) : s.Opened (epOf ch) :=
  opened_of_consumer <| by cases ch <;> exact beq_eq_false_iff_ne.mpr (hs ▸ ht)

theorem opened_mid {s : State} {t : TickOp} (hs : s.tick = t) (ht : t ≠ .idle) (ch : Chan) : s.Opened (midOf ch) :=
  opened_of_producer <| by cases ch <;> exact beq_eq_false_iff_ne.mpr (hs ▸ ht)

theorem opened_pollb {s : State} {p : PollOp} (hs : s.poll = p) (hp : p ≠ .idle) {b : BufId}
    (hb : consumerOf b = .pollb) : s.Opened b :=
  opened_of_consumer <| by rw [hb]; exact beq_eq_false_iff_ne.mpr (hs ▸ hp)

theorem opened_usbcb {s : State} {u : UsbOp} (hs : s.usb = u) (hu : u ≠ .idle) {b : BufId}
    (hb : producerOf b = .usbcb) : s.Opened b :=
  opened_of_producer <| by rw [hb]; exact beq_eq_false_iff_ne.mpr (hs ▸ hu)

/-! ## A write or a read issued on its own (R141, R142) -/

theorem keeps_prodMicro (c : Config) (b : BufId) (s : State) : Gives (Keeps c s) (prodMicro b s) := by
  simp only [prodMicro]
  split
  · next op hop =>
    split_ifs
    · exact keeps_writeMicro (.inr (.inl (by simp [hop]))) (fun hnone => absurd (hop.symm.trans hnone) (by simp)) (.respond c s _ _)
        fun q _ => .respond c _ _ _
    · exact .refl c s
  · exact .refl c s

theorem keeps_consMicro (c : Config) (b : BufId) (s : State) : Gives (Keeps c s) (consMicro b s) := by
  simp only [consMicro]
  split
  · next op hop =>
    split_ifs
    · exact keeps_readMicro (.inr (.inr (.inl (by simp [hop])))) (.respond c s _ _) fun _ _ => .respond c _ _ _
    · exact .refl c s
  · exact .refl c s

theorem keeps_writeStart (c : Config) (b : BufId) (xs : List Sample) (s : State) : Yields (Keeps c s) (writeStart b xs s) :=
  yields_needsValid fun hv => by
    split_ifs with hfree
    · simp only [State.producerFree, Bool.and_eq_true] at hfree
      exact yields_stateOutcome (keeps_writeMicro (opened_of_valid hv) (fun _ => TickOp.allows_idle hfree.2 _) (.respond c s _ _)
        fun q _ => .respond c _ _ _)
    · trivial

theorem keeps_readStart (c : Config) (b : BufId) (n : Nat) (few : Result) (s : State) :
    Yields (Keeps c s) (readStart b n few s) :=
  yields_needsValid fun hv => by
    split_ifs
    · exact yields_stateOutcome (keeps_readMicro (opened_of_valid hv) (.respond c s _ _) fun _ _ => .respond c _ _ _)
    · trivial

/-! ## USBCB (R190) -/

theorem TickOp.allows_ep (t : TickOp) {b : BufId} (h : producerOf b = .usbcb) (p : Option ProdOp) : t.allows b p := fun hb =>
  absurd (h.symm.trans hb) (by simp)

theorem keeps_usbStart (c : Config) (frames : List PcmFrame) (s : State) : Yields (Keeps c s) (usbStart frames s) := by
  simp only [usbStart]
  split
  · exact .respond c s _ _
  · split
    · trivial
    · exact yields_needsValid fun hv => yields_needsLocked (Keeps.usbStart c _ _ (Bool.and_eq_true_iff.mp hv))

theorem keeps_usbMicro (c : Config) (s : State) : Gives (Keeps c s) (usbMicro c s) := by
  simp only [usbMicro]
  split
  case h_1 => exact .refl c s
  case h_2 hs => exact Keeps.usbGo c hs nofun nofun
  case h_3 d fs free0 hs =>
    split_ifs
    · exact (Keeps.pcmFree c s _).trans (Keeps.usbGo c (s := s.sampled c fs) hs nofun nofun)
    · exact Keeps.usbEnd c _ s
  case h_4 s0 s1 hs =>
    refine keeps_writeMicro (opened_usbcb hs nofun rfl) (fun _ => TickOp.allows_ep _ rfl _) (.usbEnd c _ s) fun q _ => ?_
    rcases c.nch_range with hc | hc
    · rw [Config.ifTwo_one hc]
      exact .usbEnd c _ _
    · rw [Config.ifTwo_two hc]
      exact Keeps.usbGo c (s := s.setBuf .ep0 q) hs nofun nofun
  case h_5 s1 hs =>
    exact keeps_writeMicro (opened_usbcb hs nofun rfl) (fun _ => TickOp.allows_ep _ rfl _) (.usbEnd c _ s)
      fun q _ => .usbEnd c _ _

/-! ## TICKA (R195, R196) -/

/-- From a place where no write is in flight `TICKA` goes on to another such place. -/
theorem Keeps.tickGo (c : Config) {s : State} {t t' : TickOp} (hs : s.tick = t) (ht : t ≠ .idle)
    (hw : t.writesOk s.rb → t'.writesOk s.rb) : Keeps c s { s with tick := t' } :=
  .tick c (.inl (hs ▸ ht)) (hs.symm ▸ hw)

/-- The registers are read where the tick stands before them, or before it begins (R195). -/
theorem keeps_tickRegs (c : Config) {s : State} (hv : s.tick ≠ .idle ∨ s.allValid = true)
    (hw : s.tick.writesOk s.rb → TickOp.regs.writesOk s.rb) : Gives (Keeps c s) (tickRegs s) := by
  simp only [tickRegs]
  split
  · exact Keeps.tick c hv hw
  · trivial

/-- What follows the write of a channel's outputs, none being in flight then (R195). -/
theorem Keeps.tickNext (c : Config) {s : State} {ch : Chan} {e : EngRegs} {n : Nat} {x : List Sample} (hs : s.tick = .write ch e n x)
    (hp : (s.buf (midOf ch)).prodOp = none) : Keeps c s (tickNext c ch e n s) := by
  cases ch with
  | c0 =>
    simp only [Machine.tickNext]
    rcases c.nch_range with hc | hc
    · rw [Config.ifTwo_one hc]
      exact .tickEnd c _ _ s
    · rw [Config.ifTwo_two hc]
      exact Keeps.tickGo c hs nofun fun h => ⟨hp, h.2⟩
  | c1 => exact .tickEnd c _ _ s

/-- The outputs of a channel replace the empty list its write was checked with (R195). -/
theorem Keeps.supply (c : Config) {s : State} {ch : Chan} {e : EngRegs} {n : Nat} {x y : List Sample} (hs : s.tick = .write ch e n x)
    (hy : y.length = x.length * e.r.toNat) (hph : ∀ op ∈ (s.buf (midOf ch)).prodOp, op.phase = .checked) :
    Keeps c s (s.setBuf (midOf ch) ((s.buf (midOf ch)).supply y)) :=
  .setBuf c fun h => by
    have hv := h.valid (opened_mid hs nofun ch)
    obtain ⟨hinv, _, ha⟩ := h
    rw [hs] at ha ⊢
    refine ⟨id, Inv.supply hv hinv fun op hop => (ha.own op hop (hph op hop) ▸ hy).le, fun _ => ?_⟩
    refine .inr (.inr ⟨ch, e, n, x, rfl, rfl, fun op hop _ => ?_⟩)
    simp only [RingBuffer.supply, Option.mem_def, Option.map_eq_some_iff] at hop
    obtain ⟨_, _, rfl⟩ := hop
    exact hy

/-- A write of the outputs of the channel the tick is writing. -/
theorem keeps_tickOutputs (c : Config) {s : State} {ch : Chan} {e : EngRegs} {n : Nat} {x y : List Sample}
    (hs : s.tick = .write ch e n x) (hy : (s.buf (midOf ch)).prodOp = none → y.length = x.length * e.r.toNat) :
    Gives (Keeps c s) (s.writeMicro (midOf ch) y (tickEnd .bufferFull []) (tickNext c ch e n)) := by
  refine keeps_writeMicro (opened_mid hs nofun ch) (fun hnone _ => ?_) (.tickEnd c _ _ s) fun q hq => ?_
  · refine .inr (.inr ⟨ch, e, n, x, hs, rfl, fun op hop _ => ?_⟩)
    cases Option.some.inj hop
    exact hy hnone
  · exact .tickNext c (s := s.setBuf (midOf ch) q) hs (by rw [buf_setBuf_same]; exact hq)

theorem keeps_tickCopy (c : Config) {s : State} {ch : Chan} {e : EngRegs} {n : Nat} {x : List Sample} (hs : s.tick = .write ch e n x)
    (hph : ∀ op ∈ (s.buf (midOf ch)).prodOp, op.phase = .checked) : Gives (Keeps c s) (tickCopy c ch e n x s) := by
  simp only [tickCopy]
  split
  · next y s' hchain =>
    obtain ⟨hy, d, hd, hs'⟩ := runChain1_spec hchain
    have hchained : Keeps c s s' := hs' ▸ .chain1 hd
    have htick : s'.tick = .write ch e n x := by rw [hs']; exact hs
    have hsupplied := Keeps.supply c htick hy (by rw [hs']; exact hph)
    have hwritten := keeps_tickOutputs c (s := s'.setBuf (midOf ch) ((s'.buf (midOf ch)).supply y)) htick fun _ => hy
    exact gives_of fun t ht => (hchained.trans hsupplied).trans (hwritten.of_ok ht)
  · trivial

theorem keeps_tickWrite (c : Config) {s : State} {ch : Chan} {e : EngRegs} {n : Nat} {x : List Sample}
    (hs : s.tick = .write ch e n x) : Gives (Keeps c s) (tickWrite c ch e n x s) := by
  simp only [tickWrite]
  split
  · next hnone =>
    split_ifs with hfit hm
    · refine Keeps.setBuf c fun h => ?_
      have hv := h.valid (opened_mid hs nofun ch)
      refine ⟨id, Inv.reserve hv h.1 hfit, fun _ => .inr (.inr ⟨ch, e, n, x, hs, rfl, fun op hop _ => ?_⟩)⟩
      cases Option.some.inj hop
      rfl
    · exact keeps_tickCopy c hs (by simp [hnone])
    · exact Keeps.tickEnd c _ _ s
  · next hop => exact keeps_tickCopy c hs fun op h => by cases hop.symm.trans h; rfl
  · next hop => exact keeps_tickOutputs c hs fun hnone => absurd (hop.symm.trans hnone) (by simp)

theorem keeps_tickMicro (c : Config) (s : State) : Gives (Keeps c s) (tickMicro c s) := by
  simp only [tickMicro]
  split
  case h_1 => exact .refl c s
  case h_2 hs => exact (Keeps.ctlUpdate c s).trans (.tickGo c hs nofun id)
  case h_3 hs => exact keeps_tickRegs c (.inl (by simp [hs])) (by rw [hs]; exact id)
  case h_4 hs => exact Keeps.tickGo c hs nofun id
  case h_5 hs =>
    split_ifs
    · exact Keeps.tickEnd c _ _ s
    · exact Keeps.tickGo c hs nofun id
  case h_6 hs => exact Keeps.tickGo c hs nofun id
  case h_7 hs =>
    split_ifs
    · exact Keeps.tickGo c hs nofun id
    · exact Keeps.tickEnd c _ _ s
  case h_8 ch e n hs =>
    refine keeps_readMicro (opened_ep hs nofun ch) (.tickEnd c _ _ s) fun x q => ?_
    refine Keeps.tickGo c (s := s.setBuf (epOf ch) q) hs nofun fun h => ?_
    obtain ⟨h0, h1⟩ := h
    cases ch with
    | c0 => exact ⟨fun op hop => absurd (h0.symm.trans hop) (by simp), h1⟩
    | c1 => exact ⟨fun op hop => absurd (h1.symm.trans hop) (by simp), h0⟩
  case h_9 hs => exact keeps_tickWrite c hs

/-- Nothing is in flight on the MID buffers when `TICKA` may start (R87). -/
theorem writesOk_of_free {s : State} (h : s.tickaBlocked = none) : TickOp.regs.writesOk s.rb := by
  obtain ⟨_, _, _, h0, h1⟩ := tickaBlocked_eq_none h
  exact ⟨h0, h1⟩

theorem keeps_engStart (c : Config) {s : State} (h : s.tickaBlocked = none) : Yields (Keeps c s) (engStart s) :=
  yields_needsValid fun hv => yields_needsLocked <| yields_stateOutcome <| keeps_tickRegs c (.inr hv) fun _ => writesOk_of_free h

theorem keeps_tickStart (c : Config) (s : State) : Yields (Keeps c s) (tickStart c s) := by
  simp only [tickStart]
  split
  · refine yields_afterBoot <| yields_ifFree fun hfree => yields_needsValid fun hv => yields_needsLocked ?_
    split
    · next v hreq =>
      split
      · next s' hvol =>
        obtain ⟨hrb, _⟩ := volUpdate_keeps hvol
        refine ((keeps_volUpdate hreq).of_ok hvol).trans (.tick c (.inr ?_) fun _ => ?_)
        · simpa only [State.allValid, hrb] using hv
        · rw [hrb]
          exact writesOk_of_free hfree
      · trivial
    · trivial
  · exact .refl c s

/-! ## POLLB (R247) -/

theorem keeps_pollStart (c : Config) (s : State) : Yields (Keeps c s) (pollStart s) := by
  simp only [pollStart]
  split
  · exact .respond c s _ _
  · next hb =>
    exact yields_needsValid fun hv =>
      yields_needsLocked (Keeps.pollStart c (Bool.eq_false_iff.mpr hb) (Bool.and_eq_true_iff.mp hv))

/-- After its first read a poll goes on with a slot free (R232). -/
theorem Keeps.pollNext (c : Config) {s : State} {m : Nat} (hs : s.poll = .read0 m) (x0 : List Sample) :
    Keeps c s (pollNext c m x0 s) := by
  rcases c.nch_range with hc | hc
  · simp only [Machine.pollNext, Config.ifTwo_one hc]
    exact .pollGo c hs nofun nofun fun _ h => h
  · simp only [Machine.pollNext, Config.ifTwo_two hc]
    exact .pollGo c hs nofun nofun fun _ h => h

theorem keeps_pollRead0 (c : Config) {s : State} {m : Nat} (hs : s.poll = .read0 m) :
    Gives (Keeps c s) (s.readMicro .mid0 m (pollEnd .insufficientData []) (pollNext c m)) :=
  keeps_readMicro (opened_pollb hs nofun rfl) (.pollEnd c _ _ s) fun x0 q => .pollNext c (s := s.setBuf .mid0 q) hs x0

theorem keeps_pollActMicro (c : Config) (r : Ratio2) {occ q : Nat} {s : State} (hs : s.poll = .act occ q) :
    Gives (Keeps c s) (pollActMicro c r occ q s) := by
  simp only [pollActMicro]
  split
  · next ha =>
    have hgo : Keeps c s { s with poll := .read0 (renderSize c occ r) } := .pollGo c hs nofun nofun fun _ h =>
      h.1.trans_lt (Nat.lt_of_le_of_ne h.2 (pollChoice_rendered ha))
    exact gives_of fun t ht => hgo.trans ((keeps_pollRead0 c (s := { s with poll := .read0 _ }) rfl).of_ok ht)
  · exact (Keeps.pollPlain c _ s).trans (.pollEnd c _ _ _)

theorem keeps_pollMicro (c : Config) (s : State) : Gives (Keeps c s) (pollMicro c s) := by
  simp only [pollMicro]
  split
  case h_1 => exact .refl c s
  case h_2 hs => exact Keeps.pollGo c hs nofun nofun fun _ _ => trivial
  case h_3 hs => exact Keeps.pollGo c hs nofun nofun fun _ _ => trivial
  case h_4 hs => exact Keeps.pollGo c hs nofun nofun fun hcnt _ => ⟨le_rfl, hcnt⟩
  case h_5 hs =>
    split
    · exact keeps_pollActMicro c _ hs
    · trivial
  case h_6 hs => exact keeps_pollRead0 c hs
  case h_7 m x0 hs =>
    refine keeps_readMicro (opened_pollb hs nofun rfl) (.pollEnd c _ _ s) fun x1 q => ?_
    exact Keeps.pollGo c (s := s.setBuf .mid1 q) hs nofun nofun fun _ h => h
  case h_8 m x0 x1 hs =>
    split
    · split
      · next s' hrender =>
        obtain ⟨d, ws, sl, hchain, hf, rfl⟩ := renderInto_ok hrender
        exact hchain.trans (Keeps.pollQueued (s := { s with d2 := d }) hs hf _ _)
      · trivial
    · trivial

/-! ## MAINA and HOSTFB (R272, R352) -/

theorem keeps_mainMicro (c : Config) (s : State) : Gives (Keeps c s) (mainMicro c s) := by
  simp only [mainMicro]
  split
  · split
    case h_1 => exact .refl c s
    case h_2 hm =>
      have hne : ∀ vs, s.main ≠ .reinit vs := by simp [hm]
      split_ifs
      · exact Keeps.reinitBegin c hne [1]
      · exact (Keeps.main c hne .idle).trans (.mainRelease c _)
    case h_3 vs hm =>
      split
      · next k hk =>
        split_ifs with he
        · exact keeps_reinitStep c hk hm he
        · exact .refl c s
      · exact .refl c s
  · exact .refl c s

theorem keeps_reinitStart (c : Config) {s : State} (hm : ∀ vs, s.main ≠ .reinit vs) : Yields (Keeps c s) (reinitStart c s) :=
  yields_needsValid fun _ => by
    split_ifs
    · exact yields_stateOutcome <| gives_of fun _ h => (Keeps.reinitBegin c hm []).trans ((keeps_mainMicro c _).of_ok h)
    · exact .refl c s

theorem keeps_mainStart (c : Config) {s : State} (hm : ∀ vs, s.main ≠ .reinit vs) : Yields (Keeps c s) (mainStart c s) := by
  simp only [mainStart]
  split_ifs
  · exact yields_stateOutcome <| gives_of fun _ h => (Keeps.main c hm .poll).trans ((keeps_mainMicro c _).of_ok h)
  · exact .refl c s
  · exact .respond c s _ _

theorem Keeps.host (c : Config) (s : State) (p : HostOp) : Keeps c s { s with host := p } := ⟨id, id, id, id, id⟩

theorem keeps_hostMicro (c : Config) (s : State) : Gives (Keeps c s) (hostMicro c s) := by
  simp only [hostMicro]
  split
  · exact .refl c s
  · split
    · exact Keeps.host c s _
    · trivial
  · split
    · exact (Keeps.host c s .idle).thenRespond _ _
    · trivial

/-- The completion interrupt in a schedule: no step while it is masked or nothing is pending (R241, R298). -/
theorem keeps_dmaStart (c : Config) (s : State) :
    Yields (Keeps c s) (if s.dmaPend && !s.irqMask then OpRes.outcome (.ok (dmaService c s)) else .next s) := by
  split_ifs with h
  · rw [Bool.and_eq_true] at h
    exact yields_outcome (r := .ok _) (Keeps.dmaService c h.1)
  · exact .refl c s

/-! ## Every micro-step and every step -/

/-- The first micro-step of an operation keeps the invariants. -/
theorem keeps_startOp (c : Config) (i : Instr) (s : State) : Yields (Keeps c s) (startOp c i s) := by
  cases i with
  | rbInit b mode capacity => exact keeps_rbInit c b mode capacity s
  | rbClear | fltClear | fltRun => trivial
  | rbIsFull b => exact yields_needsValid fun _ => keeps_onValid_ok c b s fun q => [if q.cnt = q.cap then 1 else 0]
  | rbUsed b => exact yields_needsValid fun _ => keeps_onValid_ok c b s fun q => [countWord q.cnt]
  | rbRemain b => exact yields_needsValid fun _ => keeps_onValid_ok c b s fun q => [countWord q.free]
  | rbWrite1 b x => exact keeps_writeStart c b [x] s
  | rbRead1 b => exact keeps_readStart c b 1 _ s
  | rbWriteN b xs => exact keeps_writeStart c b xs s
  | rbReadN b n => exact keeps_readStart c b n _ s
  | usbPush frames => exact yields_afterBoot (yields_ifFree fun _ => keeps_usbStart c frames s)
  | engRun => exact yields_afterBoot (yields_ifFree fun h => keeps_engStart c h)
  | tick => exact keeps_tickStart c s
  | ctlAdj => exact yields_afterBoot (yields_ifFree fun _ => yields_needsValid fun _ => keeps_ctlAdj c s)
  | fbReport => exact yields_afterBoot (yields_ifFree fun _ => yields_needsValid fun _ => Keeps.host c s _)
  | volSmooth => exact yields_afterBoot (yields_ifFree fun _ => yields_needsValue (keeps_volSmooth c s))
  | txPoll => exact yields_afterBoot (yields_ifFree fun _ => keeps_pollStart c s)
  | dmaDone => exact keeps_dmaStart c s
  | setRate rate => exact keeps_setRate c c rate s
  | setDepth d => exact keeps_setDepth c d s
  | setVol code => exact keeps_setVol c code s
  | setMute m => exact keeps_setMute c m s
  | setPower p => exact keeps_setPower c p s
  | reinit => exact yields_ifFree fun h => keeps_reinitStart c (main_ne_reinit h)
  | mainPoll => exact yields_ifFree fun h => keeps_mainStart c (main_ne_reinit h)

theorem keeps_agentMicro (c : Config) (a : Agent) (s : State) : Gives (Keeps c s) (agentMicro c a s) := by
  cases a with
  | usbcb => exact keeps_usbMicro c s
  | ticka => exact keeps_tickMicro c s
  | maina => exact keeps_mainMicro c s
  | pollb => exact keeps_pollMicro c s
  | hostfb => exact keeps_hostMicro c s
  | boot | ctrl | pwr | dmairq => exact .refl c s

/-- One element of an interleaving keeps the invariants. -/
theorem keeps_microOp (c : Config) (e : Event) (s : State) : Yields (Keeps c s) (microOp c e s) := by
  cases e with
  | start i => exact keeps_startOp c i s
  | agent a => exact yields_stateOutcome (keeps_agentMicro c a s)
  | prod b => exact yields_stateOutcome (keeps_prodMicro c b s)
  | cons b => exact yields_stateOutcome (keeps_consMicro c b s)
  | dmaComplete => exact Keeps.dmaComplete c s

theorem Yields.after {c : Config} {s s' : State} {o : Host.Outcome State Fault Refusal} (h : Keeps c s s')
    (ho : Yields (Keeps c s') o) : Yields (Keeps c s) o := by
  cases o with
  | next t => exact h.trans ho
  | fault f => trivial
  | refused r => trivial

theorem Keeps.stream (c : Config) (s : State) (ws : List Word) : Keeps c s { s with stream := ws } := ⟨id, id, id, id, id⟩

theorem Keeps.schedule (c : Config) (s : State) (es : List Event) : Keeps c s { s with schedule := es } := ⟨id, id, id, id, id⟩

theorem keeps_command (s : State) : Yields (Keeps Config.current s) (command s) := by
  simp only [command]
  split
  · next i rest _ => exact (exec_keeps i { s with stream := rest }).after (.stream _ s rest)
  · exact .refl _ s
  · exact .respond _ s _ _
  all_goals exact (Keeps.stream _ s _).thenRespond _ _

/-- Every step, command or micro-step, keeps the five invariants. -/
theorem keeps_step (s : State) : Yields (Keeps Config.current s) (step s) := by
  simp only [step]
  split
  · next e es _ => exact (keeps_microOp _ e { s with schedule := es }).after (.schedule _ s es)
  · exact keeps_command s

/-- Settles O51: the phases of a write and of a read keep each buffer's invariant, every other change leaves the buffers alone or
moves an agent to a place where its buffers are initialised. -/
theorem stepKeepsBuffers : Obligations.StepKeepsBuffers := fun s _ h hstep => ((keeps_step s).of_next hstep).buffers h

/-- Settles O52: only a render, the completion interrupt and the two zeroings write the queue. -/
theorem stepKeepsQueue : Obligations.StepKeepsQueue := fun s _ h hstep => ((keeps_step s).of_next hstep).queue h

/-- Settles O53: the busy bits move with the agents, and the steps of REINIT follow one another. -/
theorem stepKeepsSequencing : Obligations.StepKeepsSequencing := fun s _ h hstep => ((keeps_step s).of_next hstep).sequencing h

/-- Settles O54: the controller gives a sign, the volume a legal code and a saturated gain, REINIT the ratios of what it latches. -/
theorem stepKeepsControlRegisters : Obligations.StepKeepsControlRegisters := fun s _ h hstep =>
  ((keeps_step s).of_next hstep).control h

/-- Settles O55: the chains and `FLT.CLEAR` keep the lengths, and nothing else writes a delay array. -/
theorem stepKeepsDelayLengths : Obligations.StepKeepsDelayLengths := fun s _ h hstep => ((keeps_step s).of_next hstep).delays h

end Sys2Proof.Machine
end

section
/-! SUPPORT for O50. What an operation answers where a register it reads holds no value: the command `NotInitialised`, the start of an
agent's operation a refusal before boot has ended, and every micro-step that reads the register a fault (60_exceptions.md R297;
70_reset_and_hazards.md R332; log entries 12, 22, 33). -/

namespace Sys2Proof.Machine

/-! ## The commands -/

theorem engRun_missing {c : Config} {s : State} (h : s.fCur = none ∨ s.r1 = none ∨ s.allValid = false) :
    engRun c s = .ok ⟨s, .notInitialised, []⟩ := by
  simp only [engRun]
  split
  · next hf hr =>
    have hv : s.allValid = false := by simpa only [hf, hr, reduceCtorEq, false_or] using h
    simp only [hv, Bool.false_eq_true, if_false]
  · rfl

theorem tickBody_missing {c : Config} {s : State} (h : s.volReq = none ∨ s.fCur = none ∨ s.r1 = none ∨ s.allValid = false) :
    tickBody c s = .ok ⟨s, .notInitialised, []⟩ := by
  simp only [tickBody]
  split
  · next hq hf hr =>
    have hv : s.allValid = false := by simpa only [hq, hf, hr, reduceCtorEq, false_or] using h
    simp only [hv, Bool.false_eq_true, if_false]
  · rfl

theorem txPoll_missing {c : Config} {s : State} (hb : s.reinitBusy = false)
    (h : s.r2 = none ∨ s.rb.mid0.valid = false ∨ s.rb.mid1.valid = false) : txPoll c s = .ok ⟨s, .notInitialised, []⟩ := by
  simp only [txPoll, hb, Bool.false_eq_true, if_false]
  split
  · rfl
  · next hr =>
    have hv : (s.rb.mid0.valid && s.rb.mid1.valid) = false := by
      simpa only [hr, reduceCtorEq, false_or, Bool.and_eq_false_iff] using h
    simp only [hv, Bool.false_eq_true, if_false]

/-- A timer interrupt that may start is the body of the tick. -/
theorem exec_tick_free {s : State} (ht : s.timerEnabled = true) (hfree : s.tickaBlocked = none) :
    exec .tick s = (tickBody Config.current s).outcome := by
  have hidle := (tickaBlocked_eq_none hfree).1
  simp only [exec, execTick, tickOp, ht, hidle, hfree, ifFree, beq_self_eq_true, Bool.and_self, if_true]

theorem exec_ctlAdj_missing {s : State} (hidle : s.tick = .idle) (hv : s.rb.mid0.valid = false) :
    exec .ctlAdj s = .next (s.respond .notInitialised []) := by
  simp only [exec, execCtlAdj, hidle, bne_self_eq_false, ifFree, hv, Bool.false_eq_true, if_false, State.raise]

/-! ## The start of an agent's operation -/

theorem tickStart_before {c : Config} {s : State} (hb : s.booted = false) (ht : s.timerEnabled = true) (hidle : s.tick = .idle) :
    tickStart c s = .refused .notInitialised := by
  simp only [tickStart, ht, hidle, beq_self_eq_true, Bool.and_self, if_true, afterBoot_before hb]

theorem usbStart_missing {s : State} (frames : List PcmFrame) (hr : s.reinitBusy = false) (hd : s.depth = none) :
    usbStart frames s = .fault .noValue := by
  simp only [usbStart, hr, hd, Bool.false_eq_true, if_false]

theorem tickRegs_missing {s : State} (h : s.fCur = none ∨ s.r1 = none) : tickRegs s = .error .noValue := by
  simp only [tickRegs]
  split
  · next hf hr => simp only [hf, hr, reduceCtorEq, or_self] at h
  · rfl

theorem engStart_missing {s : State} (hv : s.allValid = true) (hl : s.allLocked = true) (h : s.fCur = none ∨ s.r1 = none) :
    engStart s = .fault .noValue := by
  simp only [engStart, hv, hl, needsValid_true, needsLocked_true, tickRegs_missing h, stateOutcome]

theorem tickStart_missing {c : Config} {s : State} (hb : s.booted = true) (hfree : s.tickaBlocked = none) (hv : s.allValid = true)
    (hl : s.allLocked = true) (ht : s.timerEnabled = true) (hq : s.volReq = none) : tickStart c s = .fault .noValue := by
  have hidle := (tickaBlocked_eq_none hfree).1
  simp only [tickStart, ht, hidle, beq_self_eq_true, Bool.and_self, if_true, afterBoot_booted hb, hfree, ifFree, hv, hl,
    needsValid_true, needsLocked_true, hq]

theorem volStart_missing {c : Config} {s : State} (hq : s.volReq = none) : volStart c s = .fault .noValue := by
  simp only [volStart, hq, Option.isSome_none, needsValue_false]

/-- Before boot has ended the operations of `USBCB`, `TICKA`, `POLLB` and `HOSTFB` do not start (R332, R335, log entry 33). -/
theorem micro_start_before {s : State} (hb : s.booted = false) (frames : List PcmFrame) :
    ∀ i ∈ [Instr.usbPush frames, .engRun, .ctlAdj, .volSmooth, .txPoll, .fbReport],
      micro (.start i) s = .refused .notInitialised := by
  simp only [List.forall_mem_cons, micro, microOp, startOp, afterBoot_before hb, true_and]
  exact List.forall_mem_nil _

/-! ## The micro-steps that read a register -/

theorem tickMicro_missing {c : Config} {s : State} (hat : s.tick = .regs) (h : s.fCur = none ∨ s.r1 = none) :
    tickMicro c s = .error .noValue := by
  simp only [tickMicro, hat, tickRegs_missing h]

theorem pollMicro_act_missing {c : Config} {s : State} {occ q : Nat} (hat : s.poll = .act occ q) (h : s.r2 = none) :
    pollMicro c s = .error .noValue := by
  simp only [pollMicro, hat, h]

theorem pollMicro_enqueue_missing {c : Config} {s : State} {m : Nat} {x0 x1 : List Sample} (hat : s.poll = .enqueue m x0 x1)
    (h : s.r2 = none) : pollMicro c s = .error .noValue := by
  simp only [pollMicro, hat, h]

theorem hostMicro_readF_missing {c : Config} {s : State} {cap occ : Nat} (hat : s.host = .readF cap occ) (h : s.fCur = none) :
    hostMicro c s = .error .noValue := by
  simp only [hostMicro, hat, h]

theorem hostMicro_readR1_missing {c : Config} {s : State} {cap occ : Nat} {f : Rate} (hat : s.host = .readR1 cap occ f)
    (h : s.r1 = none) : hostMicro c s = .error .noValue := by
  simp only [hostMicro, hat, h]

/-- A micro-step of an agent that faults makes the element of the schedule fault. -/
theorem micro_agent_fault {a : Agent} {s : State} {f : Fault} (h : agentMicro Config.current a s = .error f) :
    micro (.agent a) s = .fault f := by
  simp only [micro, microOp, h, stateOutcome]

/-- Settles O50, clause by clause: four commands, the starts before boot, the starts after it, the micro-steps. -/
theorem unwrittenRegisterNotInitialised : Obligations.UnwrittenRegisterNotInitialised := by
  intro s
  refine ⟨fun hfree h => ?_, fun ht hfree h => ?_, exec_ctlAdj_missing, fun hb hfree h => ?_,
    fun frames hb => ⟨micro_start_before hb frames, tickStart_before hb⟩, fun hb => ⟨fun frames hfree hr hd => ?_,
      fun hfree hv hl => ⟨fun h => ?_, tickStart_missing hb hfree hv hl⟩, fun hidle hq => ?_⟩,
    fun hat h => micro_agent_fault (tickMicro_missing hat h), fun _ _ hat h => micro_agent_fault (pollMicro_act_missing hat h),
    fun _ _ _ hat h => micro_agent_fault (pollMicro_enqueue_missing hat h),
    fun _ _ hat h => micro_agent_fault (hostMicro_readF_missing hat h),
    fun _ _ _ hat h => micro_agent_fault (hostMicro_readR1_missing hat h)⟩
  · simp only [exec, execEngRun, hfree, ifFree, engRun_missing h, OpRes.outcome]
  · rw [exec_tick_free ht hfree, tickBody_missing h, OpRes.outcome]
  · simp only [exec, execTxPoll, hfree, ifFree, txPoll_missing hb h, OpRes.outcome]
  · simp only [micro, microOp, startOp, afterBoot_booted hb, hfree, ifFree, usbStart_missing frames hr hd]
  · simp only [micro, microOp, startOp, afterBoot_booted hb, hfree, ifFree, engStart_missing hv hl h]
  · simp only [micro, microOp, startOp, afterBoot_booted hb, hidle, bne_self_eq_false, busy, Bool.false_eq_true, if_false, ifFree,
      volStart_missing hq]

end Sys2Proof.Machine
end

section
/-! U1, R87: an operation on a ring buffer that the ownership of R312 or R341 gives to nobody is refused; R80, R83: a publish phase that
finds the lock held waits. -/

namespace Sys2Proof.Machine

/-! ## A busy producer or consumer (R87) -/

theorem producerFree_eq_false {s : State} {b : BufId} (h : (s.buf b).prodOp ≠ none ∨ s.agentIdle (producerOf b) = false) :
    s.producerFree b = false := by
  simpa only [State.producerFree, Bool.and_eq_false_iff, Option.isNone_eq_false_iff, Option.isSome_iff_ne_none] using h

theorem consumerFree_eq_false {s : State} {b : BufId} (h : (s.buf b).consOp ≠ none ∨ s.agentIdle (consumerOf b) = false) :
    s.consumerFree b = false := by
  simpa only [State.consumerFree, Bool.and_eq_false_iff, Option.isNone_eq_false_iff, Option.isSome_iff_ne_none] using h

theorem writeOp_busy {s : State} {b : BufId} (hv : (s.buf b).valid = true) (hf : s.producerFree b = false) (xs : List Sample) :
    s.writeOp b xs = .refused .secondProducer := by
  simp only [State.writeOp, State.onValid, hv, hf, if_true, Bool.false_eq_true, if_false]

theorem writeStart_busy {s : State} {b : BufId} (hv : (s.buf b).valid = true) (hf : s.producerFree b = false) (xs : List Sample) :
    writeStart b xs s = .refused .secondProducer := by
  simp only [writeStart, hv, needsValid_true, hf, Bool.false_eq_true, if_false]

theorem readOp_busy {s : State} {b : BufId} (hv : (s.buf b).valid = true) (hf : s.consumerFree b = false) (n : Nat) (few : Result) :
    s.readOp b n few = .refused .secondConsumer := by
  simp only [State.readOp, State.onValid, hv, hf, if_true, Bool.false_eq_true, if_false]

theorem readStart_busy {s : State} {b : BufId} (hv : (s.buf b).valid = true) (hf : s.consumerFree b = false) (n : Nat) (few : Result) :
    readStart b n few s = .refused .secondConsumer := by
  simp only [readStart, hv, needsValid_true, hf, Bool.false_eq_true, if_false]

/-- Settles O15: an operation of one element is that of a list of one; what the ownership table gives to no agent starts nowhere. -/
theorem secondProducerOrConsumerRefused : Obligations.SecondProducerOrConsumerRefused := by
  intro b s x xs n
  refine ⟨fun hv h => ?_, fun hv h => ?_, fun sel flt => ?_⟩
  · have hf := producerFree_eq_false h
    exact List.forall_mem_cons.mpr ⟨⟨writeOp_busy hv hf xs, writeStart_busy hv hf xs⟩,
      List.forall_mem_singleton.mpr ⟨writeOp_busy hv hf [x], writeStart_busy hv hf [x]⟩⟩
  · have hf := consumerFree_eq_false h
    exact List.forall_mem_cons.mpr ⟨⟨readOp_busy hv hf n _, readStart_busy hv hf n _⟩,
      List.forall_mem_singleton.mpr ⟨readOp_busy hv hf 1 _, readStart_busy hv hf 1 _⟩⟩
  · exact List.forall_mem_cons.mpr ⟨rfl, List.forall_mem_cons.mpr ⟨rfl, List.forall_mem_singleton.mpr rfl⟩⟩

/-! ## A held lock (R80, R83) -/

theorem writeStep_held {q : RingBuffer} {a' : Agent} {op : ProdOp} (hm : q.mode = true) (hl : q.lock = .held a')
    (ho : q.prodOp = some op) (hp : op.phase = .copied) (a : Agent) (xs : List Sample) : q.writeStep a xs = .ok .blocked := by
  obtain ⟨n, ys, p⟩ := op
  cases hp
  simp only [RingBuffer.writeStep, ho, RingBuffer.publishIn, critical_held hm hl]

theorem readStep_held {q : RingBuffer} {a' : Agent} {op : ConsOp} (hm : q.mode = true) (hl : q.lock = .held a')
    (ho : q.consOp = some op) (hp : op.phase = .copied) (a : Agent) (n : Nat) : q.readStep a n = .ok .blocked := by
  obtain ⟨k, p, d⟩ := op
  cases hp
  simp only [RingBuffer.readStep, ho, RingBuffer.publishOut, critical_held hm hl]

/-- Settles O18: the critical section of R80 is not enabled, so the micro-step of either side is blocked. -/
theorem heldLockDelaysPublish : Obligations.HeldLockDelaysPublish := by
  intro b s a op rop hm hl
  refine ⟨fun ho hp hi => ?_, fun ho hp hi => ?_⟩
  · have hstep := writeStep_held hm hl ho hp (producerOf b)
    simp only [micro, microOp, prodMicro, ho, hi, if_true, State.writeMicro, hstep, stateOutcome]
  · have hstep := readStep_held hm hl ho hp (consumerOf b)
    simp only [micro, microOp, consMicro, ho, hi, if_true, State.readMicro, hstep, stateOutcome]

end Sys2Proof.Machine
end

section
/-! Encoding (30_encoding.md R100 to R109): the fields of an instruction's command word, the decoder on them in both directions (round
trips), and the command words it refuses by name. -/

namespace Sys2Proof

/-! ## The fields of an instruction (R101, R103, R106, R107) -/

/-- The three fields of a command word and its payload words. -/
structure CommandFields where
  op : Nat
  unit : Nat
  arg : Nat
  payload : List Word

/-- The fields and the payload that `encode` puts together. -/
def Instr.fields : Instr → CommandFields
  | .rbInit b m cap => ⟨0x01, bufUnit b, m.toNat, [cap]⟩
  | .rbClear b => ⟨0x02, bufUnit b, 0, []⟩
  | .rbIsFull b => ⟨0x03, bufUnit b, 0, []⟩
  | .rbUsed b => ⟨0x04, bufUnit b, 0, []⟩
  | .rbRemain b => ⟨0x05, bufUnit b, 0, []⟩
  | .rbWrite1 b x => ⟨0x06, bufUnit b, 0, [x]⟩
  | .rbRead1 b => ⟨0x07, bufUnit b, 0, []⟩
  | .rbWriteN b xs => ⟨0x08, bufUnit b, xs.length, xs⟩
  | .rbReadN b n => ⟨0x09, bufUnit b, n, []⟩
  | .fltClear sel => ⟨0x10, clearUnit sel, 0, []⟩
  | .fltRun sel xs => ⟨0x11, selUnit sel, xs.length, xs⟩
  | .usbPush fs => ⟨0x20, 0, fs.length, frameWords fs⟩
  | .engRun => ⟨0x21, 0, 0, []⟩
  | .tick => ⟨0x22, 0, 0, []⟩
  | .ctlAdj => ⟨0x30, 0, 0, []⟩
  | .fbReport => ⟨0x31, 0, 0, []⟩
  | .volSmooth => ⟨0x32, 0, 0, []⟩
  | .txPoll => ⟨0x40, 0, 0, []⟩
  | .dmaDone => ⟨0x41, 0, 0, []⟩
  | .setRate rate => ⟨0x50, 0, 0, [rate]⟩
  | .setDepth d => ⟨0x51, 0, d.toNat, []⟩
  | .setVol v => ⟨0x52, 0, v.toNat, []⟩
  | .setMute m => ⟨0x53, 0, m.toNat, []⟩
  | .setPower p => ⟨0x54, 0, p.toNat, []⟩
  | .reinit => ⟨0x55, 0, 0, []⟩
  | .mainPoll => ⟨0x56, 0, 0, []⟩

theorem encode_eq_fields (i : Instr) :
    encode i = commandWord i.fields.op i.fields.unit i.fields.arg :: i.fields.payload := by
  cases i <;> rfl

theorem Instr.fields_op_lt (i : Instr) : i.fields.op < 256 := by
  cases i <;> simp only [Instr.fields] <;> decide

theorem Instr.fields_unit_lt (i : Instr) : i.fields.unit < 16 := by
  cases i <;> simp only [Instr.fields, bufUnit_lt, selUnit_lt, clearUnit_lt] <;> decide

theorem Instr.fields_arg_lt {nch : Nat} {i : Instr} (h : i.wfFor nch = true) : i.fields.arg < 2 ^ 20 := by
  cases i with
  | rbInit b m cap => exact bool_toNat_lt m
  | rbWriteN b xs => exact of_decide_eq_true h
  | rbReadN b n => exact of_decide_eq_true h
  | fltRun sel xs => exact of_decide_eq_true h
  | usbPush fs => exact of_decide_eq_true (Bool.and_eq_true_iff.mp h).1
  | setDepth d => exact Nat.lt_trans d.isLt (by decide)
  | setVol v => exact Nat.lt_trans v.isLt (by decide)
  | setMute m => exact bool_toNat_lt m
  | setPower p => exact bool_toNat_lt p
  | _ => exact Nat.two_pow_pos 20

/-- The decoder splits an encoding into the fields it was put together from. -/
theorem decodeFor_encode_append {nch : Nat} {i : Instr} (h : i.wfFor nch = true) (ws : List Word) :
    decodeFor nch (encode i ++ ws) =
      decodeFields nch i.fields.op i.fields.unit i.fields.arg (i.fields.payload ++ ws) := by
  have ho := i.fields_op_lt
  have hu := i.fields_unit_lt
  have ha := Instr.fields_arg_lt h
  rw [encode_eq_fields, List.cons_append, decodeFor, opField_commandWord ho hu ha, unitField_commandWord ho hu ha,
    argField_commandWord ho hu ha]

/-! ## When an operand field or a payload is decoded -/

/-- A sequence of two checks answers when both do. -/
theorem except_bind_eq_ok {ε α β : Type} {x : Except ε α} {f : α → Except ε β} {r : β} :
    (x >>= f) = .ok r ↔ ∃ v, x = .ok v ∧ f v = .ok r := by
  cases x with
  | ok v => simp only [bind, Except.bind, Except.ok.injEq, exists_eq_left']
  | error e => simp only [bind, Except.bind, reduceCtorEq, false_and, exists_false]

theorem decodeBuf_eq_ok {u : Nat} {b : BufId} : decodeBuf u = .ok b ↔ u = bufUnit b := by
  constructor
  · intro h
    unfold decodeBuf at h
    split at h <;> cases h <;> rfl
  · rintro rfl
    cases b <;> rfl

theorem decodeSel_eq_ok {u : Nat} {sel : FltSel} : decodeSel u = .ok sel ↔ u = selUnit sel := by
  constructor
  · intro h
    unfold decodeSel at h
    split at h <;> cases h <;> rfl
  · rintro rfl
    obtain ⟨c, ch⟩ := sel
    cases c <;> cases ch <;> rfl

theorem decodeClearSel_eq_ok {u : Nat} {sel : ClearSel} : decodeClearSel u = .ok sel ↔ u = clearUnit sel := by
  constructor
  · intro h
    unfold decodeClearSel at h
    split at h
    · cases h; rfl
    · cases hs : decodeSel u with
      | ok one => rw [hs] at h; cases h; exact decodeSel_eq_ok.mp hs
      | error e => rw [hs] at h; cases h
  · rintro rfl
    cases sel with
    | all => rfl
    | one sel => obtain ⟨c, ch⟩ := sel; cases c <;> cases ch <;> rfl

theorem noUnit_eq_ok {u : Nat} {v : Unit} : noUnit u = .ok v ↔ u = 0 := by
  unfold noUnit; split <;> simp_all

theorem noArg_eq_ok {a : Nat} {v : Unit} : noArg a = .ok v ↔ a = 0 := by
  unfold noArg; split <;> simp_all

theorem decodeFlag_eq_ok {a : Nat} {m : Bool} : decodeFlag a = .ok m ↔ a = m.toNat := by
  constructor
  · intro h
    unfold decodeFlag at h
    split at h
    · have ha : a = 0 ∨ a = 1 := by omega
      obtain rfl | rfl := ha <;> cases h <;> rfl
    · cases h
  · rintro rfl
    cases m <;> rfl

theorem decodeNarrow_eq_ok {n a : Nat} {v : BitVec n} : decodeNarrow n a = .ok v ↔ a = v.toNat := by
  constructor
  · intro h
    unfold decodeNarrow at h
    split at h
    · next ha => cases h; rw [BitVec.toNat_ofNat, Nat.mod_eq_of_lt ha]
    · cases h
  · rintro rfl
    rw [decodeNarrow, if_pos v.isLt, BitVec.ofNat_toNat, BitVec.setWidth_eq]

theorem takeWord_eq_ok {ws rest : List Word} {w : Word} : takeWord ws = .ok (w, rest) ↔ ws = w :: rest := by
  cases ws <;> simp [takeWord]

theorem takeWords_eq_ok {n : Nat} {ws xs rest : List Word} :
    takeWords n ws = .ok (xs, rest) ↔ n = xs.length ∧ ws = xs ++ rest := by
  constructor
  · intro h
    fun_induction takeWords n ws generalizing xs with
    | case1 ws => cases h; exact ⟨rfl, rfl⟩
    | case2 => cases h
    | case3 n w ws p rest' hp ih =>
      cases h
      obtain ⟨rfl, rfl⟩ := ih hp
      exact ⟨rfl, rfl⟩
    | case4 => cases h
  · rintro ⟨rfl, rfl⟩
    exact takeWords_append xs rest

theorem takeFrames_eq_ok {nch k : Nat} {ws rest : List Word} {fs : List PcmFrame} :
    takeFrames nch k ws = .ok (fs, rest) ↔ k = fs.length ∧ (∀ f ∈ fs, f.length = nch) ∧ ws = frameWords fs ++ rest := by
  constructor
  · intro h
    fun_induction takeFrames nch k ws generalizing fs with
    | case1 ws => cases h; exact ⟨rfl, List.forall_mem_nil _, rfl⟩
    | case2 => cases h
    | case3 k ws f ws' hf gs rest' hgs ih =>
      cases h
      obtain ⟨rfl, rfl⟩ := takeWords_eq_ok.mp hf
      obtain ⟨rfl, hlen, rfl⟩ := ih hgs
      exact ⟨rfl, List.forall_mem_cons.mpr ⟨rfl, hlen⟩, (List.append_assoc _ _ _).symm⟩
    | case4 => cases h
  · rintro ⟨rfl, hlen, rfl⟩
    exact takeFrames_append fs rest hlen

theorem onBuf_eq_ok {mk : BufId → Instr} {u a : Nat} {ws rest : List Word} {i : Instr} :
    onBuf mk u a ws = .ok (i, rest) ↔ ∃ b, u = bufUnit b ∧ a = 0 ∧ mk b = i ∧ ws = rest := by
  simp only [onBuf, except_bind_eq_ok, decodeBuf_eq_ok, noArg_eq_ok, Except.ok.injEq, Prod.mk.injEq, exists_const]

theorem plain_eq_ok {j i : Instr} {u a : Nat} {ws rest : List Word} :
    plain j u a ws = .ok (i, rest) ↔ u = 0 ∧ a = 0 ∧ j = i ∧ ws = rest := by
  simp only [plain, except_bind_eq_ok, noUnit_eq_ok, noArg_eq_ok, Except.ok.injEq, Prod.mk.injEq, exists_const]

/-! ## The decoder on fields -/

/-- The fields of a well-formed instruction are decoded to it. -/
theorem decodeFields_fields {nch : Nat} {i : Instr} (h : i.wfFor nch = true) (rest : List Word) :
    decodeFields nch i.fields.op i.fields.unit i.fields.arg (i.fields.payload ++ rest) = .ok (i, rest) := by
  cases i with
  | rbInit b m cap =>
    exact except_bind_eq_ok.mpr ⟨b, decodeBuf_eq_ok.mpr rfl, except_bind_eq_ok.mpr ⟨m, decodeFlag_eq_ok.mpr rfl, rfl⟩⟩
  | rbWrite1 b x => exact except_bind_eq_ok.mpr ⟨b, decodeBuf_eq_ok.mpr rfl, rfl⟩
  | rbWriteN b xs =>
    exact except_bind_eq_ok.mpr ⟨b, decodeBuf_eq_ok.mpr rfl, except_bind_eq_ok.mpr ⟨(xs, rest), takeWords_append xs rest, rfl⟩⟩
  | rbReadN b n => exact except_bind_eq_ok.mpr ⟨b, decodeBuf_eq_ok.mpr rfl, rfl⟩
  | fltClear sel => exact except_bind_eq_ok.mpr ⟨sel, decodeClearSel_eq_ok.mpr rfl, rfl⟩
  | fltRun sel xs =>
    exact except_bind_eq_ok.mpr ⟨sel, decodeSel_eq_ok.mpr rfl, except_bind_eq_ok.mpr ⟨(xs, rest), takeWords_append xs rest, rfl⟩⟩
  | usbPush fs =>
    simp only [Instr.wfFor, Bool.and_eq_true, List.all_eq_true, beq_iff_eq] at h
    exact except_bind_eq_ok.mpr ⟨(), rfl, except_bind_eq_ok.mpr ⟨(fs, rest), takeFrames_append fs rest h.2, rfl⟩⟩
  | setDepth d => exact except_bind_eq_ok.mpr ⟨(), rfl, except_bind_eq_ok.mpr ⟨d, decodeNarrow_eq_ok.mpr rfl, rfl⟩⟩
  | setVol v => exact except_bind_eq_ok.mpr ⟨(), rfl, except_bind_eq_ok.mpr ⟨v, decodeNarrow_eq_ok.mpr rfl, rfl⟩⟩
  | setMute m => exact except_bind_eq_ok.mpr ⟨(), rfl, except_bind_eq_ok.mpr ⟨m, decodeFlag_eq_ok.mpr rfl, rfl⟩⟩
  | setPower p => exact except_bind_eq_ok.mpr ⟨(), rfl, except_bind_eq_ok.mpr ⟨p, decodeFlag_eq_ok.mpr rfl, rfl⟩⟩
  | rbClear b | rbIsFull b | rbUsed b | rbRemain b | rbRead1 b => exact onBuf_eq_ok.mpr ⟨b, rfl, rfl, rfl, rfl⟩
  | _ => rfl

/-- What the decoder answers has the fields it was given, and took its payload from the front of the stream. -/
theorem decodeFields_eq_ok {nch op u a : Nat} {ws rest : List Word} {i : Instr} (ha : a < 2 ^ 20)
    (h : decodeFields nch op u a ws = .ok (i, rest)) :
    i.wfFor nch = true ∧ ∃ p, i.fields = ⟨op, u, a, p⟩ ∧ p ++ rest = ws := by
  unfold decodeFields at h
  split at h
  case h_27 => cases h
  all_goals
    simp only [onBuf_eq_ok, plain_eq_ok, except_bind_eq_ok, decodeBuf_eq_ok, decodeSel_eq_ok, decodeClearSel_eq_ok, noUnit_eq_ok,
      noArg_eq_ok, decodeFlag_eq_ok, decodeNarrow_eq_ok, Prod.exists, takeWord_eq_ok, takeWords_eq_ok, takeFrames_eq_ok,
      Except.ok.injEq, Prod.mk.injEq, exists_const] at h
  -- `RB.INIT`
  case h_1 => obtain ⟨b, rfl, m, rfl, cap, _, rfl, rfl, rfl⟩ := h; exact ⟨rfl, _, rfl, rfl⟩
  -- a buffer and nothing else
  case h_2 | h_3 | h_4 | h_5 | h_7 => obtain ⟨b, rfl, rfl, rfl, rfl⟩ := h; exact ⟨rfl, _, rfl, rfl⟩
  -- `RB.WRITE1`
  case h_6 => obtain ⟨b, rfl, rfl, x, _, rfl, rfl, rfl⟩ := h; exact ⟨rfl, _, rfl, rfl⟩
  -- `RB.WRITEN`, `FLT.RUN`
  case h_8 | h_11 => obtain ⟨_, rfl, xs, _, ⟨rfl, rfl⟩, rfl, rfl⟩ := h; exact ⟨decide_eq_true ha, _, rfl, rfl⟩
  -- `RB.READN`
  case h_9 => obtain ⟨b, rfl, rfl, rfl⟩ := h; exact ⟨decide_eq_true ha, _, rfl, rfl⟩
  -- `FLT.CLEAR`
  case h_10 => obtain ⟨sel, rfl, rfl, rfl, rfl⟩ := h; exact ⟨rfl, _, rfl, rfl⟩
  -- `USB.PUSH`
  case h_12 =>
    obtain ⟨rfl, fs, _, ⟨rfl, hlen, rfl⟩, rfl, rfl⟩ := h
    refine ⟨?_, _, rfl, rfl⟩
    simp only [Instr.wfFor, Bool.and_eq_true, List.all_eq_true, beq_iff_eq]
    exact ⟨decide_eq_true ha, hlen⟩
  -- `SET.RATE`
  case h_20 => obtain ⟨rfl, rfl, rate, _, rfl, rfl, rfl⟩ := h; exact ⟨rfl, _, rfl, rfl⟩
  -- an operand in `arg` and no unit
  case h_21 | h_22 | h_23 | h_24 => obtain ⟨rfl, v, rfl, rfl, rfl⟩ := h; exact ⟨rfl, _, rfl, rfl⟩
  -- no operand
  all_goals obtain ⟨rfl, rfl, rfl, rfl⟩ := h; exact ⟨rfl, _, rfl, rfl⟩

/-- Settles O1: the decoder splits the command word into the instruction's fields, and decodes those to the instruction. -/
theorem decodeOfEncode : Obligations.DecodeOfEncode := fun _ _ rest h =>
  (decodeFor_encode_append h rest).trans (decodeFields_fields h rest)

/-- Settles O2: the command word is put together again from the fields the decoder read. -/
theorem encodeOfDecode : Obligations.EncodeOfDecode := by
  intro c ws i rest h
  cases ws with
  | nil => cases h
  | cons w ws =>
    obtain ⟨hwf, p, hf, rfl⟩ := decodeFields_eq_ok (argField_lt w) h
    refine ⟨hwf, ?_⟩
    rw [encode_eq_fields, hf, commandWord_fields, List.cons_append]

theorem decodeFor_encode {c : Config} {i : Instr} (h : i.wfFor c.nch = true) : decodeFor c.nch (encode i) = .ok (i, []) :=
  List.append_nil (encode i) ▸ decodeOfEncode c i [] h

/-- The words after a command are no part of it (R109). -/
theorem decodeFor_append {c : Config} {i : Instr} {ws rest : List Word} (h : decodeFor c.nch ws = .ok (i, rest)) (ws' : List Word) :
    decodeFor c.nch (ws ++ ws') = .ok (i, rest ++ ws') := by
  obtain ⟨hwf, rfl⟩ := encodeOfDecode c ws i rest h
  rw [List.append_assoc]
  exact decodeOfEncode c i (rest ++ ws') hwf

/-! ## The command words the decoder refuses (R108) -/

/-- The answer refuses the command word itself, whatever follows it. -/
def RefusesWord {α : Type} (x : Except DecodeError α) : Prop :=
  x = .error .reservedOp ∨ x = .error .illegalUnit ∨ x = .error .mustBeZero

/-- The answer takes the command word: only the stream can have been too short. -/
def AcceptsWord {α : Type} (x : Except DecodeError α) : Prop := x = .error .truncatedPayload ∨ ∃ v, x = .ok v

/-- The check of an operand field refuses the word if `P` holds and gives the operand if not. -/
structure OperandCheck {α : Type} (x : Except DecodeError α) (P : Prop) : Prop where
  refuses : P → RefusesWord x
  passes : ¬P → ∃ v, x = .ok v

/-- The decoder refuses the word if `P` holds and accepts it if not. -/
structure WordVerdict {α : Type} (x : Except DecodeError α) (P : Prop) : Prop where
  refuses : P → RefusesWord x
  accepts : ¬P → AcceptsWord x

theorem RefusesWord.bind {α β : Type} {x : Except DecodeError α} (h : RefusesWord x) (f : α → Except DecodeError β) :
    RefusesWord (x >>= f) := by
  obtain rfl | rfl | rfl := h
  · exact .inl rfl
  · exact .inr (.inl rfl)
  · exact .inr (.inr rfl)

theorem RefusesWord.ne_ok {α : Type} {x : Except DecodeError α} (h : RefusesWord x) (v : α) : x ≠ .ok v := by
  rintro rfl
  obtain h | h | h := h <;> cases h

/-- A check before the rest of the decoding: the word is refused by the one or by the other. -/
theorem OperandCheck.bind {α β : Type} {x : Except DecodeError α} {f : α → Except DecodeError β} {P Q : Prop}
    (hx : OperandCheck x P) (hf : ∀ v, WordVerdict (f v) Q) : WordVerdict (x >>= f) (P ∨ Q) := by
  by_cases hP : P
  · exact ⟨fun _ => (hx.refuses hP).bind f, fun h => absurd (.inl hP) h⟩
  · obtain ⟨v, rfl⟩ := hx.passes hP
    exact ⟨fun h => (hf v).refuses (h.resolve_left hP), fun h => (hf v).accepts fun hQ => h (.inr hQ)⟩

theorem AcceptsWord.verdict {α : Type} {x : Except DecodeError α} {Q : Prop} (h : AcceptsWord x) (hQ : ¬Q) : WordVerdict x Q :=
  ⟨fun hq => absurd hq hQ, fun _ => h⟩

/-- The last check of a word. -/
theorem OperandCheck.last {α β : Type} {x : Except DecodeError α} {f : α → Except DecodeError β} {P : Prop}
    (hx : OperandCheck x P) (hf : ∀ v, AcceptsWord (f v)) : WordVerdict (x >>= f) P :=
  or_false P ▸ hx.bind fun v => (hf v).verdict not_false

theorem acceptsWord_ok {α : Type} (v : α) : AcceptsWord (.ok v : Except DecodeError α) := .inr ⟨v, rfl⟩

theorem AcceptsWord.bind_ok {α β : Type} {x : Except DecodeError α} (h : AcceptsWord x) (g : α → β) :
    AcceptsWord (x >>= fun v => .ok (g v)) := by
  obtain rfl | ⟨v, rfl⟩ := h
  · exact .inl rfl
  · exact acceptsWord_ok (g v)

theorem takeWord_accepts (ws : List Word) : AcceptsWord (takeWord ws) := by
  cases ws with
  | nil => exact .inl rfl
  | cons w ws => exact acceptsWord_ok _

theorem acceptsWord_error {α : Type} {e : DecodeError} : AcceptsWord (.error e : Except DecodeError α) ↔ e = .truncatedPayload := by
  simp only [AcceptsWord, Except.error.injEq, reduceCtorEq, exists_false, or_false]

theorem takeWords_accepts (n : Nat) (ws : List Word) : AcceptsWord (takeWords n ws) := by
  fun_induction takeWords n ws with
  | case1 | case3 => exact acceptsWord_ok _
  | case2 => exact .inl rfl
  | case4 n w ws e he ih => exact acceptsWord_error.mpr (acceptsWord_error.mp (he ▸ ih))

theorem takeFrames_accepts (nch k : Nat) (ws : List Word) : AcceptsWord (takeFrames nch k ws) := by
  fun_induction takeFrames nch k ws with
  | case1 | case3 => exact acceptsWord_ok _
  | case2 k ws e he => exact acceptsWord_error.mpr (acceptsWord_error.mp (he ▸ takeWords_accepts nch ws))
  | case4 k ws f ws' hf e he ih => exact acceptsWord_error.mpr (acceptsWord_error.mp (he ▸ ih))

theorem OperandCheck.of_ok {α : Type} {x : Except DecodeError α} {P : Prop} (hP : ¬P) {v : α} (h : x = .ok v) : OperandCheck x P :=
  ⟨fun hp => absurd hp hP, fun _ => ⟨v, h⟩⟩

theorem OperandCheck.of_illegalUnit {α : Type} {x : Except DecodeError α} {P : Prop} (hP : P) (h : x = .error .illegalUnit) :
    OperandCheck x P :=
  ⟨fun _ => .inr (.inl h), fun hn => absurd hP hn⟩

theorem decodeBuf_check : (u : Nat) → OperandCheck (decodeBuf u) (3 < u)
  | 0 | 1 | 2 | 3 => .of_ok (by decide) rfl
  | u + 4 => .of_illegalUnit (by omega) rfl

theorem decodeSel_check : (u : Nat) → OperandCheck (decodeSel u) (3 < u)
  | 0 | 1 | 2 | 3 => .of_ok (by decide) rfl
  | u + 4 => .of_illegalUnit (by omega) rfl

theorem decodeClearSel_check : (u : Nat) → OperandCheck (decodeClearSel u) (4 < u)
  | 0 | 1 | 2 | 3 | 4 => .of_ok (by decide) rfl
  | u + 5 => .of_illegalUnit (by omega) rfl

theorem noUnit_check (u : Nat) : OperandCheck (noUnit u) (0 < u) where
  refuses h := .inr (.inl (if_neg h.ne'))
  passes h := ⟨(), if_pos (Nat.eq_zero_of_not_pos h)⟩

theorem noArg_check (a : Nat) : OperandCheck (noArg a) (2 ^ 0 ≤ a) where
  refuses h := .inr (.inr (if_neg (Nat.ne_of_gt h)))
  passes h := ⟨(), if_pos (Nat.lt_one_iff.mp (Nat.lt_of_not_le h))⟩

theorem decodeFlag_check (a : Nat) : OperandCheck (decodeFlag a) (2 ^ 1 ≤ a) where
  refuses h := .inr (.inr (if_neg (Nat.not_lt.mpr h)))
  passes h := ⟨_, if_pos (Nat.lt_of_not_le h)⟩

theorem decodeNarrow_check (n a : Nat) : OperandCheck (decodeNarrow n a) (2 ^ n ≤ a) where
  refuses h := .inr (.inr (if_neg (Nat.not_lt.mpr h)))
  passes h := ⟨_, if_pos (Nat.lt_of_not_le h)⟩

theorem onBuf_verdict (mk : BufId → Instr) (u a : Nat) (ws : List Word) : WordVerdict (onBuf mk u a ws) (3 < u ∨ 2 ^ 0 ≤ a) :=
  (decodeBuf_check u).bind fun _ => (noArg_check a).last fun _ => acceptsWord_ok _

theorem plain_verdict (i : Instr) (u a : Nat) (ws : List Word) : WordVerdict (plain i u a ws) (0 < u ∨ 2 ^ 0 ≤ a) :=
  (noUnit_check u).bind fun _ => (noArg_check a).last fun _ => acceptsWord_ok _

/-- The fields of a command word are illegal; `IllegalWord` of a word is this of the word's fields. -/
def IllegalFields (op u a : Nat) : Prop :=
  ∀ maxUnit argBits, Machine.operandBounds op = some (maxUnit, argBits) → maxUnit < u ∨ 2 ^ argBits ≤ a

theorem illegalFields_iff {op u a maxUnit argBits : Nat} (h : Machine.operandBounds op = some (maxUnit, argBits)) :
    IllegalFields op u a ↔ maxUnit < u ∨ 2 ^ argBits ≤ a := by
  refine ⟨fun hill => hill _ _ h, fun hbounds _ _ h' => ?_⟩
  cases h.symm.trans h'
  exact hbounds

/-- For an `op` of R103 a verdict by its bounds is the verdict by R108. -/
theorem WordVerdict.of_bounds {α : Type} {x : Except DecodeError α} {op u a maxUnit argBits : Nat}
    (hx : WordVerdict x (maxUnit < u ∨ 2 ^ argBits ≤ a)) (h : Machine.operandBounds op = some (maxUnit, argBits)) :
    WordVerdict x (IllegalFields op u a) :=
  ⟨fun hill => hx.refuses ((illegalFields_iff h).mp hill), fun hlegal => hx.accepts (mt (illegalFields_iff h).mpr hlegal)⟩

/-- R106 to R108: the decoder refuses exactly the illegal command words, whatever follows them. -/
theorem decodeFields_verdict {nch op u a : Nat} (ha : a < 2 ^ 20) (ws : List Word) :
    WordVerdict (decodeFields nch op u a ws) (IllegalFields op u a) := by
  have hcount : ¬2 ^ 20 ≤ a := Nat.not_le.mpr ha
  unfold decodeFields
  split
  -- `RB.INIT`
  case h_1 =>
    exact ((decodeBuf_check u).bind fun b => (decodeFlag_check a).last fun m => (takeWord_accepts ws).bind_ok _).of_bounds rfl
  -- a buffer and nothing else
  case h_2 | h_3 | h_4 | h_5 | h_7 => exact (onBuf_verdict _ u a ws).of_bounds rfl
  -- `RB.WRITE1`
  case h_6 =>
    exact ((decodeBuf_check u).bind fun b => (noArg_check a).last fun _ => (takeWord_accepts ws).bind_ok _).of_bounds rfl
  -- `RB.WRITEN`
  case h_8 => exact ((decodeBuf_check u).bind fun b => ((takeWords_accepts a ws).bind_ok _).verdict hcount).of_bounds rfl
  -- `RB.READN`
  case h_9 => exact ((decodeBuf_check u).bind fun b => (acceptsWord_ok _).verdict hcount).of_bounds rfl
  -- `FLT.CLEAR`
  case h_10 => exact ((decodeClearSel_check u).bind fun sel => (noArg_check a).last fun _ => acceptsWord_ok _).of_bounds rfl
  -- `FLT.RUN`
  case h_11 => exact ((decodeSel_check u).bind fun sel => ((takeWords_accepts a ws).bind_ok _).verdict hcount).of_bounds rfl
  -- `USB.PUSH`
  case h_12 => exact ((noUnit_check u).bind fun _ => ((takeFrames_accepts nch a ws).bind_ok _).verdict hcount).of_bounds rfl
  -- `SET.RATE`
  case h_20 =>
    exact ((noUnit_check u).bind fun _ => (noArg_check a).last fun _ => (takeWord_accepts ws).bind_ok _).of_bounds rfl
  -- `SET.DEPTH`, `SET.VOL`
  case h_21 | h_22 =>
    exact ((noUnit_check u).bind fun _ => (decodeNarrow_check _ a).last fun v => acceptsWord_ok _).of_bounds rfl
  -- `SET.MUTE`, `SET.POWER`
  case h_23 | h_24 => exact ((noUnit_check u).bind fun _ => (decodeFlag_check a).last fun m => acceptsWord_ok _).of_bounds rfl
  -- no `op` of R103
  case h_27 =>
    refine ⟨fun _ => .inl rfl, fun hlegal => absurd (fun maxUnit argBits hb => ?_) hlegal⟩
    unfold Machine.operandBounds at hb
    split at hb <;> contradiction
  -- no operand
  all_goals exact (plain_verdict _ u a ws).of_bounds rfl

theorem decodeFor_verdict (nch : Nat) (w : Word) (ws : List Word) :
    WordVerdict (decodeFor nch (w :: ws)) (Machine.IllegalWord w) :=
  decodeFields_verdict (argField_lt w) ws

/-- The command word of an encoding is legal, as the whole encoding is decoded. -/
theorem not_illegalWord_of_encode {c : Config} {i : Instr} {w : Word} {pl : List Word} (h : i.wfFor c.nch = true)
    (he : encode i = w :: pl) : ¬Machine.IllegalWord w := fun hw =>
  ((decodeFor_verdict c.nch w pl).refuses hw).ne_ok (i, []) (he ▸ decodeFor_encode h)

/-- R109: an encoding cut short is no command, as the whole would then be that command and words after it. -/
theorem decodeFor_take_encode {c : Config} {i : Instr} {k : Nat} (h : i.wfFor c.nch = true) (hk : 0 < k)
    (hlt : k < (encode i).length) : decodeFor c.nch ((encode i).take k) = .error .truncatedPayload := by
  obtain ⟨k, rfl⟩ := Nat.exists_eq_add_one_of_ne_zero hk.ne'
  obtain ⟨w, pl, he⟩ : ∃ w pl, encode i = w :: pl := ⟨_, _, encode_eq_fields i⟩
  have htake : (encode i).take (k + 1) = w :: pl.take k := by rw [he, List.take_succ_cons]
  have haccepts : AcceptsWord (decodeFor c.nch ((encode i).take (k + 1))) :=
    htake ▸ (decodeFor_verdict c.nch w (pl.take k)).accepts (not_illegalWord_of_encode h he)
  obtain htrunc | ⟨⟨j, rest⟩, hok⟩ := haccepts
  · exact htrunc
  · have hwhole := decodeFor_append hok ((encode i).drop (k + 1))
    rw [List.take_append_drop, decodeFor_encode h, Except.ok.injEq, Prod.mk.injEq] at hwhole
    have hdrop := (List.append_eq_nil_iff.mp hwhole.2.symm).2
    exact absurd (List.drop_eq_nil_iff.mp hdrop) (Nat.not_le.mpr hlt)

end Sys2Proof
end

section
/-! The commands of a stream as steps of the machine (30_encoding.md R100, R102, R108, R109). -/

namespace Sys2Proof.Machine

/-- With no interleaving left a step is the next command of the stream. -/
theorem step_of_no_schedule {s : State} (h : s.schedule = []) : step s = command s := by
  simp only [step, h]

theorem command_of_ok {s : State} {i : Instr} {rest : List Word} (h : decode s.stream = .ok (i, rest)) :
    command s = exec i { s with stream := rest } := by
  simp only [command, h]

theorem command_of_truncatedPayload {s : State} (h : decode s.stream = .error .truncatedPayload) :
    command s = s.raise .illegalCommand := by
  simp only [command, h]

theorem command_of_refusesWord {s : State} (h : RefusesWord (decode s.stream)) :
    command s = ({ s with stream := s.stream.tail }).raise .illegalCommand := by
  obtain h | h | h := h <;> simp only [command, h]

/-- Settles O3: the laws of the instructions, one by one. -/
theorem payloadLengthOfEncoding : Obligations.PayloadLengthOfEncoding := by
  intro c i h
  cases i with
  | rbInit b m cap => exact Laws.PayloadLength.rbInit b m cap c.nch h
  | rbClear b => exact Laws.PayloadLength.rbClear b c.nch h
  | rbIsFull b => exact Laws.PayloadLength.rbIsFull b c.nch h
  | rbUsed b => exact Laws.PayloadLength.rbUsed b c.nch h
  | rbRemain b => exact Laws.PayloadLength.rbRemain b c.nch h
  | rbWrite1 b x => exact Laws.PayloadLength.rbWrite1 b x c.nch h
  | rbRead1 b => exact Laws.PayloadLength.rbRead1 b c.nch h
  | rbWriteN b xs => exact Laws.PayloadLength.rbWriteN b xs c.nch h
  | rbReadN b n => exact Laws.PayloadLength.rbReadN b n c.nch h
  | fltClear sel => exact Laws.PayloadLength.fltClear sel c.nch h
  | fltRun sel xs => exact Laws.PayloadLength.fltRun sel xs c.nch h
  | usbPush fs => exact Laws.PayloadLength.usbPush fs c.nch h
  | engRun => exact Laws.PayloadLength.engRun c.nch h
  | tick => exact Laws.PayloadLength.tick c.nch h
  | ctlAdj => exact Laws.PayloadLength.ctlAdj c.nch h
  | fbReport => exact Laws.PayloadLength.fbReport c.nch h
  | volSmooth => exact Laws.PayloadLength.volSmooth c.nch h
  | txPoll => exact Laws.PayloadLength.txPoll c.nch h
  | dmaDone => exact Laws.PayloadLength.dmaDone c.nch h
  | setRate rate => exact Laws.PayloadLength.setRate rate c.nch h
  | setDepth d => exact Laws.PayloadLength.setDepth d c.nch h
  | setVol v => exact Laws.PayloadLength.setVol v c.nch h
  | setMute m => exact Laws.PayloadLength.setMute m c.nch h
  | setPower p => exact Laws.PayloadLength.setPower p c.nch h
  | reinit => exact Laws.PayloadLength.reinit c.nch h
  | mainPoll => exact Laws.PayloadLength.mainPoll c.nch h

/-- Settles O5: the decoder refuses the word by name, so the command is `raise` on the state whose stream stands after it. -/
theorem illegalCommandWord : Obligations.IllegalCommandWord := by
  intro s w ws hsched hstream hw
  have hrefuses : RefusesWord (decode s.stream) := hstream ▸ (decodeFor_verdict Config.current.nch w ws).refuses hw
  rw [step_of_no_schedule hsched, command_of_refusesWord hrefuses, hstream, List.tail_cons, State.raise]

/-- Settles O6: the encoding cut short is refused for its payload alone, which leaves the stream as it is. -/
theorem truncatedPayloadConsumesNothing : Obligations.TruncatedPayloadConsumesNothing := by
  intro s i k hwf hk hlt hsched hstream
  have htrunc : decode s.stream = .error .truncatedPayload := hstream ▸ decodeFor_take_encode hwf hk hlt
  rw [step_of_no_schedule hsched, command_of_truncatedPayload htrunc, State.raise]

theorem decode_eq_of_encode {ws : List Word} (i : Instr) (h : i.wf = true) (he : encode i = ws) : decode ws = .ok (i, []) :=
  he ▸ decodeFor_encode h

/-- Settles O4: each list of words is the encoding of its instruction (R101, R107). -/
theorem writtenOutWordsDecode : Obligations.WrittenOutWordsDecode :=
  ⟨decode_eq_of_encode _ rfl (by decide), decode_eq_of_encode _ rfl (by decide), decode_eq_of_encode _ rfl (by decide),
    decode_eq_of_encode _ rfl (by decide), decode_eq_of_encode _ rfl (by decide), decode_eq_of_encode _ rfl (by decide),
    decode_eq_of_encode _ rfl (by decide), decode_eq_of_encode _ rfl (by decide), decode_eq_of_encode _ rfl (by decide)⟩

/-- Settles O7: the step is the command, and the command is the instruction's `exec`. -/
theorem stepRunsDecodedInstruction : Obligations.StepRunsDecodedInstruction := fun _ _ _ hsched hok =>
  (step_of_no_schedule hsched).trans (command_of_ok hok)

end Sys2Proof.Machine
end

section
/-! The operations on one ring buffer run to completion (40_ringbuffer.md R130 to R139), and the buffer as a bounded queue
(R145). -/

namespace Sys2Proof.Machine

/-! ## Operations that need a valid buffer (R130) -/

theorem onValid_valid {s : State} {b : BufId} (h : (s.buf b).valid = true) (k : RingBuffer → Host.Outcome State Fault Refusal) :
    s.onValid b k = k (s.buf b) := if_pos h

theorem onValid_invalid {s : State} {b : BufId} (h : (s.buf b).valid = false)
    (k : RingBuffer → Host.Outcome State Fault Refusal) : s.onValid b k = .next (s.respond .notInitialised []) :=
  if_neg (by simp only [h, Bool.false_eq_true, not_false_eq_true])

/-- Settles O8: the two tests of R131 in their order, and the buffer that `RB.INIT` writes where neither holds. -/
theorem rbInitResult : Obligations.RbInitResult := by
  refine fun b m cap s => ⟨fun h => ?_, fun hv hcap => (if_neg (by simp [hv])).trans (if_neg hcap)⟩
  by_cases hv : (s.buf b).valid = true
  · exact if_pos hv
  · exact (if_neg hv).trans (if_pos (h.resolve_left hv))

/-- Settles O9: `RB.CLEAR` is the clear of the one buffer, or its fault. -/
theorem rbClearResult : Obligations.RbClearResult := by
  intro b s hv
  have hexec : exec (.rbClear b) s = _ := (onValid_valid hv _ : execRbClear b s = _)
  refine ⟨fun hp hc => ?_, fun h => ?_⟩
  · rw [hexec, clear_quiet hp hc]; rfl
  · rw [hexec, clear_race h]

/-- Settles O10: the three observers answer from the registers of a valid buffer. -/
theorem observersReturnCounts : Obligations.ObserversReturnCounts := by
  intro b s hv
  exact ⟨(onValid_valid hv _ : execRbIsFull b s = _), (onValid_valid hv _ : execRbUsed b s = _),
    (onValid_valid hv _ : execRbRemain b s = _)⟩

/-- Settles O11: each of the eight operations is one that needs a valid buffer. -/
theorem invalidBufferNotInitialised : Obligations.InvalidBufferNotInitialised := by
  intro b s x xs n hv i hi
  simp only [List.mem_cons, List.not_mem_nil, or_false] at hi
  rcases hi with rfl | rfl | rfl | rfl | rfl | rfl | rfl | rfl
  · exact (onValid_invalid hv _ : execRbClear b s = _)
  · exact (onValid_invalid hv _ : execRbIsFull b s = _)
  · exact (onValid_invalid hv _ : execRbUsed b s = _)
  · exact (onValid_invalid hv _ : execRbRemain b s = _)
  · exact (onValid_invalid hv _ : s.writeOp b [x] = _)
  · exact (onValid_invalid hv _ : s.readOp b 1 _ = _)
  · exact (onValid_invalid hv _ : s.writeOp b xs = _)
  · exact (onValid_invalid hv _ : s.readOp b n _ = _)

/-! ## A write and a read of a buffer nothing is in flight on (R141, R142) -/

/-- A write that fits stores its elements from `wr` on and advances `wr` and `cnt`. -/
theorem write_wrote {q : RingBuffer} (hv : q.valid = true) (h : q.Inv) (hp : q.prodOp = none) (a : Agent) {xs : List Sample}
    (hn : xs.length ≤ q.free) : ∃ m, q.Stored xs m ∧ q.write a xs = .ok (q.wrote xs.length m) := by
  obtain ⟨_, hlock, _, hvalid⟩ := h
  obtain ⟨⟨hcap, _⟩, _⟩ := hvalid hv
  obtain ⟨m, hw, _, hframe, hstored⟩ := write_spec q hcap hlock a xs
  refine ⟨m, ⟨hstored (hn.trans (Nat.sub_le _ _)), hframe⟩, ?_⟩
  simp only [hw, RingBuffer.advanceWr, RingBuffer.wrote, hp]

theorem contents_length (q : RingBuffer) : q.contents.length = q.cnt := by
  simp only [RingBuffer.contents, List.length_map, List.length_range]

/-- The oldest elements are those of the run from `rd` on. -/
theorem contents_take {q : RingBuffer} {n : Nat} (hn : n ≤ q.cnt) : q.contents.take n = (List.range n).map (q.at q.rd) := by
  rw [RingBuffer.contents, ← List.map_take, List.take_range, Nat.min_eq_left hn]

/-- A read of counted elements returns the oldest ones and advances `rd` and `cnt`. -/
theorem read_took {q : RingBuffer} (hv : q.valid = true) (h : q.Inv) (hc : q.consOp = none) (a : Agent) {n : Nat}
    (hn : n ≤ q.cnt) : ∃ d, d.map some = q.contents.take n ∧ q.read a n = .ok (d, q.took n) := by
  obtain ⟨_, hlock, _, hvalid⟩ := h
  obtain ⟨⟨hcap, _⟩, hstored, _⟩ := hvalid hv
  obtain ⟨d, hr, _, hd⟩ := read_spec q hcap hlock a n fun j hj => contents_stored hstored (hj.trans_le hn)
  refine ⟨d, hd.trans (contents_take hn).symm, ?_⟩
  simp only [hr, RingBuffer.advanceRd, RingBuffer.took, hc]

theorem producerFree_iff {s : State} {b : BufId} :
    s.producerFree b = true ↔ (s.buf b).prodOp = none ∧ s.agentIdle (producerOf b) = true := by
  simp only [State.producerFree, Bool.and_eq_true, Option.isNone_iff_eq_none]

theorem consumerFree_iff {s : State} {b : BufId} :
    s.consumerFree b = true ↔ (s.buf b).consOp = none ∧ s.agentIdle (consumerOf b) = true := by
  simp only [State.consumerFree, Bool.and_eq_true, Option.isNone_iff_eq_none]

/-- Settles O12: the command is the write of the one buffer where it fits, and its response alone where it does not. -/
theorem writeStoresFromCursor : Obligations.WriteStoresFromCursor := by
  refine fun b s x xs hv hinv hf => ⟨rfl, fun hn => ?_, fun hn => writeOp_full hv hf (Nat.not_le.mpr hn)⟩
  obtain ⟨m, hstored, hw⟩ := write_wrote hv hinv (producerFree_iff.mp hf).1 (producerOf b) hn
  exact ⟨m, hstored, writeOp_fits hv hf hn hw⟩

/-- Settles O13: the command is the read of the one buffer where it holds enough, and its response alone where it does not;
`RB.READ1` is the read of one element. -/
theorem readReturnsOldest : Obligations.ReadReturnsOldest := by
  intro b s n hv hinv hf
  have hread {k : Nat} (hk : k ≤ (s.buf b).cnt) (few : Result) : ∃ d, d.map some = (s.buf b).contents.take k ∧
      s.readOp b k few = .next ((s.setBuf b ((s.buf b).took k)).respond .ok d) := by
    obtain ⟨d, hd, hr⟩ := read_took hv hinv (consumerFree_iff.mp hf).1 (consumerOf b) hk
    exact ⟨d, hd, readOp_counted hv hf hk hr few⟩
  refine ⟨fun hn => hread hn _, fun hn => readOp_few hv hf (Nat.not_le.mpr hn) _, fun hpos => ?_,
    fun h0 => readOp_few hv hf (by omega) _⟩
  obtain ⟨d, hd, hr⟩ := hread hpos .bufferEmpty
  have hlen : d.length = 1 := by
    have := congrArg List.length hd
    rw [List.length_map, List.length_take, contents_length] at this
    omega
  obtain ⟨v, rfl⟩ := List.length_eq_one_iff.mp hlen
  exact ⟨v, by simpa [List.head?_take] using congrArg List.head? hd.symm, hr⟩

/-! ## The buffer as a queue (R145) -/

/-- A write appends its elements to the counted ones. -/
theorem contents_wrote {q : RingBuffer} (hb : q.Bounds) {xs : List Sample} (hn : xs.length ≤ q.free) {m : Mem}
    (hm : q.Stored xs m) : (q.wrote xs.length m).contents = q.contents ++ xs.map some := by
  obtain ⟨_, hle, _, _, hwr⟩ := hb
  obtain ⟨hstored, hframe⟩ := hm
  simp only [RingBuffer.free] at hn
  simp only [RingBuffer.contents, RingBuffer.wrote, List.range_add, List.map_append, List.map_map]
  congr 1
  · refine List.map_congr_left fun j hj => hframe _ fun i hi => ?_
    exact write_index_ne hwr (List.mem_range.mp hj) (by omega)
  · refine List.ext_getElem (by simp only [List.length_map, List.length_range]) fun i hi _ => ?_
    simp only [List.length_map, List.length_range] at hi
    simp only [List.getElem_map, List.getElem_range, Function.comp_apply]
    rw [RingBuffer.at, ← write_index hwr]
    exact hstored i hi

/-- A read removes the oldest elements from the counted ones. -/
theorem contents_took (q : RingBuffer) (n : Nat) : (q.took n).contents = q.contents.drop n := by
  refine List.ext_getElem (by simp only [List.length_drop, contents_length, RingBuffer.took]) fun i _ _ => ?_
  simp only [RingBuffer.contents, RingBuffer.took, RingBuffer.at, List.getElem_drop, List.getElem_map, List.getElem_range,
    Nat.mod_add_mod, Nat.add_assoc]

/-- The buffer `b` holds the queue `xs`, and its producer and its consumer can begin an operation. -/
structure State.HoldsQueue (s : State) (b : BufId) (xs : List Sample) : Prop where
  valid : (s.buf b).valid = true
  inv : (s.buf b).Inv
  producer : s.producerFree b = true
  consumer : s.consumerFree b = true
  contents : (s.buf b).contents = xs.map some

theorem State.HoldsQueue.length_eq {s : State} {b : BufId} {xs : List Sample} (h : s.HoldsQueue b xs) :
    xs.length = (s.buf b).cnt := by
  rw [← contents_length, h.contents, List.length_map]

theorem State.HoldsQueue.responded {s : State} {b : BufId} {xs : List Sample} (h : s.HoldsQueue b xs) (r : Result)
    (vs : List Word) : (s.respond r vs).HoldsQueue b xs :=
  ⟨h.valid, h.inv, producerFree_iff.mpr (producerFree_iff.mp h.producer), consumerFree_iff.mpr (consumerFree_iff.mp h.consumer),
    h.contents⟩

/-- The buffer replaced by one that nothing is in flight on. -/
theorem State.HoldsQueue.replaced {s : State} {b : BufId} {xs ys : List Sample} (h : s.HoldsQueue b xs) {q : RingBuffer}
    (hq : q.valid = true ∧ q.Inv) (hp : q.prodOp = none) (hc : q.consOp = none) (hys : q.contents = ys.map some) :
    (s.setBuf b q).HoldsQueue b ys where
  valid := by rw [buf_setBuf_same]; exact hq.1
  inv := by rw [buf_setBuf_same]; exact hq.2
  producer := by
    rw [producerFree_iff, buf_setBuf_same, agentIdle_setBuf]
    exact ⟨hp, (producerFree_iff.mp h.producer).2⟩
  consumer := by
    rw [consumerFree_iff, buf_setBuf_same, agentIdle_setBuf]
    exact ⟨hc, (consumerFree_iff.mp h.consumer).2⟩
  contents := by rw [buf_setBuf_same]; exact hys

/-- What a command on the buffer `b` leaves of the other buffers, of the capacity and of the responses given. -/
structure State.AnsweredOn (s : State) (b : BufId) (rs : List Response) (t : State) : Prop where
  responses : t.responses = s.responses ++ rs
  cap : (t.buf b).cap = (s.buf b).cap
  others : ∀ b', b' ≠ b → t.buf b' = s.buf b'

theorem State.AnsweredOn.refl (s : State) (b : BufId) : s.AnsweredOn b [] s := ⟨(List.append_nil _).symm, rfl, fun _ _ => rfl⟩

theorem State.AnsweredOn.trans {s t u : State} {b : BufId} {rs rs' : List Response} (h : s.AnsweredOn b rs t)
    (h' : t.AnsweredOn b rs' u) : s.AnsweredOn b (rs ++ rs') u where
  responses := by rw [h'.responses, h.responses, List.append_assoc]
  cap := h'.cap.trans h.cap
  others b' hb := (h'.others b' hb).trans (h.others b' hb)

theorem answeredOn_respond (s : State) (b : BufId) (r : Result) (vs : List Word) : s.AnsweredOn b [⟨r, vs⟩] (s.respond r vs) :=
  ⟨rfl, rfl, fun _ _ => rfl⟩

theorem answeredOn_setBuf {s : State} {b : BufId} {q : RingBuffer} (r : Result) (vs : List Word) (hcap : q.cap = (s.buf b).cap) :
    s.AnsweredOn b [⟨r, vs⟩] ((s.setBuf b q).respond r vs) where
  responses := rfl
  cap := by rw [buf_respond, buf_setBuf_same]; exact hcap
  others b' hb := by rw [buf_respond, buf_setBuf, if_neg hb]

/-- One command answers and leaves what the queue does (R145). -/
theorem exec_queueOp {s : State} {b : BufId} {xs : List Sample} (h : s.HoldsQueue b xs) (op : QueueOp) :
    ∃ t, exec (op.instr b) s = .next t ∧ t.HoldsQueue b (op.apply (s.buf b).cap xs).2 ∧
      s.AnsweredOn b [(op.apply (s.buf b).cap xs).1] t := by
  have hlen := h.length_eq
  obtain ⟨hv, hinv, hprod, hcons, hxs⟩ := id h
  have hp := (producerFree_iff.mp hprod).1
  have hc := (consumerFree_iff.mp hcons).1
  obtain ⟨_, _, _, hvalid⟩ := id hinv
  obtain ⟨hb, _⟩ := hvalid hv
  cases op with
  | write ys =>
    have hfit : xs.length + ys.length ≤ (s.buf b).cap ↔ ys.length ≤ (s.buf b).free := by
      have := hb.2.1
      simp only [RingBuffer.free]
      omega
    by_cases hn : ys.length ≤ (s.buf b).free
    · obtain ⟨m, hm, hw⟩ := write_wrote hv hinv hp (producerOf b) hn
      simp only [QueueOp.apply, hfit, hn, if_true]
      refine ⟨_, writeOp_fits hv hprod hn hw, (h.replaced (Inv.write hv hinv hn hw) hp hc ?_).responded _ _,
        answeredOn_setBuf _ _ rfl⟩
      rw [contents_wrote hb hn hm, hxs, List.map_append]
    · simp only [QueueOp.apply, hfit, hn, if_false]
      exact ⟨_, writeOp_full hv hprod hn, h.responded _ _, answeredOn_respond s b _ _⟩
  | read n =>
    by_cases hn : n ≤ (s.buf b).cnt
    · obtain ⟨d, hd, hr⟩ := read_took hv hinv hc (consumerOf b) hn
      have hd' : d = xs.take n := by
        rw [hxs, ← List.map_take] at hd
        exact List.map_injective_iff.mpr (Option.some_injective _) hd
      simp only [QueueOp.apply, hlen, hn, if_true, ← hd']
      refine ⟨_, readOp_counted hv hcons hn hr _, (h.replaced (Inv.read hv hinv hn hr) hp hc ?_).responded _ _,
        answeredOn_setBuf _ _ rfl⟩
      rw [contents_took, hxs, List.map_drop]
    · simp only [QueueOp.apply, hlen, hn, if_false]
      exact ⟨_, readOp_few hv hcons hn _, h.responded _ _, answeredOn_respond s b _ _⟩

/-- Any list of commands answers and leaves what the queue does (R145). -/
theorem execAll_queueOps {s : State} {b : BufId} {xs : List Sample} (h : s.HoldsQueue b xs) (ops : List QueueOp) :
    ∃ t, execAll (ops.map (QueueOp.instr b)) s = .next t ∧ t.HoldsQueue b (QueueOp.run (s.buf b).cap ops xs).2 ∧
      s.AnsweredOn b (QueueOp.run (s.buf b).cap ops xs).1 t := by
  induction ops generalizing s xs with
  | nil => exact ⟨s, rfl, h, .refl s b⟩
  | cons op ops ih =>
    obtain ⟨u, hu, hqueue, hans⟩ := exec_queueOp h op
    obtain ⟨t, ht, hqueue', hans'⟩ := ih hqueue
    rw [hans.cap] at hqueue' hans'
    exact ⟨t, by simp only [List.map_cons, execAll, hu, ht], hqueue', hans.trans hans'⟩

/-- Settles O14, by induction on the list of commands. -/
theorem bufferRefinesQueue : Obligations.BufferRefinesQueue := by
  intro b ops s xs hv hinv hprod hcons hxs
  obtain ⟨t, hrun, hqueue, hans⟩ := execAll_queueOps ⟨hv, hinv, hprod, hcons, hxs⟩ ops
  exact ⟨t, hrun, hqueue.contents, hans.responses, hans.cap, hans.others⟩

end Sys2Proof.Machine
end

section
/-! A write and a read of one locked buffer whose micro-steps interleave (40_ringbuffer.md R140 to R142, 70_reset_and_hazards.md
R340). The buffer after `i` micro-steps of the write and `j` of the read is the same in whichever order they were taken, because
the read works on elements that the write does not store into. -/

namespace Sys2Proof.Machine

/-! ## Interleavings of two lists of events (R8) -/

/-- An interleaving of `ws` and `rs` that keeps the order of `ws`, whose events `p` tells from those of `rs`, has `ws` as its
part of them. -/
theorem filter_interleaving {p : Event → Bool} {ws rs es : List Event} (hperm : es.Perm (ws ++ rs)) (hsub : ws.Sublist es)
    (hws : ∀ e ∈ ws, p e = true) (hrs : ∀ e ∈ rs, ¬ p e = true) : es.filter p = ws := by
  have hself : ws.filter p = ws := List.filter_eq_self.mpr hws
  have hlen : (es.filter p).length = ws.length := by
    rw [(hperm.filter p).length_eq, List.filter_append, hself, List.filter_eq_nil_iff.mpr hrs, List.append_nil]
  have hsub' := hsub.filter p
  rw [hself] at hsub'
  exact (hsub'.eq_of_length hlen.symm).symm

/-- A relation that every event of either list advances, in whatever order they come, holds at the end of every interleaving. -/
theorem microAllOf_interleaving {c : Config} {p : Event → Bool} {ws rs : List Event} {At : Nat → Nat → State → Prop}
    (left : ∀ i j s (h : i < ws.length), At i j s → ∃ t, microOp c ws[i] s = .next t ∧ At (i + 1) j t)
    (right : ∀ i j s (h : j < rs.length), At i j s → ∃ t, microOp c rs[j] s = .next t ∧ At i (j + 1) t)
    {es : List Event} {i j : Nat} {s : State} (hi : i ≤ ws.length) (hj : j ≤ rs.length) (hws : es.filter p = ws.drop i)
    (hrs : es.filter (fun e => !p e) = rs.drop j) (h : At i j s) :
    ∃ t, microAllOf c es s = .next t ∧ At ws.length rs.length t := by
  induction es generalizing i j s with
  | nil =>
    have hi' : i = ws.length := Nat.le_antisymm hi (List.drop_eq_nil_iff.mp hws.symm)
    have hj' : j = rs.length := Nat.le_antisymm hj (List.drop_eq_nil_iff.mp hrs.symm)
    exact ⟨s, rfl, hi' ▸ hj' ▸ h⟩
  | cons e es ih =>
    have hlt {l : List Event} {k : Nat} {tl : List Event} (hl : e :: tl = l.drop k) : k < l.length :=
      Nat.not_le.mp fun hle => List.cons_ne_nil e tl (hl.trans (List.drop_eq_nil_of_le hle))
    by_cases he : p e = true
    · rw [List.filter_cons_of_pos he] at hws
      rw [List.filter_cons_of_neg (by simp only [he, Bool.not_true, Bool.false_eq_true, not_false_eq_true])] at hrs
      have hlt' := hlt hws
      rw [List.drop_eq_getElem_cons hlt', List.cons.injEq] at hws
      obtain ⟨u, hu, hat⟩ := left i j s hlt' h
      obtain ⟨t, ht, hend⟩ := ih hlt' hj hws.2 hrs hat
      exact ⟨t, by simp only [microAllOf, hws.1, hu, ht], hend⟩
    · rw [List.filter_cons_of_neg he] at hws
      rw [List.filter_cons_of_pos (by simpa using he)] at hrs
      have hlt' := hlt hrs
      rw [List.drop_eq_getElem_cons hlt', List.cons.injEq] at hrs
      obtain ⟨u, hu, hat⟩ := right i j s hlt' h
      obtain ⟨t, ht, hend⟩ := ih hi hlt' hws hrs.2 hat
      exact ⟨t, by simp only [microAllOf, hrs.1, hu, ht], hend⟩

/-! ## One side taken so many micro-steps -/

/-- The buffer after `i` micro-steps of a write of `xs` whose copy leaves the array `m` (R141). -/
def RingBuffer.afterWrite (q : RingBuffer) (xs : List Sample) (m : Mem) : Nat → RingBuffer
  | 0 => q
  | 1 => q.writing xs .checked
  | 2 => RingBuffer.writing { q with mem := m } xs .copied
  | _ => RingBuffer.advanceWr { q with mem := m } xs.length

/-- The buffer after `j` micro-steps of a read of `n` elements that returns `d` (R142). -/
def RingBuffer.afterRead (q : RingBuffer) (n : Nat) (d : List Sample) : Nat → RingBuffer
  | 0 => q
  | 1 => q.reading n .checked []
  | 2 => q.reading n .copied d
  | _ => q.advanceRd n

/-- A locked buffer on which a write of `xs` can begin that fits and whose copy leaves the array `m`. -/
structure RingBuffer.Writable (q : RingBuffer) (xs : List Sample) (m : Mem) : Prop where
  valid : q.valid = true
  idle : q.WriteIdle
  fits : xs.length ≤ q.free
  copy : q.copyIn 0 xs = .ok { q with mem := m }

/-- A locked buffer on which a read of `n` counted elements can begin that returns `d`. -/
structure RingBuffer.Readable (q : RingBuffer) (n : Nat) (d : List Sample) : Prop where
  valid : q.valid = true
  idle : q.ReadIdle
  counted : n ≤ q.cnt
  copy : q.copyOut 0 n = .ok d

theorem copyIn_cons {q : RingBuffer} {i : Nat} (hi : (q.wr + i) % q.cap < q.cap) (x : Sample) (xs : List Sample) :
    q.copyIn i (x :: xs) = RingBuffer.copyIn { q with mem := q.mem.put ((q.wr + i) % q.cap) x } (i + 1) xs := by
  simp only [RingBuffer.copyIn, RingBuffer.memWrite, hi, if_true]

/-- The copy of a write depends on the capacity, the write cursor and the array alone. -/
theorem copyIn_congr {p q : RingBuffer} {i : Nat} {xs : List Sample} {m : Mem} (h : q.copyIn i xs = .ok { q with mem := m })
    (hcap : p.cap = q.cap) (hwr : p.wr = q.wr) (hmem : p.mem = q.mem) : p.copyIn i xs = .ok { p with mem := m } := by
  induction xs generalizing p q i with
  | nil =>
    obtain rfl : q.mem = m := congrArg RingBuffer.mem (Except.ok.inj h)
    rw [← hmem, RingBuffer.copyIn]
  | cons x xs ih =>
    by_cases hi : (q.wr + i) % q.cap < q.cap
    · rw [copyIn_cons hi] at h
      rw [copyIn_cons (by rwa [hcap, hwr])]
      exact ih h hcap hwr (by rw [hmem, hcap, hwr])
    · simp only [RingBuffer.copyIn, RingBuffer.memWrite, hi, if_false, reduceCtorEq] at h

/-- The copy of a read depends on the capacity, the read cursor and the elements it reads alone. -/
theorem copyOut_congr {p q : RingBuffer} {i n : Nat} {d : List Sample} (h : q.copyOut i n = .ok d) (hcap : p.cap = q.cap)
    (hrd : p.rd = q.rd) (hmem : ∀ k < n, p.at p.rd (i + k) = q.at q.rd (i + k)) : p.copyOut i n = .ok d := by
  rw [← h]
  clear h
  induction n generalizing i with
  | zero => rfl
  | succ n ih =>
    have hhead : p.mem.get ((q.rd + i) % q.cap) = q.mem.get ((q.rd + i) % q.cap) := by
      have := hmem 0 (Nat.succ_pos n)
      simpa only [RingBuffer.at, hcap, hrd, Nat.add_zero] using this
    have htail : p.copyOut (i + 1) n = q.copyOut (i + 1) n := ih fun k hk => by
      have := hmem (k + 1) (Nat.succ_lt_succ hk)
      rwa [show i + (k + 1) = i + 1 + k by omega] at this
    simp only [RingBuffer.copyOut, RingBuffer.memRead, hcap, hrd, hhead, htail]

/-! ## The two sides together -/

/-- A write of `xs` and a read of `n` elements can both begin, and the array `m` the write leaves has the elements to be read. -/
structure RingBuffer.BothFree (q : RingBuffer) (xs : List Sample) (m : Mem) (n : Nat) (d : List Sample) : Prop where
  writable : q.Writable xs m
  readable : q.Readable n d
  apart : ∀ k < n, m.get ((q.rd + k) % q.cap) = q.at q.rd k

/-- What the read has done so far leaves the write as it was. -/
theorem RingBuffer.Writable.afterRead {q : RingBuffer} {xs : List Sample} {m : Mem} (h : q.Writable xs m) (n : Nat)
    (d : List Sample) (j : Nat) : (q.afterRead n d j).Writable xs m := by
  obtain ⟨hv, hidle, hfits, hcopy⟩ := h
  match j with
  | 0 => exact ⟨hv, hidle, hfits, hcopy⟩
  | 1 | 2 => exact ⟨hv, hidle, hfits, copyIn_congr hcopy rfl rfl rfl⟩
  | _ + 3 =>
    exact ⟨hv, hidle, hfits.trans (Nat.sub_le_sub_left (Nat.sub_le _ _) _), copyIn_congr hcopy rfl rfl rfl⟩

/-- What the write has done so far leaves the read as it was. -/
theorem RingBuffer.BothFree.afterWrite {q : RingBuffer} {xs : List Sample} {m : Mem} {n : Nat} {d : List Sample}
    (h : q.BothFree xs m n d) (i : Nat) : (q.afterWrite xs m i).Readable n d := by
  obtain ⟨_, ⟨hv, hidle, hcounted, hcopy⟩, hapart⟩ := h
  have hcopied {p : RingBuffer} (hcap : p.cap = q.cap) (hrd : p.rd = q.rd) (hmem : p.mem = m) : p.copyOut 0 n = .ok d :=
    copyOut_congr hcopy hcap hrd fun k hk => by simpa only [RingBuffer.at, hcap, hrd, hmem, Nat.zero_add] using hapart k hk
  match i with
  | 0 => exact ⟨hv, hidle, hcounted, hcopy⟩
  | 1 => exact ⟨hv, hidle, hcounted, copyOut_congr hcopy rfl rfl fun _ _ => rfl⟩
  | 2 => exact ⟨hv, hidle, hcounted, hcopied rfl rfl rfl⟩
  | _ + 3 => exact ⟨hv, hidle, hcounted.trans (Nat.le_add_right _ _), hcopied rfl rfl rfl⟩

/-- The two sides' micro-steps commute: both publish phases change `cnt`, and the rest they write apart. -/
theorem afterWrite_afterRead {q : RingBuffer} {n : Nat} (hn : n ≤ q.cnt) (xs : List Sample) (m : Mem) (d : List Sample)
    (i j : Nat) : (q.afterRead n d j).afterWrite xs m i = (q.afterWrite xs m i).afterRead n d j := by
  match i, j with
  | 0, _ | _, 0 => rfl
  | 1, 1 | 1, 2 | 1, _ + 3 | 2, 1 | 2, 2 | 2, _ + 3 | _ + 3, 1 | _ + 3, 2 => rfl
  | _ + 3, _ + 3 =>
    simp only [RingBuffer.afterWrite, RingBuffer.afterRead, RingBuffer.advanceWr, RingBuffer.advanceRd, Nat.sub_add_comm hn]

/-! ## The micro-steps in a state -/

/-- The micro-steps of a write issued on its own (R141). -/
abbrev writeEvents (b : BufId) (xs : List Sample) : List Event := [.start (.rbWriteN b xs), .prod b, .prod b]

/-- The micro-steps of a read issued on its own (R142). -/
abbrev readEvents (b : BufId) (n : Nat) : List Event := [.start (.rbReadN b n), .cons b, .cons b]

/-- The event is a micro-step of a write issued on its own. -/
def Event.ofProducer : Event → Bool
  | .start (.rbWriteN _ _) | .prod _ => true
  | _ => false

/-- The buffer `b` is `q`, and its producer and its consumer are in no operation. -/
structure State.HasBuffer (s : State) (b : BufId) (q : RingBuffer) : Prop where
  buf : s.buf b = q
  producer : s.agentIdle (producerOf b) = true
  consumer : s.agentIdle (consumerOf b) = true

theorem State.HasBuffer.setBuf {s : State} {b : BufId} {p : RingBuffer} (h : s.HasBuffer b p) (q : RingBuffer) :
    (s.setBuf b q).HasBuffer b q :=
  ⟨buf_setBuf_same s b q, (agentIdle_setBuf ..).trans h.producer, (agentIdle_setBuf ..).trans h.consumer⟩

theorem State.HasBuffer.responded {s : State} {b : BufId} {q : RingBuffer} (h : s.HasBuffer b q) (r : Result) (vs : List Word) :
    (s.respond r vs).HasBuffer b q := ⟨h.buf, h.producer, h.consumer⟩

/-- The later phases of a write issued on its own, in the state they find. -/
theorem prodMicro_of_buf {s : State} {b : BufId} {q : RingBuffer} (h : s.HasBuffer b q) (hq : q.prodOp ≠ none) :
    ∃ ys, prodMicro b s = s.writeMicro b ys (·.respond .bufferFull []) (·.respond .ok []) := by
  have := prodMicro_inFlight h.producer (q := s.buf b) (h.buf ▸ hq)
  rwa [setBuf_buf_self] at this

/-- The later phases of a read issued on its own, in the state they find. -/
theorem consMicro_of_buf {s : State} {b : BufId} {q : RingBuffer} (h : s.HasBuffer b q) (hq : q.consOp ≠ none) :
    ∃ k, consMicro b s = s.readMicro b k (·.respond .insufficientData []) (fun d s => s.respond .ok d) := by
  have := consMicro_inFlight h.consumer (q := s.buf b) (h.buf ▸ hq)
  rwa [setBuf_buf_self] at this

/-- The next micro-step of a write. -/
theorem microOp_writeEvents {c : Config} {s : State} {b : BufId} {p : RingBuffer} {xs : List Sample} {m : Mem}
    (hw : p.Writable xs m) {i : Nat} (hi : i < (writeEvents b xs).length) (h : s.HasBuffer b (p.afterWrite xs m i)) :
    ∃ t, microOp c (writeEvents b xs)[i] s = .next t ∧ t.HasBuffer b (p.afterWrite xs m (i + 1)) ∧
      s.responses ⊆ t.responses := by
  obtain ⟨hv, hidle, hfits, hcopy⟩ := hw
  have hbuf := h.buf
  match i, hi with
  | 0, _ =>
    refine ⟨_, ?_, h.setBuf _, List.Subset.refl _⟩
    have hstart : writeStart b xs s = _ := writeStart_free (hbuf ▸ hv) (producerFree_iff.mpr ⟨hbuf ▸ hidle.2.2, h.producer⟩)
    refine (show microOp c _ s = writeStart b xs s from rfl).trans ?_
    simp only [hstart, State.writeMicro, hbuf, RingBuffer.afterWrite, writeStep_check hidle hfits, stateOutcome]
  | 1, _ =>
    obtain ⟨ys, hys⟩ := prodMicro_of_buf h nofun
    refine ⟨_, ?_, h.setBuf _, List.Subset.refl _⟩
    refine (congrArg stateOutcome hys).trans ?_
    simp only [State.writeMicro, hbuf, RingBuffer.afterWrite, writeStep_copy hcopy, stateOutcome]
  | 2, _ =>
    obtain ⟨ys, hys⟩ := prodMicro_of_buf h nofun
    refine ⟨_, ?_, (h.setBuf _).responded .ok [], List.subset_append_left _ _⟩
    refine (congrArg stateOutcome hys).trans ?_
    simp only [State.writeMicro, hbuf, RingBuffer.afterWrite, writeStep_publish (q := { p with mem := m }) hidle.2.1, stateOutcome]

/-- The next micro-step of a read, the last of which returns its elements. -/
theorem microOp_readEvents {c : Config} {s : State} {b : BufId} {p : RingBuffer} {n : Nat} {d : List Sample} (hr : p.Readable n d)
    {j : Nat} (hj : j < (readEvents b n).length) (h : s.HasBuffer b (p.afterRead n d j)) :
    ∃ t, microOp c (readEvents b n)[j] s = .next t ∧ t.HasBuffer b (p.afterRead n d (j + 1)) ∧
      (j + 1 = 3 → ⟨.ok, d⟩ ∈ t.responses) := by
  obtain ⟨hv, hidle, hcounted, hcopy⟩ := hr
  have hbuf := h.buf
  match j, hj with
  | 0, _ =>
    refine ⟨_, ?_, h.setBuf _, nofun⟩
    have hstart : readStart b n .insufficientData s = _ :=
      readStart_free (hbuf ▸ hv) (consumerFree_iff.mpr ⟨hbuf ▸ hidle.2.2, h.consumer⟩) _
    refine (show microOp c _ s = readStart b n .insufficientData s from rfl).trans ?_
    simp only [hstart, State.readMicro, hbuf, RingBuffer.afterRead, readStep_check hidle hcounted, stateOutcome]
  | 1, _ =>
    obtain ⟨k, hk⟩ := consMicro_of_buf h nofun
    refine ⟨_, ?_, h.setBuf _, nofun⟩
    refine (congrArg stateOutcome hk).trans ?_
    simp only [State.readMicro, hbuf, RingBuffer.afterRead, readStep_copy hcopy, stateOutcome]
  | 2, _ =>
    obtain ⟨k, hk⟩ := consMicro_of_buf h nofun
    refine ⟨_, ?_, (h.setBuf _).responded .ok d, fun _ => List.mem_append_right _ (List.mem_singleton_self _)⟩
    refine (congrArg stateOutcome hk).trans ?_
    simp only [State.readMicro, hbuf, RingBuffer.afterRead, readStep_publish hidle.2.1, stateOutcome]

/-! ## Every interleaving -/

/-- The state after `i` micro-steps of the write and `j` of the read on the buffer that was `q`. -/
structure State.Interleaved (q : RingBuffer) (b : BufId) (xs : List Sample) (m : Mem) (n : Nat) (d : List Sample) (i j : Nat)
    (s : State) : Prop where
  buffer : s.HasBuffer b ((q.afterRead n d j).afterWrite xs m i)
  returned : j = 3 → ⟨.ok, d⟩ ∈ s.responses

/-- Every interleaving ends with both sides published and the read's elements returned. -/
theorem microAllOf_writeEvents_readEvents {c : Config} {s : State} {b : BufId} {q : RingBuffer} {xs : List Sample}
    {m : Mem} {n : Nat} {d : List Sample} (hq : q.BothFree xs m n d) (hs : s.HasBuffer b q) {es : List Event}
    (hperm : es.Perm (writeEvents b xs ++ readEvents b n)) (hws : (writeEvents b xs).Sublist es)
    (hrs : (readEvents b n).Sublist es) : ∃ t, microAllOf c es s = .next t ∧ State.Interleaved q b xs m n d 3 3 t := by
  refine microAllOf_interleaving (p := Event.ofProducer) (At := State.Interleaved q b xs m n d) ?_ ?_ (Nat.zero_le _)
    (Nat.zero_le _) (filter_interleaving hperm hws ?_ ?_)
    (filter_interleaving (hperm.trans List.perm_append_comm) hrs ?_ ?_) ⟨hs, nofun⟩
  · rintro i j s hi ⟨hbuffer, hreturned⟩
    obtain ⟨t, ht, hbuffer', hkept⟩ := microOp_writeEvents (hq.writable.afterRead n d j) hi hbuffer
    exact ⟨t, ht, hbuffer', fun hj => hkept (hreturned hj)⟩
  · rintro i j s hj ⟨hbuffer, _⟩
    have hcomm (j : Nat) := afterWrite_afterRead hq.readable.counted xs m d i j
    rw [hcomm] at hbuffer
    obtain ⟨t, ht, hbuffer', hreturned⟩ := microOp_readEvents (hq.afterWrite i) hj hbuffer
    exact ⟨t, ht, hcomm (j + 1) ▸ hbuffer', hreturned⟩
  all_goals simp [Event.ofProducer]

/-- A write and a read that fit on a locked buffer meeting its invariant. -/
theorem bothFree_of_inv {q : RingBuffer} (hv : q.valid = true) (hm : q.mode = true) (h : q.Inv) (hp : q.prodOp = none)
    (hc : q.consOp = none) {xs : List Sample} (hfits : xs.length ≤ q.free) {n : Nat} (hn : n ≤ q.cnt) :
    ∃ m d, q.Stored xs m ∧ d.map some = q.contents.take n ∧ q.BothFree xs m n d := by
  obtain ⟨m, hst, hw⟩ := write_wrote hv h hp .boot hfits
  obtain ⟨d, hd, hr⟩ := read_took hv h hc .boot hn
  obtain ⟨_, hlock, _, hvalid⟩ := h
  obtain ⟨⟨_, hle, _, _, hwr⟩, _⟩ := hvalid hv
  obtain ⟨m', hcopy, hm'⟩ := write_split hlock hw
  obtain rfl : m = m' := congrArg RingBuffer.mem hm'
  refine ⟨m, d, hst, hd, ⟨hv, ⟨hm, hlock, hp⟩, hfits, hcopy⟩, ⟨hv, ⟨hm, hlock, hc⟩, hn, (read_split hlock hr).1⟩,
    fun k hk => ?_⟩
  refine hst.2 _ fun i hi => write_index_ne hwr (hk.trans_le hn) ?_
  simp only [RingBuffer.free] at hfits
  omega

/-- Settles O17: the buffer reached depends only on how many micro-steps each side has taken. -/
theorem interleavingsOfWriteAndReadAgree : Obligations.InterleavingsOfWriteAndReadAgree := by
  intro b s xs n hv hmode hinv hprod hcons hfits hn
  obtain ⟨hp, hprod⟩ := producerFree_iff.mp hprod
  obtain ⟨hc, hcons⟩ := consumerFree_iff.mp hcons
  obtain ⟨m, d, hst, hd, hboth⟩ := bothFree_of_inv hv hmode hinv hp hc hfits hn
  refine ⟨m, d, hst, hd, fun es hperm hws hrs => ?_⟩
  obtain ⟨t, ht, hbuffer, hreturned⟩ := microAllOf_writeEvents_readEvents hboth ⟨rfl, hprod, hcons⟩ hperm hws hrs
  refine ⟨t, ht, hreturned rfl, hbuffer.buf.trans ?_⟩
  simp only [RingBuffer.afterRead, RingBuffer.afterWrite, RingBuffer.advanceRd, RingBuffer.advanceWr, hp, hc, Nat.sub_add_comm hn]

end Sys2Proof.Machine
end

section
/-! The numeric boundary, the filter stages and chains, and the operations `FLT.CLEAR` and `FLT.RUN` (41_filters.md R161 to
R174). -/

namespace Sys2Proof.Machine

/-! ## `F.sat32` (R168) -/

/-- The numerator divided by the denominator toward zero is the floor of a number that is not negative. -/
theorem num_tdiv_den_of_nonneg {q : Rat} (h : 0 ≤ q) : q.num.tdiv q.den = ⌊q⌋ := by
  rw [Int.tdiv_eq_ediv_of_nonneg (Rat.num_nonneg.mpr h), Rat.floor_def']

/-- The numerator divided by the denominator toward zero is the ceiling of a number that is not positive. -/
theorem num_tdiv_den_of_nonpos {q : Rat} (h : q ≤ 0) : q.num.tdiv q.den = ⌈q⌉ := by
  have hnum : 0 ≤ -q.num := Int.neg_nonneg.mpr (Rat.num_nonpos.mpr h)
  rw [Rat.ceil_def', ← Int.tdiv_eq_ediv_of_nonneg hnum, Int.neg_tdiv, neg_neg]

/-- Rounding toward zero does not leave the range of a Sample. -/
theorem num_tdiv_den_range {q : Rat} (hlo : -2147483648 < q) (hhi : q < 2147483647) :
    -2147483648 ≤ q.num.tdiv q.den ∧ q.num.tdiv q.den ≤ 2147483647 := by
  rcases le_total 0 q with h | h
  · rw [num_tdiv_den_of_nonneg h]
    have hle : ⌊q⌋ ≤ 2147483647 := Int.cast_le.mp ((Int.floor_le q).trans hhi.le)
    have hnonneg : 0 ≤ ⌊q⌋ := Int.floor_nonneg.mpr h
    omega
  · rw [num_tdiv_den_of_nonpos h]
    have hge : -2147483648 ≤ ⌈q⌉ := Int.cast_le.mp (hlo.le.trans (Int.le_ceil q))
    have hnonpos : ⌈q⌉ ≤ 0 := Int.ceil_le.mpr h
    omega

theorem sample_toInt_ofInt {i : Int} (hlo : -2147483648 ≤ i) (hhi : i ≤ 2147483647) : (BitVec.ofInt 32 i).toInt = i := by
  rw [BitVec.toInt_ofInt, Int.bmod_eq_of_le] <;> omega

section
variable {n : Numerics} {v : FVal}

theorem sat32_nan (h : n.val v = .nan) : sat32 n v = .error .nanAtBoundary := by simp only [sat32, h]

theorem sat32_posInf (h : n.val v = .inf false) : sat32 n v = .ok (BitVec.ofInt 32 2147483647) := by simp only [sat32, h]

theorem sat32_negInf (h : n.val v = .inf true) : sat32 n v = .ok (BitVec.ofInt 32 (-2147483648)) := by simp only [sat32, h]

theorem sat32_above {q : Rat} (h : n.val v = .fin q) (hq : 2147483647 ≤ q) : sat32 n v = .ok (BitVec.ofInt 32 2147483647) := by
  simp only [sat32, h, if_pos hq]

theorem sat32_below {q : Rat} (h : n.val v = .fin q) (hq : q ≤ -2147483648) : sat32 n v = .ok (BitVec.ofInt 32 (-2147483648)) := by
  have hlt : ¬ 2147483647 ≤ q := by linarith
  simp only [sat32, h, if_neg hlt, if_pos hq]

theorem sat32_between {q : Rat} (h : n.val v = .fin q) (hlo : -2147483648 < q) (hhi : q < 2147483647) :
    sat32 n v = .ok (BitVec.ofInt 32 (q.num.tdiv q.den)) := by
  simp only [sat32, h, if_neg hhi.not_ge, if_neg hlo.not_ge]

theorem sat32_zero (h : zeroF n v) : sat32 n v = .ok 0 := sat32_between (q := 0) h (by norm_num) (by norm_num)

end

/-- Settles O23: a case for each kind of number `F` has, and in the range of a Sample the floor or the ceiling. -/
theorem saturationRoundsTowardZero : Obligations.SaturationRoundsTowardZero := by
  refine fun n v => ⟨sat32_nan, fun h => ⟨_, sat32_posInf h, by decide⟩, fun h => ⟨_, sat32_negInf h, by decide⟩, fun q h => ?_⟩
  rcases le_or_gt 2147483647 q with habove | hhi
  · exact ⟨_, sat32_above h habove, fun _ => by decide, fun hle => by linarith, fun _ hlt => by linarith⟩
  rcases le_or_gt q (-2147483648) with hbelow | hlo
  · exact ⟨_, sat32_below h hbelow, fun hle => by linarith, fun _ => by decide, fun hlt _ => by linarith⟩
  refine ⟨_, sat32_between h hlo hhi, fun hle => by linarith, fun hle => by linarith, fun _ _ => ?_⟩
  obtain ⟨hge, hle⟩ := num_tdiv_den_range hlo hhi
  rw [sample_toInt_ofInt hge hle]
  refine ⟨fun hq => ?_, fun hq => ?_⟩
  · rw [num_tdiv_den_of_nonneg hq]
    exact ⟨Int.floor_le q, Int.lt_floor_add_one q⟩
  · rw [num_tdiv_den_of_nonpos hq.le]
    exact ⟨Int.le_ceil q, sub_lt_iff_lt_add.mpr (Int.ceil_lt_add_one q)⟩

/-! ## Blocks split at any point (R166, R173) -/

/-- The delay array after the first block is where the second one starts. -/
theorem stageRun_append (n : Numerics) (st : Stage) (d xs ys : List FVal) :
    stageRun n st d (xs ++ ys) =
      ((stageRun n st d xs).1 ++ (stageRun n st (stageRun n st d xs).2 ys).1, (stageRun n st (stageRun n st d xs).2 ys).2) := by
  induction xs generalizing d with
  | nil => rfl
  | cons x xs ih => simp only [List.cons_append, stageRun, ih, List.append_assoc]

theorem runStages_append (n : Numerics) (chain : List Stage) (ds : Delays) (xs ys : List FVal) :
    runStages n chain ds (xs ++ ys) =
      ((runStages n chain ds xs).1 ++ (runStages n chain (runStages n chain ds xs).2 ys).1,
        (runStages n chain (runStages n chain ds xs).2 ys).2) := by
  induction chain generalizing ds xs ys with
  | nil => rfl
  | cons st sts ih => simp only [runStages, stageRun_append, ih, List.headD_cons, List.tail_cons]

/-- Settles O22, by induction over the stages and, within one stage, over its inputs. -/
theorem blockSplitInvariance : Obligations.BlockSplitInvariance := fun n chain ds xs ys =>
  ⟨rfl, runStages_outputs n chain ds xs, Prod.ext_iff.mp (runStages_append n chain ds xs ys)⟩

/-! ## Zero input on zero delay arrays (R174) -/

/-- Every element counts as zero. -/
abbrev AllZero (n : Numerics) (l : List FVal) : Prop := ∀ v ∈ l, zeroF n v

/-- The coefficients of one section are finite, as `finiteCoeffs` asks it of each section of a stage. -/
abbrev finiteSection (n : Numerics) (b : Biquad) : Prop :=
  finiteF n b.b0 ∧ finiteF n b.b1 ∧ finiteF n b.b2 ∧ finiteF n b.a1 ∧ finiteF n b.a2

theorem finiteCoeffs_rbq {n : Numerics} {N : Nat} {q : List Biquad} :
    finiteCoeffs n (.rbq N q) ↔ ∀ b ∈ q, finiteSection n b := Iff.rfl

theorem zeroF_zero (n : Numerics) : zeroF n n.zero := n.ofInt_zero

theorem zeroF.finite {n : Numerics} {v : FVal} (h : zeroF n v) : finiteF n v := ⟨0, h⟩

theorem zeroF_mul {n : Numerics} {c z : FVal} (hc : finiteF n c) (hz : zeroF n z) : zeroF n (n.mul c z) := by
  obtain ⟨q, hq⟩ := hc
  exact n.mul_zero z c q hz hq

/-- What holds of the elements of a list and of the default holds at every index. -/
theorem getD_of_forall {α : Type} {P : α → Prop} {l : List α} {z : α} (h : ∀ v ∈ l, P v) (hz : P z) (i : Nat) : P (l.getD i z) := by
  rcases lt_or_ge i l.length with hi | hi
  · rw [List.getD_eq_getElem _ _ hi]; exact h _ (List.getElem_mem hi)
  · rwa [List.getD_eq_default _ _ hi]

theorem AllZero.getD {n : Numerics} {d : List FVal} (h : AllZero n d) (i : Nat) : zeroF n (d.getD i n.zero) :=
  getD_of_forall h (zeroF_zero n) i

theorem AllZero.firShift {n : Numerics} {d : List FVal} (h : AllZero n d) {x : FVal} (hx : zeroF n x) : AllZero n (firShift d x) :=
  List.forall_mem_cons.mpr ⟨hx, fun v hv => h v (List.mem_of_mem_dropLast hv)⟩

/-- A sum of zeros that starts at zero. -/
theorem firPhase_zero {n : Numerics} (L P : Nat) {h d : List FVal} (hh : ∀ v ∈ h, finiteF n v) (hd : AllZero n d) (p : Nat) :
    zeroF n (firPhase n L P h d p) :=
  List.foldlRecOn _ _ (motive := zeroF n) (zeroF_zero n) fun _ hacc k _ =>
    n.zero_add_zero _ _ hacc (zeroF_mul (getD_of_forall hh (zeroF_zero n).finite (k * L + p)) (hd.getD k))

theorem firInterp_zero {n : Numerics} (L P : Nat) {h d : List FVal} {x : FVal} (hh : ∀ v ∈ h, finiteF n v) (hd : AllZero n d)
    (hx : zeroF n x) : AllZero n (firInterp n L P h d x).1 ∧ AllZero n (firInterp n L P h d x).2 :=
  ⟨List.forall_mem_map.mpr fun p _ => firPhase_zero L P hh (hd.firShift hx) p, hd.firShift hx⟩

/-- The output of a second-order section of finite coefficients on a zero state (R164). -/
theorem biquadOut_zero {n : Numerics} {q : Biquad} (hq : finiteSection n q) {x1 x2 y1 y2 v : FVal} (hx1 : zeroF n x1)
    (hx2 : zeroF n x2) (hy1 : zeroF n y1) (hy2 : zeroF n y2) (hv : zeroF n v) :
    zeroF n (biquadOut n q x1 x2 y1 y2 v) := by
  obtain ⟨hb0, hb1, hb2, ha1, ha2⟩ := hq
  have hforward := n.zero_add_zero _ _ (n.zero_add_zero _ _ (zeroF_mul hb0 hv) (zeroF_mul hb1 hx1)) (zeroF_mul hb2 hx2)
  exact n.zero_sub_zero _ _ (n.zero_sub_zero _ _ hforward (zeroF_mul ha1 hy1)) (zeroF_mul ha2 hy2)

theorem runSections_zero {n : Numerics} {qs : List Biquad} (hq : ∀ b ∈ qs, finiteSection n b) {d : List FVal} {v : FVal}
    (hd : AllZero n d) (hv : zeroF n v) : zeroF n (runSections n qs d v).1 ∧ AllZero n (runSections n qs d v).2 := by
  induction qs generalizing d v with
  | nil => exact ⟨hv, List.forall_mem_nil _⟩
  | cons q qs ih =>
    obtain ⟨hfirst, hrest⟩ := List.forall_mem_cons.mp hq
    have hy := biquadOut_zero hfirst (hd.getD 0) (hd.getD 1) (hd.getD 2) (hd.getD 3) hv
    obtain ⟨hout, hstate⟩ := ih hrest (fun v hv => hd v (List.mem_of_mem_drop hv)) hy
    simp only [runSections, AllZero, List.forall_mem_cons]
    exact ⟨hout, hv, hd.getD 0, hy, hd.getD 2, hstate⟩

theorem replBiquad_zero {n : Numerics} {q : List Biquad} (hq : ∀ b ∈ q, finiteSection n b) {x : FVal} (hx : zeroF n x) (N : Nat)
    {d : List FVal} (hd : AllZero n d) : AllZero n (replBiquad n q x N d).1 ∧ AllZero n (replBiquad n q x N d).2 := by
  induction N generalizing d with
  | zero => exact ⟨List.forall_mem_nil _, hd⟩
  | succ N ih =>
    obtain ⟨hout, hstate⟩ := runSections_zero hq hd hx
    obtain ⟨hrest, hend⟩ := ih hstate
    exact ⟨List.forall_mem_cons.mpr ⟨hout, hrest⟩, hend⟩

theorem stageStep_zero {n : Numerics} {st : Stage} (hst : finiteCoeffs n st) {d : List FVal} {x : FVal} (hd : AllZero n d)
    (hx : zeroF n x) : AllZero n (stageStep n st d x).1 ∧ AllZero n (stageStep n st d x).2 := by
  cases st with
  | firi L P h => exact firInterp_zero L P hst hd hx
  | rbq N q => exact replBiquad_zero (finiteCoeffs_rbq.mp hst) hx N hd

theorem stageRun_zero {n : Numerics} {st : Stage} (hst : finiteCoeffs n st) {d xs : List FVal} (hd : AllZero n d)
    (hxs : AllZero n xs) : AllZero n (stageRun n st d xs).1 ∧ AllZero n (stageRun n st d xs).2 := by
  induction xs generalizing d with
  | nil => exact ⟨List.forall_mem_nil _, hd⟩
  | cons x xs ih =>
    obtain ⟨hx, hxs⟩ := List.forall_mem_cons.mp hxs
    obtain ⟨hout, hstate⟩ := stageStep_zero hst hd hx
    obtain ⟨hrest, hend⟩ := ih hstate hxs
    exact ⟨List.forall_mem_append.mpr ⟨hout, hrest⟩, hend⟩

theorem Delays.Zeros.headD {n : Numerics} {ds : Delays} (h : ds.Zeros n) : AllZero n (ds.headD []) := by
  cases ds with
  | nil => exact List.forall_mem_nil _
  | cons d ds => exact h d List.mem_cons_self

theorem runStages_zero {n : Numerics} {chain : List Stage} (hchain : ∀ st ∈ chain, finiteCoeffs n st) {ds : Delays} {xs : List FVal}
    (hds : ds.Zeros n) (hxs : AllZero n xs) :
    AllZero n (runStages n chain ds xs).1 ∧ Delays.Zeros n (runStages n chain ds xs).2 := by
  induction chain generalizing ds xs with
  | nil => exact ⟨hxs, List.forall_mem_nil _⟩
  | cons st sts ih =>
    obtain ⟨hst, hsts⟩ := List.forall_mem_cons.mp hchain
    obtain ⟨hout, hstate⟩ := stageRun_zero hst hds.headD hxs
    obtain ⟨hrest, hend⟩ := ih hsts (ds := ds.tail) (fun a ha => hds a (List.mem_of_mem_tail ha)) hout
    exact ⟨hrest, List.forall_mem_cons.mpr ⟨hstate, hend⟩⟩

theorem satAll_zero {n : Numerics} {vs : List FVal} (h : AllZero n vs) : satAll n vs = .ok (List.replicate vs.length 0) := by
  induction vs with
  | nil => rfl
  | cons v vs ih =>
    obtain ⟨hv, hvs⟩ := List.forall_mem_cons.mp h
    simp only [satAll, sat32_zero hv, ih hvs, List.length_cons, List.replicate_succ]

/-- The Sample 0 enters a chain as a zero, whatever its finite gain (R169). -/
theorem zeroF_chainInput {n : Numerics} {g : Option FVal} (hg : ∀ v ∈ g, finiteF n v) : zeroF n (chainInput n g 0) := by
  cases g with
  | none => exact zeroF_zero n
  | some g =>
    obtain ⟨q, hq⟩ := hg g rfl
    exact n.zero_mul _ _ q n.ofInt_zero hq

theorem runChain_zero {n : Numerics} {chain : List Stage} (hchain : ∀ st ∈ chain, finiteCoeffs n st) {ds : Delays}
    (hds : ds.Zeros n) (k : Nat) {g : Option FVal} (hg : ∀ v ∈ g, finiteF n v) :
    ∃ e, runChain n chain ds (List.replicate k 0) g = .ok (List.replicate (k * chainRatio chain) 0, e) ∧ Delays.Zeros n e := by
  have hxs : AllZero n ((List.replicate k 0).map (chainInput n g)) :=
    List.forall_mem_map.mpr fun x hx => List.eq_of_mem_replicate hx ▸ zeroF_chainInput hg
  obtain ⟨hout, hend⟩ := runStages_zero hchain hds hxs
  refine ⟨_, ?_, hend⟩
  simp only [runChain, satAll_zero hout, runStages_outputs, List.length_map, List.length_replicate]

/-- Settles O21: zeros stay zeros through the products and sums of one stage, over its inputs, and over the stages of a chain. -/
theorem zeroInputZeroOutput : Obligations.ZeroInputZeroOutput := fun _ _ hchain =>
  ⟨fun st hst _ _ hd hxs => stageRun_zero (hchain st hst) hd hxs, fun _ _ hds hxs => runStages_zero hchain hds hxs,
    fun _ k _ hds hg => runChain_zero hchain hds k hg⟩

/-! ## `FLT.CLEAR` (R171) -/

theorem Delays.zeroed_allAre (z : FVal) (d : Delays) : Delays.AllAre z (d.zeroed z) := by
  simp [Delays.AllAre, Delays.zeroed]

theorem Delays.zeroed_lengths (z : FVal) (d : Delays) : (d.zeroed z).map List.length = d.map List.length := by
  simp [Delays.zeroed]

theorem ChanDelays.get_zeroChan_same (z : FVal) (ch : Chan) (d : ChanDelays) : (d.zeroChan z ch).get ch = (d.get ch).zeroed z :=
  (ChanDelays.get_set d ch ch _).trans (if_pos rfl)

theorem ChanDelays.get_zeroChan_other {ch ch' : Chan} (h : ch' ≠ ch) (z : FVal) (d : ChanDelays) :
    (d.zeroChan z ch).get ch' = d.get ch' := (ChanDelays.get_set d ch ch' _).trans (if_neg h)

/-- One channel zeroed after the other. -/
theorem ChanDelays.get_zeroBoth (z : FVal) (ch : Chan) (d : ChanDelays) :
    ((d.zeroChan z .c0).zeroChan z .c1).get ch = (d.get ch).zeroed z := by
  cases ch <;> rfl

theorem clearAllDelays_get_d1 (c : Config) (s : State) (r : Ratio1) (ch : Chan) :
    ((s.clearAllDelays c).d1.get r).get ch = ((s.d1.get r).get ch).zeroed c.num.zero := by
  simp only [clearAllDelays_d1, Banks1.get_zeroChan, ChanDelays.get_zeroBoth]

theorem clearAllDelays_get_d2 (c : Config) (s : State) (r : Ratio2) (ch : Chan) :
    ((s.clearAllDelays c).d2.get r).get ch = ((s.d2.get r).get ch).zeroed c.num.zero := by
  simp only [clearAllDelays_d2, Banks2.get_zeroChan, ChanDelays.get_zeroBoth]

theorem exec_fltClear (sel : ClearSel) (s : State) : exec (.fltClear sel) s = fltClear Config.current sel s := rfl

/-- Settles O19: the sets of every ratio are zeroed alike, a channel at a time. -/
theorem fltClearZeroesDelays : Obligations.FltClearZeroesDelays := by
  refine fun s => ⟨⟨s.clearAllDelays Config.current, exec_fltClear .all s, rfl, ?_⟩, fun ch => ?_, fun ch => ?_⟩
  · simp only [State.DelaysAre, clearAllDelays_get_d1, clearAllDelays_get_d2]
    exact ⟨⟨fun _ _ => Delays.zeroed_allAre _ _, fun _ _ => Delays.zeroed_allAre _ _⟩, fun _ _ => Delays.zeroed_lengths _ _,
      fun _ _ => Delays.zeroed_lengths _ _⟩
  · refine ⟨s.clearDelay Config.current ⟨.chain1, ch⟩, exec_fltClear _ s, rfl, ?_⟩
    simp only [State.clearDelay, Banks1.get_zeroChan, ChanDelays.get_zeroChan_same]
    exact ⟨fun _ => Delays.zeroed_allAre _ _, fun _ => Delays.zeroed_lengths _ _, fun _ _ h => ChanDelays.get_zeroChan_other h _ _⟩
  · refine ⟨s.clearDelay Config.current ⟨.chain2, ch⟩, exec_fltClear _ s, rfl, ?_⟩
    simp only [State.clearDelay, Banks2.get_zeroChan, ChanDelays.get_zeroChan_same]
    exact ⟨fun _ => Delays.zeroed_allAre _ _, fun _ => Delays.zeroed_lengths _ _, fun _ _ h => ChanDelays.get_zeroChan_other h _ _⟩

/-! ## `FLT.RUN` (R172) -/

theorem runChain2_ok {c : Config} {s : State} {r : Ratio2} {ch : Chan} {x y : List Sample} {d : Delays}
    (h : runChain c.num (c.chain2 r) ((s.d2.get r).get ch) x none = .ok (y, d)) :
    s.runChain2 c r ch x = .ok (y, { s with d2 := s.d2.set r ((s.d2.get r).set ch d) }) := by
  simp only [State.runChain2, h]

theorem exec_fltRun (sel : FltSel) (xs : List Sample) (s : State) : exec (.fltRun sel xs) s = fltRun Config.current sel xs s := rfl

/-- Settles O20: `FLT.RUN` is `RunChain` of the chain its ratio register selects. -/
theorem fltRunRunsChain : Obligations.FltRunRunsChain := by
  refine fun ch xs ys e s => ⟨fun r hr h => ?_, fun r hr h => ?_, fun hr => ?_, fun hr => ?_⟩
  · have hrun := runChain1_ok h
    refine ⟨(runChain1_spec hrun).1, ?_⟩
    simp only [exec_fltRun, fltRun, hr, hrun, fltRunEnd, State.ok]
  · have hrun := runChain2_ok h
    refine ⟨(runChain2_spec hrun).1, ?_⟩
    simp only [exec_fltRun, fltRun, hr, hrun, fltRunEnd, State.ok]
  · simp only [exec_fltRun, fltRun, hr, State.raise]
  · simp only [exec_fltRun, fltRun, hr, State.raise]

end Sys2Proof.Machine
end

section
/-! Ingestion (42_engine.md R190, R191): the Sample of a PCM value, and a packet appended to both EP buffers or to neither. -/

namespace Sys2Proof.Machine

/-! ## The Sample of a PCM value (R191) -/

theorem pcm2Sample_inRange {d : Depth} {p : Word} (h : pcmInRange d p = true) (c : Config) (free : Nat) :
    pcm2Sample c d free p = BitVec.ofInt 32 (p.toInt * 2 ^ (32 - d.bits)) := if_pos h

/-- A value of depth d shifted left by 32 − d bits is a signed number of 32 bits, since 2^(d−1) × 2^(32−d) = 2^31. -/
theorem leftJustified_bounds {d : Depth} {v : Int} (hlo : -2 ^ (d.bits - 1) ≤ v) (hhi : v ≤ 2 ^ (d.bits - 1) - 1) :
    -2 ^ 31 ≤ v * 2 ^ (32 - d.bits) ∧ v * 2 ^ (32 - d.bits) < 2 ^ 31 := by
  cases d with
  | d16 | d24 | d32 => norm_num [Depth.bits] at hlo hhi ⊢; omega

/-- Settles O24: the shifted value is in the range of a Sample, so no bit of it is lost. -/
theorem pcmLeftJustified : Obligations.PcmLeftJustified := by
  intro c d free p hlo hhi
  have hrange : pcmInRange d p = true := by
    simp only [pcmInRange, Bool.and_eq_true, decide_eq_true_eq]
    exact ⟨hlo, hhi⟩
  obtain ⟨hmin, hmax⟩ := leftJustified_bounds hlo hhi
  rw [pcm2Sample_inRange hrange, BitVec.toInt_ofInt_eq_self (by decide) hmin hmax]

/-! ## `USB.PUSH` (R190) -/

theorem exec_usbPush {s : State} (hfree : s.usbcbBlocked = none) (frames : List PcmFrame) :
    exec (.usbPush frames) s = usbPush Config.current frames s := by
  simp only [exec, execUsbPush, hfree, ifFree]

/-- A packet during REINIT (R190). -/
theorem usbPush_discards {s : State} (hr : s.reinitBusy = true) (c : Config) (frames : List PcmFrame) :
    usbPush c frames s = .next (s.respond .ok []) := if_pos hr

theorem usbPush_missing {s : State} (hr : s.reinitBusy = false)
    (h : s.depth = none ∨ s.rb.ep0.valid = false ∨ s.rb.ep1.valid = false) (c : Config) (frames : List PcmFrame) :
    usbPush c frames s = .next (s.respond .notInitialised []) := by
  simp only [usbPush, hr, Bool.false_eq_true, if_false]
  split
  · rfl
  · next hd =>
    have hv : (s.rb.ep0.valid && s.rb.ep1.valid) = false := by
      simpa only [hd, reduceCtorEq, false_or, Bool.and_eq_false_iff] using h
    simp only [hv, Bool.false_eq_true, if_false, State.raise]

/-- What `USB.PUSH` reads holds a value, and no REINIT discards the packet. -/
structure State.PushReady (s : State) (d : Depth) : Prop where
  running : s.reinitBusy = false
  depth : s.depth = some d
  valid0 : s.rb.ep0.valid = true
  valid1 : s.rb.ep1.valid = true

theorem usbPush_full {c : Config} {d : Depth} {frames : List PcmFrame} {s : State} (h : s.PushReady d)
    (hfit : ¬ frames.length ≤ c.least s.rb.ep0.free s.rb.ep1.free) : usbPush c frames s = .next (s.respond .bufferFull []) := by
  simp only [usbPush, h.running, h.depth, h.valid0, h.valid1, hfit, Bool.false_eq_true, Bool.and_self, if_false, if_true,
    State.raise]

theorem usbPush_fits {c : Config} {d : Depth} {frames : List PcmFrame} {s t : State} (h : s.PushReady d)
    (hfit : frames.length ≤ c.least s.rb.ep0.free s.rb.ep1.free) (hw : pushWrite c d frames s = .ok t) :
    usbPush c frames s = .next (t.respond .ok []) := by
  simp only [usbPush, h.running, h.depth, h.valid0, h.valid1, hfit, hw, Bool.false_eq_true, Bool.and_self, if_false, if_true,
    State.ok]

/-- The Samples of a channel appended to its EP buffer. -/
theorem channelSamples_wrote {q : RingBuffer} (hv : q.valid = true) (h : q.Inv) (hp : q.prodOp = none) {frames : List PcmFrame}
    (hn : frames.length ≤ q.free) (a : Agent) (c : Config) (d : Depth) (ch : Chan) (free : Nat) :
    ∃ m, q.Stored (channelSamples c d ch free frames) m ∧
      q.write a (channelSamples c d ch free frames) = .ok (q.wrote frames.length m) := by
  have := write_wrote hv h hp a (xs := channelSamples c d ch free frames) (by rwa [channelSamples_length])
  rwa [channelSamples_length] at this

/-- Settles O25: where the packet fits both EP buffers each of the two writes fits its own, and where it does not none is begun. -/
theorem usbPushAllOrNothing : Obligations.UsbPushAllOrNothing := by
  intro frames s hfree
  rw [exec_usbPush hfree]
  refine ⟨fun hr => usbPush_discards hr _ _, fun hr h => usbPush_missing hr h _ _, fun d hr hd hv0 hv1 hinv => ?_⟩
  have hready : s.PushReady d := ⟨hr, hd, hv0, hv1⟩
  refine ⟨fun hlt => usbPush_full hready (Nat.not_le.mpr hlt), fun hfit => ?_⟩
  obtain ⟨_, hp0, hp1⟩ := usbcbBlocked_eq_none hfree
  obtain ⟨hinv0, hinv1, _⟩ := hinv
  obtain ⟨m0, hstored0, hw0⟩ :=
    channelSamples_wrote hv0 hinv0 hp0 (hfit.trans (Nat.min_le_left _ _)) .usbcb Config.current d .c0 s.pcmFree
  obtain ⟨m1, hstored1, hw1⟩ :=
    channelSamples_wrote hv1 hinv1 hp1 (hfit.trans (Nat.min_le_right _ _)) .usbcb Config.current d .c1 s.pcmFree
  exact ⟨m0, m1, hstored0, hstored1, usbPush_fits hready hfit (pushWrite_two rfl hw0 hw1)⟩

end Sys2Proof.Machine
end

section
/-! The engine and the tick run to completion (42_engine.md R192 to R198): the counts, one channel of an `ENG.RUN` and the two
together, the scenario at the target occupancy, and the three parts of a `TICK`. -/

namespace Sys2Proof.Machine

/-! ## The counts of the engine (R192, R194) -/

theorem nominalCount_current (f : Rate) : nominalCount Config.current f = f.hz * 250 / 1000000 := rfl

/-- Settles O26: with a period of 250 µs the count depends on the rate alone, of which there are six. -/
theorem nominalCounts : Obligations.NominalCounts := by
  refine ⟨fun _ _ => rfl, fun f => ⟨nominalCount_current f, ?_⟩, ?_⟩
  · cases f <;> decide
  · simp only [nominalCount_current, Rate.hz]
    decide

/-- The count of R192, its clamp written out. -/
theorem eq_engCount {c : Config} {f : Rate} {a : Int} {n avail : Nat}
    (h : (n : Int) = min (max ((f.hz * c.tickUs / 1000000 : Nat) + a) 0) avail) : n = engCount c f a avail := by
  rw [engCount, clampInt, nominalCount, ← h, Int.toNat_natCast]

/-! ## One channel of an `ENG.RUN` (R192) -/

/-- The buffers of a channel are initialised, meet their invariants, and `TICKA` may read the one and write the other. -/
structure State.ChannelReady (s : State) (ch : Chan) : Prop where
  epValid : (s.buf (epOf ch)).valid = true
  epInv : (s.buf (epOf ch)).Inv
  epFree : (s.buf (epOf ch)).consOp = none
  midValid : (s.buf (midOf ch)).valid = true
  midInv : (s.buf (midOf ch)).Inv
  midFree : (s.buf (midOf ch)).prodOp = none

theorem channelReady_of_ready {s : State} {f : Rate} {r : Ratio1} (h : s.EngReady f r) (ch : Chan) : s.ChannelReady ch := by
  obtain ⟨-, -, hv, hfree, hep0, hep1, hmid0, hmid1, -⟩ := h
  obtain ⟨-, hc0, hc1, hp0, hp1⟩ := tickaBlocked_eq_none hfree
  have hvalid := valid_of_allValid hv
  cases ch with
  | c0 => exact ⟨hvalid .ep0, hep0, hc0, hvalid .mid0, hmid0, hp0⟩
  | c1 => exact ⟨hvalid .ep1, hep1, hc1, hvalid .mid1, hmid1, hp1⟩

/-- The oldest `n` Samples `x` of a channel's EP buffer give the outputs `y` and the delay arrays `e`, and `m` is the array of its
MID buffer with `y` stored. -/
structure ChannelMoves (c : Config) (r : Ratio1) (g : FVal) (n : Nat) (ch : Chan) (s : State) (x y : List Sample) (e : Delays)
    (m : Mem) : Prop where
  oldest : x.map some = (s.buf (epOf ch)).contents.take n
  chain : runChain c.num (c.chain1 r) ((s.d1.get r).get ch) x (some g) = .ok (y, e)
  count : y.length = n * r.toNat
  stored : (s.buf (midOf ch)).Stored y m

/-- The state after one channel of an `ENG.RUN`. -/
def State.movedChannel (r : Ratio1) (n : Nat) (ch : Chan) (e : Delays) (m : Mem) (s : State) : State :=
  { (s.setBuf (epOf ch) ((s.buf (epOf ch)).took n)).setBuf (midOf ch) ((s.buf (midOf ch)).wrote (n * r.toNat) m) with
    d1 := s.d1.set r ((s.d1.get r).set ch e) }

theorem contents_take_length {q : RingBuffer} {n : Nat} (hn : n ≤ q.cnt) {x : List Sample} (hx : x.map some = q.contents.take n) :
    x.length = n := by
  have := congrArg List.length hx
  rwa [List.length_map, List.length_take, contents_length, Nat.min_eq_left hn] at this

/-- A channel whose counts were checked and whose outputs hold no NaN: its read and its write both end. -/
theorem engChannel_moves {c : Config} {r : Ratio1} {g : FVal} {n : Nat} {ch : Chan} {s : State} (hready : s.ChannelReady ch)
    (hn : n ≤ (s.buf (epOf ch)).cnt) (hfit : n * r.toNat ≤ (s.buf (midOf ch)).free)
    (hdef : ∀ x, x.map some = (s.buf (epOf ch)).contents.take n →
      ∃ p, runChain c.num (c.chain1 r) ((s.d1.get r).get ch) x (some g) = .ok p) :
    ∃ x y e m, ChannelMoves c r g n ch s x y e m ∧ engChannel c r g n ch s = .ok (s.movedChannel r n ch e m) := by
  obtain ⟨x, hx, hread⟩ := read_took hready.epValid hready.epInv hready.epFree (consumerOf (epOf ch)) hn
  obtain ⟨⟨y, e⟩, hchain⟩ := hdef x hx
  have hlen : y.length = n * r.toNat := by
    obtain ⟨hy, _⟩ := runChain_spec hchain
    rw [hy, contents_take_length hn hx, c.chain1_ratio]
  obtain ⟨m, hstored, hwrite⟩ :=
    write_wrote hready.midValid hready.midInv hready.midFree (producerOf (midOf ch)) (xs := y) (hlen.trans_le hfit)
  refine ⟨x, y, e, m, ⟨hx, hchain, hlen, hstored⟩, ?_⟩
  have hr : s.readBuf (epOf ch) n = .ok (x, s.setBuf (epOf ch) ((s.buf (epOf ch)).took n)) := by
    simp only [State.readBuf, hread]
  have hrun := runChain1_ok (s := s.setBuf (epOf ch) ((s.buf (epOf ch)).took n)) hchain
  have hmid : ({ s.setBuf (epOf ch) ((s.buf (epOf ch)).took n) with d1 := s.d1.set r ((s.d1.get r).set ch e) } : State).buf
      (midOf ch) = s.buf (midOf ch) := by cases ch <;> rfl
  rw [hlen] at hwrite
  simp only [engChannel, hr, hrun, setBuf_d1, State.writeBuf, hmid, hwrite]
  rfl

/-! ## Both channels -/

/-- The delay arrays of channel 1 are not those channel 0 advanced (R54). -/
theorem movedChannel_c0_delays (s : State) (r : Ratio1) (n : Nat) (e : Delays) (m : Mem) :
    ((s.movedChannel r n .c0 e m).d1.get r).get .c1 = (s.d1.get r).get .c1 := by
  simp only [State.movedChannel, Banks1.get_set, ChanDelays.get_set, reduceCtorEq, if_true, if_false]

/-- Channel 1 finds after channel 0 what it would have found before. -/
theorem ChannelMoves.before_c0 {c : Config} {r : Ratio1} {g : FVal} {n : Nat} {s : State} {x y : List Sample} {e e0 : Delays}
    {m m0 : Mem} (h : ChannelMoves c r g n .c1 (s.movedChannel r n .c0 e0 m0) x y e m) : ChannelMoves c r g n .c1 s x y e m :=
  ⟨h.oldest, movedChannel_c0_delays s r n e0 m0 ▸ h.chain, h.count, h.stored⟩

theorem State.ChannelReady.after_c0 {s : State} (h : s.ChannelReady .c1) (r : Ratio1) (n : Nat) (e : Delays) (m : Mem) :
    (s.movedChannel r n .c0 e m).ChannelReady .c1 := ⟨h.epValid, h.epInv, h.epFree, h.midValid, h.midInv, h.midFree⟩

theorem Banks1.set_set (d : Banks1) (r : Ratio1) (v w : ChanDelays) : (d.set r v).set r w = d.set r w := by
  cases r <;> rfl

/-- A move of channel 0, on a machine of one channel. -/
theorem engineMoves_one {c : Config} (hc : c.nch = 1) {r : Ratio1} {n : Nat} {s : State} {x y : List Sample} {e : Delays} {m : Mem}
    (h : ChannelMoves c r s.gain n .c0 s x y e m) : EngineMoves c r n s (s.movedChannel r n .c0 e m) := by
  refine ⟨x, [], y, [], e, [], m, .empty, h.oldest, h.chain, h.count, h.stored, fun h2 => by omega, ?_⟩
  simp only [Config.ifTwo_one hc]
  rfl

/-- A move of channel 0 and one of channel 1. -/
theorem engineMoves_two {c : Config} (hc : c.nch = 2) {r : Ratio1} {n : Nat} {s : State} {x0 y0 x1 y1 : List Sample}
    {e0 e1 : Delays} {m0 m1 : Mem} (h0 : ChannelMoves c r s.gain n .c0 s x0 y0 e0 m0)
    (h1 : ChannelMoves c r s.gain n .c1 s x1 y1 e1 m1) :
    EngineMoves c r n s ((s.movedChannel r n .c0 e0 m0).movedChannel r n .c1 e1 m1) := by
  refine ⟨x0, x1, y0, y1, e0, e1, m0, m1, h0.oldest, h0.chain, h0.count, h0.stored,
    fun _ => ⟨h1.oldest, h1.chain, h1.count, h1.stored⟩, ?_⟩
  simp only [Config.ifTwo_two hc]
  have hd1 : ((s.movedChannel r n .c0 e0 m0).movedChannel r n .c1 e1 m1).d1 = s.d1.set r ⟨e0, e1⟩ := by
    simp only [State.movedChannel, Banks1.get_set, Banks1.set_set, if_true]
    rfl
  rw [← hd1]
  rfl

/-! ## `ENG.RUN` (R192, R193) -/

theorem engBody_nothing {c : Config} {f : Rate} {r : Ratio1} {s : State} (h : engCount c f s.adj (s.avail c) = 0) :
    engBody c f r s = .ok ⟨s, .ok, [0]⟩ := if_pos h

theorem engBody_full {c : Config} {f : Rate} {r : Ratio1} {s : State} {n : Nat} (hn : n = engCount c f s.adj (s.avail c))
    (h0 : n ≠ 0) (hfull : s.midFree c < n * r.toNat) : engBody c f r s = .ok ⟨s, .bufferFull, []⟩ := by
  subst hn
  exact (if_neg h0).trans (if_neg (Nat.not_le.mpr hfull))

theorem engBody_channels {c : Config} {f : Rate} {r : Ratio1} {s s₁ s₂ : State} {n : Nat}
    (hn : n = engCount c f s.adj (s.avail c)) (h0 : n ≠ 0) (hfit : n * r.toNat ≤ s.midFree c)
    (h₁ : engChannel c r s.gain n .c0 s = .ok s₁) (h₂ : c.ifTwo (engChannel c r s.gain n .c1 s₁) (.ok s₁) = .ok s₂) :
    engBody c f r s = .ok ⟨s₂, .ok, [countWord n]⟩ := by
  subst hn
  refine (if_neg h0).trans ((if_pos hfit).trans ?_)
  simp only [h₁, h₂]

/-- An engine whose output fits moves its Samples, one channel after the other. -/
theorem engBody_moves {c : Config} {f : Rate} {r : Ratio1} {s : State} {n : Nat} (hready : ∀ ch, s.ChannelReady ch)
    (hn : n = engCount c f s.adj (s.avail c)) (h0 : n ≠ 0) (hfit : n * r.toNat ≤ s.midFree c) (hdef : s.Chain1Defined c r n) :
    ∃ t, EngineMoves c r n s t ∧ engBody c f r s = .ok ⟨t, .ok, [countWord n]⟩ := by
  obtain ⟨hdef0, hdef1⟩ := hdef
  have hle : n ≤ s.avail c := hn ▸ engCount_le c f s.adj _
  obtain ⟨x0, y0, e0, m0, hmoves0, hrun0⟩ :=
    engChannel_moves (hready .c0) (hle.trans (c.least_le_left _ _)) (hfit.trans (c.least_le_left _ _)) hdef0
  rcases c.nch_range with hc | hc
  · exact ⟨_, engineMoves_one hc hmoves0, engBody_channels hn h0 hfit hrun0 (Config.ifTwo_one hc _ _)⟩
  · obtain ⟨x1, y1, e1, m1, hmoves1, hrun1⟩ :=
      engChannel_moves ((hready .c1).after_c0 r n e0 m0) (hle.trans (Config.least_le_right hc _ _))
        (hfit.trans (Config.least_le_right hc _ _)) fun x hx => by
          rw [movedChannel_c0_delays]
          exact hdef1 hc x hx
    exact ⟨_, engineMoves_two hc hmoves0 hmoves1.before_c0,
      engBody_channels hn h0 hfit hrun0 ((Config.ifTwo_two hc _ _).trans hrun1)⟩

/-- The three ends of an engine that is ready, by its count and the free space (R192, R193). -/
theorem engBody_cases {c : Config} {f : Rate} {r : Ratio1} {s : State} {n : Nat} (hready : s.EngReady f r)
    (hn : n = engCount c f s.adj (s.avail c)) :
    (n = 0 → (engBody c f r s).outcome = .next (s.respond .ok [0])) ∧
    (0 < n → s.midFree c < n * r.toNat → (engBody c f r s).outcome = .next (s.respond .bufferFull [])) ∧
    (0 < n → n * r.toNat ≤ s.midFree c → s.Chain1Defined c r n →
      ∃ t : State, EngineMoves c r n s t ∧ (engBody c f r s).outcome = .next (t.respond .ok [BitVec.ofNat 32 n])) := by
  refine ⟨fun h0 => ?_, fun hpos hfull => ?_, fun hpos hfit hdef => ?_⟩
  · rw [engBody_nothing (hn.symm.trans h0)]
    rfl
  · rw [engBody_full hn hpos.ne' hfull]
    rfl
  · obtain ⟨t, hmoves, hrun⟩ := engBody_moves (channelReady_of_ready hready) hn hpos.ne' hfit hdef
    exact ⟨t, hmoves, by rw [hrun]; rfl⟩

theorem exec_engRun {s : State} {f : Rate} {r : Ratio1} (h : s.EngReady f r) :
    exec .engRun s = (engBody Config.current f r s).outcome := by
  rw [← engRun_ready h]
  obtain ⟨-, -, -, hfree, -⟩ := h
  simp only [exec, execEngRun, hfree, ifFree]

/-- Settles O27: `ENG.RUN` is the engine on the registers it reads. -/
theorem engRunMovesSamples : Obligations.EngRunMovesSamples := by
  intro s f r n hready hn
  rw [exec_engRun hready]
  exact engBody_cases hready (eq_engCount hn)

/-! ## The target occupancy (R198) -/

theorem ctlSign_target {s : State} (h : s.rb.mid0.cnt = s.rb.mid0.cap / 2) : ctlSign s = 0 := by
  rw [ctlSign, deviation, h, sub_self]
  rfl

theorem exec_ctlAdj {s : State} (hidle : s.tick = .idle) (hv : s.rb.mid0.valid = true) :
    exec .ctlAdj s = .next ((ctlUpdate s).respond .ok [BitVec.ofInt 32 (ctlSign s)]) := by
  simp only [exec, execCtlAdj, hidle, bne_self_eq_false, ifFree, hv, Bool.false_eq_true, if_false, if_true, State.ok]

/-- The counts of the EP and MID buffers after an `ENG.RUN` (R192). -/
theorem EngineMoves.counts {c : Config} {r : Ratio1} {n : Nat} {s t : State} (h : EngineMoves c r n s t) :
    t.rb.ep0.cnt = s.rb.ep0.cnt - n ∧ t.rb.mid0.cnt = s.rb.mid0.cnt + n * r.toNat ∧
    (c.nch = 2 → t.rb.ep1.cnt = s.rb.ep1.cnt - n ∧ t.rb.mid1.cnt = s.rb.mid1.cnt + n * r.toNat) := by
  obtain ⟨x0, x1, y0, y1, e0, e1, m0, m1, -, -, -, -, -, rfl⟩ := h
  refine ⟨rfl, rfl, fun hc => ?_⟩
  simp only [Config.ifTwo_two hc]
  exact ⟨rfl, rfl⟩

/-- A bound of both counts is one of the least of them. -/
theorem le_least (c : Config) {k v0 v1 : Nat} (h0 : k ≤ v0) (h1 : k ≤ v1) : k ≤ c.least v0 v1 := by
  rcases c.nch_range with hc | hc
  · rwa [Config.least_one hc]
  · rw [Config.least_two hc]
    exact le_min h0 h1

/-- With no deviation the engine takes the nominal count, 48000 × 250 div 1000000 = 12, where it is there. -/
theorem engCount_target {c : Config} (hc : c.tickUs = 250) {avail : Nat} (h : 12 ≤ avail) : engCount c .r48000 0 avail = 12 := by
  simp only [engCount, clampInt, nominalCount, hc, Rate.hz]
  omega

/-- Settles O28: the adjustment is 0, so the engine takes the nominal 12 Samples, and half of each MID buffer has room for
their 96 outputs. -/
theorem targetOccupancyScenario : Obligations.TargetOccupancyScenario := by
  intro c s hus hready ht0 ht1 hep0 hep1 hm0 hm1 hdef
  have hready' : ({ s with adj := 0 } : State).EngReady .r48000 .x8 := hready
  obtain ⟨-, -, hv, hfree, -⟩ := hready
  refine ⟨?_, ?_⟩
  · rw [exec_ctlAdj (tickaBlocked_eq_none hfree).1 (valid_of_allValid hv .mid0), ctlUpdate, ctlSign_target ht0]
    rfl
  · have hn : 12 = engCount c .r48000 0 (s.avail c) := (engCount_target hus (le_least c hep0 hep1)).symm
    have hfit : 12 * 8 ≤ s.midFree c := le_least c (by omega) (by omega)
    obtain ⟨-, -, hmove⟩ := engBody_cases hready' hn
    obtain ⟨t, hmoves, hrun⟩ := hmove (by decide) hfit hdef
    obtain ⟨he0, hmid0, hc1⟩ := hmoves.counts
    refine ⟨t, by rw [engRun_ready hready', hrun]; rfl, ?_, hmid0, fun hc => ⟨?_, (hc1 hc).2⟩⟩
    · rw [he0, Nat.sub_add_cancel hep0]
    · rw [(hc1 hc).1, Nat.sub_add_cancel hep1]

/-! ## `TICK` (R196) -/

theorem exec_tick (s : State) : exec .tick s = tickOp Config.current s := rfl

theorem volUpdate_saturated {c : Config} {v : BitVec 16} {s : State} {g : FVal}
    (h : satUnit c.num (c.volCurve (smoothed c s.volSmooth (c.num.ofInt v.toInt))) = .ok g) :
    volUpdate c v s = .ok { s with volAcq := v, volSmooth := smoothed c s.volSmooth (c.num.ofInt v.toInt), gain := g } := by
  simp only [volUpdate, h]

/-- A tick whose registers and buffers hold values, after its `VOL.SMOOTH` (R196). -/
theorem tickBody_ready {c : Config} {s s' : State} {f : Rate} {r : Ratio1} {v : BitVec 16} (hready : s.EngReady f r)
    (hv : s.volReq = some v) (hvol : volUpdate c v s = .ok s') : tickBody c s = engBody c f r (ctlUpdate s') := by
  obtain ⟨hf, hr, hvalid, -⟩ := hready
  simp only [tickBody, hv, hf, hr, hvalid, if_true, hvol]

/-- An enabled `TICK` whose agent may start is its body (R196). -/
theorem tickOp_free {c : Config} {s : State} (ht : s.timerEnabled = true) (hfree : s.tickaBlocked = none) :
    tickOp c s = (tickBody c s).outcome := by
  have hidle := (tickaBlocked_eq_none hfree).1
  simp only [tickOp, ht, hidle, hfree, ifFree, beq_self_eq_true, Bool.and_self, if_true]

/-- An enabled `TICK` runs the engine on what its volume and controller parts left. -/
theorem tickOp_enabled {c : Config} {s : State} {f : Rate} {r : Ratio1} {v : BitVec 16} {g : FVal} (ht : s.timerEnabled = true)
    (hready : s.EngReady f r) (hv : s.volReq = some v)
    (hg : satUnit c.num (c.volCurve (smoothed c s.volSmooth (c.num.ofInt v.toInt))) = .ok g) :
    tickOp c s = (engBody c f r (afterVolumeAndController c v g (ctlSign s) s)).outcome := by
  have hbody : tickBody c s = engBody c f r (afterVolumeAndController c v g (ctlSign s) s) :=
    tickBody_ready hready hv (volUpdate_saturated hg)
  obtain ⟨-, -, -, hfree, -⟩ := hready
  rw [tickOp_free ht hfree, hbody]

/-- What `TICK` does under every configuration the instruction does under its own. -/
theorem tickOp_and_exec {c : Config} {s : State} {o : Host.Outcome State Fault Refusal} (h : tickOp c s = o) :
    tickOp c s = o ∧ (c = Config.current → exec .tick s = o) := ⟨h, fun hc => by rw [exec_tick, ← hc, h]⟩

/-- Settles O29: the engine, with its three ends, on the state after the volume and the controller. -/
theorem tickSmoothsAdjustsRuns : Obligations.TickSmoothsAdjustsRuns := by
  intro c s f r v g a n ht hready hv hg ha hn
  have htick := tickOp_enabled ht hready hv hg
  have hsign : ctlSign s = a := ha.symm
  rw [hsign] at htick
  have hready' : (afterVolumeAndController c v g a s).EngReady f r := hready
  obtain ⟨hnone, hfull, hmoves⟩ := engBody_cases (c := c) hready' (eq_engCount hn)
  refine ⟨fun h0 => tickOp_and_exec (htick.trans (hnone h0)), fun hpos h => tickOp_and_exec (htick.trans (hfull hpos h)),
    fun hpos hfit hdef => ?_⟩
  obtain ⟨t, hmove, hrun⟩ := hmoves hpos hfit hdef
  exact ⟨t, hmove, tickOp_and_exec (htick.trans hrun)⟩

/-- Settles O30: each of the two conditions of R196 and R305 fails the test `TICK` begins with. -/
theorem tickHeldWhenDisabled : Obligations.TickHeldWhenDisabled := by
  intro s h
  have hheld : ¬ ((s.timerEnabled && s.tick == .idle) = true) := by
    simp only [Bool.and_eq_true, beq_iff_eq, not_and_or, Bool.not_eq_true]
    exact h
  exact if_neg hheld

end Sys2Proof.Machine
end

section
/-! The controller and the volume smoothing (43_controller.md R211 to R220): the adjustment of `CTL.ADJ`, the bytes of a feedback
value, the branches of `SatUnit`, and `VOL.SMOOTH`. -/

namespace Sys2Proof.Machine

/-! ## `CTL.ADJ` (R211, R212) -/

theorem ctlSign_below {s : State} (h : s.rb.mid0.cnt < s.rb.mid0.cap / 2) : ctlSign s = 1 := by
  have hpos : 0 < deviation s.rb.mid0.cap s.rb.mid0.cnt := by rw [deviation]; omega
  exact if_pos hpos

theorem ctlSign_above {s : State} (h : s.rb.mid0.cap / 2 < s.rb.mid0.cnt) : ctlSign s = -1 := by
  have hneg : deviation s.rb.mid0.cap s.rb.mid0.cnt < 0 := by rw [deviation]; omega
  exact (if_neg hneg.not_gt).trans (if_pos hneg)

/-- `CTL.ADJ` writes the sign of the deviation to `adj`, returns it, and writes nothing else. -/
theorem exec_ctlAdj_sign {s : State} {a : Int} (hv : s.rb.mid0.valid = true) (hidle : s.tick = .idle) (ha : ctlSign s = a) :
    exec .ctlAdj s = .next ({ s with adj := a }.respond .ok [BitVec.ofInt 32 a]) := by
  rw [exec_ctlAdj hidle hv, ctlUpdate, ha]

/-- Settles O31: the sign of the deviation in each of its three cases. -/
theorem adjustmentIsSignOfDeviation : Obligations.AdjustmentIsSignOfDeviation := by
  intro s hv hidle
  exact ⟨fun h => exec_ctlAdj_sign hv hidle (ctlSign_below h), fun h => exec_ctlAdj_sign hv hidle (ctlSign_above h),
    fun h => exec_ctlAdj_sign hv hidle (ctlSign_target h)⟩

/-! ## The feedback value (R214, R215, R217) -/

/-- Settles O33: six closed values. -/
theorem feedbackValuesOfRates : Obligations.FeedbackValuesOfRates := by
  unfold Obligations.FeedbackValuesOfRates
  decide

/-- The three bytes are the digits of the feedback value in base 256, the lowest first (R215). -/
theorem toNat_eq_bytes (v : BitVec 24) :
    v.toNat = (v.extractLsb' 0 8).toNat + (v.extractLsb' 8 8).toNat * 2 ^ 8 + (v.extractLsb' 16 8).toNat * 2 ^ 16 := by
  have hlt := v.isLt
  simp only [BitVec.extractLsb'_toNat, Nat.shiftRight_eq_div_pow]
  omega

/-- Settles O34: the digits of every value, and the bytes of two values of R217. -/
theorem feedbackBytesLeastFirst : Obligations.FeedbackBytesLeastFirst := by
  obtain ⟨h44100, h48000, -⟩ := feedbackValuesOfRates
  refine ⟨fun v => ⟨_, _, _, rfl, toNat_eq_bytes v⟩, ?_, ?_⟩
  · rw [h48000]
    decide
  · rw [h44100]
    decide

/-! ## `SatUnit` (R220) -/

section
variable {n : Numerics} {x : FVal}

theorem satUnit_nan (h : n.val x = .nan) : satUnit n x = .error .nanAtBoundary := by simp only [satUnit, h]

theorem satUnit_negInf (h : n.val x = .inf true) : satUnit n x = .ok n.zero := by simp only [satUnit, h]

theorem satUnit_posInf (h : n.val x = .inf false) : satUnit n x = .ok (n.ofReal 1) := by simp only [satUnit, h]

theorem satUnit_below {q : Rat} (h : n.val x = .fin q) (hq : q < 0) : satUnit n x = .ok n.zero := by
  simp only [satUnit, h, if_pos hq]

theorem satUnit_above {q : Rat} (h : n.val x = .fin q) (hq : 1 < q) : satUnit n x = .ok (n.ofReal 1) := by
  have hnonneg : ¬ q < 0 := (zero_lt_one.trans hq).not_gt
  simp only [satUnit, h, if_neg hnonneg, if_pos hq]

theorem satUnit_between {q : Rat} (h : n.val x = .fin q) (hlo : 0 ≤ q) (hhi : q ≤ 1) : satUnit n x = .ok x := by
  simp only [satUnit, h, if_neg hlo.not_gt, if_neg hhi.not_gt]

/-- Where the 1 of `F` stands for 1, a saturated value is a number in [0, 1]. -/
theorem gainInRange_of_saturated {g : FVal} (hone : n.val (n.ofReal 1) = .fin 1) (h : gainSaturated n g) : gainInRange n g := by
  rcases h with rfl | rfl | h
  · exact ⟨0, n.ofInt_zero, le_rfl, zero_le_one⟩
  · exact ⟨1, hone, zero_le_one, le_rfl⟩
  · exact h

end

/-! ## `VOL.SMOOTH` (R218) -/

theorem exec_volSmooth {s : State} (hidle : s.tick = .idle) : exec .volSmooth s = volSmooth Config.current s := by
  simp only [exec, execVolSmooth, hidle, bne_self_eq_false, Bool.false_eq_true, if_false, ifFree]

theorem volSmooth_missing {c : Config} {s : State} (h : s.volReq = none) :
    volSmooth c s = .next (s.respond .notInitialised []) := by
  simp only [volSmooth, h, State.raise]

/-- A `VOL.SMOOTH` whose gain is defined makes its three writes and no other (R218). -/
theorem volSmooth_saturated {c : Config} {s : State} {v : BitVec 16} {g : FVal} (hv : s.volReq = some v)
    (hg : satUnit c.num (c.volCurve (smoothed c s.volSmooth (c.num.ofInt v.toInt))) = .ok g) :
    volSmooth c s = .next
      ({ s with volAcq := v, volSmooth := smoothed c s.volSmooth (c.num.ofInt v.toInt), gain := g }.respond .ok []) := by
  simp only [volSmooth, hv, volUpdate_saturated hg, State.ok]

/-- Settles O35: the missing code, the three writes under every configuration, and the branches of the saturation. -/
theorem volSmoothUpdatesGain : Obligations.VolSmoothUpdatesGain := by
  refine ⟨fun s hidle hv => ?_, fun c s v w g hidle hv hw hg => ?_, fun n x => ?_⟩
  · rw [exec_volSmooth hidle, volSmooth_missing hv]
  · subst hw
    have hrun := volSmooth_saturated hv hg
    refine ⟨hrun, ?_⟩
    rintro rfl
    exact ⟨by rw [Config.current_alpha]; norm_num, (exec_volSmooth hidle).trans hrun⟩
  · exact ⟨satUnit_nan, satUnit_negInf, satUnit_posInf,
      fun q hq => ⟨satUnit_below hq, satUnit_above hq, satUnit_between hq⟩,
      fun hone g hg => gainInRange_of_saturated hone ((satUnit_saturated n x).of_ok hg)⟩

end Sys2Proof.Machine
end

section
/-! The scheduler's state (44_scheduler.md R244): the polls and the last step of REINIT write it, and no other command and no other
micro-step does. -/

namespace Sys2Proof.Machine

/-- The scheduler's state is as it was. -/
def SameSched (s t : State) : Prop := t.schedState = s.schedState

/-- The cycle of R244, with what a poll that goes along it read: the threshold, the occupancy of the MID buffers and that of the queue. -/
inductive SchedMove (thr occ q : Nat) : SchedState → SchedState → Prop where
  | start (h : thr < occ) : SchedMove thr occ q .draining .streaming
  | stop (hocc : occ = 0) (hq : q = 0) : SchedMove thr occ q .streaming .drainingToStop
  | drained : SchedMove thr occ q .drainingToStop .draining

theorem schedMove_iff {thr occ q : Nat} {a b : SchedState} : SchedMove thr occ q a b ↔
    (a = .draining ∧ b = .streaming ∧ thr < occ) ∨ (a = .streaming ∧ b = .drainingToStop ∧ occ = 0 ∧ q = 0) ∨
      (a = .drainingToStop ∧ b = .draining) := by
  constructor
  · rintro (h | ⟨hocc, hq⟩ | _)
    · exact .inl ⟨rfl, rfl, h⟩
    · exact .inr (.inl ⟨rfl, rfl, hocc, hq⟩)
    · exact .inr (.inr ⟨rfl, rfl⟩)
  · rintro (⟨rfl, rfl, h⟩ | ⟨rfl, rfl, hocc, hq⟩ | ⟨rfl, rfl⟩)
    · exact .start h
    · exact .stop hocc hq
    · exact .drained

/-! ## What an operation can answer -/

theorem Yields.mono {P Q : State → Prop} {o : Host.Outcome State Fault Refusal} (h : Yields P o) (hPQ : ∀ t, P t → Q t) :
    Yields Q o := by
  cases o with
  | next t => exact hPQ t h
  | fault f => trivial
  | refused r => trivial

theorem Gives.mono {α : Type} {P Q : α → Prop} {r : Except Fault α} (h : Gives P r) (hPQ : ∀ a, P a → Q a) : Gives Q r :=
  gives_of fun a ha => hPQ a (h.of_ok ha)

/-- A property of states that no response changes. -/
theorem yields_outcome_of {P : State → Prop} (hP : ∀ s r vs, P s → P (s.respond r vs)) {r : OpRes}
    (h : Gives (fun d => P d.state) r) : Yields P r.outcome := by
  cases r with
  | ok d => exact hP _ _ _ h
  | error f => trivial

theorem sameSched_outcome {s : State} {r : OpRes} (h : Gives (fun d => SameSched s d.state) r) : Yields (SameSched s) r.outcome :=
  yields_outcome_of (fun _ _ _ h => h) h

theorem ifTwo_of {α : Type} {P : α → Prop} (c : Config) {two one : α} (htwo : P two) (hone : P one) : P (c.ifTwo two one) := by
  rcases c.nch_range with hc | hc
  · rwa [Config.ifTwo_one hc]
  · rwa [Config.ifTwo_two hc]

/-- What a machine of two channels computes next, or one of one channel already has. -/
theorem ifTwo_ok {α : Type} {P : α → Prop} {c : Config} {two : Except Fault α} {one a : α} (h : c.ifTwo two (.ok one) = .ok a)
    (htwo : Gives P two) (hone : P one) : P a := by
  have hboth : Gives P (c.ifTwo two (.ok one)) := ifTwo_of c htwo hone
  exact hboth.of_ok h

/-! ## The shared operations -/

theorem sameSched_writeBuf (s : State) (b : BufId) (xs : List Sample) : Gives (SameSched s) (s.writeBuf b xs) := gives_of fun t h => by
  obtain ⟨q, _, rfl⟩ := writeBuf_ok h
  rfl

theorem sameSched_readBuf (s : State) (b : BufId) (n : Nat) : Gives (fun p => SameSched s p.2) (s.readBuf b n) :=
  gives_of fun p h => by
    obtain ⟨q, _, hq⟩ := readBuf_ok (d := p.1) (s' := p.2) h
    rw [hq]
    rfl

theorem sameSched_runChain1 (c : Config) (s : State) (r : Ratio1) (ch : Chan) (xs : List Sample) (g : Option FVal) :
    Gives (fun p => SameSched s p.2) (s.runChain1 c r ch xs g) := gives_of fun p h => by
  obtain ⟨_, d, _, hs⟩ := runChain1_spec (ys := p.1) (s' := p.2) h
  rw [hs]
  rfl

theorem sameSched_runChain2 (c : Config) (s : State) (r : Ratio2) (ch : Chan) (xs : List Sample) :
    Gives (fun p => SameSched s p.2) (s.runChain2 c r ch xs) := gives_of fun p h => by
  obtain ⟨_, d, _, hs⟩ := runChain2_spec (ys := p.1) (s' := p.2) h
  rw [hs]
  rfl

theorem sameSched_volUpdate (c : Config) (v : BitVec 16) (s : State) : Gives (SameSched s) (volUpdate c v s) := by
  simp only [volUpdate]
  split
  · rfl
  · trivial

theorem sameSched_dmaComplete (s : State) : SameSched s s.dmaComplete := by
  simp only [State.dmaComplete]
  split <;> rfl

theorem sameSched_dmaService (c : Config) (s : State) : SameSched s (dmaService c s).state := by
  simp only [dmaService]
  split <;> rfl

/-- A micro-step of a write leaves it where the operation around the write does. -/
theorem sameSched_writeMicro {s : State} {b : BufId} {xs : List Sample} {full done : State → State}
    (hfull : ∀ t, SameSched t (full t)) (hdone : ∀ t, SameSched t (done t)) : Gives (SameSched s) (s.writeMicro b xs full done) := by
  simp only [State.writeMicro]
  split
  · rfl
  · exact hdone (s.setBuf b _)
  · exact hfull s
  · rfl
  · trivial

/-- A micro-step of a read leaves it where the operation around the read does. -/
theorem sameSched_readMicro {s : State} {b : BufId} {n : Nat} {few : State → State} {done : List Sample → State → State}
    (hfew : ∀ t, SameSched t (few t)) (hdone : ∀ d t, SameSched t (done d t)) : Gives (SameSched s) (s.readMicro b n few done) := by
  simp only [State.readMicro]
  split
  · rfl
  · exact hdone _ (s.setBuf b _)
  · exact hfew s
  · rfl
  · trivial

/-! ## Commands that leave it -/

theorem sameSched_rbInit (b : BufId) (mode : Bool) (capacity : Word) (s : State) :
    Yields (SameSched s) (execRbInit b mode capacity s) := by
  simp only [execRbInit]
  split_ifs <;> rfl

theorem sameSched_rbClear (b : BufId) (s : State) : Yields (SameSched s) (execRbClear b s) :=
  yields_onValid rfl fun _ => by
    split
    · rfl
    · trivial

/-- The operations that only read a buffer (R133 to R135). -/
theorem sameSched_onValid_ok (b : BufId) (s : State) (vs : RingBuffer → List Word) :
    Yields (SameSched s) (s.onValid b fun q => s.ok (vs q)) := yields_onValid rfl fun _ => rfl

theorem sameSched_writeOp (b : BufId) (xs : List Sample) (s : State) : Yields (SameSched s) (s.writeOp b xs) :=
  yields_onValid rfl fun _ => by
    split_ifs
    · split
      · next hw => exact ((sameSched_writeBuf s b xs).of_ok hw :)
      · trivial
    · rfl
    · trivial

theorem sameSched_readOp (b : BufId) (n : Nat) (few : Result) (s : State) : Yields (SameSched s) (s.readOp b n few) :=
  yields_onValid rfl fun _ => by
    split_ifs
    · split
      · next hr => exact ((sameSched_readBuf s b n).of_ok hr :)
      · trivial
    · rfl
    · trivial

theorem sameSched_fltClear (c : Config) (sel : ClearSel) (s : State) : Yields (SameSched s) (fltClear c sel s) := by
  cases sel with
  | one sel =>
    obtain ⟨chain, ch⟩ := sel
    cases chain <;> rfl
  | all => rfl

theorem sameSched_fltRunEnd {s : State} {r : Except Fault (List Sample × State)} (h : Gives (fun p => SameSched s p.2) r) :
    Yields (SameSched s) (fltRunEnd r) := by
  cases r with
  | ok p => exact h
  | error f => trivial

theorem sameSched_fltRun (c : Config) (sel : FltSel) (xs : List Sample) (s : State) : Yields (SameSched s) (fltRun c sel xs s) := by
  simp only [fltRun]
  split
  · split
    · exact sameSched_fltRunEnd (sameSched_runChain1 c s _ _ _ _)
    · rfl
  · split
    · exact sameSched_fltRunEnd (sameSched_runChain2 c s _ _ _)
    · rfl

theorem sameSched_pushWrite (c : Config) (d : Depth) (frames : List PcmFrame) (s : State) :
    Gives (SameSched s) (pushWrite c d frames s) := by
  simp only [pushWrite]
  split
  · trivial
  · next s₁ h0 =>
    have hs₁ : SameSched s s₁ := (sameSched_writeBuf ..).of_ok h0
    split
    · trivial
    · next s₂ h1 =>
      have hs₂ : SameSched s₁ s₂ := ifTwo_ok h1 (sameSched_writeBuf ..) rfl
      exact hs₂.trans hs₁

theorem sameSched_usbPush (c : Config) (frames : List PcmFrame) (s : State) : Yields (SameSched s) (usbPush c frames s) := by
  simp only [usbPush]
  split
  · rfl
  · split
    · rfl
    · split_ifs
      · split
        · next h => exact ((sameSched_pushWrite c _ frames s).of_ok h :)
        · trivial
      · rfl
      · rfl

theorem sameSched_engChannel (c : Config) (r : Ratio1) (g : FVal) (n : Nat) (ch : Chan) (s : State) :
    Gives (SameSched s) (engChannel c r g n ch s) := gives_of fun t h => by
  obtain ⟨_, _, _, _, _, _, _, _, rfl⟩ := engChannel_ok h
  rfl

theorem sameSched_engBody (c : Config) (f : Rate) (r : Ratio1) (s : State) :
    Gives (fun d => SameSched s d.state) (engBody c f r s) := gives_of fun d h => by
  obtain ⟨_, rfl⟩ | ⟨_, _, rfl⟩ | ⟨_, _, s₁, s₂, h₁, h₂, rfl⟩ := engBody_ok rfl h
  · rfl
  · rfl
  · have hs₁ : SameSched s s₁ := (sameSched_engChannel ..).of_ok h₁
    have hs₂ : SameSched s₁ s₂ := ifTwo_ok h₂ (sameSched_engChannel ..) rfl
    exact hs₂.trans hs₁

theorem sameSched_engRun (c : Config) (s : State) : Gives (fun d => SameSched s d.state) (engRun c s) := by
  simp only [engRun]
  split
  · split_ifs
    · exact sameSched_engBody c _ _ s
    · rfl
  · rfl

theorem sameSched_tickBody (c : Config) (s : State) : Gives (fun d => SameSched s d.state) (tickBody c s) := by
  simp only [tickBody]
  split
  · split_ifs
    · split
      · next s' hvol =>
        have hs' : SameSched s (ctlUpdate s') := ((sameSched_volUpdate c _ s).of_ok hvol :)
        exact (sameSched_engBody c _ _ (ctlUpdate s')).mono fun d hd => hd.trans hs'
      · trivial
    · rfl
  · rfl

theorem sameSched_tickOp (c : Config) (s : State) : Yields (SameSched s) (tickOp c s) := by
  simp only [tickOp]
  split
  · exact yields_ifFree fun _ => sameSched_outcome (sameSched_tickBody c s)
  · rfl

theorem sameSched_ctlAdj (s : State) : Yields (SameSched s) (execCtlAdj s) :=
  yields_ifFree fun _ => by split <;> rfl

theorem sameSched_fbReport (c : Config) (s : State) : Yields (SameSched s) (fbReport c s) := by
  simp only [fbReport]
  split
  · split <;> rfl
  · rfl

theorem sameSched_volSmooth (c : Config) (s : State) : Yields (SameSched s) (volSmooth c s) := by
  simp only [volSmooth]
  split
  · split
    · next h => exact ((sameSched_volUpdate c _ s).of_ok h :)
    · trivial
  · rfl

theorem sameSched_dmaDone (c : Config) (s : State) : SameSched s (dmaDone c s).state := by
  simp only [dmaDone]
  split
  · exact (sameSched_dmaService c s.dmaComplete).trans (sameSched_dmaComplete s)
  · rfl

theorem sameSched_setRate (c : Config) (rate : Word) (s : State) : Yields (SameSched s) (setRate c rate s) := by
  simp only [setRate]
  split
  · split_ifs <;> rfl
  · rfl

theorem sameSched_setDepth (d : BitVec 6) (s : State) : Yields (SameSched s) (execSetDepth d s) := by
  simp only [execSetDepth]
  split <;> rfl

theorem sameSched_setVol (c : Config) (code : BitVec 16) (s : State) : Yields (SameSched s) (setVol c code s) := by
  simp only [setVol]
  split <;> rfl

/-! ## The poll (R230) -/

/-- The state of the scheduler is as it was, or it moved along the cycle. -/
def MovesSched (thr occ q : Nat) (s t : State) : Prop := SameSched s t ∨ SchedMove thr occ q s.schedState t.schedState

/-- The action a poll chose moves the scheduler's state as the values it read allow (R231, R232, R236). -/
theorem moves_pollPlain {depth thr occ q : Nat} {s : State} {a : PollAction} (ha : a = pollChoice depth s.schedState thr occ q) :
    MovesSched thr occ q s (pollPlain a s) := by
  subst ha
  simp only [MovesSched]
  cases s.schedState with
  | draining =>
    simp only [pollChoice]
    split_ifs with h
    · exact .inr (.start h)
    · exact .inl rfl
  | streaming =>
    simp only [pollChoice]
    split_ifs with h
    · exact .inr (.stop h.1 h.2)
    all_goals exact .inl rfl
  | drainingToStop => exact .inr .drained

theorem sameSched_renderInto (c : Config) (r : Ratio2) (x0 x1 : List Sample) (s : State) :
    Gives (SameSched s) (renderInto c r x0 x1 s) := gives_of fun t h => by
  obtain ⟨_, _, _, _, _, rfl⟩ := renderInto_ok h
  rfl

theorem sameSched_render (c : Config) (r : Ratio2) (m : Nat) (s : State) : Gives (SameSched s) (render c r m s) := by
  simp only [render]
  split
  · trivial
  · next p s₁ h0 =>
    have hs₁ : SameSched s s₁ := (sameSched_readBuf s .mid0 m).of_ok h0
    split
    · trivial
    · next x1 s₂ h1 =>
      have hs₂ : SameSched s₁ s₂ :=
        ifTwo_ok (P := fun p : List Sample × State => SameSched s₁ p.2) h1 (sameSched_readBuf s₁ .mid1 m) rfl
      exact (sameSched_renderInto c r _ x1 s₂).mono fun t ht => ht.trans (hs₂.trans hs₁)

theorem moves_txPoll (c : Config) (s : State) :
    Gives (fun d => MovesSched (s.rb.mid0.cap / 2) (s.occ c) s.qCnt s d.state) (txPoll c s) := by
  simp only [txPoll]
  split
  · exact .inl rfl
  · split
    · exact .inl rfl
    · split_ifs
      · refine gives_of fun d hd => ?_
        obtain ⟨_, rfl⟩ | ⟨_, s', hrender, rfl⟩ := pollAct_ok rfl hd
        · exact moves_pollPlain rfl
        · exact .inl ((sameSched_render ..).of_ok hrender)
      · exact .inl rfl

/-! ## REINIT (R273) -/

/-- Only the last step of REINIT writes it, and that sets `DRAINING`. -/
theorem sched_reinitStep (c : Config) (k : ReinitStep) (s : State) :
    Gives (fun t => SameSched s t ∨ k = .clearBuffers ∧ t.schedState = .draining) (reinitStep c k s) := by
  cases k with
  | suspendTimer | reconfigureClock | resumeTimer | abortDma | resetDivider => exact .inl rfl
  | clearBuffers =>
    simp only [reinitStep]
    split
    · next m _ =>
      obtain ⟨_, _, _, _, _, _, h⟩ := reinitFinish_eq c { s with rb := m }
      rw [h]
      exact .inr ⟨trivial, rfl⟩
    · trivial

theorem sched_reinitRun (c : Config) (ks : List ReinitStep) (s : State) :
    Gives (fun t => SameSched s t ∨ t.schedState = .draining) (reinitRun c ks s) := by
  induction ks generalizing s with
  | nil => exact .inl rfl
  | cons k ks ih =>
    simp only [reinitRun]
    split
    · split
      · next s' hs' =>
        refine (ih s').mono fun t ht => ?_
        obtain hsame | ⟨_, hdraining⟩ := (sched_reinitStep c k s).of_ok hs'
        · exact ht.imp_left fun h => h.trans hsame
        · exact .inr (ht.elim (fun h => h.trans hdraining) id)
      · trivial
    · exact .inl rfl

theorem sameSched_mainRelease (s : State) : SameSched s (mainRelease s) := by
  simp only [mainRelease]
  split <;> rfl

theorem sched_reinitOp (c : Config) (s : State) : Yields (fun t => SameSched s t ∨ t.schedState = .draining) (reinitOp c s) := by
  simp only [reinitOp]
  split_ifs
  · exact yields_stateOutcome (sched_reinitRun c reinitSteps (reinitBegin [] s))
  · exact .inl rfl
  · exact .inl rfl

theorem sched_mainPoll (c : Config) (s : State) : Yields (fun t => SameSched s t ∨ t.schedState = .draining) (mainPoll c s) := by
  simp only [mainPoll]
  split_ifs
  · exact yields_stateOutcome (sched_reinitRun c reinitSteps (reinitBegin [1] s))
  · exact .inl (sameSched_mainRelease s)
  · exact .inl rfl
  · exact .inl rfl

/-! ## Every command -/

/-- How a command leaves the scheduler's state: as it was, moved along the cycle by a poll, or set to `DRAINING` by REINIT. -/
inductive CommandSched (i : Instr) (s t : State) : Prop where
  | same (h : SameSched s t)
  | poll (hi : i = .txPoll) (h : SchedMove (s.rb.mid0.cap / 2) (s.occ Config.current) s.qCnt s.schedState t.schedState)
  | reinit (hi : i = .reinit ∨ i = .mainPoll) (h : t.schedState = .draining)

theorem exec_sched (i : Instr) (s : State) : Yields (CommandSched i s) (exec i s) := by
  have same {o : Host.Outcome State Fault Refusal} (h : Yields (SameSched s) o) : Yields (CommandSched i s) o := h.mono fun _ => .same
  cases i with
  | rbInit b mode capacity => exact same (sameSched_rbInit b mode capacity s)
  | rbClear b => exact same (sameSched_rbClear b s)
  | rbIsFull b => exact same (sameSched_onValid_ok b s fun q => [if q.cnt = q.cap then 1 else 0])
  | rbUsed b => exact same (sameSched_onValid_ok b s fun q => [countWord q.cnt])
  | rbRemain b => exact same (sameSched_onValid_ok b s fun q => [countWord q.free])
  | rbWrite1 b x => exact same (sameSched_writeOp b [x] s)
  | rbRead1 b => exact same (sameSched_readOp b 1 _ s)
  | rbWriteN b xs => exact same (sameSched_writeOp b xs s)
  | rbReadN b n => exact same (sameSched_readOp b n _ s)
  | fltClear sel => exact same (sameSched_fltClear _ sel s)
  | fltRun sel xs => exact same (sameSched_fltRun _ sel xs s)
  | usbPush frames => exact same (yields_ifFree fun _ => sameSched_usbPush _ frames s)
  | engRun => exact same (yields_ifFree fun _ => sameSched_outcome (sameSched_engRun _ s))
  | tick => exact same (sameSched_tickOp _ s)
  | ctlAdj => exact same (sameSched_ctlAdj s)
  | fbReport => exact same (yields_ifFree fun _ => sameSched_fbReport _ s)
  | volSmooth => exact same (yields_ifFree fun _ => sameSched_volSmooth _ s)
  | txPoll =>
    have hpoll : Yields (MovesSched (s.rb.mid0.cap / 2) (s.occ Config.current) s.qCnt s) (txPoll Config.current s).outcome :=
      yields_outcome_of (fun _ _ _ h => h) (moves_txPoll Config.current s)
    exact yields_ifFree fun _ => hpoll.mono fun _ h => h.elim .same (.poll rfl)
  | dmaDone => exact same (sameSched_outcome (r := .ok _) (sameSched_dmaDone _ s))
  | setRate rate => exact same (sameSched_setRate _ rate s)
  | setDepth d => exact same (sameSched_setDepth d s)
  | setVol code => exact same (sameSched_setVol _ code s)
  | setMute m => exact same rfl
  | setPower p => exact same rfl
  | reinit => exact yields_ifFree fun _ => (sched_reinitOp _ s).mono fun _ h => h.elim .same (.reinit (.inl rfl))
  | mainPoll => exact yields_ifFree fun _ => (sched_mainPoll _ s).mono fun _ h => h.elim .same (.reinit (.inr rfl))

/-! ## Micro-steps of the agents -/

theorem sameSched_prodMicro (b : BufId) (s : State) : Gives (SameSched s) (prodMicro b s) := by
  simp only [prodMicro]
  split
  · split
    · exact sameSched_writeMicro (fun _ => rfl) fun _ => rfl
    · rfl
  · rfl

theorem sameSched_consMicro (b : BufId) (s : State) : Gives (SameSched s) (consMicro b s) := by
  simp only [consMicro]
  split
  · split
    · exact sameSched_readMicro (fun _ => rfl) fun _ _ => rfl
    · rfl
  · rfl

theorem sameSched_usbMicro (c : Config) (s : State) : Gives (SameSched s) (usbMicro c s) := by
  simp only [usbMicro]
  split
  case h_1 | h_2 => rfl
  case h_3 => split_ifs <;> rfl
  case h_4 => exact sameSched_writeMicro (fun _ => rfl) fun t => ifTwo_of (P := SameSched t) c rfl rfl
  case h_5 => exact sameSched_writeMicro (fun _ => rfl) fun _ => rfl

theorem sameSched_tickRegs (s : State) : Gives (SameSched s) (tickRegs s) := by
  simp only [tickRegs]
  split
  · rfl
  · trivial

/-- A micro-step of the write of a channel's outputs (R195). -/
theorem sameSched_tickOutputs (c : Config) (s : State) (ch : Chan) (e : EngRegs) (n : Nat) (y : List Sample) :
    Gives (SameSched s) (s.writeMicro (midOf ch) y (tickEnd .bufferFull []) (tickNext c ch e n)) :=
  sameSched_writeMicro (fun _ => rfl) fun t => by
    cases ch with
    | c0 => exact ifTwo_of (P := SameSched t) c rfl rfl
    | c1 => rfl

theorem sameSched_tickCopy (c : Config) (ch : Chan) (e : EngRegs) (n : Nat) (x : List Sample) (s : State) :
    Gives (SameSched s) (tickCopy c ch e n x s) := by
  simp only [tickCopy]
  split
  · next y s' hchain =>
    have hs' : SameSched s s' := (sameSched_runChain1 ..).of_ok hchain
    exact (sameSched_tickOutputs c (s'.setBuf (midOf ch) _) ch e n y).mono fun t ht => ht.trans hs'
  · trivial

theorem sameSched_tickWrite (c : Config) (ch : Chan) (e : EngRegs) (n : Nat) (x : List Sample) (s : State) :
    Gives (SameSched s) (tickWrite c ch e n x s) := by
  simp only [tickWrite]
  split
  · split_ifs
    · rfl
    · exact sameSched_tickCopy c ch e n x s
    · rfl
  · exact sameSched_tickCopy c ch e n x s
  · exact sameSched_tickOutputs c s ch e n _

theorem sameSched_tickMicro (c : Config) (s : State) : Gives (SameSched s) (tickMicro c s) := by
  simp only [tickMicro]
  split
  case h_1 | h_2 | h_4 | h_6 => rfl
  case h_3 => exact sameSched_tickRegs s
  case h_5 | h_7 => split_ifs <;> rfl
  case h_8 => exact sameSched_readMicro (fun _ => rfl) fun _ _ => rfl
  case h_9 => exact sameSched_tickWrite c _ _ _ _ s

theorem sameSched_hostMicro (c : Config) (s : State) : Gives (SameSched s) (hostMicro c s) := by
  simp only [hostMicro]
  split
  · rfl
  all_goals
    split
    · rfl
    · trivial

/-- Only the micro-step that takes a poll's action moves the scheduler's state, by what the poll read (R247). -/
theorem moves_pollMicro (c : Config) (s : State) :
    Gives (fun t => SameSched s t ∨
      ∃ occ q, s.poll = .act occ q ∧ SchedMove (s.rb.mid0.cap / 2) occ q s.schedState t.schedState) (pollMicro c s) := by
  simp only [pollMicro]
  split
  case h_1 | h_2 | h_3 | h_4 => exact .inl rfl
  case h_5 occ q hs =>
    split
    · simp only [pollActMicro]
      split
      · exact Gives.mono (P := SameSched { s with poll := .read0 _ }) (sameSched_readMicro (fun _ => rfl) fun _ _ => rfl) fun _ => .inl
      · exact (moves_pollPlain rfl).imp_right fun h => ⟨occ, q, hs, h⟩
    · trivial
  case h_6 | h_7 => exact Gives.mono (P := SameSched s) (sameSched_readMicro (fun _ => rfl) fun _ _ => rfl) fun _ => .inl
  case h_8 =>
    split
    · split
      · next hrender => exact .inl ((sameSched_renderInto ..).of_ok hrender :)
      · trivial
    · trivial

/-- The last of the six steps is the one after five. -/
theorem reinitStep_of_clearBuffers {n : Nat} (h : nextReinitStep n = some .clearBuffers) : n = 5 := by
  match n, h with
  | 5, _ => rfl

theorem sched_mainMicro (c : Config) (s : State) :
    Gives (fun t => SameSched s t ∨ s.reinitStep = 5 ∧ t.schedState = .draining) (mainMicro c s) := by
  simp only [mainMicro]
  split
  · split
    · exact .inl rfl
    · split_ifs
      · exact .inl rfl
      · exact .inl (sameSched_mainRelease { s with main := .idle })
    · split
      · next k hk =>
        split_ifs
        · refine (sched_reinitStep c k s).mono fun t ht => ht.imp_right ?_
          rintro ⟨rfl, hdraining⟩
          exact ⟨reinitStep_of_clearBuffers hk, hdraining⟩
        · exact .inl rfl
      · exact .inl rfl
  · exact .inl rfl

/-! ## First micro-steps -/

theorem sameSched_writeStart (b : BufId) (xs : List Sample) (s : State) : Yields (SameSched s) (writeStart b xs s) :=
  yields_needsValid fun _ => by
    split
    · exact yields_stateOutcome (sameSched_writeMicro (fun _ => rfl) fun _ => rfl)
    · trivial

theorem sameSched_readStart (b : BufId) (n : Nat) (few : Result) (s : State) : Yields (SameSched s) (readStart b n few s) :=
  yields_needsValid fun _ => by
    split
    · exact yields_stateOutcome (sameSched_readMicro (fun _ => rfl) fun _ _ => rfl)
    · trivial

theorem sameSched_usbStart (frames : List PcmFrame) (s : State) : Yields (SameSched s) (usbStart frames s) := by
  simp only [usbStart]
  split
  · rfl
  · split
    · trivial
    · exact yields_needsValid fun _ => yields_needsLocked rfl

theorem sameSched_tickStart (c : Config) (s : State) : Yields (SameSched s) (tickStart c s) := by
  simp only [tickStart]
  split
  · refine yields_afterBoot <| yields_ifFree fun _ => yields_needsValid fun _ => yields_needsLocked ?_
    split
    · split
      · next hvol => exact ((sameSched_volUpdate c _ s).of_ok hvol :)
      · trivial
    · trivial
  · rfl

theorem sameSched_pollStart (s : State) : Yields (SameSched s) (pollStart s) := by
  simp only [pollStart]
  split
  · rfl
  · exact yields_needsValid fun _ => yields_needsLocked rfl

/-- A REINIT that begins has none of its steps behind, so that its first micro-step is not its last (R51). -/
theorem sameSched_mainMicro_begun (c : Config) {s : State} (h : s.reinitStep = 0) : Gives (SameSched s) (mainMicro c s) :=
  (sched_mainMicro c s).mono fun _ ht => ht.resolve_right fun h5 => absurd (h.symm.trans h5.1) (by decide)

theorem sameSched_reinitStart (c : Config) (s : State) : Yields (SameSched s) (reinitStart c s) :=
  yields_needsValid fun _ => by
    split
    · exact yields_stateOutcome (sameSched_mainMicro_begun c (s := reinitBegin [] s) rfl)
    · rfl

/-- The test of a `MAIN.POLL` is a micro-step of its own (log entry 32). -/
theorem sameSched_mainMicro_poll (c : Config) {s : State} (h : s.main = .poll) : Gives (SameSched s) (mainMicro c s) := by
  simp only [mainMicro, h]
  split_ifs
  · rfl
  · exact sameSched_mainRelease { s with main := .idle }
  · rfl

theorem sameSched_mainStart (c : Config) (s : State) : Yields (SameSched s) (mainStart c s) := by
  simp only [mainStart]
  split_ifs
  · exact yields_stateOutcome (sameSched_mainMicro_poll c (s := { s with main := .poll }) rfl)
  · rfl
  · rfl

/-- No first micro-step writes it: a poll begins with reads, and a REINIT with its step 1. -/
theorem sameSched_startOp (c : Config) (i : Instr) (s : State) : Yields (SameSched s) (startOp c i s) := by
  cases i with
  | rbInit b mode capacity => exact sameSched_rbInit b mode capacity s
  | rbClear | fltClear | fltRun => trivial
  | rbIsFull b => exact yields_needsValid fun _ => sameSched_onValid_ok b s fun q => [if q.cnt = q.cap then 1 else 0]
  | rbUsed b => exact yields_needsValid fun _ => sameSched_onValid_ok b s fun q => [countWord q.cnt]
  | rbRemain b => exact yields_needsValid fun _ => sameSched_onValid_ok b s fun q => [countWord q.free]
  | rbWrite1 b x => exact sameSched_writeStart b [x] s
  | rbRead1 b => exact sameSched_readStart b 1 _ s
  | rbWriteN b xs => exact sameSched_writeStart b xs s
  | rbReadN b n => exact sameSched_readStart b n _ s
  | usbPush frames => exact yields_afterBoot (yields_ifFree fun _ => sameSched_usbStart frames s)
  | engRun =>
    exact yields_afterBoot <| yields_ifFree fun _ => yields_needsValid fun _ => yields_needsLocked <|
      yields_stateOutcome (sameSched_tickRegs s)
  | tick => exact sameSched_tickStart c s
  | ctlAdj => exact yields_afterBoot (yields_ifFree fun _ => yields_needsValid fun _ => sameSched_ctlAdj s)
  | fbReport => exact yields_afterBoot (yields_ifFree fun _ => yields_needsValid fun _ => rfl)
  | volSmooth => exact yields_afterBoot (yields_ifFree fun _ => yields_needsValue (sameSched_volSmooth c s))
  | txPoll => exact yields_afterBoot (yields_ifFree fun _ => sameSched_pollStart s)
  | dmaDone =>
    simp only [startOp]
    split
    · exact sameSched_outcome (r := .ok _) (sameSched_dmaService c s)
    · rfl
  | setRate rate => exact sameSched_setRate c rate s
  | setDepth d => exact sameSched_setDepth d s
  | setVol code => exact sameSched_setVol c code s
  | setMute m => rfl
  | setPower p => rfl
  | reinit => exact yields_ifFree fun _ => sameSched_reinitStart c s
  | mainPoll => exact yields_ifFree fun _ => sameSched_mainStart c s

/-! ## Every micro-step -/

/-- How an element of an interleaving leaves the scheduler's state: as it was, moved along the cycle by the action of a poll, or set to
`DRAINING` by the last step of a REINIT. -/
inductive MicroSched (e : Event) (s t : State) : Prop where
  | same (h : SameSched s t)
  | poll (occ q : Nat) (he : e = .agent .pollb) (hs : s.poll = .act occ q)
    (h : SchedMove (s.rb.mid0.cap / 2) occ q s.schedState t.schedState)
  | reinit (he : e = .agent .maina) (hs : s.reinitStep = 5) (h : t.schedState = .draining)

theorem microOp_sched (c : Config) (e : Event) (s : State) : Yields (MicroSched e s) (microOp c e s) := by
  have same {o : Host.Outcome State Fault Refusal} (h : Yields (SameSched s) o) : Yields (MicroSched e s) o := h.mono fun _ => .same
  cases e with
  | start i => exact same (sameSched_startOp c i s)
  | agent a =>
    cases a with
    | usbcb => exact same (yields_stateOutcome (sameSched_usbMicro c s))
    | ticka => exact same (yields_stateOutcome (sameSched_tickMicro c s))
    | maina =>
      exact yields_stateOutcome <| (sched_mainMicro c s).mono fun _ ht => ht.elim .same fun ⟨h5, h⟩ => .reinit rfl h5 h
    | pollb =>
      exact yields_stateOutcome <| (moves_pollMicro c s).mono fun _ ht =>
        ht.elim .same fun ⟨occ, q, hs, h⟩ => .poll occ q rfl hs h
    | hostfb => exact same (yields_stateOutcome (sameSched_hostMicro c s))
    | boot | ctrl | pwr | dmairq => exact same rfl
  | prod b => exact same (yields_stateOutcome (sameSched_prodMicro b s))
  | cons b => exact same (yields_stateOutcome (sameSched_consMicro b s))
  | dmaComplete => exact same (sameSched_dmaComplete s)

/-- Settles O42: of the commands the poll and REINIT write the scheduler's state, of the micro-steps the action of a poll and the last
step of a REINIT. -/
theorem schedulerCycle : Obligations.SchedulerCycle := by
  refine ⟨fun i s t h hne => ?_, fun e s t h hne => ?_⟩
  · obtain hsame | ⟨rfl, hmove⟩ | ⟨hi, hdraining⟩ := (exec_sched i s).of_next h
    · exact absurd hsame hne
    · obtain hstart | hstop | hdrained := schedMove_iff.mp hmove
      · exact .inl ⟨rfl, hstart⟩
      · exact .inr (.inl ⟨rfl, hstop⟩)
      · exact .inr (.inr (.inl ⟨rfl, hdrained⟩))
    · exact .inr (.inr (.inr ⟨hi, hdraining⟩))
  · obtain hsame | ⟨occ, q, rfl, hpoll, hmove⟩ | ⟨rfl, h5, hdraining⟩ := (microOp_sched Config.current e s).of_next h
    · exact absurd hsame hne
    · exact .inl ⟨occ, q, rfl, hpoll, schedMove_iff.mp hmove⟩
    · exact .inr ⟨rfl, h5, hdraining⟩

end Sys2Proof.Machine
end

section
/-! `TX.POLL` and `DMA.DONE` run to completion (44_scheduler.md R230 to R243): the actions that render nothing, the size of a render and
its payload words, the render itself, and the frame the completion interrupt arms. -/

namespace Sys2Proof.Machine

/-! ## The action of a poll (R230 to R236) -/

section
variable {depth thr occ q : Nat}

theorem pollChoice_started (h : thr < occ) : pollChoice depth .draining thr occ q = .started := if_pos h

theorem pollChoice_filling (h : occ ≤ thr) : pollChoice depth .draining thr occ q = .idle := if_neg h.not_gt

theorem pollChoice_stop (hocc : occ = 0) (hq : q = 0) : pollChoice depth .streaming thr occ q = .stopDetected := if_pos ⟨hocc, hq⟩

/-- The queue of a machine has at least one slot, so that a full one is not empty. -/
theorem pollChoice_full (hq : q = depth) (hdepth : 0 < depth) : pollChoice depth .streaming thr occ q = .skipped :=
  (if_neg fun h => by omega).trans (if_pos hq)

theorem pollChoice_waiting (hocc : occ = 0) (hpos : 0 < q) (hq : q < depth) : pollChoice depth .streaming thr occ q = .idle :=
  (if_neg fun h => by omega).trans ((if_neg hq.ne).trans (if_pos hocc))

theorem pollChoice_render (hocc : 0 < occ) (hq : q < depth) : pollChoice depth .streaming thr occ q = .rendered :=
  (if_neg fun h => by omega).trans ((if_neg hq.ne).trans (if_neg hocc.ne'))

end

theorem exec_txPoll {s : State} (h : s.pollbBlocked = none) : exec .txPoll s = (txPoll Config.current s).outcome := by
  simp only [exec, execTxPoll, h, ifFree]

theorem exec_txPoll_held {s : State} (hfree : s.pollbBlocked = none) (h : s.reinitBusy = true) :
    exec .txPoll s = .next (s.respond .ok [6]) := by
  rw [exec_txPoll hfree, txPoll, if_pos h]
  rfl

/-- As a command a poll that is not held is the action its reads choose. -/
theorem exec_txPoll_ready {s : State} {r : Ratio2} (h : s.PollReady r) :
    exec .txPoll s = (pollAct Config.current r (s.occ Config.current) s.qCnt s).outcome := by
  obtain ⟨-, -, -, -, hfree⟩ := id h
  rw [exec_txPoll hfree, txPoll_ready h]

theorem pollAct_plain {c : Config} {r : Ratio2} {occ q : Nat} {s : State} {a : PollAction}
    (ha : pollChoice c.txqDepth s.schedState (s.rb.mid0.cap / 2) occ q = a) (hne : a ≠ .rendered) :
    pollAct c r occ q s = .ok ⟨pollPlain a s, .ok, [a.code]⟩ := by
  simp only [pollAct, ha]

/-- An action that renders nothing writes what it writes, and returns its code. -/
theorem exec_txPoll_plain {s : State} {r : Ratio2} {st : SchedState} {a : PollAction} (h : s.PollReady r) (hst : s.schedState = st)
    (ha : pollChoice 3 st (s.rb.mid0.cap / 2) (s.occ Config.current) s.qCnt = a) (hne : a ≠ .rendered) :
    exec .txPoll s = .next ((pollPlain a s).respond .ok [a.code]) := by
  subst hst
  rw [exec_txPoll_ready h, pollAct_plain ha hne]
  rfl

/-- Settles O36: the tests of R230 in their order choose the action, whose writes are those of `pollPlain`. -/
theorem pollSelectsOneAction : Obligations.PollSelectsOneAction := by
  intro s hfree
  refine ⟨exec_txPoll_held hfree, fun r hr => ⟨fun hst hocc => ?_, fun hst hocc => ?_, fun hst hocc hq => ?_, fun hst hq => ?_,
    fun hst hocc hpos hq => ?_, fun hst => ?_⟩⟩
  · exact exec_txPoll_plain hr hst (pollChoice_started hocc) nofun
  · exact exec_txPoll_plain hr hst (pollChoice_filling hocc) nofun
  · exact exec_txPoll_plain hr hst (pollChoice_stop hocc hq) nofun
  · exact exec_txPoll_plain hr hst (pollChoice_full hq (by decide)) nofun
  · exact exec_txPoll_plain hr hst (pollChoice_waiting hocc hpos hq) nofun
  · exact exec_txPoll_plain (a := .zeroed) hr hst rfl nofun

/-- Settles O37: the full queue is tested before anything is read from a MID buffer. -/
theorem fullQueueSkipsRender : Obligations.FullQueueSkipsRender := by
  intro s r hr hst hq
  exact exec_txPoll_plain hr hst (pollChoice_full hq (by decide)) nofun

/-! ## The size of a render (R239) -/

theorem ratio2_pos (r : Ratio2) : 0 < r.toNat := by cases r <;> decide

theorem ratio2_le (r : Ratio2) : r.toNat ≤ 4 := by cases r <;> decide

/-- The render size is the greatest number within the occupancy, the slot's capacity and the budget. -/
theorem le_renderSize_iff {c : Config} {occ k : Nat} {r : Ratio2} : k ≤ renderSize c occ r ↔
    k ≤ occ ∧ k * r.toNat * c.nch ≤ c.slotCap ∧ ∀ b, c.renderBudget = some b → k ≤ b := by
  have hslot : k ≤ c.slotCap / (c.nch * r.toNat) ↔ k * r.toNat * c.nch ≤ c.slotCap := by
    rw [Nat.le_div_iff_mul_le (Nat.mul_pos c.nch_pos (ratio2_pos r)), Nat.mul_comm c.nch, Nat.mul_assoc]
  simp only [renderSize]
  cases c.renderBudget with
  | none => simp only [le_min_iff, hslot, reduceCtorEq, false_implies, implies_true, and_true]
  | some budget => simp only [le_min_iff, hslot, Option.some.injEq, forall_eq', and_assoc]

/-- A slot takes the outputs of at least one Sample of every channel (R11). -/
theorem renderSize_pos {c : Config} {occ : Nat} {r : Ratio2} (h : 0 < occ) : 0 < renderSize c occ r := by
  refine le_renderSize_iff.mpr ⟨h, ?_, fun b hb => Nat.pos_of_ne_zero ?_⟩
  · calc 1 * r.toNat * c.nch ≤ 4 * c.nch := by rw [Nat.one_mul]; exact Nat.mul_le_mul_right _ (ratio2_le r)
      _ = c.nch * 4 := Nat.mul_comm _ _
      _ ≤ c.slotCap := c.slotCap_ge
  · rintro rfl
    exact c.renderBudget_pos hb

/-- Settles O39: the render size is the greatest number within the three bounds, and 1 is within them. -/
theorem renderSizeIsLargestAllowed : Obligations.RenderSizeIsLargestAllowed := by
  intro c occ r hocc
  obtain ⟨hle, hslot, hbudget⟩ := le_renderSize_iff.mp (le_refl (renderSize c occ r))
  exact ⟨renderSize_pos hocc, hle, hslot, hbudget, fun k hk hs hb => le_renderSize_iff.mpr ⟨hk, hs, hb⟩⟩

/-! ## The payload words of a render (R235, R240) -/

theorem outWord_w32 {c : Config} (h : c.wordSize = .w32) (x : Sample) : outWord c x = x := by simp only [outWord, h]

theorem outWord_w16 {c : Config} (h : c.wordSize = .w16) (x : Sample) : outWord c x = x >>> 16 := by simp only [outWord, h]

/-- Settles O40: a shift by 16 places keeps the upper half of the Sample. -/
theorem outputWordOfSample : Obligations.OutputWordOfSample := by
  refine fun c x => ⟨fun h => outWord_w32 h x, fun h => ?_⟩
  have hval : (outWord c x).toNat = x.toNat / 2 ^ 16 := by
    rw [outWord_w16 h, BitVec.toNat_ushiftRight, Nat.shiftRight_eq_div_pow]
  have hlt := x.isLt
  exact ⟨hval, by omega⟩

theorem interleave_length (c : Config) {y0 y1 : List Sample} (h : y0.length = y1.length) :
    (interleave c y0 y1).length = y0.length * 2 := by
  induction y0 generalizing y1 with
  | nil => simp [interleave]
  | cons x xs ih =>
    cases y1 with
    | nil => cases h
    | cons y ys =>
      simp only [List.length_cons, Nat.add_right_cancel_iff] at h
      simp only [interleave, List.length_cons, ih h]
      omega

/-- Frame `j` of two interleaved channels: its words stand at `2 × j` and `2 × j + 1`. -/
theorem interleave_getD (c : Config) {y0 y1 : List Sample} (j : Nat) (h0 : j < y0.length) (h1 : j < y1.length) :
    (interleave c y0 y1).getD (j * 2) 0 = outWord c y0[j] ∧ (interleave c y0 y1).getD (j * 2 + 1) 0 = outWord c y1[j] := by
  induction j generalizing y0 y1 with
  | zero =>
    match y0, y1, h0, h1 with
    | x :: xs, y :: ys, _, _ => exact ⟨rfl, rfl⟩
  | succ j ih =>
    match y0, y1, h0, h1 with
    | x :: xs, y :: ys, h0, h1 =>
      rw [Nat.succ_mul]
      exact ih (Nat.lt_of_succ_lt_succ h0) (Nat.lt_of_succ_lt_succ h1)

/-- The words of a list that fits are put at the front of a slot, whose other words stay (R56, log entry 19). -/
theorem fill_words {c : Config} {sl : Slot} {ws : List Word} (hsl : sl.Ok c) (hfit : ws.length ≤ c.slotCap) :
    ∃ p, sl.fill c ws = .ok ⟨ws.length, p⟩ ∧ (∀ k < ws.length, p.getZero k = ws.getD k 0) ∧
      ∀ k, ws.length ≤ k → p.getZero k = sl.payload.getZero k := by
  refine ⟨sl.payload.putZeroRun 0 ws, if_pos hfit, fun k hk => ?_, fun k hk => ?_⟩
  · rw [Mem.getZero_putZeroRun hsl.2, if_pos (by omega), Nat.sub_zero]
  · rw [Mem.getZero_putZeroRun hsl.2, if_neg (by omega)]

/-! ## The render (R235) -/

/-- The oldest `m` Samples `x` of a channel's MID buffer give the outputs `y` and the delay arrays `e`. -/
structure RendersChannel (c : Config) (r : Ratio2) (m : Nat) (ch : Chan) (s : State) (x y : List Sample) (e : Delays) : Prop where
  oldest : x.map some = (s.buf (midOf ch)).contents.take m
  chain : runChain c.num (c.chain2 r) ((s.d2.get r).get ch) x none = .ok (y, e)
  count : y.length = m * r.toNat

/-- A MID buffer that holds the Samples of a render, which give no NaN, is read and its Samples go through the chain. -/
theorem rendersChannel {c : Config} {r : Ratio2} {m : Nat} {ch : Chan} {s : State} (hv : (s.buf (midOf ch)).valid = true)
    (hinv : (s.buf (midOf ch)).Inv) (hfree : (s.buf (midOf ch)).consOp = none) (hm : m ≤ (s.buf (midOf ch)).cnt)
    (hdef : ∀ x, x.map some = (s.buf (midOf ch)).contents.take m →
      ∃ p, runChain c.num (c.chain2 r) ((s.d2.get r).get ch) x none = .ok p) :
    ∃ x y e, RendersChannel c r m ch s x y e ∧
      (s.buf (midOf ch)).read .pollb m = .ok (x, (s.buf (midOf ch)).took m) := by
  obtain ⟨x, hx, hread⟩ := read_took hv hinv hfree .pollb hm
  obtain ⟨⟨y, e⟩, hchain⟩ := hdef x hx
  refine ⟨x, y, e, ⟨hx, hchain, ?_⟩, hread⟩
  rw [(runChain_spec hchain).1, contents_take_length hm hx, c.chain2_ratio]

theorem Banks2.set_set (d : Banks2) (r : Ratio2) (v w : ChanDelays) : (d.set r v).set r w = d.set r w := by
  cases r <;> rfl

/-- The two reads of a render on a machine of two channels, and its second stage on what they leave. -/
theorem render_two {c : Config} (hc : c.nch = 2) {r : Ratio2} {m : Nat} {s : State} {x0 x1 : List Sample} {q0 q1 : RingBuffer}
    (h0 : s.rb.mid0.read .pollb m = .ok (x0, q0)) (h1 : s.rb.mid1.read .pollb m = .ok (x1, q1)) :
    render c r m s = renderInto c r x0 x1 ((s.setBuf .mid0 q0).setBuf .mid1 q1) := by
  have hr0 : s.readBuf .mid0 m = .ok (x0, s.setBuf .mid0 q0) := by
    simp only [State.readBuf, State.buf, Buffers.get, consumerOf, h0]
  have hr1 : (s.setBuf .mid0 q0).readBuf .mid1 m = .ok (x1, (s.setBuf .mid0 q0).setBuf .mid1 q1) := by
    simp only [State.readBuf, State.buf, State.setBuf, Buffers.set, Buffers.get, consumerOf, h1]
  simp only [render, Config.ifTwo_two hc, hr0, hr1]

/-- The state with other delay arrays of chain 2. -/
def State.withD2 (d : Banks2) (s : State) : State := { s with d2 := d }

/-- The second stage of two channels: both chains advance, and the slot filled with their outputs enters the queue. -/
theorem renderInto_two {c : Config} (hc : c.nch = 2) {r : Ratio2} {s : State} {x0 x1 y0 y1 : List Sample} {e0 e1 : Delays} {sl : Slot}
    (h0 : runChain c.num (c.chain2 r) (s.d2.get r).c0 x0 none = .ok (y0, e0))
    (h1 : runChain c.num (c.chain2 r) (s.d2.get r).c1 x1 none = .ok (y1, e1))
    (hsl : (s.slotAt s.qWr).fill c (interleave c y0 y1) = .ok sl) :
    renderInto c r x0 x1 s = .ok ((s.withD2 (s.d2.set r ⟨e0, e1⟩)).queued c sl) := by
  have hget : (s.d2.set r ((s.d2.get r).set .c0 e0)).get r = (s.d2.get r).set .c0 e0 := by rw [Banks2.get_set, if_pos rfl]
  have hrun0 : s.runChain2 c r .c0 x0 = .ok (y0, s.withD2 (s.d2.set r ((s.d2.get r).set .c0 e0))) := runChain2_ok h0
  have hrun1 : (s.withD2 (s.d2.set r ((s.d2.get r).set .c0 e0))).runChain2 c r .c1 x1 =
      .ok (y1, s.withD2 (s.d2.set r ⟨e0, e1⟩)) := by
    refine (runChain2_ok (d := e1) (by rw [State.withD2, hget]; exact h1)).trans ?_
    simp only [State.withD2, hget, Banks2.set_set]
    rfl
  have hfill (d : Banks2) : ((s.withD2 d).slotAt (s.withD2 d).qWr).fill c (interleave c y0 y1) = .ok sl := hsl
  simp only [renderInto, Config.ifTwo_two hc, framePayload, hrun0, hrun1, hfill]
  rfl

/-- A render on a machine of two channels whose outputs fit their slot (R235). -/
theorem render_moves {c : Config} (hc : c.nch = 2) {r : Ratio2} {m : Nat} {s : State} {x0 x1 y0 y1 : List Sample} {e0 e1 : Delays}
    (h0 : RendersChannel c r m .c0 s x0 y0 e0) (h1 : RendersChannel c r m .c1 s x1 y1 e1)
    (hr0 : s.rb.mid0.read .pollb m = .ok (x0, s.rb.mid0.took m)) (hr1 : s.rb.mid1.read .pollb m = .ok (x1, s.rb.mid1.took m))
    (hslot : (s.slotAt s.qWr).Ok c) (hfit : m * r.toNat * c.nch ≤ c.slotCap) :
    ∃ t, RenderMoves c r m s t ∧ render c r m s = .ok t := by
  have hlen : (interleave c y0 y1).length = m * r.toNat * c.nch := by
    rw [interleave_length c (h0.count.trans h1.count.symm), h0.count, hc]
  obtain ⟨p, hfill, hwords, hrest⟩ := fill_words hslot (hlen.trans_le hfit)
  rw [hlen] at hfill hwords hrest
  have hframe (j : Nat) (hj : j < m * r.toNat) : p.getZero (j * 2) = outWord c (y0[j]'(h0.count.symm ▸ hj)) ∧
      p.getZero (j * 2 + 1) = outWord c (y1[j]'(h1.count.symm ▸ hj)) := by
    have hbound : j * 2 + 1 < m * r.toNat * c.nch := by
      rw [hc]
      omega
    rw [hwords (j * 2) (Nat.lt_of_succ_lt hbound), hwords (j * 2 + 1) hbound]
    exact interleave_getD c j _ _
  refine ⟨_, ⟨x0, x1, y0, y1, e0, e1, p, h0.oldest, h0.chain, h0.count, fun j hj => ?_,
    fun _ => ⟨h1.oldest, h1.chain, h1.count, fun j hj => ?_⟩, hrest, rfl⟩, ?_⟩
  · rw [hc]
    exact (hframe j (h0.count ▸ hj)).1
  · rw [hc]
    exact (hframe j (h1.count ▸ hj)).2
  · rw [render_two hc hr0 hr1]
    refine (renderInto_two hc (s := (s.setBuf .mid0 (s.rb.mid0.took m)).setBuf .mid1 (s.rb.mid1.took m)) h0.chain h1.chain
      hfill).trans ?_
    simp only [Config.ifTwo_two hc]
    rfl

theorem exec_txPoll_rendered {s t : State} {r : Ratio2} (h : s.PollReady r) (hst : s.schedState = .streaming)
    (hocc : 0 < s.occ Config.current) (hq : s.qCnt < 3)
    (hrender : render Config.current r (renderSize Config.current (s.occ Config.current) r) s = .ok t) :
    exec .txPoll s = .next (t.respond .ok [2]) := by
  have ha : pollChoice Config.current.txqDepth s.schedState (s.rb.mid0.cap / 2) (s.occ Config.current) s.qCnt = .rendered := by
    rw [hst]
    exact pollChoice_render hocc hq
  simp only [exec_txPoll_ready h, pollAct, ha, hrender]
  rfl

/-- Settles O38: the Samples the poll counted are there, and the render size keeps their outputs within the slot. -/
theorem renderFillsAndQueuesSlot : Obligations.RenderFillsAndQueuesSlot := by
  intro s r m hready hbufs hqueue hst hocc hq hm hdef
  obtain ⟨-, -, hv0, hv1, hfree⟩ := id hready
  obtain ⟨-, hc0, hc1⟩ := pollbBlocked_eq_none hfree
  obtain ⟨-, -, hinv0, hinv1, -⟩ := hbufs
  obtain ⟨-, -, -, -, -, hslots, -⟩ := hqueue
  obtain ⟨hdef0, hdef1⟩ := hdef
  obtain ⟨hle, hfit, -⟩ := le_renderSize_iff.mp hm.le
  obtain ⟨x0, y0, e0, h0, hr0⟩ := rendersChannel (ch := .c0) hv0 hinv0 hc0 (hle.trans (Config.least_le_left _ _ _)) hdef0
  obtain ⟨x1, y1, e1, h1, hr1⟩ := rendersChannel (ch := .c1) hv1 hinv1 hc1 (hle.trans (Config.least_le_right rfl _ _)) (hdef1 rfl)
  obtain ⟨t, hmoves, hrender⟩ := render_moves rfl h0 h1 hr0 hr1 (slotAt_ok hslots _) hfit
  exact ⟨t, hmoves, exec_txPoll_rendered hready hst hocc hq (hm ▸ hrender)⟩

/-! ## `DMA.DONE` (R241 to R243) -/

theorem dmaPend_dmaComplete (s : State) : s.dmaComplete.dmaPend = (s.dmaBusy || s.dmaPend) := by
  simp only [State.dmaComplete]
  cases h : s.dmaBusy <;> rfl

/-- The interrupt writes both bits the completion does, so that it leaves the same state with and without it. -/
theorem dmaService_dmaComplete (c : Config) (s : State) : dmaService c s.dmaComplete = dmaService c s := by
  simp only [State.dmaComplete]
  split <;> rfl

theorem exec_dmaDone (s : State) : exec .dmaDone s = OpRes.outcome (.ok (dmaDone Config.current s)) := rfl

theorem dmaDone_held {c : Config} {s : State} (hb : s.dmaBusy = false) (hp : s.dmaPend = false) : dmaDone c s = ⟨s, .held, []⟩ := by
  simp only [dmaDone, dmaPend_dmaComplete, hb, hp, Bool.or_self, Bool.false_and, Bool.false_eq_true, if_false]

theorem dmaDone_serviced {c : Config} {s : State} (h : s.dmaBusy = true ∨ s.dmaPend = true) (hm : s.irqMask = false) :
    dmaDone c s = dmaService c s := by
  have hpend : (s.dmaBusy || s.dmaPend) = true := Bool.or_eq_true_iff.mpr h
  simp only [dmaDone, dmaPend_dmaComplete, dmaService_dmaComplete, hpend, hm, Bool.not_false, Bool.and_self, if_true]

theorem slotAt_eq {s : State} {i : Nat} {sl : Slot} (h : s.slots[i]? = some sl) : s.slotAt i = sl := by
  rw [State.slotAt, List.getD_eq_getElem?_getD, h, Option.getD_some]

/-- Settles O41: the completion comes first, then the interrupt arms the head of the queue or silence. -/
theorem dmaDoneArmsNextFrame : Obligations.DmaDoneArmsNextFrame := by
  refine fun s => ⟨fun hb hp => ?_, fun h hm => ⟨fun sl hpos hsl => ?_, fun hzero => ?_⟩⟩
  · rw [exec_dmaDone, dmaDone_held hb hp]
    rfl
  · rw [exec_dmaDone, dmaDone_serviced h hm, dmaService, if_pos hpos, slotAt_eq hsl]
    rfl
  · rw [exec_dmaDone, dmaDone_serviced h hm, dmaService, if_neg (by omega)]
    rfl

end Sys2Proof.Machine
end

section
/-! Control writes, `REINIT` and `MAIN.POLL` run to completion (45_system.md R260 to R276): which values a control write accepts, what the
six steps leave and where they wait, and the triggers of the main loop. -/

namespace Sys2Proof.Machine

/-! ## Control writes (R260 to R265) -/

theorem rateOfHz_eq_some {n : Nat} {f : Rate} : rateOfHz n = some f ↔ n = f.hz := by
  constructor
  · intro h
    simp only [rateOfHz] at h
    split at h <;> cases h <;> rfl
  · rintro rfl
    cases f <;> rfl

theorem depthOfBits_eq_some {n : Nat} {d : Depth} : depthOfBits n = some d ↔ n = d.bits := by
  constructor
  · intro h
    simp only [depthOfBits] at h
    split at h <;> cases h <;> rfl
  · rintro rfl
    cases d <;> rfl

theorem rateOfHz_eq_none {n : Nat} (h : ∀ f : Rate, n ≠ f.hz) : rateOfHz n = none :=
  Option.eq_none_iff_forall_ne_some.mpr fun f hf => h f (rateOfHz_eq_some.mp hf)

theorem depthOfBits_eq_none {n : Nat} (h : ∀ d : Depth, n ≠ d.bits) : depthOfBits n = none :=
  Option.eq_none_iff_forall_ne_some.mpr fun d hd => h d (depthOfBits_eq_some.mp hd)

/-- A rate keeps its value in the payload word of `SET.RATE`. -/
theorem rate_word (f : Rate) : (BitVec.ofNat 32 f.hz).toNat = f.hz := by cases f <;> rfl

/-- A depth keeps its value in the six bits of `SET.DEPTH`. -/
theorem depth_field (d : Depth) : (BitVec.ofNat 6 d.bits).toNat = d.bits := by cases d <;> rfl

/-- Every rate the model has is one the machine accepts (R41). -/
theorem mem_rates_current (f : Rate) : f ∈ Config.current.rates := by
  rw [Config.current_rates]
  cases f <;> decide

theorem exec_setRate_legal {w : Word} {f : Rate} (h : w.toNat = f.hz) (s : State) :
    exec (.setRate w) s = .next ({ s with fNom := some f }.respond .ok []) := by
  simp only [exec, execSetRate, setRate, rateOfHz_eq_some.mpr h, if_pos (mem_rates_current f), State.ok]

theorem exec_setRate_illegal {w : Word} (h : ∀ f : Rate, w.toNat ≠ f.hz) (s : State) :
    exec (.setRate w) s = .next (s.respond .ok []) := by
  simp only [exec, execSetRate, setRate, rateOfHz_eq_none h, State.ok]

theorem exec_setDepth_legal {w : BitVec 6} {d : Depth} (h : w.toNat = d.bits) (s : State) :
    exec (.setDepth w) s = .next ({ s with depth := some d }.respond .ok []) := by
  simp only [exec, execSetDepth, depthOfBits_eq_some.mpr h, State.ok]

theorem exec_setDepth_illegal {w : BitVec 6} (h : ∀ d : Depth, w.toNat ≠ d.bits) (s : State) :
    exec (.setDepth w) s = .next (s.respond .ok []) := by
  simp only [exec, execSetDepth, depthOfBits_eq_none h, State.ok]

theorem exec_setVol_legal {v : BitVec 16} (h : volLegal Config.current v) (s : State) :
    exec (.setVol v) s = .next ({ s with volReq := some v }.respond .ok []) := by
  simp only [exec, execSetVol, setVol, if_pos h, State.ok]

theorem exec_setVol_illegal {v : BitVec 16} (h : ¬ volLegal Config.current v) (s : State) :
    exec (.setVol v) s = .next (s.respond .ok []) := by
  simp only [exec, execSetVol, setVol, if_neg h, State.ok]

theorem exec_setMute (m : Bool) (s : State) : exec (.setMute m) s = .next ({ s with mute := some m }.respond .ok []) := rfl

/-- The state a power-mode toggle leaves (R264). -/
def State.powerSet (s : State) (p : Bool) : State := { s with pmSignal := some p }.respond .ok []

theorem exec_setPower (p : Bool) (s : State) : exec (.setPower p) s = .next (s.powerSet p) := rfl

/-- The legal volume codes of the machine are -16384 to 0 (R10, R43). -/
theorem volLegal_current {v : BitVec 16} : volLegal Config.current v ↔ -16384 ≤ v.toInt ∧ v.toInt ≤ 0 := Iff.rfl

/-- Settles O43: a rate and a depth are legal when they are one of the listed values, a volume code when it is in its range. -/
theorem controlWritesOneRegister : Obligations.ControlWritesOneRegister := by
  refine fun s => ⟨fun f => exec_setRate_legal (rate_word f) s, fun _ h => exec_setRate_illegal h s,
    fun d => exec_setDepth_legal (depth_field d) s, fun _ h => exec_setDepth_illegal h s,
    fun v hlo hhi => exec_setVol_legal (volLegal_current.mpr ⟨hlo, hhi⟩) s, fun v h => exec_setVol_illegal ?_ s,
    fun m => exec_setMute m s, fun p => exec_setPower p s⟩
  rw [volLegal_current]
  omega

/-! ## The run of the six steps (R266, R274) -/

theorem reinitRun_enabled {c : Config} {k : ReinitStep} {ks : List ReinitStep} {s t : State} (he : reinitEnabled k s = true)
    (hk : reinitStep c k s = .ok t) : reinitRun c (k :: ks) s = reinitRun c ks t := by
  simp only [reinitRun, he, if_true, hk]

theorem reinitRun_waits {c : Config} {k : ReinitStep} {s : State} (he : reinitEnabled k s = false) (ks : List ReinitStep) :
    reinitRun c (k :: ks) s = .ok s := by
  simp only [reinitRun, he, Bool.false_eq_true, if_false]

theorem reinitEnabled_noPoll {k : ReinitStep} {s : State} (hk : k ≠ .clearBuffers) (h : s.pollBusy = false) :
    reinitEnabled k s = true := by
  cases k with
  | suspendTimer | resumeTimer | resetDivider => rfl
  | reconfigureClock | abortDma => simp only [reinitEnabled, h, Bool.not_false]
  | clearBuffers => exact absurd rfl hk

/-- A poll in progress lets step 1 run and holds step 2 (R274). -/
theorem reinitRun_poll {c : Config} {s : State} (h : s.pollBusy = true) : reinitRun c reinitSteps s = .ok (reinitSuspend s) := by
  have hwait : reinitEnabled .reconfigureClock (reinitSuspend s) = false := by
    simp only [reinitEnabled, reinitSuspend, h, Bool.not_true]
  exact (reinitRun_enabled rfl rfl).trans (reinitRun_waits hwait _)

/-- The state a REINIT is in after its steps 1 to 5. -/
def beforeClear (c : Config) (s : State) : State := reinitDivider (reinitAbort (reinitResume (reinitClock c (reinitSuspend s))))

/-- What steps 1 to 5 write: neither a buffer nor a delay array (R267 to R271). -/
theorem beforeClear_eq (c : Config) (s : State) : beforeClear c s = { s with
    fCur := s.fNom, pmCur := s.pmSignal, r1 := s.fNom.map c.r1Of, r2 := s.pmSignal.map c.r2Of
    qWr := 0, qRd := 0, qCnt := 0, slots := s.slots.map fun _ => .zeroed
    irqMask := false, dmaPend := false, dmaBusy := false, dmaCur := ⟨0, []⟩
    outRate := outputRate s.fNom (s.fNom.map c.r1Of) (s.pmSignal.map c.r2Of)
    timerEnabled := true, reinitBusy := true, reinitStep := 5 } := rfl

/-- Without a poll in progress steps 1 to 5 run (R274). -/
theorem reinitRun_beforeClear {c : Config} {s : State} (h : s.pollBusy = false) :
    reinitRun c reinitSteps s = reinitRun c [.clearBuffers] (beforeClear c s) := by
  have hclock : reinitEnabled .reconfigureClock (reinitSuspend s) = true := reinitEnabled_noPoll nofun h
  have habort : reinitEnabled .abortDma (reinitResume (reinitClock c (reinitSuspend s))) = true := reinitEnabled_noPoll nofun h
  rw [reinitSteps, reinitRun_enabled rfl rfl, reinitRun_enabled hclock rfl, reinitRun_enabled rfl rfl, reinitRun_enabled habort rfl,
    reinitRun_enabled rfl rfl, beforeClear]

/-- A push in progress holds step 6 (R274). -/
theorem reinitRun_push {c : Config} {s : State} (hpoll : s.pollBusy = false) (hpush : s.pushBusy = true) :
    reinitRun c reinitSteps s = .ok (beforeClear c s) := by
  have hwait : reinitEnabled .clearBuffers (beforeClear c s) = false := by
    have hbusy : (beforeClear c s).pushBusy = true := hpush
    simp only [reinitEnabled, hbusy, Bool.not_true, Bool.false_and]
  exact (reinitRun_beforeClear hpoll).trans (reinitRun_waits hwait _)

/-! ## What a whole REINIT leaves (R337) -/

/-- The mute engagement, whose test also decides its event (R273). -/
theorem engageMute_writes (s : State) : engageMute s = { s with
    muteCur := s.muteCur || s.mute == some true
    dacEvents := s.dacEvents ++ if s.mute = some true ∧ s.muteCur = false then [DacOp.setMute] else [] } := by
  by_cases h : s.mute = some true ∧ s.muteCur = false
  · simp only [engageMute, h, and_self, if_true, beq_self_eq_true, Bool.or_true]
  · have hmute : (s.muteCur || s.mute == some true) = s.muteCur := by
      cases hcur : s.muteCur with
      | true => rfl
      | false => simpa [hcur] using h
    simp only [engageMute, if_neg h, hmute, List.append_nil]

/-- The state with its buffers cleared, all four of them (R273). -/
def State.withClearedBuffers (s : State) : State :=
  { s with rb := ⟨s.rb.ep0.cleared, s.rb.ep1.cleared, s.rb.mid0.cleared, s.rb.mid1.cleared⟩ }

/-- With no operation in flight step 6 runs (R273). -/
theorem reinitRun_clear {c : Config} {s : State} (hbufs : s.BuffersQuiet) (hpoll : s.pollBusy = false) (hpush : s.pushBusy = false) :
    reinitRun c [.clearBuffers] s = .ok (reinitEnd (reinitRest c s.withClearedBuffers)) := by
  have he : reinitEnabled .clearBuffers s = true := by
    simp only [reinitEnabled, hpoll, hpush, Bool.not_false, Bool.and_self]
  have hstep : reinitStep c .clearBuffers s = .ok (reinitEnd (reinitRest c s.withClearedBuffers)) := by
    simp only [reinitStep, clearBuffers_quiet hbufs, State.withClearedBuffers]
  exact reinitRun_enabled he hstep

/-- The writes of the six steps together are those R337 lists. -/
theorem reinitEnd_afterReinit {c : Config} {s : State} (hm : s.main = .idle) (vs : List Word) :
    reinitEnd (reinitRest c (beforeClear c (reinitBegin vs s)).withClearedBuffers) = (afterReinit c s).respond .ok vs := by
  simp only [reinitRest, engageMute_writes]
  cases s
  cases hm
  rfl

/-- From a state with no operation in flight a REINIT runs to its end. -/
theorem reinitRun_quiet {s : State} (hq : s.Quiet) (c : Config) (vs : List Word) :
    reinitRun c reinitSteps (reinitBegin vs s) = .ok ((afterReinit c s).respond .ok vs) := by
  obtain ⟨-, -, -, hm, -, hbufs, hpoll, hpush, -⟩ := hq
  have hclear : reinitRun c [.clearBuffers] (beforeClear c (reinitBegin vs s)) =
      .ok (reinitEnd (reinitRest c (beforeClear c (reinitBegin vs s)).withClearedBuffers)) := by
    apply reinitRun_clear <;> simpa only [State.BuffersQuiet, beforeClear_eq, reinitBegin]
  rw [reinitRun_beforeClear (s := reinitBegin vs s) hpoll, hclear, reinitEnd_afterReinit hm]

/-! ## `REINIT` and `MAIN.POLL` as commands (R266, R272) -/

theorem exec_reinit {s : State} (hm : s.main = .idle) : exec .reinit s = reinitOp Config.current s := by
  simp only [exec, execReinit, mainaBlocked_idle hm, ifFree]

theorem exec_mainPoll {s : State} (hm : s.main = .idle) : exec .mainPoll s = mainPoll Config.current s := by
  simp only [exec, execMainPoll, mainaBlocked_idle hm, ifFree]

theorem exec_reinit_ready {s : State} (hm : s.main = .idle) (ht : s.tick = .idle) (hr : s.reinitReady = true) :
    exec .reinit s = stateOutcome (reinitRun Config.current reinitSteps (reinitBegin [] s)) := by
  simp only [exec_reinit hm, reinitOp, hr, ht, beq_self_eq_true, if_true]

theorem exec_reinit_notReady {s : State} (hm : s.main = .idle) (hr : s.reinitReady = false) :
    exec .reinit s = .next (s.respond .notInitialised []) := by
  simp only [exec_reinit hm, reinitOp, hr, Bool.false_eq_true, if_false, State.raise]

theorem exec_mainPoll_notReady {s : State} (hm : s.main = .idle) (hr : s.reinitReady = false) :
    exec .mainPoll s = .next (s.respond .notInitialised []) := by
  simp only [exec_mainPoll hm, mainPoll, hr, Bool.false_eq_true, if_false, State.raise]

theorem exec_mainPoll_pending {s : State} (hq : s.Quiet) (hr : s.reinitReady = true) (hp : s.pending = true) :
    exec .mainPoll s = .next ((afterReinit Config.current s).respond .ok [1]) := by
  obtain ⟨-, ht, -, hm, -⟩ := id hq
  simp only [exec_mainPoll hm, mainPoll, hr, ht, hp, beq_self_eq_true, if_true, reinitRun_quiet hq, stateOutcome]

theorem exec_mainPoll_release {s : State} (hq : s.Quiet) (hr : s.reinitReady = true) (hp : ¬ s.pending = true) :
    exec .mainPoll s = .next (mainRelease s) := by
  obtain ⟨-, ht, -, hm, -⟩ := hq
  simp only [exec_mainPoll hm, mainPoll, hr, ht, beq_self_eq_true, if_true, if_neg hp]

/-- A register or a buffer missing is what `REINIT` and `MAIN.POLL` test (R266, log entry 25). -/
theorem reinitReady_missing {s : State} (h : s.fNom = none ∨ s.pmSignal = none ∨ s.mute = none ∨ s.allValid = false) :
    s.reinitReady = false := by
  rcases h with h | h | h | h <;> simp [State.reinitReady, h]

/-- Settles O44: with no operation in flight every step runs, and what is missing is tested before any of them. -/
theorem reinitRunsSixSteps : Obligations.ReinitRunsSixSteps := by
  refine fun s => ⟨fun hq hf hp hm hv => ?_, fun hm hmissing => ?_⟩
  · obtain ⟨-, ht, -, hmain, -⟩ := id hq
    rw [exec_reinit_ready hmain ht (reinitReady_of hf hp hm hv), reinitRun_quiet hq, stateOutcome]
  · have hr := reinitReady_missing hmissing
    exact ⟨exec_reinit_notReady hm hr, exec_mainPoll_notReady hm hr⟩

/-- Settles O45: the poll holds step 2, and the push alone only step 6, before which the buffers and the delays are untouched. -/
theorem reinitWaitsForInterlock : Obligations.ReinitWaitsForInterlock := by
  intro s hmain ht hf hp hm hv
  rw [exec_reinit_ready hmain ht (reinitReady_of hf hp hm hv)]
  refine ⟨fun hpoll => ?_, fun hpoll hpush => ⟨beforeClear Config.current (reinitBegin [] s), ?_, ?_⟩⟩
  · rw [reinitRun_poll (s := reinitBegin [] s) hpoll]
    rfl
  · rw [reinitRun_push (s := reinitBegin [] s) hpoll hpush, stateOutcome]
  · simp only [beforeClear_eq, reinitBegin, and_self]

/-! ## The triggers of the main loop (R272, R275) -/

theorem pending_iff {s : State} : s.pending = true ↔ s.fCur = none ∨ s.fNom ≠ s.fCur ∨ s.pmCur = none ∨ s.pmSignal ≠ s.pmCur ∨
    (s.mute = some true ∧ s.muteCur = false) := by
  simp only [State.pending, Bool.or_eq_true, Bool.and_eq_true, Option.isNone_iff_eq_none, bne_iff_ne, beq_iff_eq,
    Bool.not_eq_true', or_assoc]

/-- Latched registers that agree with the requested ones leave only the mute as a trigger. -/
theorem not_pending_of_latched {s : State} (hf : s.fCur ≠ none) (hf' : s.fNom = s.fCur) (hp : s.pmCur ≠ none)
    (hp' : s.pmSignal = s.pmCur) (hmute : ¬ (s.mute = some true ∧ s.muteCur = false)) : ¬ s.pending = true := by
  rw [pending_iff]
  rintro (h | h | h | h | h)
  exacts [hf h, h hf', hp h, h hp', hmute h]

theorem mainRelease_unmutes {s : State} (hm : s.mute = some false) (hcur : s.muteCur = true) : mainRelease s =
    { s with muteCur := false, dacEvents := s.dacEvents ++ [DacOp.setUnmute] }.respond .ok [2] := if_pos ⟨hm, hcur⟩

/-- A mute that is as requested is not released. -/
theorem mainRelease_keeps {s : State} (hm : s.mute = some s.muteCur) : mainRelease s = s.respond .ok [0] := by
  refine if_neg fun ⟨hoff, hon⟩ => ?_
  rw [hon, hoff] at hm
  cases hm

/-- Settles O46: a trigger starts the REINIT; without one only the mute is left to look at. -/
theorem mainPollDetectsTriggers : Obligations.MainPollDetectsTriggers := by
  intro s hq hf hp hv m hm
  have hr : s.reinitReady = true := reinitReady_of hf hp (by simp [hm]) hv
  refine ⟨fun h => exec_mainPoll_pending hq hr (pending_iff.mpr ?_), fun hfc hfeq hpc hpeq => ⟨fun hoff hon => ?_, fun hsame => ?_⟩⟩
  · simpa only [hm, Option.some.injEq] using h
  · rw [exec_mainPoll_release hq hr (not_pending_of_latched hfc hfeq hpc hpeq (by simp [hon])), mainRelease_unmutes (hoff ▸ hm) hon]
  · rw [exec_mainPoll_release hq hr (not_pending_of_latched hfc hfeq hpc hpeq (by simp [hm, hsame])), mainRelease_keeps (hsame ▸ hm)]

/-! ## A power-mode toggle in mid-stream (R276) -/

theorem afterReinit_buf (c : Config) (s : State) (b : BufId) : (afterReinit c s).buf b = (s.buf b).cleared := by
  cases b <;> rfl

/-- A REINIT zeroes the delay arrays as `FLT.CLEAR ALL` does (R171, R273). -/
theorem afterReinit_delaysAre (c : Config) (s : State) : (afterReinit c s).DelaysAre c.num.zero := by
  have hd1 : (afterReinit c s).d1 = (s.clearAllDelays c).d1 := rfl
  have hd2 : (afterReinit c s).d2 = (s.clearAllDelays c).d2 := rfl
  simp only [State.DelaysAre, hd1, hd2, clearAllDelays_get_d1, clearAllDelays_get_d2]
  exact ⟨fun _ _ => Delays.zeroed_allAre _ _, fun _ _ => Delays.zeroed_allAre _ _⟩

/-- The output rate is that of the latched rate and power mode (R271, R277). -/
theorem afterReinit_outRate {c : Config} {s : State} {f : Rate} {p : Bool} (hf : s.fNom = some f) (hp : s.pmSignal = some p) :
    (afterReinit c s).outRate = some (f.hz * (c.r1Of f).toNat * (c.r2Of p).toNat) := by
  simp only [afterReinit, hf, hp, Option.map_some, outputRate]

/-- Settles O47: the toggle is a trigger, so that the main loop runs a whole REINIT on it. -/
theorem powerToggleClearsEverything : Obligations.PowerToggleClearsEverything := by
  intro s p f hq hf hm hv hp
  have hfNom : (s.powerSet p).fNom = some f := hf
  have hready : (s.powerSet p).reinitReady = true := reinitReady_of (by simp [hfNom]) (Option.some_ne_none p) hm hv
  have hpend : (s.powerSet p).pending = true := pending_iff.mpr (.inr (.inr (.inr (.inl hp.symm))))
  refine ⟨(afterReinit Config.current (s.powerSet p)).respond .ok [1], ?_, fun b => ?_,
    afterReinit_delaysAre Config.current (s.powerSet p), rfl, rfl, rfl, rfl, rfl, afterReinit_outRate hfNom rfl⟩
  · simp only [execAll, exec_setPower, exec_mainPoll_pending (s := s.powerSet p) hq hready hpend]
  · exact congrArg RingBuffer.cnt (afterReinit_buf Config.current (s.powerSet p) b)

end Sys2Proof.Machine
end

section
/-! Reset and boot (10_state.md R57, 70_reset_and_hazards.md R331, R335, R336): what the reset state guarantees, that it meets the
invariants, and the run of the boot order from it. -/

namespace Sys2Proof.Machine

/-! ## Buffers, slots and delay arrays at reset (R57, R331) -/

@[simp] theorem resetOf_buf (c : Config) (b : BufId) : (State.resetOf c).buf b = .atReset := by cases b <;> rfl

theorem atReset_inv : RingBuffer.atReset.Inv := ⟨rfl, rfl, fun _ => ⟨rfl, rfl, rfl⟩, nofun⟩

/-- What R57 says of a slot at reset. -/
theorem blank_of_zeroed {sl : Slot} (h : sl = .zeroed) : sl.count = 0 ∧ ∀ k, sl.payload.getZero k = 0 := by
  subst h
  exact ⟨rfl, Mem.getZero_empty⟩

theorem resetOf_slot_zeroed {c : Config} {sl : Slot} (h : sl ∈ (State.resetOf c).slots) : sl = .zeroed := List.eq_of_mem_replicate h

theorem delaysOf_allAre (n : Numerics) (chain : List Stage) : Delays.AllAre n.zero (delaysOf n chain) := by
  intro a ha v hv
  obtain ⟨st, -, rfl⟩ := List.mem_map.mp ha
  exact List.eq_of_mem_replicate hv

theorem chanDelaysOf_get (n : Numerics) (chain : List Stage) (ch : Chan) : (chanDelaysOf n chain).get ch = delaysOf n chain := by
  cases ch <;> rfl

theorem resetOf_get_d1 (c : Config) (r : Ratio1) : (State.resetOf c).d1.get r = chanDelaysOf c.num (c.chain1 r) := by cases r <;> rfl

theorem resetOf_get_d2 (c : Config) (r : Ratio2) : (State.resetOf c).d2.get r = chanDelaysOf c.num (c.chain2 r) := by cases r <;> rfl

theorem resetOf_delaysAre (c : Config) : (State.resetOf c).DelaysAre c.num.zero := by
  simp only [State.DelaysAre, resetOf_get_d1, resetOf_get_d2, chanDelaysOf_get]
  exact ⟨fun _ _ => delaysOf_allAre _ _, fun _ _ => delaysOf_allAre _ _⟩

/-- Settles O48: buffers, slots and delay arrays by their lemmas, every register by the record of R57. -/
theorem resetValues : Obligations.ResetValues := by
  refine ⟨fun b => ?_, rfl, rfl, rfl, rfl, rfl, rfl, rfl, rfl, rfl, rfl, rfl, rfl, rfl, rfl, rfl, rfl, rfl, rfl, rfl, rfl,
    fun sl hsl => blank_of_zeroed (resetOf_slot_zeroed hsl), rfl, rfl, rfl, rfl, rfl, rfl, rfl, rfl, rfl,
    resetOf_delaysAre Config.current, rfl, rfl, rfl, rfl, rfl, rfl, rfl⟩
  rw [State.reset, resetOf_buf]
  exact ⟨rfl, rfl, rfl, rfl, Mem.get_empty⟩

/-! ## The invariants at reset -/

theorem resetOf_buffersInv (c : Config) : (State.resetOf c).BuffersInv :=
  ⟨atReset_inv, atReset_inv, atReset_inv, atReset_inv, trivial, fun h => absurd rfl h, fun h => absurd rfl h, fun h => absurd rfl h⟩

theorem resetOf_queueInv (c : Config) : (State.resetOf c).QueueInv c :=
  ⟨List.length_replicate, c.txqDepth_pos, c.txqDepth_pos, Nat.zero_le _, (Nat.zero_mod _).symm,
    fun _ hsl => resetOf_slot_zeroed hsl ▸ Slot.ok_zeroed c, trivial⟩

theorem resetOf_sequencingInv (c : Config) : (State.resetOf c).SequencingInv :=
  ⟨rfl, rfl, rfl, Nat.zero_lt_succ _, fun h => absurd rfl h, fun _ => rfl, fun _ => rfl, fun _ => ⟨rfl, rfl⟩⟩

/-- The gain is the 1 of `F` at reset, whatever `F` makes of the literal (R57, log entry 7). -/
theorem resetOf_controlInv {c : Config} (h : volLegal c 0) : (State.resetOf c).ControlInv c :=
  ⟨.inr (.inl rfl), nofun, h, .inr (.inl rfl), rfl, rfl, rfl⟩

theorem resetOf_delayInv (c : Config) : (State.resetOf c).DelayInv c := by
  simp only [State.DelayInv, resetOf_get_d1, resetOf_get_d2]
  exact ⟨fun _ => ⟨delaysOf_fits _ _, delaysOf_fits _ _⟩, fun _ => ⟨delaysOf_fits _ _, delaysOf_fits _ _⟩⟩

/-- Settles O56: each invariant holds at reset under every configuration whose legal volume codes include 0. -/
theorem resetMeetsInvariants : Obligations.ResetMeetsInvariants :=
  ⟨resetOf_buffersInv _, resetOf_queueInv _, resetOf_sequencingInv _, resetOf_controlInv (volLegal_current.mpr (by decide)),
    resetOf_delayInv _⟩

/-! ## States of the boot order (R335) -/

/-- What the boot order has written before its `MAIN.POLL`: the buffers, the requested registers and the number of responses. -/
structure BootRegs where
  rb : Buffers
  fNom : Option Rate := none
  depth : Option Depth := none
  volReq : Option (BitVec 16) := none
  mute : Option Bool := none
  pmSignal : Option Bool := none
  answers : Nat

/-- The state of the machine then, with the command stream `ws` still to be executed; all else is as at reset. -/
def BootRegs.state (r : BootRegs) (ws : List Word) : State :=
  { State.reset with
    rb := r.rb, fNom := r.fNom, depth := r.depth, volReq := r.volReq, mute := r.mute, pmSignal := r.pmSignal
    responses := List.replicate r.answers ⟨.ok, []⟩, stream := ws }

/-- One command more has answered `OK`. -/
def BootRegs.answered (r : BootRegs) : BootRegs := { r with answers := r.answers + 1 }

theorem state_respond (r : BootRegs) (ws : List Word) : (r.state ws).respond .ok [] = r.answered.state ws := by
  simp only [BootRegs.state, BootRegs.answered, State.respond, List.replicate_succ']

/-- The command at the front of the stream is one step of the run (R100). -/
theorem run_command {i : Instr} {is : List Instr} {s t : State} (hsched : s.schedule = []) (hstream : s.stream = assemble (i :: is))
    (hwf : i.wf = true) (h : exec i { s with stream := assemble is } = .next t) (k : Nat) :
    Sys2Proof.core.run (k + 1) s = Sys2Proof.core.run k t := by
  have hdecode : decode s.stream = .ok (i, assemble is) := by
    rw [hstream, assemble, List.flatMap_cons]
    exact decodeOfEncode Config.current i _ hwf
  have hstep : Sys2Proof.core.step s = .next t := (stepRunsDecodedInstruction s i _ hsched hdecode).trans h
  simp only [Host.Core.run, hstep]

theorem run_bootCommand {i : Instr} {r r' : BootRegs} (hwf : i.wf = true) (h : ∀ ws, exec i (r.state ws) = .next (r'.state ws))
    (is : List Instr) (k : Nat) :
    Sys2Proof.core.run (k + 1) (r.state (assemble (i :: is))) = Sys2Proof.core.run k (r'.state (assemble is)) :=
  run_command rfl rfl hwf (h (assemble is)) k

/-- Creating a buffer that is not valid yet (R131). -/
theorem exec_rbInit_boot {cap : Nat} (hpos : 0 < cap) (hlt : cap < 2 ^ 32) (b : BufId) (m : Bool) {r : BootRegs}
    (hv : (r.rb.get b).valid = false) (ws : List Word) : exec (.rbInit b m (BitVec.ofNat 32 cap)) (r.state ws) =
      .next (BootRegs.state (BootRegs.answered { r with rb := r.rb.set b (.init m cap) }) ws) := by
  have htoNat : (BitVec.ofNat 32 cap).toNat = cap := by rw [BitVec.toNat_ofNat, Nat.mod_eq_of_lt hlt]
  have hcap : BitVec.ofNat 32 cap ≠ 0 := fun h => hpos.ne' (htoNat.symm.trans (congrArg BitVec.toNat h))
  rw [(rbInitResult b m _ (r.state ws)).2 hv hcap, htoNat]
  exact congrArg _ (state_respond { r with rb := r.rb.set b (.init m cap) } ws)

theorem exec_setRate_boot (f : Rate) (r : BootRegs) (ws : List Word) : exec (.setRate (BitVec.ofNat 32 f.hz)) (r.state ws) =
    .next (BootRegs.state (BootRegs.answered { r with fNom := some f }) ws) :=
  (exec_setRate_legal (rate_word f) _).trans (congrArg _ (state_respond { r with fNom := some f } ws))

theorem exec_setDepth_boot (d : Depth) (r : BootRegs) (ws : List Word) : exec (.setDepth (BitVec.ofNat 6 d.bits)) (r.state ws) =
    .next (BootRegs.state (BootRegs.answered { r with depth := some d }) ws) :=
  (exec_setDepth_legal (depth_field d) _).trans (congrArg _ (state_respond { r with depth := some d } ws))

theorem exec_setVol_boot {v : BitVec 16} (hv : volLegal Config.current v) (r : BootRegs) (ws : List Word) :
    exec (.setVol v) (r.state ws) = .next (BootRegs.state (BootRegs.answered { r with volReq := some v }) ws) :=
  (exec_setVol_legal hv _).trans (congrArg _ (state_respond { r with volReq := some v } ws))

theorem exec_setMute_boot (m : Bool) (r : BootRegs) (ws : List Word) :
    exec (.setMute m) (r.state ws) = .next (BootRegs.state (BootRegs.answered { r with mute := some m }) ws) :=
  (exec_setMute m _).trans (congrArg _ (state_respond { r with mute := some m } ws))

theorem exec_setPower_boot (p : Bool) (r : BootRegs) (ws : List Word) :
    exec (.setPower p) (r.state ws) = .next (BootRegs.state (BootRegs.answered { r with pmSignal := some p }) ws) :=
  (exec_setPower p _).trans (congrArg _ (state_respond { r with pmSignal := some p } ws))

/-! ## The two parts of the boot order (R116) -/

/-- The four buffers as the boot order creates them. -/
def createdBuffers (c : Config) : Buffers :=
  ⟨.init (c.lockMode .ep0) c.capEp, .init (c.lockMode .ep1) c.capEp, .init (c.lockMode .mid0) c.capMid,
    .init (c.lockMode .mid1) c.capMid⟩

/-- What the boot order has written when `START` begins. -/
def BootRegs.created (c : Config) : BootRegs := { rb := createdBuffers c, answers := 4 }

/-- What the boot order has written when its `MAIN.POLL` begins. -/
def BootRegs.requested (c : Config) (f : Rate) (d : Depth) (v : BitVec 16) (p : Bool) : BootRegs :=
  { rb := createdBuffers c, fNom := some f, depth := some d, volReq := some v, mute := some false, pmSignal := some p, answers := 9 }

/-- `BOOT` creates the four buffers. -/
theorem run_boot (is : List Instr) (k : Nat) :
    Sys2Proof.core.run (k + 4) { State.reset with
      stream := assemble (bootProgram (BitVec.ofNat 32 Config.current.capEp) (BitVec.ofNat 32 Config.current.capMid) ++ is) } =
    Sys2Proof.core.run k ((BootRegs.created Config.current).state (assemble is)) :=
  have hep := Config.current.capEp_pos
  have hep32 := Config.current.capEp_u32
  have hmid := Config.current.capMid_pos
  have hmid32 := Config.current.capMid_u32
  calc
    _ = _ := run_bootCommand (r := { rb := State.reset.rb, answers := 0 }) rfl (exec_rbInit_boot hep hep32 .ep0 true rfl) _ (k + 3)
    _ = _ := run_bootCommand rfl (exec_rbInit_boot hep hep32 .ep1 true rfl) _ (k + 2)
    _ = _ := run_bootCommand rfl (exec_rbInit_boot hmid hmid32 .mid0 true rfl) _ (k + 1)
    _ = _ := run_bootCommand rfl (exec_rbInit_boot hmid hmid32 .mid1 true rfl) _ k

/-- The control writes of `START` request the registers one after another. -/
theorem run_start (f : Rate) (d : Depth) {v : BitVec 16} (hv : volLegal Config.current v) (p : Bool) (k : Nat) :
    Sys2Proof.core.run (k + 5) ((BootRegs.created Config.current).state
      (assemble (startProgram (BitVec.ofNat 32 f.hz) (BitVec.ofNat 6 d.bits) v p))) =
    Sys2Proof.core.run k ((BootRegs.requested Config.current f d v p).state (assemble [.mainPoll])) :=
  calc
    _ = _ := run_bootCommand rfl (exec_setRate_boot f _) _ (k + 4)
    _ = _ := run_bootCommand rfl (exec_setDepth_boot d _) _ (k + 3)
    _ = _ := run_bootCommand rfl (exec_setVol_boot hv _) _ (k + 2)
    _ = _ := run_bootCommand rfl (exec_setMute_boot false _) _ (k + 1)
    _ = _ := run_bootCommand rfl (exec_setPower_boot p _) _ k

/-! ## The state after boot (R336) -/

/-- The state a `REINIT` from the requested registers leaves, and the response of the `MAIN.POLL` that ran it. -/
def bootedState (f : Rate) (d : Depth) (v : BitVec 16) (p : Bool) : State :=
  (afterReinit Config.current ((BootRegs.requested Config.current f d v p).state [])).respond .ok [1]

/-- With no rate latched a REINIT is pending, which the `MAIN.POLL` runs (R272). -/
theorem exec_mainPoll_boot (f : Rate) (d : Depth) (v : BitVec 16) (p : Bool) :
    exec .mainPoll ((BootRegs.requested Config.current f d v p).state []) = .next (bootedState f d v p) := by
  have hquiet : ((BootRegs.requested Config.current f d v p).state []).Quiet :=
    ⟨rfl, rfl, rfl, rfl, rfl, ⟨rfl, rfl, rfl, rfl, rfl, rfl, rfl, rfl⟩, rfl, rfl, rfl⟩
  exact exec_mainPoll_pending hquiet rfl (pending_iff.mpr (.inl rfl))

theorem run_bootOrder (f : Rate) (d : Depth) {v : BitVec 16} (hv : volLegal Config.current v) (p : Bool) :
    Sys2Proof.core.run 10 { State.reset with stream := assemble (bootOrder Config.current f d v p) } = .next (bootedState f d v p) :=
  calc
    _ = _ := run_boot (startProgram (BitVec.ofNat 32 f.hz) (BitVec.ofNat 6 d.bits) v p) 6
    _ = _ := run_start f d hv p 1
    _ = _ := run_command rfl rfl rfl (exec_mainPoll_boot f d v p) 0

theorem bootedState_buf (f : Rate) (d : Depth) (v : BitVec 16) (p : Bool) (b : BufId) :
    (bootedState f d v p).buf b = ((createdBuffers Config.current).get b).cleared := afterReinit_buf Config.current _ b

/-- Each buffer is as `RB.INIT` leaves one, in its own locking mode (R131). -/
theorem createdBuffers_get (c : Config) (b : BufId) : ∃ cap, (createdBuffers c).get b = .init (c.lockMode b) cap := by
  cases b <;> exact ⟨_, rfl⟩

theorem bootedState_outRate (f : Rate) (d : Depth) (v : BitVec 16) (p : Bool) : (bootedState f d v p).outRate =
    some (f.hz * (Config.current.r1Of f).toNat * (Config.current.r2Of p).toNat) :=
  afterReinit_outRate (s := (BootRegs.requested Config.current f d v p).state []) rfl rfl

theorem bootedState_slot_zeroed {f : Rate} {d : Depth} {v : BitVec 16} {p : Bool} {sl : Slot}
    (h : sl ∈ (bootedState f d v p).slots) : sl = .zeroed := by
  obtain ⟨_, -, rfl⟩ := List.mem_map.mp h
  rfl

/-- Settles O49: the run ends in `bootedState`, whose fields are those a `REINIT` leaves (R337). -/
theorem bootLeavesListedState : Obligations.BootLeavesListedState := by
  refine ⟨rfl, fun f d v p => rfl, fun f d v p hlo hhi => ⟨bootedState f d v p, run_bootOrder f d (volLegal_current.mpr ⟨hlo, hhi⟩) p,
    rfl, rfl, fun b => ?_, rfl, rfl, rfl, rfl, rfl, rfl, rfl, rfl, rfl, rfl, rfl, rfl, rfl, rfl, rfl, rfl, rfl,
    bootedState_outRate f d v p, rfl, rfl, rfl, rfl, rfl, fun sl hsl => blank_of_zeroed (bootedState_slot_zeroed hsl), rfl, rfl,
    rfl, rfl, rfl, rfl, rfl, rfl, rfl, rfl, rfl, afterReinit_delaysAre Config.current _, rfl⟩⟩
  obtain ⟨cap, hcreated⟩ := createdBuffers_get Config.current b
  rw [bootedState_buf, hcreated]
  exact ⟨rfl, rfl, rfl, rfl, rfl, Mem.get_empty⟩

end Sys2Proof.Machine
end
